-- ==== Sys2Proof/Word.lean ====
section
/-! DEFINITION. The word and byte types of the register spaces (00_scope.md R7, 20_memory.md R70). -/

namespace Sys2Proof

/-- A register, or one operand word of a command: 32 bits, bit 0 least significant (R7). -/
abbrev Word := BitVec 32

/-- One cell of the D-PHY test registers, space T (R57). -/
abbrev Byte := BitVec 8

end Sys2Proof
end

