-- ==== Sys2Proof/Config.lean ====
section
/-! DEFINITION. The names of the registers, the configuration record `CFG` of 00_scope.md R6 (a plain record, so that a
state can hold it: notes/assumptions/1.md), and the open values that have no default: constants without a body, of which
nothing can be proved. The values the source prints and the spec's defaults are in Machine/Params.lean. -/

namespace Sys2Proof

/-! ## Names of the registers -/

/-- The registers of one pixel channel's block (R45 to R50). -/
inductive IpiReg where
  | mode | vcid | dataType | memFlush | hsaTime | hbpTime | hsdTime | advFeatures
  deriving DecidableEq, Repr

/-- The registers of space P (R30), and of space X, which has P's layout (R29, D36). -/
inductive PReg where
  | version | nLanes | csi2Resetn | intStMain
  | dataIds (k : Nat)
  | phyCfg | phyMode | dphyRstz | phyShutdownz | phyShut | phyStopstate
  | tpgConfig | tpgPkt2pkt | tpgEnable | idiBypass | ipiSoftrstn
  | ipi (ch : Nat) (r : IpiReg)
  | intSt (c : Nat) | intMsk (c : Nat) | intForce (c : Nat)
  deriving DecidableEq, Repr

/-- A register of one of the three memory-mapped spaces: P and X by name, W by word number (R70). -/
inductive Loc where
  | p (r : PReg) | x (r : PReg) | w (word : Nat)
  deriving DecidableEq, Repr

/-- `dphy_state` (R25). -/
inductive DphyState where
  | reset | powerSequence | waitStopState | ready | errorTimeout
  deriving DecidableEq, Repr, Inhabited

/-- `ch_state[ch]` (R24). -/
inductive ChState where
  | disabled | configured | enabled
  deriving DecidableEq, Repr, Inhabited

/-- The pixel formats of R26, in the order of R94. -/
inductive Format where
  | raw8 | raw10 | raw12 | yuyv | nv12 | rgb888
  deriving DecidableEq, Repr

/-! ## Open values without a default -/

/-- One element of `MERGE_SEQ`: `(sel, code, data)`, `other` being `sel = other` (R148). -/
structure TestWrite where
  other : Bool
  code : Nat
  data : Byte
  deriving DecidableEq, Repr

/-- `RESET_VAL(r)` of draw `n`: the arbitrary value register `r` holds after the `n`th loss or return of the clocks
(R61, R63; notes/assumptions/2.md). -/
opaque Config.resetVal : Nat → Loc → Word
/-- `RESET_VAL` of a byte of space T: the arbitrary byte that address (`testAddress`) of T holds after the `n`th loss or
return of the clocks (R57, R63; notes/assumptions/2.md, notes/assumptions/15.md). -/
opaque Config.resetByte : Nat → Nat → Byte
/-- `HSFREQ_CODE[i]` (R126, D14). -/
opaque Config.hsfreqCode : Nat → BitVec 7
/-- `VERSION_VAL` (R31). -/
opaque Config.versionVal : Word
/-- `CYC(fmt, width)` of the five formats for which R172 says OPEN. -/
opaque Config.cycOpen : Format → Nat → Nat
/-- `PKT2PKT(rate, pixclk, fsync)` (R182). -/
opaque Config.pkt2pkt : Nat → Nat → Nat → Nat
/-- `MERGE_SEQ` (R148). -/
opaque Config.mergeSeq : List TestWrite
/-- The choices R202 leaves free when IPI_SET_VC_CFG fails its mode check (notes/assumptions/17.md), and the mode that a
`vc_mode` word outside the enum stands for in that operation (notes/assumptions/36.md). -/
opaque Config.freeBit : Nat → Bool
/-- `dphy_state` while the clocks are off (R61; notes/assumptions/12.md). -/
opaque Config.lostDphy : Nat → DphyState
/-- `ch_state[ch]` while the clocks are off (R61; notes/assumptions/12.md). -/
opaque Config.lostCh : Nat → Nat → ChState
/-- The base addresses the platform supplies (R333; notes/assumptions/3.md). -/
opaque Config.baseP : Nat
opaque Config.baseX : Nat
opaque Config.baseW : Nat

/-! ## The record -/

/-- A field's place in its register: shift and width (R8). -/
structure FieldPos where
  lo : Nat
  width : Nat
  deriving DecidableEq, Repr, Inhabited

/-- A wrapper field's place: the word of space W, shift and width (R53). -/
structure FieldAt where
  word : Nat
  lo : Nat
  width : Nat
  deriving DecidableEq, Repr, Inhabited

/-- `IPI_OFF(group, REG)` of one group of channel blocks (R44). -/
structure IpiOffsets where
  mode : Nat
  vcid : Nat
  dataType : Nat
  memFlush : Nat
  hsaTime : Nat
  hbpTime : Nat
  hsdTime : Nat
  advFeatures : Nat
  deriving DecidableEq, Repr

/-- `MAP`: the offset of every register of P (and X) and the place of every field (R6, D1). A missing entry of a list
is a field of width 0. `wWords` is the size of space W, which the spec does not give: DESIGN CHOICE, unsafe
(notes/assumptions/37.md). -/
structure RegMap where
  version : Nat
  nLanes : Nat
  csi2Resetn : Nat
  intStMain : Nat
  dataIds : List Nat
  phyCfg : Nat
  phyMode : Nat
  phyShutdownz : Nat
  dphyRstz : Nat
  phyShut : Nat
  phyStopstate : Nat
  idiBypass : Nat
  tpgEnable : Nat
  tpgConfig : Nat
  tpgPkt2pkt : Nat
  ipiSoftrstn : Nat
  b1 : Nat
  b2 : Nat
  s2 : Nat
  b5 : Nat
  s5 : Nat
  off1 : IpiOffsets
  off2 : IpiOffsets
  off3 : IpiOffsets
  fNLanes : FieldPos
  fResetn : FieldPos
  fRstz : FieldPos
  fShutdownz : FieldPos
  fPhyshut : FieldPos
  fBypassEn : FieldPos
  fTpgEn : FieldPos
  fTpgHorizontal : FieldPos
  fTpgVc : FieldPos
  fTpgDt : FieldPos
  fPkt2pkt : FieldPos
  fSoftrstn : List FieldPos
  fCtrlMode : FieldPos
  fColor16 : FieldPos
  fCutThrough : FieldPos
  fEnable : FieldPos
  fVcid : FieldPos
  fDt : FieldPos
  fEmbEn : FieldPos
  fManualFlush : FieldPos
  fAutoFlush : FieldPos
  fHsa : FieldPos
  fHbp : FieldPos
  fHsd : FieldPos
  wWords : Nat
  wEnableclk : List FieldAt
  wForcerxmode : List FieldAt
  wHsfreqrange : List FieldAt
  wCtrlSel : List FieldAt
  wTestcode : List FieldAt
  wSelOther : List FieldAt
  wPpipgClkEn : FieldAt
  deriving DecidableEq, Repr

/-- One entry of the category table (R27). `names` lists the named bits. -/
structure CatEntry where
  id : Nat
  mainbit : Word
  st : Nat
  msk : Nat
  force : Nat
  ebits : Word
  names : List (Nat × String)
  deriving DecidableEq, Repr, Inhabited

/-- A value for each pixel format. -/
structure FormatTable (α : Type) where
  raw8 : α
  raw10 : α
  raw12 : α
  yuyv : α
  nv12 : α
  rgb888 : α
  deriving DecidableEq, Repr

/-- `CFG` (R6): what a model takes as configuration, in so far as it is plain data. `lanesEnc`, `frxOwn` and `frxMate`
list the values for 1 to 4 lanes. -/
structure Cfg where
  numInst : Nat
  hsdDefault : Nat
  calMin : Nat
  bpp : FormatTable Nat
  dt : FormatTable (BitVec 6)
  lanesEnc : List Nat
  frxOwn : List Nat
  frxMate : List Nat
  map : RegMap
  cat : List CatEntry
  ipiFatalCat : List Nat
  ipiOvfBit : Nat
  stReadClears : Bool
  manualFlushSelfClears : Bool
  cutThrough : Bool
  advFeatures : Word
  mergeSeq : List TestWrite
  versionVal : Word
  deriving DecidableEq, Repr

end Sys2Proof
end

