-- ==== Sys2Proof/Machine/Params.lean ====
section
/-! DEFINITION. The constants the source prints (00_scope.md R6) and the spec's default configuration
(92_eei_decisions.md section 3), which State.reset holds. -/

namespace Sys2Proof

/-! ## Constants the source prints (R6, basis "source") -/

/-- `NUM_PHY`. -/
def Config.numPhy : Nat := 4
/-- `NUM_CAT`. -/
def Config.numCat : Nat := 14
/-- `MAX_PIX_CH`. -/
def Config.maxPixCh : Nat := 8
/-- `POLL_MAX` (R152). -/
def Config.pollMax : Nat := 3000
/-- `POLL_PERIOD` in ms (R152). -/
def Config.pollPeriod : Nat := 1
/-- `HSFREQ_THR[0..11]`, Mbps, descending (R126). -/
def Config.hsfreqThr : List Nat := [2500, 2000, 1500, 1000, 800, 600, 500, 400, 300, 205, 190, 160]
/-- `HSA_MIN`, `HSA_MAX`, and the two other pairs. -/
def Config.hsaMin : Nat := 1
def Config.hsaMax : Nat := 0xfff
def Config.hbpMin : Nat := 1
def Config.hbpMax : Nat := 0xfff
def Config.hsdMin : Nat := 4
def Config.hsdMax : Nat := 0xfff
/-- `HSA_DEFAULT`, `HBP_DEFAULT`. -/
def Config.hsaDefault : Nat := 4
def Config.hbpDefault : Nat := 4
/-- `FSYNC_TYPE` (R182). -/
def Config.fsyncType : Nat := 2

/-! ## The defaults of 92_eei_decisions.md section 3 -/

/-- Section 3.1 and 3.2: the spec's own default `MAP`. DESIGN CHOICE, unsafe: the spec gives window W no size (R70); here it
is the `wWords` = 9 consecutive words up to the last one a field lies in, so that words 2, 3, 6 and 7, which hold no field,
exist and the mate may write them (notes/assumptions/37.md). -/
def Config.defaultMap : RegMap where
  version := 0x000
  nLanes := 0x004
  csi2Resetn := 0x008
  intStMain := 0x00c
  dataIds := [0x010, 0x014]
  phyCfg := 0x018
  phyMode := 0x01c
  phyShutdownz := 0x040
  dphyRstz := 0x044
  phyShut := 0x048
  phyStopstate := 0x04c
  idiBypass := 0x060
  tpgEnable := 0x064
  tpgConfig := 0x068
  tpgPkt2pkt := 0x06c
  ipiSoftrstn := 0x0a0
  b1 := 0x080
  b2 := 0x200
  s2 := 0x20
  b5 := 0x300
  s5 := 0x20
  off1 := ⟨0x00, 0x04, 0x08, 0x0c, 0x10, 0x14, 0x18, 0x2c⟩
  off2 := ⟨0x00, 0x04, 0x08, 0x0c, 0x10, 0x14, 0x18, 0x1c⟩
  off3 := ⟨0x00, 0x04, 0x08, 0x0c, 0x10, 0x14, 0x18, 0x1c⟩
  fNLanes := ⟨0, 3⟩
  fResetn := ⟨0, 1⟩
  fRstz := ⟨0, 1⟩
  fShutdownz := ⟨0, 1⟩
  fPhyshut := ⟨0, 1⟩
  fBypassEn := ⟨0, 1⟩
  fTpgEn := ⟨0, 1⟩
  fTpgHorizontal := ⟨0, 1⟩
  fTpgVc := ⟨4, 5⟩
  fTpgDt := ⟨16, 6⟩
  fPkt2pkt := ⟨0, 16⟩
  fSoftrstn := [⟨0, 1⟩, ⟨4, 1⟩, ⟨8, 1⟩, ⟨12, 1⟩, ⟨16, 1⟩, ⟨20, 1⟩, ⟨24, 1⟩, ⟨28, 1⟩]
  fCtrlMode := ⟨0, 1⟩
  fColor16 := ⟨8, 1⟩
  fCutThrough := ⟨16, 1⟩
  fEnable := ⟨24, 1⟩
  fVcid := ⟨0, 5⟩
  fDt := ⟨0, 6⟩
  fEmbEn := ⟨8, 1⟩
  fManualFlush := ⟨0, 1⟩
  fAutoFlush := ⟨8, 1⟩
  fHsa := ⟨0, 12⟩
  fHbp := ⟨0, 12⟩
  fHsd := ⟨0, 12⟩
  wWords := 9
  wEnableclk := [⟨0, 0, 1⟩, ⟨0, 16, 1⟩, ⟨4, 0, 1⟩, ⟨4, 16, 1⟩]
  wForcerxmode := [⟨0, 1, 2⟩, ⟨0, 17, 2⟩, ⟨4, 1, 2⟩, ⟨4, 17, 2⟩]
  wHsfreqrange := [⟨0, 3, 7⟩, ⟨0, 19, 7⟩, ⟨4, 3, 7⟩, ⟨4, 19, 7⟩]
  wCtrlSel := [⟨0, 31, 1⟩, ⟨4, 31, 1⟩]
  wTestcode := [⟨1, 0, 12⟩, ⟨1, 16, 12⟩, ⟨5, 0, 12⟩, ⟨5, 16, 12⟩]
  wSelOther := [⟨1, 12, 1⟩, ⟨1, 28, 1⟩, ⟨5, 12, 1⟩, ⟨5, 28, 1⟩]
  wPpipgClkEn := ⟨8, 0, 1⟩

/-- One row of section 3.3: bit `b` is named `<name>_bit<b>` when inside `ebits`. -/
def Config.catRow (name : String) (c bit off : Nat) (ebits : Word) : CatEntry where
  id := c
  mainbit := BitVec.ofNat 32 (2 ^ bit)
  st := off
  msk := off + 4
  force := off + 8
  ebits := ebits
  names := ((List.range 32).filter fun b => ebits.getLsbD b).map fun b => (b, name ++ "_bit" ++ toString b)

/-- Section 3.3: the default `CAT`. -/
def Config.defaultCat : List CatEntry :=
  [ Config.catRow "PHY_FATAL" 0 0 0x0e0 0x0000000f,
    Config.catRow "PKT_FATAL" 1 1 0x0f0 0x00000003,
    Config.catRow "BNDRY_FRAME_FATAL" 2 2 0x280 0x0000ffff,
    Config.catRow "SEQ_FRAME_FATAL" 3 3 0x290 0x0000ffff,
    Config.catRow "CRC_FRAME_FATAL" 4 4 0x2a0 0x0000ffff,
    Config.catRow "PLD_CRC_FATAL" 5 5 0x2b0 0x0000ffff,
    Config.catRow "DATA_ID" 6 6 0x2c0 0x0000ffff,
    Config.catRow "ECC_CORRECTED" 7 7 0x2d0 0x0000ffff,
    Config.catRow "PHY" 8 16 0x110 0x000f000f,
    Config.catRow "LINE" 9 17 0x130 0x00ff00ff,
    Config.catRow "IPI_FATAL" 10 18 0x140 0x0000003f,
    Config.catRow "IPI2_FATAL" 11 19 0x150 0x0000003f,
    Config.catRow "IPI3_FATAL" 12 20 0x160 0x0000003f,
    Config.catRow "IPI4_FATAL" 13 21 0x170 0x0000003f ]

/-- The defaults of R6 and 92_eei_decisions.md; MERGE_SEQ and VERSION_VAL have none and stay open. -/
def Config.default : Cfg where
  numInst := 5
  hsdDefault := 4
  calMin := 4
  bpp := ⟨8, 10, 12, 16, 12, 24⟩
  dt := ⟨0x2a, 0x2b, 0x2c, 0x1e, 0x18, 0x24⟩
  lanesEnc := [0, 1, 2, 3]
  frxOwn := [3, 3, 3, 3]
  frxMate := [3, 3, 3, 3]
  map := Config.defaultMap
  cat := Config.defaultCat
  ipiFatalCat := [10, 11, 12, 13]
  ipiOvfBit := 1
  stReadClears := true
  manualFlushSelfClears := false
  cutThrough := false
  advFeatures := 0
  mergeSeq := Config.mergeSeq
  versionVal := Config.versionVal

end Sys2Proof
end

