-- ==== Sys2Proof/Syntax.lean ====
section
/-! DEFINITION. The instructions: one constructor for each of the 44 rows of spec/opcode_table.json, the eight commands of
format MSG (30_encoding.md R92, R93) and the 36 operations of format OP (R95). An operand the spec calls a number, an
index or a count is a natural number; one it calls a u32 that is stored as bits is a Word. -/

namespace Sys2Proof

/-- The values of the enum `vc_mode` (R94, R201). -/
inductive VcMode where
  | camera | ctrl
  deriving DecidableEq, Repr

inductive Instr where
  -- format MSG: word 0 is the id, word 1 is `inst`
  | cmdSetVcCfg (inst vcId : Nat) (embEn : Bool) (vcMode : Nat)
  | cmdSetLanes (inst lanes : Nat)
  | cmdSetLaneRate (inst rate : Nat)
  | cmdSetTpgMode (inst : Nat) (enable : Bool) (pkt2pkt : Nat)
  | cmdSetBypass (inst : Nat) (bypass : Bool)
  | cmdSetFormat (inst width height format : Nat)
  | cmdSetState (inst : Nat) (start : Bool)
  | cmdResetControl (inst : Nat)
  -- register access
  | regRead (offset : Nat)
  | regWrite (offset : Nat) (value : Word)
  | regReadExt (offset : Nat)
  | regWriteExt (offset : Nat) (value : Word)
  -- PHY wrapper
  | wrapEnableClock (id : Nat)
  | wrapForceRxMode (id lanes : Nat) (force : Bool)
  | wrapGetLaneMode (id : Nat)
  | wrapSetLaneMode (id : Nat) (merged : Bool)
  | wrapSetHsfreqrange (id rate : Nat)
  | wrapEnablePpipgClk (enable : Bool)
  | wrapSetTestcode (id code : Nat)
  | wrapTestcodeSelOtherPhy (id : Nat) (select : Bool)
  -- D-PHY power sequencer
  | dphyReset
  | dphyPowerup
  | dphyPowerupStd (id lanes rate : Nat)
  | dphyPowerupMerged (id lanes rate : Nat)
  | dphyTestWrite (id : Nat) (other : Bool) (code data : Nat)
  | dphyWaitStopstate (n : Nat)
  -- timing calculator
  | timClassify (fmt : Nat)
  | timHsdLegacy (fmt width hsa hbp : Nat)
  | timCutThrough
  | timPkt2pkt
  -- IPI and protocol configurator
  | ipiSetVcCfg (ch vcId : Nat) (embEn : Bool) (vcMode : Nat)
  | ipiInit (ch width height format : Nat) (cutThrough : Bool) (adv : Word)
  | ipiStart (ch : Nat)
  | ipiStop (ch : Nat)
  | ipiResetAndDown (ch : Nat) (enable : Bool)
  | ipiOverflowReset (ch : Nat)
  | ipiRegDump (ch : Nat) (mask : BitVec 8)
  | ipiRegSet (ch : Nat) (mask : BitVec 8) (v0 v1 v2 v3 v4 v5 v6 v7 : Word)
  -- interrupt and fault dispatcher
  | irqEnable
  | irqDisable
  | irqDisableByMask (bitmask : Nat)
  | irqHandle
  -- power hooks
  | pwrResume
  | pwrSuspend
  deriving DecidableEq, Repr

end Sys2Proof
end

