-- ==== Sys2Proof/WellFormed.lean ====
section
/-! DEFINITION. Which instructions have an encoding: every operand is an unsigned 32-bit number taken whole from its word
(30_encoding.md R94), so a number operand fits 32 bits. An operand out of an operation's own range is no encoding error
(R98): the meanings say what it does. -/

namespace Sys2Proof

/-- A number fits one operand word (R94). -/
def fitsWord (n : Nat) : Bool := decide (n < 2 ^ 32)

/-- The number operands of an instruction, in the order of its operand words. -/
def Instr.numbers : Instr → List Nat
  | .cmdSetVcCfg inst vcId _ vcMode => [inst, vcId, vcMode]
  | .cmdSetLanes inst lanes => [inst, lanes]
  | .cmdSetLaneRate inst rate => [inst, rate]
  | .cmdSetTpgMode inst _ pkt2pkt => [inst, pkt2pkt]
  | .cmdSetBypass inst _ => [inst]
  | .cmdSetFormat inst width height format => [inst, width, height, format]
  | .cmdSetState inst _ => [inst]
  | .cmdResetControl inst => [inst]
  | .regRead offset => [offset]
  | .regWrite offset _ => [offset]
  | .regReadExt offset => [offset]
  | .regWriteExt offset _ => [offset]
  | .wrapEnableClock id => [id]
  | .wrapForceRxMode id lanes _ => [id, lanes]
  | .wrapGetLaneMode id => [id]
  | .wrapSetLaneMode id _ => [id]
  | .wrapSetHsfreqrange id rate => [id, rate]
  | .wrapEnablePpipgClk _ => []
  | .wrapSetTestcode id code => [id, code]
  | .wrapTestcodeSelOtherPhy id _ => [id]
  | .dphyReset => []
  | .dphyPowerup => []
  | .dphyPowerupStd id lanes rate => [id, lanes, rate]
  | .dphyPowerupMerged id lanes rate => [id, lanes, rate]
  | .dphyTestWrite id _ code data => [id, code, data]
  | .dphyWaitStopstate n => [n]
  | .timClassify fmt => [fmt]
  | .timHsdLegacy fmt width hsa hbp => [fmt, width, hsa, hbp]
  | .timCutThrough => []
  | .timPkt2pkt => []
  | .ipiSetVcCfg ch vcId _ vcMode => [ch, vcId, vcMode]
  | .ipiInit ch width height format _ _ => [ch, width, height, format]
  | .ipiStart ch => [ch]
  | .ipiStop ch => [ch]
  | .ipiResetAndDown ch _ => [ch]
  | .ipiOverflowReset ch => [ch]
  | .ipiRegDump ch _ => [ch]
  | .ipiRegSet ch _ _ _ _ _ _ _ _ _ => [ch]
  | .irqEnable => []
  | .irqDisable => []
  | .irqDisableByMask bitmask => [bitmask]
  | .irqHandle => []
  | .pwrResume => []
  | .pwrSuspend => []

/-- An instruction has an encoding when each of its number operands fits its word. -/
def Instr.wellFormed (i : Instr) : Bool := i.numbers.all fitsWord

end Sys2Proof
end

