-- ==== Sys2Proof/Decode.lean ====
section
/-! DEFINITION. The decoder and the encoder (30_encoding.md). A command (format MSG, R91) is a sequence of 32-bit words,
little-endian in bytes: the id, the instance, the payload of R93; words beyond the listed payload are not part of it. The
spec gives format OP a selector and an operand record and no layout for it: here the selector's word and then one word
for each operand in the order of the opcode table (notes/assumptions/5.md). -/

namespace Sys2Proof

/-- The two ways the block is driven: the configuration message interface and the operation interface (R90, R95). -/
inductive Port where
  | msg | op
  deriving DecidableEq, Repr

/-- One command or operation as it is delivered: where, and its bytes, the first at the lowest address (R91). -/
structure Delivery where
  port : Port
  bytes : List Byte
  deriving DecidableEq, Repr

/-- What a delivery decodes to. -/
inductive Decoded where
  /-- an instruction of the opcode table -/
  | instr (i : Instr)
  /-- a MSG id outside 0..7: no row of the table, but R270 and R279 say what it does -/
  | unknownCommand (id : Nat)
  /-- an OP selector that R95 does not list: it names no operation (R97) -/
  | unknownSelector (sel : Nat)
  /-- fewer words than the row's length (R91, R93) -/
  | truncated
  deriving DecidableEq, Repr

/-! ## Words and bytes -/

/-- A word from its four bytes, little-endian (R91). -/
def wordOfBytes (b0 b1 b2 b3 : Byte) : Word := b3 ++ b2 ++ b1 ++ b0

/-- The four bytes of a word, little-endian (R91). -/
def bytesOfWord (w : Word) : List Byte :=
  [w.extractLsb' 0 8, w.extractLsb' 8 8, w.extractLsb' 16 8, w.extractLsb' 24 8]

/-- The words of a delivery; bytes that do not fill a word are no word. -/
def wordsOfBytes : List Byte → List Word
  | b0 :: b1 :: b2 :: b3 :: rest => wordOfBytes b0 b1 b2 b3 :: wordsOfBytes rest
  | _ => []

/-- The bytes of a list of words. -/
def bytesOfWords (ws : List Word) : List Byte := ws.flatMap bytesOfWord

/-- A Bool operand is false when the word is 0 and true otherwise (R94). -/
def wordBool (w : Word) : Bool := w != 0

/-- The word a Bool operand is written as. -/
def boolWord (b : Bool) : Word := if b then 1 else 0

/-! ## Decoding -/

/-- Format MSG: the id selects the command, its length is known from word 0 (R91 to R94). -/
def decodeMsg : List Word → Decoded
  | [] => .truncated
  | w0 :: args =>
    match w0.toNat with
    | 0 => match args with
      | inst :: vcId :: embEn :: vcMode :: _ =>
        .instr (.cmdSetVcCfg inst.toNat vcId.toNat (wordBool embEn) vcMode.toNat)
      | _ => .truncated
    | 1 => match args with
      | inst :: lanes :: _ =>
        .instr (.cmdSetLanes inst.toNat lanes.toNat)
      | _ => .truncated
    | 2 => match args with
      | inst :: rate :: _ =>
        .instr (.cmdSetLaneRate inst.toNat rate.toNat)
      | _ => .truncated
    | 3 => match args with
      | inst :: enable :: pkt2pkt :: _ =>
        .instr (.cmdSetTpgMode inst.toNat (wordBool enable) pkt2pkt.toNat)
      | _ => .truncated
    | 4 => match args with
      | inst :: bypass :: _ =>
        .instr (.cmdSetBypass inst.toNat (wordBool bypass))
      | _ => .truncated
    | 5 => match args with
      | inst :: width :: height :: format :: _ =>
        .instr (.cmdSetFormat inst.toNat width.toNat height.toNat format.toNat)
      | _ => .truncated
    | 6 => match args with
      | inst :: start :: _ =>
        .instr (.cmdSetState inst.toNat (wordBool start))
      | _ => .truncated
    | 7 => match args with
      | inst :: _ =>
        .instr (.cmdResetControl inst.toNat)
      | _ => .truncated
    | id => .unknownCommand id

/-- Format OP: the selector selects the operation (R95, R96). `hsa` and `hbp` of TIM_HSD_LEGACY have defaults (R174), so a
record that ends before them has those values (notes/assumptions/5.md). -/
def decodeOp : List Word → Decoded
  | [] => .truncated
  | w0 :: args =>
    match w0.toNat with
    | 0x10 => match args with
      | offset :: _ =>
        .instr (.regRead offset.toNat)
      | _ => .truncated
    | 0x11 => match args with
      | offset :: value :: _ =>
        .instr (.regWrite offset.toNat value)
      | _ => .truncated
    | 0x12 => match args with
      | offset :: _ =>
        .instr (.regReadExt offset.toNat)
      | _ => .truncated
    | 0x13 => match args with
      | offset :: value :: _ =>
        .instr (.regWriteExt offset.toNat value)
      | _ => .truncated
    | 0x20 => match args with
      | id :: _ =>
        .instr (.wrapEnableClock id.toNat)
      | _ => .truncated
    | 0x21 => match args with
      | id :: lanes :: force :: _ =>
        .instr (.wrapForceRxMode id.toNat lanes.toNat (wordBool force))
      | _ => .truncated
    | 0x22 => match args with
      | id :: _ =>
        .instr (.wrapGetLaneMode id.toNat)
      | _ => .truncated
    | 0x23 => match args with
      | id :: merged :: _ =>
        .instr (.wrapSetLaneMode id.toNat (wordBool merged))
      | _ => .truncated
    | 0x24 => match args with
      | id :: rate :: _ =>
        .instr (.wrapSetHsfreqrange id.toNat rate.toNat)
      | _ => .truncated
    | 0x25 => match args with
      | enable :: _ =>
        .instr (.wrapEnablePpipgClk (wordBool enable))
      | _ => .truncated
    | 0x26 => match args with
      | id :: code :: _ =>
        .instr (.wrapSetTestcode id.toNat code.toNat)
      | _ => .truncated
    | 0x27 => match args with
      | id :: select :: _ =>
        .instr (.wrapTestcodeSelOtherPhy id.toNat (wordBool select))
      | _ => .truncated
    | 0x30 => .instr .dphyReset
    | 0x31 => .instr .dphyPowerup
    | 0x32 => match args with
      | id :: lanes :: rate :: _ =>
        .instr (.dphyPowerupStd id.toNat lanes.toNat rate.toNat)
      | _ => .truncated
    | 0x33 => match args with
      | id :: lanes :: rate :: _ =>
        .instr (.dphyPowerupMerged id.toNat lanes.toNat rate.toNat)
      | _ => .truncated
    | 0x34 => match args with
      | id :: other :: code :: data :: _ =>
        .instr (.dphyTestWrite id.toNat (wordBool other) code.toNat data.toNat)
      | _ => .truncated
    | 0x35 => match args with
      | n :: _ =>
        .instr (.dphyWaitStopstate n.toNat)
      | _ => .truncated
    | 0x40 => match args with
      | fmt :: _ =>
        .instr (.timClassify fmt.toNat)
      | _ => .truncated
    | 0x41 => match args with
      | fmt :: width :: hsa :: hbp :: _ =>
        .instr (.timHsdLegacy fmt.toNat width.toNat hsa.toNat hbp.toNat)
      | [fmt, width, hsa] =>
        .instr (.timHsdLegacy fmt.toNat width.toNat hsa.toNat Config.hbpDefault)
      | [fmt, width] =>
        .instr (.timHsdLegacy fmt.toNat width.toNat Config.hsaDefault Config.hbpDefault)
      | _ => .truncated
    | 0x42 => .instr .timCutThrough
    | 0x43 => .instr .timPkt2pkt
    | 0x50 => match args with
      | ch :: vcId :: embEn :: vcMode :: _ =>
        .instr (.ipiSetVcCfg ch.toNat vcId.toNat (wordBool embEn) vcMode.toNat)
      | _ => .truncated
    | 0x51 => match args with
      | ch :: width :: height :: format :: cutThrough :: adv :: _ =>
        .instr (.ipiInit ch.toNat width.toNat height.toNat format.toNat (wordBool cutThrough) adv)
      | _ => .truncated
    | 0x52 => match args with
      | ch :: _ =>
        .instr (.ipiStart ch.toNat)
      | _ => .truncated
    | 0x53 => match args with
      | ch :: _ =>
        .instr (.ipiStop ch.toNat)
      | _ => .truncated
    | 0x54 => match args with
      | ch :: enable :: _ =>
        .instr (.ipiResetAndDown ch.toNat (wordBool enable))
      | _ => .truncated
    | 0x55 => match args with
      | ch :: _ =>
        .instr (.ipiOverflowReset ch.toNat)
      | _ => .truncated
    | 0x56 => match args with
      | ch :: mask :: _ =>
        .instr (.ipiRegDump ch.toNat (mask.setWidth 8))
      | _ => .truncated
    | 0x57 => match args with
      | ch :: mask :: v0 :: v1 :: v2 :: v3 :: v4 :: v5 :: v6 :: v7 :: _ =>
        .instr (.ipiRegSet ch.toNat (mask.setWidth 8) v0 v1 v2 v3 v4 v5 v6 v7)
      | _ => .truncated
    | 0x60 => .instr .irqEnable
    | 0x61 => .instr .irqDisable
    | 0x62 => match args with
      | bitmask :: _ =>
        .instr (.irqDisableByMask bitmask.toNat)
      | _ => .truncated
    | 0x63 => .instr .irqHandle
    | 0x70 => .instr .pwrResume
    | 0x71 => .instr .pwrSuspend
    | sel => .unknownSelector sel

/-- The decoder: total on any delivery. -/
def decode (d : Delivery) : Decoded :=
  match d.port with
  | .msg => decodeMsg (wordsOfBytes d.bytes)
  | .op => decodeOp (wordsOfBytes d.bytes)

/-! ## Encoding -/

/-- The port an instruction is delivered at: its row's format. -/
def Instr.port : Instr → Port
  | .cmdSetVcCfg .. => .msg
  | .cmdSetLanes .. => .msg
  | .cmdSetLaneRate .. => .msg
  | .cmdSetTpgMode .. => .msg
  | .cmdSetBypass .. => .msg
  | .cmdSetFormat .. => .msg
  | .cmdSetState .. => .msg
  | .cmdResetControl .. => .msg
  | .regRead .. => .op
  | .regWrite .. => .op
  | .regReadExt .. => .op
  | .regWriteExt .. => .op
  | .wrapEnableClock .. => .op
  | .wrapForceRxMode .. => .op
  | .wrapGetLaneMode .. => .op
  | .wrapSetLaneMode .. => .op
  | .wrapSetHsfreqrange .. => .op
  | .wrapEnablePpipgClk .. => .op
  | .wrapSetTestcode .. => .op
  | .wrapTestcodeSelOtherPhy .. => .op
  | .dphyReset => .op
  | .dphyPowerup => .op
  | .dphyPowerupStd .. => .op
  | .dphyPowerupMerged .. => .op
  | .dphyTestWrite .. => .op
  | .dphyWaitStopstate .. => .op
  | .timClassify .. => .op
  | .timHsdLegacy .. => .op
  | .timCutThrough => .op
  | .timPkt2pkt => .op
  | .ipiSetVcCfg .. => .op
  | .ipiInit .. => .op
  | .ipiStart .. => .op
  | .ipiStop .. => .op
  | .ipiResetAndDown .. => .op
  | .ipiOverflowReset .. => .op
  | .ipiRegDump .. => .op
  | .ipiRegSet .. => .op
  | .irqEnable => .op
  | .irqDisable => .op
  | .irqDisableByMask .. => .op
  | .irqHandle => .op
  | .pwrResume => .op
  | .pwrSuspend => .op

/-- The words of an instruction: id, inst and payload (R91, R93), or selector and operands (R95). -/
def Instr.words : Instr → List Word
  | .cmdSetVcCfg inst vcId embEn vcMode => [0, BitVec.ofNat 32 inst, BitVec.ofNat 32 vcId, boolWord embEn, BitVec.ofNat 32 vcMode]
  | .cmdSetLanes inst lanes => [1, BitVec.ofNat 32 inst, BitVec.ofNat 32 lanes]
  | .cmdSetLaneRate inst rate => [2, BitVec.ofNat 32 inst, BitVec.ofNat 32 rate]
  | .cmdSetTpgMode inst enable pkt2pkt => [3, BitVec.ofNat 32 inst, boolWord enable, BitVec.ofNat 32 pkt2pkt]
  | .cmdSetBypass inst bypass => [4, BitVec.ofNat 32 inst, boolWord bypass]
  | .cmdSetFormat inst width height format => [5, BitVec.ofNat 32 inst, BitVec.ofNat 32 width, BitVec.ofNat 32 height, BitVec.ofNat 32 format]
  | .cmdSetState inst start => [6, BitVec.ofNat 32 inst, boolWord start]
  | .cmdResetControl inst => [7, BitVec.ofNat 32 inst]
  | .regRead offset => [0x10, BitVec.ofNat 32 offset]
  | .regWrite offset value => [0x11, BitVec.ofNat 32 offset, value]
  | .regReadExt offset => [0x12, BitVec.ofNat 32 offset]
  | .regWriteExt offset value => [0x13, BitVec.ofNat 32 offset, value]
  | .wrapEnableClock id => [0x20, BitVec.ofNat 32 id]
  | .wrapForceRxMode id lanes force => [0x21, BitVec.ofNat 32 id, BitVec.ofNat 32 lanes, boolWord force]
  | .wrapGetLaneMode id => [0x22, BitVec.ofNat 32 id]
  | .wrapSetLaneMode id merged => [0x23, BitVec.ofNat 32 id, boolWord merged]
  | .wrapSetHsfreqrange id rate => [0x24, BitVec.ofNat 32 id, BitVec.ofNat 32 rate]
  | .wrapEnablePpipgClk enable => [0x25, boolWord enable]
  | .wrapSetTestcode id code => [0x26, BitVec.ofNat 32 id, BitVec.ofNat 32 code]
  | .wrapTestcodeSelOtherPhy id select => [0x27, BitVec.ofNat 32 id, boolWord select]
  | .dphyReset => [0x30]
  | .dphyPowerup => [0x31]
  | .dphyPowerupStd id lanes rate => [0x32, BitVec.ofNat 32 id, BitVec.ofNat 32 lanes, BitVec.ofNat 32 rate]
  | .dphyPowerupMerged id lanes rate => [0x33, BitVec.ofNat 32 id, BitVec.ofNat 32 lanes, BitVec.ofNat 32 rate]
  | .dphyTestWrite id other code data => [0x34, BitVec.ofNat 32 id, boolWord other, BitVec.ofNat 32 code, BitVec.ofNat 32 data]
  | .dphyWaitStopstate n => [0x35, BitVec.ofNat 32 n]
  | .timClassify fmt => [0x40, BitVec.ofNat 32 fmt]
  | .timHsdLegacy fmt width hsa hbp => [0x41, BitVec.ofNat 32 fmt, BitVec.ofNat 32 width, BitVec.ofNat 32 hsa, BitVec.ofNat 32 hbp]
  | .timCutThrough => [0x42]
  | .timPkt2pkt => [0x43]
  | .ipiSetVcCfg ch vcId embEn vcMode => [0x50, BitVec.ofNat 32 ch, BitVec.ofNat 32 vcId, boolWord embEn, BitVec.ofNat 32 vcMode]
  | .ipiInit ch width height format cutThrough adv => [0x51, BitVec.ofNat 32 ch, BitVec.ofNat 32 width, BitVec.ofNat 32 height, BitVec.ofNat 32 format, boolWord cutThrough, adv]
  | .ipiStart ch => [0x52, BitVec.ofNat 32 ch]
  | .ipiStop ch => [0x53, BitVec.ofNat 32 ch]
  | .ipiResetAndDown ch enable => [0x54, BitVec.ofNat 32 ch, boolWord enable]
  | .ipiOverflowReset ch => [0x55, BitVec.ofNat 32 ch]
  | .ipiRegDump ch mask => [0x56, BitVec.ofNat 32 ch, mask.setWidth 32]
  | .ipiRegSet ch mask v0 v1 v2 v3 v4 v5 v6 v7 => [0x57, BitVec.ofNat 32 ch, mask.setWidth 32, v0, v1, v2, v3, v4, v5, v6, v7]
  | .irqEnable => [0x60]
  | .irqDisable => [0x61]
  | .irqDisableByMask bitmask => [0x62, BitVec.ofNat 32 bitmask]
  | .irqHandle => [0x63]
  | .pwrResume => [0x70]
  | .pwrSuspend => [0x71]

/-- The delivery of an instruction; a well-formed one decodes back to itself. -/
def encode (i : Instr) : Delivery := ⟨i.port, bytesOfWords i.words⟩

/-! ## The opcode table's numbering of an instruction's bits -/

/-- The bytes of the longest instruction (IPI_REG_SET: selector, ch, mask, eight values). -/
def maxBytes : Nat := 44

/-- `n` bytes of the number `w`, least significant first. -/
def bytesOfNat : Nat → Nat → List Byte
  | 0, _ => []
  | n + 1, w => BitVec.ofNat 8 w :: bytesOfNat n (w / 256)

/-- The instruction whose first `nbits` bits are `w` (bit 0 the least significant bit of word 0) and whose further bits
are 0, laid out as the interface stores it. The numbers 0..7 are the ids of format MSG, all others selectors of format OP,
as in the opcode map of R96 (notes/assumptions/6.md). -/
def tableDelivery (nbits w : Nat) : Delivery :=
  let v := w % 2 ^ nbits
  ⟨if v % 2 ^ 32 < 8 then .msg else .op, bytesOfNat maxBytes v⟩

/-- The instruction the decoder reads from a word of the opcode table. -/
def decodeTableWord (nbits w : Nat) : Option Instr :=
  match decode (tableDelivery nbits w) with
  | .instr i => some i
  | _ => none

end Sys2Proof
end

