-- ==== Sys2Proof/Machine/State.lean ====
section
/-! DEFINITION. The state of the machine (10_state.md R20), its value after reset (R63, R64, 70_reset_and_hazards.md R331),
and the reasons a step can stop. All of it is plain data. -/

namespace Sys2Proof.Machine

/-! ## Pieces of the state -/

/-- A callback slot (R62). -/
inductive Slot where
  | empty | registered
  deriving DecidableEq, Repr

/-- The attributes of the ControllerInstance (R21), with the bases of the three windows (R70; `none`: not configured). The
two callback slots are `State.onFault` and `State.onDone`. -/
structure Instance where
  id : Nat
  lanes : Option Nat
  laneRate : Option Nat
  pixclk : Nat
  isNative : Bool
  bypass : Bool
  tpgEnabled : Bool
  tpgHorizontal : Bool
  tpgVc : Nat
  tpgDt : Nat
  tpgPkt2pkt : Nat
  baseP : Option Nat
  baseX : Option Nat
  baseW : Option Nat
  deriving DecidableEq, Repr

/-- The registers of one pixel channel's block (R45 to R50). -/
structure IpiBlock where
  mode : Word
  vcid : Word
  dataType : Word
  memFlush : Word
  hsaTime : Word
  hbpTime : Word
  hsdTime : Word
  advFeatures : Word
  deriving DecidableEq, Repr, Inhabited

/-- The stored registers of a bank: space P (R30), or space X, which has its layout (R29). VERSION and INT_ST_MAIN are not
stored (R31, R34); `phyStopstate` is the word the PHY agent presents (R41, R60). -/
structure Bank where
  nLanes : Word
  csi2Resetn : Word
  dataIds : List Word
  phyCfg : Word
  phyMode : Word
  dphyRstz : Word
  phyShutdownz : Word
  phyShut : Word
  phyStopstate : Word
  tpgConfig : Word
  tpgPkt2pkt : Word
  tpgEnable : Word
  idiBypass : Word
  ipiSoftrstn : Word
  ipi : List IpiBlock
  intSt : List Word
  intMsk : List Word
  intForce : List Word
  deriving DecidableEq, Repr

/-- The D-PHY test registers, space T (R57): a canonical list of (address, byte). `T[phy][code]` is at address
`phy * 2^W_TC + code`; a byte that is not listed holds its `Config.resetByte` (R63; notes/assumptions/15.md). -/
abbrev Memory := List Host.Cell

/-- One test-interface write: `(phy, code, data)` (R57). -/
structure TestRecord where
  phy : Nat
  code : Nat
  data : Byte
  deriving DecidableEq, Repr

/-- The three optional clocks and their states (R61). -/
inductive Clk where
  | ipi | pclk | cfg
  deriving DecidableEq, Repr

inductive ClkState where
  | absent | off | on
  deriving DecidableEq, Repr

structure Clocks where
  ipi : ClkState
  pclk : ClkState
  cfg : ClkState
  deriving DecidableEq, Repr

/-- The platform's answers `clk_ok(c)` (46_commands.md R282). -/
structure ClkAnswers where
  ipi : Bool
  pclk : Bool
  cfg : Bool
  deriving DecidableEq, Repr

/-- The events the block has made (R62): `fault_notify(ctrl, st, cat, ovf)`, with the mark "undelivered" when the slot is
empty, and `done_notify(ctrl, main)`. -/
inductive Event where
  | faultNotify (ctrl : Nat) (st : Word) (cat : Nat) (ovf : Bool) (delivered : Bool)
  | doneNotify (ctrl : Nat) (main : Word)
  deriving DecidableEq, Repr

/-- One register access of a register trace (00_scope.md R13). -/
inductive Access where
  | rd (l : Loc) (v : Word)
  | wr (l : Loc) (v : Word)
  deriving DecidableEq, Repr

/-- The execution contexts (60_exceptions.md R315). -/
inductive Context where
  | config | interrupt
  deriving DecidableEq, Repr

/-- The two banks the agents act on: this controller's own and the companion's (R29). -/
inductive BankId where
  | p | x
  deriving DecidableEq, Repr

/-- The moves other agents may make before any register access (60_exceptions.md R317; notes/assumptions/7.md). -/
inductive EnvMove where
  /-- the fault-source agent sets error bits (R59) -/
  | fault (b : BankId) (c : Nat) (bits : Word)
  /-- the fault-source agent removes error bits, which it may only when reads do not clear (U12) -/
  | unfault (b : BankId) (c : Nat) (bits : Word)
  /-- the PHY agent changes what it answers (R60) -/
  | stopstate (b : BankId) (v : Word)
  /-- the platform starts the interrupt handler (R308) -/
  | irq
  /-- the mate writes its own bank, this controller's X (R317) -/
  | mateWriteX (r : PReg) (v : Word)
  /-- the mate reads its own bank, with the side effect of R77 -/
  | mateReadX (r : PReg)
  /-- the mate's merged start-up writes this controller's lines, its own X (R343); other registers: no move -/
  | mateLine (r : PReg) (v : Word)
  /-- the mate writes a wrapper word (R317) -/
  | mateWriteW (word : Nat) (v : Word)
  /-- the mate makes a test-interface write (R151, R343) -/
  | mateTest (phy code : Nat) (data : Byte)
  /-- the caller registers or removes a callback while the bind is not over; later: no move (R21, R62, R286;
  notes/assumptions/34.md) -/
  | onFault (v : Slot)
  | onDone (v : Slot)
  /-- the platform changes its answer to a clock enable (R282) -/
  | clkOk (c : Clk) (ok : Bool)
  /-- software starts a second configuration operation while one is in flight (U22, R314) -/
  | secondOp
  deriving DecidableEq, Repr

/-- The four errors (R300). -/
inductive Err where
  | invalidArgument | busy | timeout | unsupported
  deriving DecidableEq, Repr

/-- HSA, HBP and HSD (R28). -/
structure Timing where
  hsa : Nat
  hbp : Nat
  hsd : Nat
  deriving DecidableEq, Repr

/-- What TIM_CLASSIFY returns (R171). -/
structure FormatClass where
  dt : BitVec 6
  color16 : Bool
  bpp : Nat
  deriving DecidableEq, Repr

/-- The result values `v` of `Ok(v)` (R11); `unit` is `Ok` alone. -/
inductive Value where
  | unit
  | word (w : Word)
  | bool (b : Bool)
  | nat (n : Nat)
  | format (c : FormatClass)
  | timing (t : Timing)
  | dump (out : List (Option Word))
  deriving DecidableEq, Repr

/-- How an operation ended (R11), faults apart. -/
inductive Result where
  | ok (v : Value)
  | err (e : Err)
  deriving DecidableEq, Repr

/-! ## The state -/

structure State where
  /-- `CFG`, with `MAP` and `CAT`: constant (R6, R85; notes/assumptions/1.md) -/
  cfg : Cfg
  /-- instance attributes (R21) -/
  inst : Instance
  /-- the callback slots `on_fault` and `on_done`, written at bind only (R21, R62, R286) -/
  onFault : Slot
  onDone : Slot
  /-- `dphy_state` (R25) -/
  dphy : DphyState
  /-- `ch_state[ch]` (R24) -/
  ch : List ChState
  /-- the primary bank, space P (R30) -/
  p : Bank
  /-- the extended bank, space X (R29) -/
  x : Bank
  /-- the words of the wrapper, space W (R53) -/
  w : List Word
  /-- the PHY test registers, space T (R57) -/
  t : Memory
  /-- all test-interface writes since reset, in order (R57) -/
  testTrace : List TestRecord
  /-- the clocks (R61) -/
  clk : Clocks
  /-- the events made so far, in order (R62) -/
  events : List Event
  /-- how the last operation ended (R11; the model's own field, notes/assumptions/24.md) -/
  result : Option Result
  /-- the register trace, oldest first (R13; the model's own field, notes/assumptions/24.md) -/
  trace : List Access
  /-- the context that runs (R315; notes/assumptions/23.md) -/
  ctx : Context
  /-- a configuration operation is in flight (R316; notes/assumptions/23.md) -/
  opInFlight : Bool
  /-- what has been delivered and not yet started (R90; notes/assumptions/4.md) -/
  inbox : List Delivery
  /-- the other agents' moves, one list of moves before each register access (R317; notes/assumptions/7.md) -/
  env : List (List EnvMove)
  /-- the platform's answers to clock enables (R282; notes/assumptions/11.md) -/
  clkOk : ClkAnswers
  /-- how many draws of unknown register values there have been (R61, R63; notes/assumptions/2.md, 15.md) -/
  draw : Nat
  /-- how many free choices have been made (R202; notes/assumptions/17.md, 36.md) -/
  choice : Nat
  deriving DecidableEq, Repr

/-! ## Named updates -/

def State.setInst (s : State) (v : Instance) : State := { s with inst := v }
def State.setOnFault (s : State) (v : Slot) : State := { s with onFault := v }
def State.setOnDone (s : State) (v : Slot) : State := { s with onDone := v }
def State.setDphy (s : State) (v : DphyState) : State := { s with dphy := v }
def State.setChs (s : State) (v : List ChState) : State := { s with ch := v }
def State.setP (s : State) (v : Bank) : State := { s with p := v }
def State.setX (s : State) (v : Bank) : State := { s with x := v }
def State.setW (s : State) (v : List Word) : State := { s with w := v }
def State.setT (s : State) (v : Memory) : State := { s with t := v }
def State.setTestTrace (s : State) (v : List TestRecord) : State := { s with testTrace := v }
def State.setClk (s : State) (v : Clocks) : State := { s with clk := v }
def State.setEvents (s : State) (v : List Event) : State := { s with events := v }
def State.setResult (s : State) (v : Option Result) : State := { s with result := v }
def State.setTrace (s : State) (v : List Access) : State := { s with trace := v }
def State.setCtx (s : State) (v : Context) : State := { s with ctx := v }
def State.setInFlight (s : State) (v : Bool) : State := { s with opInFlight := v }
def State.setInbox (s : State) (v : List Delivery) : State := { s with inbox := v }
def State.setEnv (s : State) (v : List (List EnvMove)) : State := { s with env := v }
def State.setClkOk (s : State) (v : ClkAnswers) : State := { s with clkOk := v }
def State.setDraw (s : State) (v : Nat) : State := { s with draw := v }
def State.setChoice (s : State) (v : Nat) : State := { s with choice := v }

/-! ## Reasons to stop -/

/-- The model-level faults of R12 and R314. Both are safe: the spec gives the situation no meaning. -/
inductive Fault where
  /-- raised by every operation whose stated precondition is false: the list of 60_exceptions.md R314. Safe. -/
  | preconditionViolated
  /-- raised by REG_READ, REG_WRITE, REG_READ_EXT and REG_WRITE_EXT at an offset MAP does not define or that is not a
  multiple of 4 (R73). Safe. -/
  | unmappedOffset
  deriving DecidableEq, Repr

/-- Why a delivery is not run. All are safe: no instruction of the opcode table is refused. -/
inductive Refusal where
  /-- raised by exec for an instruction that has no meaning yet. Safe. -/
  | notModelled (mnemonic : String)
  /-- raised by step for an OP selector that names no operation (R97). Safe. -/
  | unknownSelector (sel : Nat)
  /-- raised by step for a delivery with fewer words than its row, operands with a default apart (R91, R174). Safe. -/
  | truncatedDelivery
  deriving DecidableEq, Repr

/-! ## Reset -/

/-- A channel block of unknown values: draw `n` of `RESET_VAL` (R63), `loc` naming the bank's registers. -/
def IpiBlock.drawn (n : Nat) (loc : PReg → Loc) (ch : Nat) : IpiBlock where
  mode := Config.resetVal n (loc (.ipi ch .mode))
  vcid := Config.resetVal n (loc (.ipi ch .vcid))
  dataType := Config.resetVal n (loc (.ipi ch .dataType))
  memFlush := Config.resetVal n (loc (.ipi ch .memFlush))
  hsaTime := Config.resetVal n (loc (.ipi ch .hsaTime))
  hbpTime := Config.resetVal n (loc (.ipi ch .hbpTime))
  hsdTime := Config.resetVal n (loc (.ipi ch .hsdTime))
  advFeatures := Config.resetVal n (loc (.ipi ch .advFeatures))

/-- A bank of unknown values: every register holds `RESET_VAL` of draw `n` (R63, R331); INT_ST[c] is not
restricted to `CAT[c].ebits` (93_implementation_defined.md U8; notes/assumptions/16.md). -/
def Bank.drawn (c : Cfg) (n : Nat) (loc : PReg → Loc) : Bank where
  nLanes := Config.resetVal n (loc .nLanes)
  csi2Resetn := Config.resetVal n (loc .csi2Resetn)
  dataIds := (List.range c.map.dataIds.length).map fun k => Config.resetVal n (loc (.dataIds k))
  phyCfg := Config.resetVal n (loc .phyCfg)
  phyMode := Config.resetVal n (loc .phyMode)
  dphyRstz := Config.resetVal n (loc .dphyRstz)
  phyShutdownz := Config.resetVal n (loc .phyShutdownz)
  phyShut := Config.resetVal n (loc .phyShut)
  phyStopstate := Config.resetVal n (loc .phyStopstate)
  tpgConfig := Config.resetVal n (loc .tpgConfig)
  tpgPkt2pkt := Config.resetVal n (loc .tpgPkt2pkt)
  tpgEnable := Config.resetVal n (loc .tpgEnable)
  idiBypass := Config.resetVal n (loc .idiBypass)
  ipiSoftrstn := Config.resetVal n (loc .ipiSoftrstn)
  ipi := (List.range Config.maxPixCh).map (IpiBlock.drawn n loc)
  intSt := (List.range Config.numCat).map fun k => Config.resetVal n (loc (.intSt k))
  intMsk := (List.range Config.numCat).map fun k => Config.resetVal n (loc (.intMsk k))
  intForce := (List.range Config.numCat).map fun k => Config.resetVal n (loc (.intForce k))

/-- The wrapper words of draw `n` (R63). How many there are is MAP's `wWords`: DESIGN CHOICE, unsafe
(notes/assumptions/37.md). -/
def wrapperDrawn (c : Cfg) (n : Nat) : List Word :=
  (List.range c.map.wWords).map fun k => Config.resetVal n (.w k)

/-- The attributes at bind (R64); the platform inputs are the model's choice (notes/assumptions/3.md). -/
def Instance.atBind : Instance where
  id := 0
  lanes := none
  laneRate := none
  pixclk := 100000000
  isNative := false
  bypass := false
  tpgEnabled := false
  tpgHorizontal := false
  tpgVc := 0
  tpgDt := 0
  tpgPkt2pkt := 0
  baseP := some Config.baseP
  baseX := some Config.baseX
  baseW := some Config.baseW

/-- The machine right after reset (R63, R64, R331): attributes at bind, every register of P, X and W and every byte of T at
its unknown value of draw 0 (nothing is listed in `t`), clocks off, nothing delivered, the other agents silent. -/
def State.reset : State where
  cfg := Config.default
  inst := Instance.atBind
  onFault := .empty
  onDone := .empty
  dphy := .reset
  ch := List.replicate Config.maxPixCh .disabled
  p := Bank.drawn Config.default 0 .p
  x := Bank.drawn Config.default 0 .x
  w := wrapperDrawn Config.default 0
  t := []
  testTrace := []
  clk := ⟨.off, .off, .off⟩
  events := []
  result := none
  trace := []
  ctx := .config
  opInFlight := false
  inbox := []
  env := []
  clkOk := ⟨true, true, true⟩
  draw := 0
  choice := 0

end Sys2Proof.Machine
end

