-- ==== Sys2Proof/Machine/Operands.lean ====
section
/-! DEFINITION. How operations name what they act on: register fields and their places (00_scope.md R8), the register map
(10_state.md R44, R73), PHY indices and pairs (R53, 41_wrapper.md R120), the enums of operands (30_encoding.md R94), and
the entries of the configuration tables. -/

namespace Sys2Proof.Machine

/-! ## Tables -/

/-- Entry `i` of a table, `d` where there is none. -/
def tblGet {α : Type} (d : α) (l : List α) (i : Nat) : α := l.getD i d

/-- A table with entry `i` replaced (a table too short is filled up with `d`). -/
def tblPut {α : Type} (d : α) : List α → Nat → α → List α
  | [], 0, v => [v]
  | [], i + 1, v => d :: tblPut d [] i v
  | _ :: l, 0, v => v :: l
  | a :: l, i + 1, v => a :: tblPut d l i v

/-! ## Fields -/

/-- `(1 << w) - 1` at 32 bits (R8). -/
def fieldMask (w : Nat) : Word := BitVec.ofNat 32 (2 ^ w - 1)

/-- `get(v, F)` (R8). -/
def getField (v : Word) (f : FieldPos) : Nat := ((v >>> f.lo) &&& fieldMask f.width).toNat

/-- `set(v, F, x)`; a value wider than the field is truncated (R8). -/
def setField (v : Word) (f : FieldPos) (x : Nat) : Word :=
  (v &&& ~~~(fieldMask f.width <<< f.lo)) ||| ((BitVec.ofNat 32 x &&& fieldMask f.width) <<< f.lo)

/-- A Bool as the value of a 1-bit field. -/
def bit (b : Bool) : Nat := if b then 1 else 0

/-- The fields of the registers of P and X the spec names (R30, R32 to R51). -/
inductive PField where
  | nLanes | resetn | rstz | shutdownz | physhut | bypassEn | tpgEn
  | tpgHorizontal | tpgVc | tpgDt | pkt2pkt
  | softrstn (ch : Nat)
  | ctrlMode (ch : Nat) | color16 (ch : Nat) | cutThrough (ch : Nat) | enable (ch : Nat)
  | vcid (ch : Nat) | dt (ch : Nat) | embEn (ch : Nat) | manualFlush (ch : Nat) | autoFlush (ch : Nat)
  | hsa (ch : Nat) | hbp (ch : Nat) | hsd (ch : Nat)
  deriving DecidableEq, Repr

/-- The fields of the wrapper (R54 to R56): per PHY index, per pair, global. -/
inductive WField where
  | enableclk (id : Nat) | forcerxmode (id : Nat) | hsfreqrange (id : Nat)
  | ctrlSel (pair : Nat)
  | testcode (id : Nat) | selOther (id : Nat)
  | ppipgClkEn
  deriving DecidableEq, Repr

/-- The register a field lies in (the table of R30). -/
def PField.reg : PField → PReg
  | .nLanes => .nLanes
  | .resetn => .csi2Resetn
  | .rstz => .dphyRstz
  | .shutdownz => .phyShutdownz
  | .physhut => .phyShut
  | .bypassEn => .idiBypass
  | .tpgEn => .tpgEnable
  | .tpgHorizontal => .tpgConfig
  | .tpgVc => .tpgConfig
  | .tpgDt => .tpgConfig
  | .pkt2pkt => .tpgPkt2pkt
  | .softrstn _ => .ipiSoftrstn
  | .ctrlMode ch => .ipi ch .mode
  | .color16 ch => .ipi ch .mode
  | .cutThrough ch => .ipi ch .mode
  | .enable ch => .ipi ch .mode
  | .vcid ch => .ipi ch .vcid
  | .dt ch => .ipi ch .dataType
  | .embEn ch => .ipi ch .dataType
  | .manualFlush ch => .ipi ch .memFlush
  | .autoFlush ch => .ipi ch .memFlush
  | .hsa ch => .ipi ch .hsaTime
  | .hbp ch => .ipi ch .hbpTime
  | .hsd ch => .ipi ch .hsdTime

/-- The place MAP gives a field of P or X. -/
def fieldPos (c : Cfg) : PField → FieldPos
  | .nLanes => c.map.fNLanes
  | .resetn => c.map.fResetn
  | .rstz => c.map.fRstz
  | .shutdownz => c.map.fShutdownz
  | .physhut => c.map.fPhyshut
  | .bypassEn => c.map.fBypassEn
  | .tpgEn => c.map.fTpgEn
  | .tpgHorizontal => c.map.fTpgHorizontal
  | .tpgVc => c.map.fTpgVc
  | .tpgDt => c.map.fTpgDt
  | .pkt2pkt => c.map.fPkt2pkt
  | .softrstn ch => tblGet ⟨0, 0⟩ c.map.fSoftrstn ch
  | .ctrlMode _ => c.map.fCtrlMode
  | .color16 _ => c.map.fColor16
  | .cutThrough _ => c.map.fCutThrough
  | .enable _ => c.map.fEnable
  | .vcid _ => c.map.fVcid
  | .dt _ => c.map.fDt
  | .embEn _ => c.map.fEmbEn
  | .manualFlush _ => c.map.fManualFlush
  | .autoFlush _ => c.map.fAutoFlush
  | .hsa _ => c.map.fHsa
  | .hbp _ => c.map.fHbp
  | .hsd _ => c.map.fHsd

/-- The place MAP gives a wrapper field. -/
def wrapperPos (c : Cfg) : WField → FieldAt
  | .enableclk id => tblGet ⟨0, 0, 0⟩ c.map.wEnableclk id
  | .forcerxmode id => tblGet ⟨0, 0, 0⟩ c.map.wForcerxmode id
  | .hsfreqrange id => tblGet ⟨0, 0, 0⟩ c.map.wHsfreqrange id
  | .ctrlSel k => tblGet ⟨0, 0, 0⟩ c.map.wCtrlSel k
  | .testcode id => tblGet ⟨0, 0, 0⟩ c.map.wTestcode id
  | .selOther id => tblGet ⟨0, 0, 0⟩ c.map.wSelOther id
  | .ppipgClkEn => c.map.wPpipgClkEn

/-- A field of any memory-mapped space. -/
inductive Field where
  | p (f : PField) | x (f : PField) | w (f : WField)
  deriving DecidableEq, Repr

/-- The register a field lies in. -/
def fieldLoc (c : Cfg) : Field → Loc
  | .p f => .p f.reg
  | .x f => .x f.reg
  | .w f => .w (wrapperPos c f).word

/-- The place of a field in its register. -/
def placeOf (c : Cfg) : Field → FieldPos
  | .p f => fieldPos c f
  | .x f => fieldPos c f
  | .w f => ⟨(wrapperPos c f).lo, (wrapperPos c f).width⟩

/-! ## The register map -/

/-- `IPI_BASE(ch)`: one formula for each group of channels (R44). -/
def ipiBase (m : RegMap) (ch : Nat) : Nat :=
  if ch = 0 then m.b1
  else if ch ≤ 3 then m.b2 + (ch - 1) * m.s2
  else m.b5 + (ch - 4) * m.s5

/-- The offsets inside the block of channel `ch` (R44). -/
def ipiGroup (m : RegMap) (ch : Nat) : IpiOffsets :=
  if ch = 0 then m.off1 else if ch ≤ 3 then m.off2 else m.off3

/-- `IPI_OFF(group, REG)` (R44). -/
def ipiOffset (o : IpiOffsets) : IpiReg → Nat
  | .mode => o.mode
  | .vcid => o.vcid
  | .dataType => o.dataType
  | .memFlush => o.memFlush
  | .hsaTime => o.hsaTime
  | .hbpTime => o.hbpTime
  | .hsdTime => o.hsdTime
  | .advFeatures => o.advFeatures

/-- `CAT[c]` (R27). -/
def catEntry (c : Cfg) (k : Nat) : CatEntry := tblGet default c.cat k

/-- The byte offset of a register in P (and X), as MAP gives it (R44, R52, R76). -/
def offsetOf (c : Cfg) : PReg → Nat
  | .version => c.map.version
  | .nLanes => c.map.nLanes
  | .csi2Resetn => c.map.csi2Resetn
  | .intStMain => c.map.intStMain
  | .dataIds k => tblGet 0 c.map.dataIds k
  | .phyCfg => c.map.phyCfg
  | .phyMode => c.map.phyMode
  | .dphyRstz => c.map.dphyRstz
  | .phyShutdownz => c.map.phyShutdownz
  | .phyShut => c.map.phyShut
  | .phyStopstate => c.map.phyStopstate
  | .tpgConfig => c.map.tpgConfig
  | .tpgPkt2pkt => c.map.tpgPkt2pkt
  | .tpgEnable => c.map.tpgEnable
  | .idiBypass => c.map.idiBypass
  | .ipiSoftrstn => c.map.ipiSoftrstn
  | .ipi ch r => ipiBase c.map ch + ipiOffset (ipiGroup c.map ch) r
  | .intSt k => (catEntry c k).st
  | .intMsk k => (catEntry c k).msk
  | .intForce k => (catEntry c k).force

/-- Every register of a bank that exists: the count of DATA_IDS is MAP's, eight channel blocks, 14 categories (R30). -/
def bankRegs (c : Cfg) : List PReg :=
  [.version, .nLanes, .csi2Resetn, .intStMain, .phyCfg, .phyMode, .dphyRstz, .phyShutdownz, .phyShut, .phyStopstate,
   .tpgConfig, .tpgPkt2pkt, .tpgEnable, .idiBypass, .ipiSoftrstn]
  ++ (List.range c.map.dataIds.length).map .dataIds
  ++ (List.range Config.maxPixCh).flatMap (fun ch =>
      [.ipi ch .mode, .ipi ch .vcid, .ipi ch .dataType, .ipi ch .memFlush, .ipi ch .hsaTime, .ipi ch .hbpTime,
       .ipi ch .hsdTime, .ipi ch .advFeatures])
  ++ (List.range Config.numCat).flatMap (fun k => [.intSt k, .intMsk k, .intForce k])

/-- The register at a byte offset: none when the offset is not a multiple of 4 or MAP does not map it (R73). -/
def regAt (c : Cfg) (offset : Nat) : Option PReg :=
  if offset % 4 = 0 then (bankRegs c).find? (fun r => offsetOf c r == offset) else none

/-! ## Reading and writing a bank by register name -/

/-- A register of a channel block. -/
def IpiBlock.get (b : IpiBlock) : IpiReg → Word
  | .mode => b.mode
  | .vcid => b.vcid
  | .dataType => b.dataType
  | .memFlush => b.memFlush
  | .hsaTime => b.hsaTime
  | .hbpTime => b.hbpTime
  | .hsdTime => b.hsdTime
  | .advFeatures => b.advFeatures

/-- A channel block with one register replaced. -/
def IpiBlock.put (b : IpiBlock) (r : IpiReg) (v : Word) : IpiBlock :=
  match r with
  | .mode => { b with mode := v }
  | .vcid => { b with vcid := v }
  | .dataType => { b with dataType := v }
  | .memFlush => { b with memFlush := v }
  | .hsaTime => { b with hsaTime := v }
  | .hbpTime => { b with hbpTime := v }
  | .hsdTime => { b with hsdTime := v }
  | .advFeatures => { b with advFeatures := v }

/-- The stored content of a register (VERSION and INT_ST_MAIN store nothing: 0 here, never read). -/
def Bank.get (b : Bank) : PReg → Word
  | .version => 0
  | .nLanes => b.nLanes
  | .csi2Resetn => b.csi2Resetn
  | .intStMain => 0
  | .dataIds k => tblGet 0 b.dataIds k
  | .phyCfg => b.phyCfg
  | .phyMode => b.phyMode
  | .dphyRstz => b.dphyRstz
  | .phyShutdownz => b.phyShutdownz
  | .phyShut => b.phyShut
  | .phyStopstate => b.phyStopstate
  | .tpgConfig => b.tpgConfig
  | .tpgPkt2pkt => b.tpgPkt2pkt
  | .tpgEnable => b.tpgEnable
  | .idiBypass => b.idiBypass
  | .ipiSoftrstn => b.ipiSoftrstn
  | .ipi ch r => (tblGet default b.ipi ch).get r
  | .intSt k => tblGet 0 b.intSt k
  | .intMsk k => tblGet 0 b.intMsk k
  | .intForce k => tblGet 0 b.intForce k

/-- A bank with one stored register replaced. -/
def Bank.put (b : Bank) (r : PReg) (v : Word) : Bank :=
  match r with
  | .version => b
  | .nLanes => { b with nLanes := v }
  | .csi2Resetn => { b with csi2Resetn := v }
  | .intStMain => b
  | .dataIds k => { b with dataIds := tblPut 0 b.dataIds k v }
  | .phyCfg => { b with phyCfg := v }
  | .phyMode => { b with phyMode := v }
  | .dphyRstz => { b with dphyRstz := v }
  | .phyShutdownz => { b with phyShutdownz := v }
  | .phyShut => { b with phyShut := v }
  | .phyStopstate => { b with phyStopstate := v }
  | .tpgConfig => { b with tpgConfig := v }
  | .tpgPkt2pkt => { b with tpgPkt2pkt := v }
  | .tpgEnable => { b with tpgEnable := v }
  | .idiBypass => { b with idiBypass := v }
  | .ipiSoftrstn => { b with ipiSoftrstn := v }
  | .ipi ch r => { b with ipi := tblPut default b.ipi ch ((tblGet default b.ipi ch).put r v) }
  | .intSt k => { b with intSt := tblPut 0 b.intSt k v }
  | .intMsk k => { b with intMsk := tblPut 0 b.intMsk k v }
  | .intForce k => { b with intForce := tblPut 0 b.intForce k v }

/-- The read-only registers, whose writes are ignored (R58). -/
def readOnlyReg : PReg → Bool
  | .version => true
  | .intStMain => true
  | .phyStopstate => true
  | .intSt _ => true
  | _ => false

/-! ## PHY indices -/

/-- The pair an index belongs to (R120). -/
def pairOf (id : Nat) : Nat := id / 2

/-- `mate(id) = id ^ 1` (R120). -/
def mateOf (id : Nat) : Nat := id ^^^ 1

/-- `major(id) = id - (id mod 2)` (R140). -/
def majorOf (id : Nat) : Nat := id - id % 2

/-! ## Enums and tables of operands -/

/-- `format`: the six values of R94; any other number is not in the recognized set. -/
def formatOfCode : Nat → Option Format
  | 0 => some .raw8
  | 1 => some .raw10
  | 2 => some .raw12
  | 3 => some .yuyv
  | 4 => some .nv12
  | 5 => some .rgb888
  | _ => none

/-- `vc_mode`: 0 CAMERA, 1 CTRL (R94). -/
def vcModeOfCode : Nat → Option VcMode
  | 0 => some .camera
  | 1 => some .ctrl
  | _ => none

/-- The value a table has for a format. -/
def formatEntry {α : Type} (t : FormatTable α) : Format → α
  | .raw8 => t.raw8
  | .raw10 => t.raw10
  | .raw12 => t.raw12
  | .yuyv => t.yuyv
  | .nv12 => t.nv12
  | .rgb888 => t.rgb888

/-- `LANES_ENC(lanes)` (R32). -/
def lanesEnc (c : Cfg) (lanes : Nat) : Nat := tblGet 0 c.lanesEnc (lanes - 1)

/-- `FRX_OWN(lanes)` (R122). -/
def frxOwn (c : Cfg) (lanes : Nat) : Nat := tblGet 0 c.frxOwn (lanes - 1)

/-- `FRX_MATE(lanes)` (R122). -/
def frxMate (c : Cfg) (lanes : Nat) : Nat := tblGet 0 c.frxMate (lanes - 1)

/-- `W_TC`, the width of a test address (R56). -/
def testcodeWidth (c : Cfg) : Nat := (wrapperPos c (.testcode 0)).width

/-- The name of bit `b` of category `k`; none: reserved (R27, R252). -/
def faultName (c : Cfg) (k b : Nat) : Option String := (catEntry c k).names.lookup b

/-- The pixel channel whose fatal category is `k`, if it is one of the four (R27, R247 step 6). -/
def fatalChannel (c : Cfg) (k : Nat) : Option Nat := c.ipiFatalCat.findIdx? (· == k)

/-- `DUMPREG(ch, i)` for the entries of the channel's own block, in the source's order (R215). -/
def dumpReg (ch : Nat) : Nat → PReg
  | 0 => .ipi ch .mode
  | 1 => .ipi ch .vcid
  | 2 => .ipi ch .dataType
  | 3 => .ipi ch .hsaTime
  | 4 => .ipi ch .hbpTime
  | 5 => .ipi ch .hsdTime
  | _ => .ipi ch .advFeatures

end Sys2Proof.Machine
end

