-- ==== Sys2Proof/Machine/Flags.lean ====
section
/-! DEFINITION. The status flags (10_state.md R37, R65): category summary bits and the interrupt line (R34, R59), lane stop
bits (R41, R152), and the release-all constant (R51). No operation has carry, zero or overflow flags (R37). -/

namespace Sys2Proof.Machine

/-- The fault bits of category `k` that are pending, defined and unmasked: `INT_ST & ebits & unmasked` (R34). -/
def unmaskedPending (c : Cfg) (b : Bank) (k : Nat) : Word :=
  tblGet 0 b.intSt k &&& (catEntry c k).ebits &&& tblGet 0 b.intMsk k

/-- INT_ST_MAIN: the main bits of the categories with an unmasked pending fault, every other bit 0 (R34). -/
def mainStatus (c : Cfg) (b : Bank) : Word :=
  (List.range Config.numCat).foldl
    (fun acc k => if unmaskedPending c b k = 0 then acc else acc ||| (catEntry c k).mainbit) 0

/-- The interrupt line `irq`: asserted exactly when INT_ST_MAIN is not 0 (R59, R306). -/
def irqLine (s : State) : Bool := mainStatus s.cfg s.p != 0

/-- A category is unmasked when its mask register enables one of its defined error bits (R241). -/
def categoryUnmasked (s : State) (k : Nat) : Bool := tblGet 0 s.p.intMsk k &&& (catEntry s.cfg k).ebits != 0

/-- The expected lane-stop bits `(1 << n) - 1` (R152). -/
def stopMask (n : Nat) : Word := BitVec.ofNat 32 (2 ^ n - 1)

/-- All `n` lane-stop bits are set in one read of PHY_STOPSTATE; bits above are ignored (R152, R153). -/
def lanesStopped (n : Nat) (v : Word) : Bool := v &&& stopMask n == stopMask n

/-- `CSI_IPI_ALL_RELEASE_RSTN`: `softrstn[ch] = 1` for every channel 0..MAX_PIX_CH-1, 0 elsewhere (R51). -/
def allRelease (c : Cfg) : Word :=
  (List.range Config.maxPixCh).foldl (fun acc ch => setField acc (fieldPos c (.softrstn ch)) 1) 0

end Sys2Proof.Machine
end

