-- ==== Sys2Proof/Machine/Ops.lean ====
section
/-! DEFINITION. The shared operations: outcomes of an operation (00_scope.md R11), register accesses and field updates
(20_memory.md R77 to R81), the moves of the other agents between two accesses (60_exceptions.md R317), ending an operation
in an error (R300, R302), entering and leaving the interrupt handler with its body (R308 to R312, 45_irq.md R247), and the
frame of a configuration operation (R314, R316). -/

namespace Sys2Proof.Machine

/-! ## Outcomes of an operation -/

/-- `Ok(v)`, `Err(E)` or `fault(reason)` (R11); state written before an error stays written. -/
inductive Res (α : Type) where
  | ok (a : α) (s : State)
  | err (e : Err) (s : State)
  | stop (f : Fault)
  deriving DecidableEq, Repr

/-- Sequencing: an error or a fault ends the operation, no later step of it runs (R9, `raise`). -/
def Res.andThen {α β : Type} (r : Res α) (f : α → State → Res β) : Res β :=
  match r with
  | .ok a s => f a s
  | .err e s => .err e s
  | .stop g => .stop g

/-- `r = <operation>; if r = Err(e) then ...`: a step that handles the error of a sub-operation. -/
def Res.onErr {α : Type} (r : Res α) (f : Err → State → Res α) : Res α :=
  match r with
  | .ok a s => .ok a s
  | .err e s => f e s
  | .stop g => .stop g

/-- The same outcome with the state changed. -/
def Res.mapState {α : Type} (r : Res α) (f : State → State) : Res α :=
  match r with
  | .ok a s => .ok a (f s)
  | .err e s => .err e (f s)
  | .stop g => .stop g

/-- The same outcome with the value changed. -/
def Res.mapValue {α β : Type} (r : Res α) (f : α → β) : Res β :=
  match r with
  | .ok a s => .ok (f a) s
  | .err e s => .err e s
  | .stop g => .stop g

/-- `raise E`: the operation ends at once with result `Err(E)` (R9, R300). -/
def raise {α : Type} (e : Err) (s : State) : Res α := .err e s

/-- `for a in l`: the elements in list order, each complete before the next. -/
def forEach {α : Type} : List α → (α → State → Res Unit) → State → Res Unit
  | [], _, s => .ok () s
  | a :: l, f, s => (f a s).andThen fun _ s' => forEach l f s'

/-! ## The byte memory: space T -/

/-- One byte: the listed one, else the arbitrary byte of draw `n` (R63). -/
def Memory.read (n : Nat) : Memory → Nat → Byte
  | [], b => Config.resetByte n b
  | (a, v) :: m, b => if b = a then v else Memory.read n m b

/-- `(b, v)` before the entries `m`: no entry when the byte is what an unlisted address reads as. -/
def Memory.entry (n b : Nat) (v : Byte) (m : Memory) : Memory :=
  if v = Config.resetByte n b then m else (b, v) :: m

/-- Write one byte, keeping the canonical form. -/
def Memory.write (n : Nat) : Memory → Nat → Byte → Memory
  | [], b, v => Memory.entry n b v []
  | (a, u) :: m, b, v =>
    if b = a then Memory.entry n b v m
    else if b < a then Memory.entry n b v ((a, u) :: m)
    else (a, u) :: Memory.write n m b v

/-- The canonical form: addresses strictly rising, and no entry equal to what an unlisted address reads as. -/
def Memory.wf (n : Nat) : Memory → Bool
  | [] => true
  | (a, v) :: m => m.all (fun e => decide (a < e.1)) && decide (v ≠ Config.resetByte n a) && Memory.wf n m

/-- The address of `T[phy][code]` (R57). -/
def testAddress (c : Cfg) (phy code : Nat) : Nat := phy * 2 ^ testcodeWidth c + code % 2 ^ testcodeWidth c

/-- The transfer of a test-interface write: `T[phy][code] <- data` and its record (R150). -/
def storeTest (phy code : Nat) (data : Byte) (s : State) : State :=
  (s.setT (Memory.write s.draw s.t (testAddress s.cfg phy code) data)).setTestTrace
    (s.testTrace ++ [⟨phy, code % 2 ^ testcodeWidth s.cfg, data⟩])

/-! ## Single register accesses -/

/-- Every present clock is on (46_commands.md R285). -/
def clocksOn (k : Clocks) : Bool := k.ipi != .off && k.pclk != .off && k.cfg != .off

/-- An access is possible: the window's base is configured, and for P and X every present clock is on (R110, R285,
R314). -/
def accessible (s : State) : Loc → Bool
  | .p _ => clocksOn s.clk && s.inst.baseP.isSome
  | .x _ => clocksOn s.clk && s.inst.baseX.isSome
  | .w _ => s.inst.baseW.isSome

/-- What a read of a bank's register returns: VERSION is a constant (R31), INT_ST_MAIN derived (R34), PHY_STOPSTATE the
PHY agent's word (R60), every other register its content (R58). DESIGN CHOICE, unsafe: VERSION of the extended bank X is
this instance's VERSION_VAL too (notes/assumptions/41.md). -/
def bankValue (c : Cfg) (b : Bank) (r : PReg) : Word :=
  match r with
  | .version => c.versionVal
  | .intStMain => mainStatus c b
  | r => b.get r

/-- The bank after a read: INT_ST[c] is cleared in the same access when ST_READ_CLEARS (R77, R249). -/
def bankAfterRead (c : Cfg) (b : Bank) (r : PReg) : Bank :=
  match r with
  | .intSt k => if c.stReadClears then b.put (.intSt k) 0 else b
  | _ => b

/-- What a write leaves in a register: the value written, with `manual_flush` gone when it clears itself (R48, U9). -/
def storedValue (c : Cfg) (r : PReg) (v : Word) : Word :=
  match r with
  | .ipi ch .memFlush => if c.manualFlushSelfClears then setField v (fieldPos c (.manualFlush ch)) 0 else v
  | _ => v

/-- The bank after a write; a write to a read-only register is ignored (R58, R112). -/
def bankAfterWrite (c : Cfg) (b : Bank) (r : PReg) (v : Word) : Bank :=
  if readOnlyReg r then b else b.put r (storedValue c r v)

/-- The value a read returns now. -/
def valueAt (s : State) : Loc → Word
  | .p r => bankValue s.cfg s.p r
  | .x r => bankValue s.cfg s.x r
  | .w n => tblGet 0 s.w n

/-- The state after a read, its side effect apart from the trace. -/
def afterRead (s : State) : Loc → State
  | .p r => s.setP (bankAfterRead s.cfg s.p r)
  | .x r => s.setX (bankAfterRead s.cfg s.x r)
  | .w _ => s

/-- The state after a write, apart from the trace. -/
def afterWrite (s : State) (l : Loc) (v : Word) : State :=
  match l with
  | .p r => s.setP (bankAfterWrite s.cfg s.p r v)
  | .x r => s.setX (bankAfterWrite s.cfg s.x r v)
  | .w n => s.setW (tblPut 0 s.w n v)

/-- The register trace grows by one access (R13). -/
def logAccess (a : Access) (s : State) : State := s.setTrace (s.trace ++ [a])

/-- What happens before an access: the other agents' moves (R317). -/
abbrev Tick := State → Res Unit

/-- `Rd`: one 32-bit read (R9). -/
def readVia (t : Tick) (l : Loc) (s : State) : Res Word :=
  if accessible s l then
    (t s).andThen fun _ s => .ok (valueAt s l) (logAccess (.rd l (valueAt s l)) (afterRead s l))
  else .stop .preconditionViolated

/-- `Wr`: one 32-bit write (R9). -/
def writeVia (t : Tick) (l : Loc) (v : Word) (s : State) : Res Unit :=
  if accessible s l then
    (t s).andThen fun _ s => .ok () (logAccess (.wr l v) (afterWrite s l v))
  else .stop .preconditionViolated

/-- `Upd`: a field update, one read and then one write of the whole register (R78); the other agents may act between the
two (R75, R317). -/
def updateVia (t : Tick) (f : Field) (n : Nat) (s : State) : Res Unit :=
  (readVia t (fieldLoc s.cfg f) s).andThen fun v s =>
    writeVia t (fieldLoc s.cfg f) (setField v (placeOf s.cfg f) n) s

/-! ## The moves of the other agents -/

/-- A bank with some bits of a category's status set or removed, within `ebits` (R59). -/
def setStatus (c : Cfg) (b : Bank) (k : Nat) (bits : Word) : Bank :=
  if k < Config.numCat then b.put (.intSt k) (tblGet 0 b.intSt k ||| (bits &&& (catEntry c k).ebits)) else b

def dropStatus (c : Cfg) (b : Bank) (k : Nat) (bits : Word) : Bank :=
  if k < Config.numCat then b.put (.intSt k) (tblGet 0 b.intSt k &&& ~~~(bits &&& (catEntry c k).ebits)) else b

def bankOf (s : State) : BankId → Bank
  | .p => s.p
  | .x => s.x

def setBank (s : State) (i : BankId) (b : Bank) : State :=
  match i with
  | .p => s.setP b
  | .x => s.setX b

/-- The answers with one clock's answer replaced. -/
def ClkAnswers.put (k : ClkAnswers) (c : Clk) (b : Bool) : ClkAnswers :=
  match c with
  | .ipi => { k with ipi := b }
  | .pclk => { k with pclk := b }
  | .cfg => { k with cfg := b }

/-- A line register of the D-PHY, which a merged start-up of the mate writes through its X (R147 steps 4, 5, 10, 11). -/
def isLineReg : PReg → Bool
  | .dphyRstz => true
  | .phyShutdownz => true
  | _ => false

/-- The bind is not over: no operation has started or ended, and no register was accessed (R64, 70_reset_and_hazards.md
R333; notes/assumptions/34.md). -/
def bindOpen (s : State) : Bool :=
  decide (s.ctx = .config) && !s.opInFlight && s.result.isNone && s.trace.isEmpty

/-- A move that runs no operation of this controller (R21, R59, R60, R317, R343); `irq` and `secondOp` are no such move. -/
def agentMove (m : EnvMove) (s : State) : State :=
  match m with
  | .fault i k bits => setBank s i (setStatus s.cfg (bankOf s i) k bits)
  | .unfault i k bits => if s.cfg.stReadClears then s else setBank s i (dropStatus s.cfg (bankOf s i) k bits)
  | .stopstate i v => setBank s i ((bankOf s i).put .phyStopstate v)
  | .irq => s
  | .mateWriteX r v => if (bankRegs s.cfg).contains r then s.setX (bankAfterWrite s.cfg s.x r v) else s
  | .mateReadX r => if (bankRegs s.cfg).contains r then s.setX (bankAfterRead s.cfg s.x r) else s
  | .mateLine r v => if isLineReg r then s.setP (bankAfterWrite s.cfg s.p r v) else s
  | .mateWriteW n v => if n < s.w.length then s.setW (tblPut 0 s.w n v) else s
  | .mateTest phy code data => if phy < Config.numPhy then storeTest phy code data s else s
  | .onFault v => if bindOpen s then s.setOnFault v else s
  | .onDone v => if bindOpen s then s.setOnDone v else s
  | .clkOk c b => s.setClkOk (s.clkOk.put c b)
  | .secondOp => s

/-- Before an access of the interrupt handler: the agents may act (R251); the handler is not entered again (R311). -/
def interruptTick (s : State) : Res Unit :=
  match s.env with
  | [] => .ok () s
  | moves :: later => .ok () (moves.foldl (fun s m => agentMove m s) (s.setEnv later))

/-! ## The interrupt handler: entry, body, return -/

/-- `pixel channel index < NUM_INST - 1`, else `raise InvalidArgument`, before any access (R23, R200). -/
def withChannel {α : Type} (ch : Nat) (body : State → Res α) (s : State) : Res α :=
  if s.cfg.numInst - 1 ≤ ch then raise .invalidArgument s else body s

/-- `ch_state[ch] <- v`. -/
def setPhase (ch : Nat) (v : ChState) (s : State) : State := s.setChs (tblPut .disabled s.ch ch v)

/-- `ch_state[ch]`. -/
def phaseOf (s : State) (ch : Nat) : ChState := tblGet .disabled s.ch ch

/-- The soft-reset pulse of a channel: held, then released (R205). -/
def softResetPulse (t : Tick) (ch : Nat) (s : State) : Res Unit :=
  (updateVia t (.p (.softrstn ch)) 0 s).andThen fun _ s => updateVia t (.p (.softrstn ch)) 1 s

/-- The same pulse inside the handler, with one read: held, then released. No agent writes IPI_SOFTRSTN while the handler
runs (20_memory.md R82, R317), so the second update's read would return the word just written. -/
def softResetPulseOnce (t : Tick) (ch : Nat) (s : State) : Res Unit :=
  (readVia t (.p .ipiSoftrstn) s).andThen fun v s =>
  let held := setField v (fieldPos s.cfg (.softrstn ch)) 0
  (writeVia t (.p .ipiSoftrstn) held s).andThen fun _ s =>
  writeVia t (.p .ipiSoftrstn) (setField held (fieldPos s.cfg (.softrstn ch)) 1) s

/-- The steps of R211: manual flush, the pulse, every channel released, an Enabled channel becomes Configured. -/
def overflowResetWith (t : Tick) (pulse : State → Res Unit) (ch : Nat) : State → Res Unit :=
  withChannel ch fun s =>
    (updateVia t (.p (.manualFlush ch)) 1 s).andThen fun _ s =>
    (pulse s).andThen fun _ s =>
    (writeVia t (.p .ipiSoftrstn) (allRelease s.cfg) s).andThen fun _ s =>
    .ok () (if phaseOf s ch = .enabled then setPhase ch .configured s else s)

/-- IPI_OVERFLOW_RESET inside the handler: a recovery of 6 accesses (R246, R352), the register trace of R211 up to one read
without side effect (R13, R77). DEDUCED, unsafe for a count of reads (notes/assumptions/39.md). -/
def overflowRecovery (ch : Nat) : State → Res Unit :=
  overflowResetWith interruptTick (softResetPulseOnce interruptTick ch) ch

/-- `emit e` (R9, R62). -/
def emit (e : Event) (s : State) : State := s.setEvents (s.events ++ [e])

/-- The overflow sub-bit of a pixel-interface-fatal category's masked status (R247 step 6). -/
def overflowBit (c : Cfg) (k : Nat) (st : Word) : Bool :=
  (fatalChannel c k).isSome && st.getLsbD c.ipiOvfBit

/-- The built-in recovery, before notifying; skipped for a channel that does not exist (R247 step 8, R312). -/
def recoverOverflow (k : Nat) (ovf : Bool) (s : State) : Res Unit :=
  match fatalChannel s.cfg k with
  | some ch => if ovf && decide (ch < s.cfg.numInst - 1) then overflowRecovery ch s else .ok () s
  | none => .ok () s

/-- One category's turn in the handler (R247 steps 3 to 9). -/
def handleCategory (main : Word) (k : Nat) (s : State) : Res Unit :=
  if main &&& (catEntry s.cfg k).mainbit = 0 then .ok () s
  else
    (readVia interruptTick (.p (.intSt k)) s).andThen fun v s =>
      let st := v &&& (catEntry s.cfg k).ebits
      let ovf := overflowBit s.cfg k st
      (recoverOverflow k ovf s).andThen fun _ s =>
        .ok () (if st = 0 then s
          else emit (.faultNotify s.inst.id st k ovf (s.onFault == .registered)) s)

/-- Trap entry: it saves nothing and changes no state of the block; the interrupt context runs (R308, R315). -/
def enterInterrupt (s : State) : State := s.setCtx .interrupt

/-- Trap return: nothing to restore but the context that was interrupted (R310). -/
def leaveInterrupt (saved : Context) (s : State) : State := s.setCtx saved

/-- The done callback, when its slot is registered (R247 step 10). -/
def notifyDone (main : Word) (s : State) : State :=
  if s.onDone = .registered then emit (.doneNotify s.inst.id main) s else s

/-- IRQ_HANDLE (R247), with its entry and its return: the one handler, the fixed vector of R308. -/
def takeInterrupt (s : State) : Res Unit :=
  (readVia interruptTick (.p .intStMain) (enterInterrupt s)).andThen fun main s' =>
  (forEach (List.range Config.numCat) (handleCategory main) s').andThen fun _ s' =>
  .ok () (leaveInterrupt s.ctx (notifyDone main s'))

/-! ## The configuration context -/

/-- One move before an access of the configuration context (R317): an interrupt runs the whole handler, unless it is the
handler that runs (R311); a second operation in flight is a fault (R314). -/
def configMove (m : EnvMove) (s : State) : Res Unit :=
  match m with
  | .irq => if s.ctx = .interrupt then .ok () s else takeInterrupt s
  | .secondOp => if s.opInFlight then .stop .preconditionViolated else .ok () s
  | m => .ok () (agentMove m s)

/-- Before an access of the configuration context, and in an idle step: the next list of moves of the schedule. -/
def configTick (s : State) : Res Unit :=
  match s.env with
  | [] => .ok () s
  | moves :: later => forEach moves configMove (s.setEnv later)

/-- `Rd`, `Wr` and `Upd` of a configuration operation. -/
def rd (l : Loc) (s : State) : Res Word := readVia configTick l s
def wr (l : Loc) (v : Word) (s : State) : Res Unit := writeVia configTick l v s
def upd (f : Field) (n : Nat) (s : State) : Res Unit := updateVia configTick f n s

/-- The current content of a field of space P, as `get(Rd(P, REG), F)` would give it. -/
def pField (s : State) (f : PField) : Nat := getField (s.p.get f.reg) (fieldPos s.cfg f)

/-- The current content of a field of space X. -/
def xField (s : State) (f : PField) : Nat := getField (s.x.get f.reg) (fieldPos s.cfg f)

/-- The current content of a wrapper field. -/
def wField (s : State) (f : WField) : Nat :=
  getField (tblGet 0 s.w (wrapperPos s.cfg f).word) (placeOf s.cfg (.w f))

/-- `delay(t)`: a no-op on the state (R350). -/
def delay (_ms : Nat) (s : State) : State := s

/-- A blocking operation faults in the interrupt context (R155, R314). -/
def blocking {α : Type} (body : State → Res α) (s : State) : Res α :=
  if s.ctx = .interrupt then .stop .preconditionViolated else body s

/-! ## Ending an operation -/

/-- `Ok(v)`: the result goes to the caller (R11). -/
def completeOk (v : Value) (s : State) : State := s.setResult (some (.ok v))

/-- Taking an error (R300, R302): the class goes to the caller, nothing is rolled back, no context, mask or control
changes. -/
def takeError (e : Err) (s : State) : State := s.setResult (some (.err e))

/-- The end of an operation as a step of the machine; only a model-level fault stops (R12, R313). -/
def finish (r : Res Value) : Host.Outcome State Fault Refusal :=
  match r with
  | .ok v s => .next (completeOk v s)
  | .err e s => .next (takeError e s)
  | .stop f => .fault f

/-- A configuration operation: one in flight at a time, to completion (R314, R316). -/
def runConfig (body : State → Res Value) (s : State) : Host.Outcome State Fault Refusal :=
  if s.opInFlight then .fault .preconditionViolated
  else finish ((body (s.setInFlight true)).mapState fun s => s.setInFlight false)

/-- The end of an operation that returns `Ok` alone. -/
def okUnit (r : Res Unit) : Res Value := r.mapValue fun _ => .unit

end Sys2Proof.Machine
end

