-- ==== Sys2Proof/Machine/Wrapper.lean ====
section
/-! DEFINITION. Family 0x2n: the operations of PHY Wrapper Control (41_wrapper.md R120 to R131). -/

namespace Sys2Proof.Machine

/-- `id >= NUM_PHY` is a fault (R120). -/
def withPhy {α : Type} (id : Nat) (body : State → Res α) (s : State) : Res α :=
  if id < Config.numPhy then body s else .stop .preconditionViolated

/-- A lane count operand outside 1..4 is a fault (R98). -/
def withLanes {α : Type} (lanes : Nat) (body : State → Res α) (s : State) : Res α :=
  if 1 ≤ lanes ∧ lanes ≤ 4 then body s else .stop .preconditionViolated

/-- `enable_clock(id)` (R121). -/
def wrapEnableClock (id : Nat) : State → Res Unit :=
  withPhy id fun s => upd (.w (.enableclk id)) 1 s

/-- `force_rx_mode(id, lanes, force)`: the mate's half only for more than 2 lanes (R122). -/
def wrapForceRxMode (id lanes : Nat) (force : Bool) : State → Res Unit :=
  withPhy id <| withLanes lanes fun s =>
    (upd (.w (.forcerxmode id)) (if force then frxOwn s.cfg lanes else 0) s).andThen fun _ s =>
    if 2 < lanes then upd (.w (.forcerxmode (mateOf id))) (if force then frxMate s.cfg lanes else 0) s else .ok () s

/-- `get_lane_mode(id)`: the pair's control-select bit (R123). -/
def wrapGetLaneMode (id : Nat) : State → Res Bool :=
  withPhy id fun s =>
    (rd (fieldLoc s.cfg (.w (.ctrlSel (pairOf id)))) s).andThen fun v s =>
    .ok (getField v (placeOf s.cfg (.w (.ctrlSel (pairOf id)))) == 1) s

/-- `set_lane_mode(id, merged)` (R124). -/
def wrapSetLaneMode (id : Nat) (merged : Bool) : State → Res Unit :=
  withPhy id fun s => upd (.w (.ctrlSel (pairOf id))) (bit merged) s

/-- The least index whose threshold is not above the rate (R125, R126); none below the lowest threshold. -/
def hsfreqIndex (rate : Nat) : Option Nat := Config.hsfreqThr.findIdx? (fun t => decide (t ≤ rate))

/-- `set_hsfreqrange(id, rate)`: nothing is accessed when the rate is too low (R125). -/
def wrapSetHsfreqrange (id rate : Nat) : State → Res Unit :=
  withPhy id fun s =>
    match hsfreqIndex rate with
    | some i => upd (.w (.hsfreqrange id)) (Config.hsfreqCode i).toNat s
    | none => raise .invalidArgument s

/-- `enable_ppipg_clk(enable)` (R128). -/
def wrapEnablePpipgClk (enable : Bool) (s : State) : Res Unit := upd (.w .ppipgClkEn) (bit enable) s

/-- `set_testcode(id, code)` (R129). -/
def wrapSetTestcode (id code : Nat) : State → Res Unit :=
  withPhy id fun s => upd (.w (.testcode id)) code s

/-- `testcode_sel_other_phy(id, select)` (R130). -/
def wrapTestcodeSelOtherPhy (id : Nat) (select : Bool) : State → Res Unit :=
  withPhy id fun s => upd (.w (.selOther id)) (bit select) s

/-- WRAP_ENABLE_CLOCK (R121). -/
def execWrapEnableClock (id : Nat) (s : State) : Host.Outcome State Fault Refusal :=
  runConfig (fun s => okUnit (wrapEnableClock id s)) s

/-- WRAP_FORCE_RX_MODE (R122). -/
def execWrapForceRxMode (id lanes : Nat) (force : Bool) (s : State) : Host.Outcome State Fault Refusal :=
  runConfig (fun s => okUnit (wrapForceRxMode id lanes force s)) s

/-- WRAP_GET_LANE_MODE (R123). -/
def execWrapGetLaneMode (id : Nat) (s : State) : Host.Outcome State Fault Refusal :=
  runConfig (fun s => (wrapGetLaneMode id s).mapValue .bool) s

/-- WRAP_SET_LANE_MODE (R124). -/
def execWrapSetLaneMode (id : Nat) (merged : Bool) (s : State) : Host.Outcome State Fault Refusal :=
  runConfig (fun s => okUnit (wrapSetLaneMode id merged s)) s

/-- WRAP_SET_HSFREQRANGE (R125). -/
def execWrapSetHsfreqrange (id rate : Nat) (s : State) : Host.Outcome State Fault Refusal :=
  runConfig (fun s => okUnit (wrapSetHsfreqrange id rate s)) s

/-- WRAP_ENABLE_PPIPG_CLK (R128). -/
def execWrapEnablePpipgClk (enable : Bool) (s : State) : Host.Outcome State Fault Refusal :=
  runConfig (fun s => okUnit (wrapEnablePpipgClk enable s)) s

/-- WRAP_SET_TESTCODE (R129). -/
def execWrapSetTestcode (id code : Nat) (s : State) : Host.Outcome State Fault Refusal :=
  runConfig (fun s => okUnit (wrapSetTestcode id code s)) s

/-- WRAP_TESTCODE_SEL_OTHER_PHY (R130). -/
def execWrapTestcodeSelOtherPhy (id : Nat) (select : Bool) (s : State) : Host.Outcome State Fault Refusal :=
  runConfig (fun s => okUnit (wrapTestcodeSelOtherPhy id select s)) s

end Sys2Proof.Machine
end

