-- ==== Sys2Proof/Machine/Dphy.lean ====
section
/-! DEFINITION. Family 0x3n: the D-PHY power sequencer (42_dphy_sequencer.md R140 to R155). -/

namespace Sys2Proof.Machine

/-- `reset()`: the three lines low, the phase Reset, unconditionally (R141). -/
def dphyReset (s : State) : Res Unit :=
  (upd (.p .rstz) 0 s).andThen fun _ s =>
  (upd (.p .shutdownz) 0 s).andThen fun _ s =>
  (upd (.p .physhut) 0 s).andThen fun _ s =>
  .ok () (s.setDphy .reset)

/-- The poll loop: read, test, then delay, at most `fuel` reads (R152, R153). -/
def pollStop : Nat → Nat → State → Res Unit
  | 0, _, s => raise .timeout s
  | fuel + 1, n, s =>
    (rd (.p .phyStopstate) s).andThen fun v s =>
      if lanesStopped n v then .ok () s else pollStop fuel n (delay Config.pollPeriod s)

/-- `wait_stop_state` for `n` lanes: a blocking operation with a fresh budget of POLL_MAX polls (R152, R155). -/
def dphyWaitStopstate (n : Nat) : State → Res Unit :=
  blocking <| withLanes n fun s => pollStop Config.pollMax n s

/-- A wait inside a power-up: Timeout is recorded in the phase (R143 step 12, R147 steps 14 and 16). -/
def waitOrTimeout (n : Nat) (s : State) : Res Unit :=
  (dphyWaitStopstate n s).onErr fun e s => raise e (s.setDphy .errorTimeout)

/-- The standard path (R143). -/
def dphyPowerupStd (id lanes rate : Nat) : State → Res Unit :=
  blocking <| withPhy id <| withLanes lanes fun s =>
    (upd (.p .rstz) 0 (s.setDphy .powerSequence)).andThen fun _ s =>
    (upd (.p .shutdownz) 0 s).andThen fun _ s =>
    ((wrapSetHsfreqrange id rate s).onErr fun e s => raise e (s.setDphy .reset)).andThen fun _ s =>
    (wrapEnableClock id s).andThen fun _ s =>
    (upd (.p .rstz) 1 s).andThen fun _ s =>
    (upd (.p .shutdownz) 1 s).andThen fun _ s =>
    (waitOrTimeout lanes (s.setDphy .waitStopState)).andThen fun _ s =>
    .ok () (s.setDphy .ready)

/-- One test-interface write (R150), in either context: the steering, the test address, and the abstract transfer. -/
def dphyTestWrite (id : Nat) (other : Bool) (code data : Nat) (s : State) : Res Unit :=
  (wrapTestcodeSelOtherPhy id other s).andThen fun _ s =>
  (wrapSetTestcode id code s).andThen fun _ s =>
  (configTick s).andThen fun _ s =>
  .ok () (storeTest (if other then mateOf id else id) code (BitVec.ofNat 8 data) s)

/-- The guard of the merged path: an odd index whose pair already reads merged is refused (R147 step 1). -/
def mergeGuard (id : Nat) (s : State) : Res Unit :=
  if id % 2 = 1 then
    (wrapGetLaneMode id s).andThen fun merged s => if merged then raise .busy s else .ok () s
  else .ok () s

/-- A line of both banks, P then X (R147, D12). -/
def updBoth (f : PField) (n : Nat) (s : State) : Res Unit :=
  (upd (.p f) n s).andThen fun _ s => upd (.x f) n s

/-- The merged path (R147). Its `lanes` operand enters no step. -/
def dphyPowerupMerged (id lanes rate : Nat) : State → Res Unit :=
  blocking <| withPhy id <| withLanes lanes fun s =>
    (mergeGuard id s).andThen fun _ s =>
    (wrapSetLaneMode id true (s.setDphy .powerSequence)).andThen fun _ s =>
    (updBoth .rstz 0 s).andThen fun _ s =>
    (updBoth .shutdownz 0 s).andThen fun _ s =>
    ((wrapSetHsfreqrange (majorOf id) rate s).onErr fun e s => raise e (s.setDphy .reset)).andThen fun _ s =>
    (wrapSetHsfreqrange (majorOf id + 1) rate s).andThen fun _ s =>
    (forEach s.cfg.mergeSeq (fun m s => dphyTestWrite id m.other m.code m.data.toNat s) s).andThen fun _ s =>
    (updBoth .rstz 1 s).andThen fun _ s =>
    (updBoth .shutdownz 1 s).andThen fun _ s =>
    (waitOrTimeout 2 (s.setDphy .waitStopState)).andThen fun _ s =>
    (waitOrTimeout 4 s).andThen fun _ s =>
    .ok () (s.setDphy .ready)

/-- The path selection (R142): merged for more than 2 lanes without the test-pattern generator. -/
def dphyPowerup : State → Res Unit :=
  blocking fun s =>
    match s.inst.lanes, s.inst.laneRate with
    | some lanes, some rate =>
      if 2 < lanes ∧ s.inst.tpgEnabled = false then dphyPowerupMerged s.inst.id lanes rate s
      else dphyPowerupStd s.inst.id lanes rate s
    | _, _ => .stop .preconditionViolated

/-- DPHY_RESET (R141). DEDUCED, safe: R140 puts the family into the configuration context, but only the blocking operations
fault in the interrupt context (R155, R314, U22), so there is no context check (notes/assumptions/38.md). -/
def execDphyReset (s : State) : Host.Outcome State Fault Refusal :=
  runConfig (fun s => okUnit (dphyReset s)) s

/-- DPHY_POWERUP (R142). -/
def execDphyPowerup (s : State) : Host.Outcome State Fault Refusal :=
  runConfig (fun s => okUnit (dphyPowerup s)) s

/-- DPHY_POWERUP_STD (R143). -/
def execDphyPowerupStd (id lanes rate : Nat) (s : State) : Host.Outcome State Fault Refusal :=
  runConfig (fun s => okUnit (dphyPowerupStd id lanes rate s)) s

/-- DPHY_POWERUP_MERGED (R147). -/
def execDphyPowerupMerged (id lanes rate : Nat) (s : State) : Host.Outcome State Fault Refusal :=
  runConfig (fun s => okUnit (dphyPowerupMerged id lanes rate s)) s

/-- DPHY_TEST_WRITE (R150). DEDUCED, safe: not blocking, so without a context check (R140, R155, R314, U22;
notes/assumptions/38.md). -/
def execDphyTestWrite (id : Nat) (other : Bool) (code data : Nat) (s : State) : Host.Outcome State Fault Refusal :=
  runConfig (fun s => okUnit (dphyTestWrite id other code data s)) s

/-- DPHY_WAIT_STOPSTATE (R152). -/
def execDphyWaitStopstate (n : Nat) (s : State) : Host.Outcome State Fault Refusal :=
  runConfig (fun s => okUnit (dphyWaitStopstate n s)) s

end Sys2Proof.Machine
end

