-- ==== Sys2Proof/Machine/Timing.lean ====
section
/-! DEFINITION. Family 0x4n: the timing calculator (43_timing.md R170 to R185). All arithmetic is on unbounded naturals with
floor division and saturating subtraction (R184). -/

namespace Sys2Proof.Machine

/-- Raw formats are 16-bit colour, YUV and RGB are not (R172). -/
def color16Of : Format → Bool
  | .raw8 => true
  | .raw10 => true
  | .raw12 => true
  | .yuyv => false
  | .nv12 => false
  | .rgb888 => false

/-- `BPP(fmt)`: 10 for RAW10 (the source), configuration for the others (R172). -/
def bppOf (c : Cfg) (f : Format) : Nat :=
  match f with
  | .raw10 => 10
  | f => formatEntry c.bpp f

/-- `CYC(fmt, width)`: `(width + 2) div 3` for RAW10 (the source), open for the others (R172). -/
def cycOf (f : Format) (width : Nat) : Nat :=
  match f with
  | .raw10 => (width + 2) / 3
  | f => Config.cycOpen f width

/-- The row of the format table (R172). -/
def classOf (c : Cfg) (f : Format) : FormatClass := ⟨formatEntry c.dt f, color16Of f, bppOf c f⟩

/-- The receive bit clock `lane_rate * 1000000 * lanes div 2` (R173). -/
def rxBitClk (rate lanes : Nat) : Nat := rate * 1000000 * lanes / 2

/-- `clamp(v, lo, hi) = min(max(v, lo), hi)` (R9). -/
def clampNat (v lo hi : Nat) : Nat := min (max v lo) hi

/-- The quotient of the legacy formula: the link time of a line in pixel-clock cycles (R174). -/
def legacyQuotient (c : Cfg) (f : Format) (width lanes rate pixclk : Nat) : Nat :=
  bppOf c f * width * pixclk / rxBitClk rate lanes

/-- The legacy HSD before the clamp: saturating difference, with the default exactly at 0 (R174, R175). -/
def legacyHsd (c : Cfg) (f : Format) (width hsa hbp lanes rate pixclk : Nat) : Nat :=
  let h := legacyQuotient c f width lanes rate pixclk - (hsa + hbp + cycOf f width)
  if h = 0 then c.hsdDefault else h

/-- The legacy-mode formula (R174). -/
def legacyTiming (c : Cfg) (f : Format) (width hsa hbp lanes rate pixclk : Nat) : Timing where
  hsa := clampNat hsa Config.hsaMin Config.hsaMax
  hbp := clampNat hbp Config.hbpMin Config.hbpMax
  hsd := clampNat (legacyHsd c f width hsa hbp lanes rate pixclk) Config.hsdMin Config.hsdMax

/-- `raw` of the cut-through formula: the inner floor division first (R178, R179). -/
def cutThroughRaw (calMin lanes rate pixclk : Nat) : Nat := 8 * pixclk / (rxBitClk rate lanes / 8) + calMin

/-- The redistribution of an overflow of HSD into HBP and then into HSA (R178). -/
def redistribute (raw : Nat) : Timing :=
  let dMax := Config.hsdMax - Config.hsdMin
  let bMax := Config.hbpMax - Config.hbpMin
  let aMax := Config.hsaMax - Config.hsaMin
  if raw ≤ dMax then ⟨Config.hsaMin, Config.hbpMin, raw + Config.hsdMin⟩
  else if raw - dMax ≤ bMax then ⟨Config.hsaMin, raw - dMax + Config.hbpMin, dMax + Config.hsdMin⟩
  else ⟨min (raw - dMax - bMax) aMax + Config.hsaMin, bMax + Config.hbpMin, dMax + Config.hsdMin⟩

/-- The cut-through-mode formula (R178). -/
def cutThroughTiming (c : Cfg) (lanes rate pixclk : Nat) : Timing :=
  redistribute (cutThroughRaw c.calMin lanes rate pixclk)

/-- The preconditions of the calculator: lanes in 1..4, a lane rate above 0 and a pixel clock above 0; violated, a fault
(R170, R22). -/
def withTimingInputs {α : Type} (body : Nat → Nat → State → Res α) (s : State) : Res α :=
  match s.inst.lanes, s.inst.laneRate with
  | some lanes, some rate =>
    if 1 ≤ lanes ∧ lanes ≤ 4 ∧ 0 < rate ∧ 0 < s.inst.pixclk then body lanes rate s else .stop .preconditionViolated
  | _, _ => .stop .preconditionViolated

/-- The format of an operand: one of the six, else `raise Unsupported` (R171). -/
def withFormat {α : Type} (fmt : Nat) (body : Format → State → Res α) (s : State) : Res α :=
  match formatOfCode fmt with
  | some f => body f s
  | none => raise .unsupported s

/-- TIM_CLASSIFY: it reads no attribute (R171; notes/assumptions/21.md). -/
def timClassify (fmt : Nat) : State → Res FormatClass :=
  withFormat fmt fun f s => .ok (classOf s.cfg f) s

/-- TIM_HSD_LEGACY for a recognised format. -/
def timHsdLegacyOf (f : Format) (width hsa hbp : Nat) : State → Res Timing :=
  withTimingInputs fun lanes rate s => .ok (legacyTiming s.cfg f width hsa hbp lanes rate s.inst.pixclk) s

/-- TIM_HSD_LEGACY (R174). -/
def timHsdLegacy (fmt width hsa hbp : Nat) : State → Res Timing :=
  withTimingInputs fun _ _ => withFormat fmt fun f => timHsdLegacyOf f width hsa hbp

/-- TIM_CUT_THROUGH (R178). -/
def timCutThrough : State → Res Timing :=
  withTimingInputs fun lanes rate s => .ok (cutThroughTiming s.cfg lanes rate s.inst.pixclk) s

/-- TIM_PKT2PKT: the open function of the lane rate and the pixel clock, with the fsync type 2 (R182). -/
def timPkt2pkt : State → Res Nat :=
  withTimingInputs fun _ rate s => .ok (Config.pkt2pkt rate s.inst.pixclk Config.fsyncType) s

/-- TIM_CLASSIFY (R171). -/
def execTimClassify (fmt : Nat) (s : State) : Host.Outcome State Fault Refusal :=
  runConfig (fun s => (timClassify fmt s).mapValue .format) s

/-- TIM_HSD_LEGACY (R174). -/
def execTimHsdLegacy (fmt width hsa hbp : Nat) (s : State) : Host.Outcome State Fault Refusal :=
  runConfig (fun s => (timHsdLegacy fmt width hsa hbp s).mapValue .timing) s

/-- TIM_CUT_THROUGH (R178). -/
def execTimCutThrough (s : State) : Host.Outcome State Fault Refusal :=
  runConfig (fun s => (timCutThrough s).mapValue .timing) s

/-- TIM_PKT2PKT (R182). -/
def execTimPkt2pkt (s : State) : Host.Outcome State Fault Refusal :=
  runConfig (fun s => (timPkt2pkt s).mapValue .nat) s

end Sys2Proof.Machine
end

