-- ==== Sys2Proof/Machine/Ipi.lean ====
section
/-! DEFINITION. Family 0x5n: the IPI and protocol configurator (44_ipi.md R200 to R216). The soft-reset pulse and
the steps of IPI_OVERFLOW_RESET, which the interrupt handler shares, are in Machine/Ops.lean. -/

namespace Sys2Proof.Machine

/-- The next free choice (R202). -/
def chooseFree (s : State) : Bool := Config.freeBit s.choice

/-- A field update that the spec leaves free to have happened or not (R202). -/
def maybeUpd (f : Field) (n : Nat) (s : State) : Res Unit :=
  if chooseFree s then upd f n (s.setChoice (s.choice + 1)) else .ok () (s.setChoice (s.choice + 1))

/-- `set_vc_cfg` with a mode of the enum (R201). When the mode check fails, `vcid` and `emb_en` each hold their old or their new value (R202). -/
def ipiSetVcCfg (ch vcId : Nat) (embEn : Bool) (vcMode : VcMode) : State → Res Unit :=
  withChannel ch fun s =>
    if vcMode = .ctrl ∧ ch ≠ 0 then
      (maybeUpd (.p (.vcid ch)) vcId s).andThen fun _ s =>
      (maybeUpd (.p (.embEn ch)) (bit embEn) s).andThen fun _ s =>
      raise .invalidArgument s
    else
      (upd (.p (.vcid ch)) vcId s).andThen fun _ s =>
      (upd (.p (.embEn ch)) (bit embEn) s).andThen fun _ s =>
      upd (.p (.ctrlMode ch)) (bit (decide (vcMode = .ctrl))) s

/-- `set_vc_cfg` of format OP. A `vc_mode` word outside the enum names no mode and no rule states a result (R94, R98, R201):
DESIGN CHOICE, safe: the mode is one free value, drawn once the channel is known to exist, and everything else is R201 and
R202 with that mode (notes/assumptions/36.md). -/
def ipiSetVcCfgWord (ch vcId : Nat) (embEn : Bool) (vcMode : Nat) : State → Res Unit :=
  withChannel ch fun s =>
    match vcModeOfCode vcMode with
    | some m => ipiSetVcCfg ch vcId embEn m s
    | none => ipiSetVcCfg ch vcId embEn (if chooseFree s then .ctrl else .camera) (s.setChoice (s.choice + 1))

/-- The format IPI_INIT uses: RGB888 when the test-pattern generator is active (R203 step 2). -/
def effectiveFormat (s : State) (f : Format) : Format := if s.inst.tpgEnabled then .rgb888 else f

/-- The timing triple IPI_INIT writes (R203 step 6): the defaults in native mode, else the calculator. -/
def initTiming (eff : Format) (width : Nat) (cutThrough : Bool) (s : State) : Res Timing :=
  if s.inst.isNative then .ok ⟨Config.hsaDefault, Config.hbpDefault, s.cfg.hsdDefault⟩ s
  else if cutThrough then timCutThrough s
  else timHsdLegacyOf eff width Config.hsaDefault Config.hbpDefault s

/-- The three timing registers (R203 step 7). -/
def writeTiming (ch : Nat) (t : Timing) (s : State) : Res Unit :=
  (upd (.p (.hsa ch)) t.hsa s).andThen fun _ s =>
  (upd (.p (.hbp ch)) t.hbp s).andThen fun _ s =>
  upd (.p (.hsd ch)) t.hsd s

/-- `x[tpg.pkt2pkt]` if it was supplied, else computed afresh and not stored (R203 step 9, C7). -/
def pkt2pktTime (s : State) : Res Nat :=
  if s.inst.tpgPkt2pkt ≠ 0 then .ok s.inst.tpgPkt2pkt s else timPkt2pkt s

/-- The test-pattern registers (R203 steps 8 and 9). -/
def programTpg (ch : Nat) (dt : BitVec 6) (s : State) : Res Unit :=
  (rd (.p (.ipi ch .vcid)) s).andThen fun v s =>
  let s := s.setInst { s.inst with tpgVc := getField v (fieldPos s.cfg (.vcid ch)), tpgDt := dt.toNat }
  (upd (.p .tpgHorizontal) (bit s.inst.tpgHorizontal) s).andThen fun _ s =>
  (upd (.p .tpgVc) s.inst.tpgVc s).andThen fun _ s =>
  (upd (.p .tpgDt) s.inst.tpgDt s).andThen fun _ s =>
  (pkt2pktTime s).andThen fun p s =>
  upd (.p .pkt2pkt) p s

/-- `init(format, options)` (R203); `height` is not used (R204). -/
def ipiInit (ch width _height format : Nat) (cutThrough : Bool) (adv : Word) : State → Res Unit :=
  withChannel ch <| withFormat format fun f s =>
    let eff := effectiveFormat s f
    let c := classOf s.cfg eff
    (upd (.p (.dt ch)) c.dt.toNat s).andThen fun _ s =>
    (upd (.p (.autoFlush ch)) 1 s).andThen fun _ s =>
    (upd (.p (.color16 ch)) (bit c.color16) s).andThen fun _ s =>
    (upd (.p (.cutThrough ch)) (bit cutThrough) s).andThen fun _ s =>
    (initTiming eff width cutThrough s).andThen fun t s =>
    (writeTiming ch t s).andThen fun _ s =>
    (if s.inst.tpgEnabled then programTpg ch c.dt s else .ok () s).andThen fun _ s =>
    (wr (.p (.ipi ch .advFeatures)) adv s).andThen fun _ s =>
    (softResetPulse configTick ch s).andThen fun _ s =>
    .ok () (setPhase ch .configured s)

/-- The two optional steps of start and stop: the generator when it is configured, the IDI bypass when the instance's flag
is set (R207, R208 steps 3 and 4). -/
def switchOptional (n : Nat) (s : State) : Res Unit :=
  (if s.inst.tpgEnabled then upd (.p .tpgEn) n s else .ok () s).andThen fun _ s =>
  if s.inst.bypass then upd (.p .bypassEn) n s else .ok () s

/-- `start` (R207). -/
def ipiStart (ch : Nat) : State → Res Unit :=
  withChannel ch fun s =>
    (upd (.p (.enable ch)) 1 s).andThen fun _ s =>
    (switchOptional 1 s).andThen fun _ s =>
    .ok () (setPhase ch .enabled s)

/-- `stop`: reverses both and clears the controller reset line (R208). -/
def ipiStop (ch : Nat) : State → Res Unit :=
  withChannel ch fun s =>
    (upd (.p (.enable ch)) 0 s).andThen fun _ s =>
    (switchOptional 0 s).andThen fun _ s =>
    (upd (.p .resetn) 0 s).andThen fun _ s =>
    .ok () (setPhase ch .disabled s)

/-- `reset_and_down(enable)` (R210): release then enable, or disable then hold. -/
def ipiResetAndDown (ch : Nat) (enable : Bool) : State → Res Unit :=
  withChannel ch fun s =>
    if enable then
      (upd (.p (.softrstn ch)) 1 s).andThen fun _ s =>
      (upd (.p (.enable ch)) 1 s).andThen fun _ s =>
      .ok () (setPhase ch .enabled s)
    else
      (upd (.p (.enable ch)) 0 s).andThen fun _ s =>
      (upd (.p (.softrstn ch)) 0 s).andThen fun _ s =>
      .ok () (setPhase ch .disabled s)

/-- IPI_OVERFLOW_RESET as an operation of the configuration context: the accesses its pseudocode fixes, 3 reads and 4
writes (R211, R78, R352). -/
def overflowReset (ch : Nat) : State → Res Unit := overflowResetWith configTick (softResetPulse configTick ch) ch

/-- Entry `i` of a dump (R213, R215): entry 7 is the channel's fatal status, masked with `ebits`, absent for channels
without a category. -/
def dumpEntry (ch : Nat) (mask : BitVec 8) (i : Nat) (s : State) : Res (Option Word) :=
  if mask.getLsbD i then
    if i < 7 then (rd (.p (dumpReg ch i)) s).mapValue some
    else
      match s.cfg.ipiFatalCat[ch]? with
      | some k => (rd (.p (.intSt k)) s).mapValue fun v => some (v &&& (catEntry s.cfg k).ebits)
      | none => .ok none s
  else .ok none s

/-- The entries of a dump in order (R213). -/
def dumpEntries (ch : Nat) (mask : BitVec 8) : List Nat → State → Res (List (Option Word))
  | [], s => .ok [] s
  | i :: rest, s =>
    (dumpEntry ch mask i s).andThen fun v s =>
    (dumpEntries ch mask rest s).mapValue fun vs => v :: vs

/-- `reg_dump` (R213). -/
def ipiRegDump (ch : Nat) (mask : BitVec 8) : State → Res (List (Option Word)) :=
  withChannel ch (dumpEntries ch mask (List.range 8))

/-- `reg_set` (R214): whole-register writes; entry 7 is ignored. -/
def ipiRegSet (ch : Nat) (mask : BitVec 8) (vals : List Word) : State → Res Unit :=
  withChannel ch fun s =>
    forEach (List.range 7)
      (fun i s => if mask.getLsbD i then wr (.p (dumpReg ch i)) (tblGet 0 vals i) s else .ok () s) s

/-- IPI_SET_VC_CFG (R201). -/
def execIpiSetVcCfg (ch vcId : Nat) (embEn : Bool) (vcMode : Nat) (s : State) : Host.Outcome State Fault Refusal :=
  runConfig (fun s => okUnit (ipiSetVcCfgWord ch vcId embEn vcMode s)) s

/-- IPI_INIT (R203). -/
def execIpiInit (ch width height format : Nat) (cutThrough : Bool) (adv : Word) (s : State) :
    Host.Outcome State Fault Refusal :=
  runConfig (fun s => okUnit (ipiInit ch width height format cutThrough adv s)) s

/-- IPI_START (R207). -/
def execIpiStart (ch : Nat) (s : State) : Host.Outcome State Fault Refusal :=
  runConfig (fun s => okUnit (ipiStart ch s)) s

/-- IPI_STOP (R208). -/
def execIpiStop (ch : Nat) (s : State) : Host.Outcome State Fault Refusal :=
  runConfig (fun s => okUnit (ipiStop ch s)) s

/-- IPI_RESET_AND_DOWN (R210). -/
def execIpiResetAndDown (ch : Nat) (enable : Bool) (s : State) : Host.Outcome State Fault Refusal :=
  runConfig (fun s => okUnit (ipiResetAndDown ch enable s)) s

/-- IPI_OVERFLOW_RESET (R211), called directly. -/
def execIpiOverflowReset (ch : Nat) (s : State) : Host.Outcome State Fault Refusal :=
  runConfig (fun s => okUnit (overflowReset ch s)) s

/-- IPI_REG_DUMP (R213). -/
def execIpiRegDump (ch : Nat) (mask : BitVec 8) (s : State) : Host.Outcome State Fault Refusal :=
  runConfig (fun s => (ipiRegDump ch mask s).mapValue .dump) s

/-- IPI_REG_SET (R214). -/
def execIpiRegSet (ch : Nat) (mask : BitVec 8) (v0 v1 v2 v3 v4 v5 v6 v7 : Word) (s : State) :
    Host.Outcome State Fault Refusal :=
  runConfig (fun s => okUnit (ipiRegSet ch mask [v0, v1, v2, v3, v4, v5, v6, v7] s)) s

end Sys2Proof.Machine
end

