-- ==== Sys2Proof/Machine/Commands.lean ====
section
/-! DEFINITION. The eight commands of the configuration message interface (46_commands.md R270 to R281). -/

namespace Sys2Proof.Machine

/-- Dispatch (R270): on a native instance every command is a no-op that ends in `Ok`. -/
def command (body : State → Res Unit) (s : State) : Host.Outcome State Fault Refusal :=
  runConfig (fun s => if s.inst.isNative then .ok .unit s else okUnit (body s)) s

/-- An id outside 0..7 (R270, R279). -/
def unknownCommand (s : State) : Host.Outcome State Fault Refusal :=
  command (raise .invalidArgument) s

/-- The enum check of CMD_SET_VC_CFG, before any write, then `set_vc_cfg` (R271). -/
def cmdSetVcCfg (inst vcId : Nat) (embEn : Bool) (vcMode : Nat) (s : State) : Res Unit :=
  match vcModeOfCode vcMode with
  | some m => ipiSetVcCfg inst vcId embEn m s
  | none => raise .invalidArgument s

/-- Range check, attribute, N_LANES (R272). -/
def cmdSetLanes (lanes : Nat) (s : State) : Res Unit :=
  if lanes < 1 ∨ 4 < lanes then raise .invalidArgument s
  else upd (.p .nLanes) (lanesEnc s.cfg lanes) (s.setInst { s.inst with lanes := some lanes })

/-- Rate and order checks, attribute, power-up (R273). -/
def cmdSetLaneRate (rate : Nat) (s : State) : Res Unit :=
  if rate = 0 then raise .invalidArgument s
  else if s.inst.lanes = none then raise .invalidArgument s
  else dphyPowerup (s.setInst { s.inst with laneRate := some rate })

/-- Two attributes, no register (R274). -/
def cmdSetTpgMode (enable : Bool) (pkt2pkt : Nat) (s : State) : Res Unit :=
  .ok () (s.setInst { s.inst with tpgEnabled := enable, tpgPkt2pkt := pkt2pkt })

/-- One attribute, no register (R275). -/
def cmdSetBypass (bypass : Bool) (s : State) : Res Unit :=
  .ok () (s.setInst { s.inst with bypass := bypass })

/-- `init` with the options of the configuration (R276). -/
def cmdSetFormat (inst width height format : Nat) (s : State) : Res Unit :=
  ipiInit inst width height format s.cfg.cutThrough s.cfg.advFeatures s

/-- Start or stop (R277). -/
def cmdSetState (inst : Nat) (start : Bool) (s : State) : Res Unit :=
  if start then ipiStart inst s else ipiStop inst s

/-- The controller reset pulse: held, then released (R278). -/
def cmdResetControl (s : State) : Res Unit :=
  (upd (.p .resetn) 0 s).andThen fun _ s => upd (.p .resetn) 1 s

/-- CMD_SET_VC_CFG (R271). -/
def execCmdSetVcCfg (inst vcId : Nat) (embEn : Bool) (vcMode : Nat) (s : State) : Host.Outcome State Fault Refusal :=
  command (cmdSetVcCfg inst vcId embEn vcMode) s

/-- CMD_SET_LANES (R272); `inst` is ignored (R281). -/
def execCmdSetLanes (_inst lanes : Nat) (s : State) : Host.Outcome State Fault Refusal :=
  command (cmdSetLanes lanes) s

/-- CMD_SET_LANE_RATE (R273); `inst` is ignored. -/
def execCmdSetLaneRate (_inst rate : Nat) (s : State) : Host.Outcome State Fault Refusal :=
  command (cmdSetLaneRate rate) s

/-- CMD_SET_TPG_MODE (R274); `inst` is ignored. -/
def execCmdSetTpgMode (_inst : Nat) (enable : Bool) (pkt2pkt : Nat) (s : State) : Host.Outcome State Fault Refusal :=
  command (cmdSetTpgMode enable pkt2pkt) s

/-- CMD_SET_BYPASS (R275); `inst` is ignored. -/
def execCmdSetBypass (_inst : Nat) (bypass : Bool) (s : State) : Host.Outcome State Fault Refusal :=
  command (cmdSetBypass bypass) s

/-- CMD_SET_FORMAT (R276). -/
def execCmdSetFormat (inst width height format : Nat) (s : State) : Host.Outcome State Fault Refusal :=
  command (cmdSetFormat inst width height format) s

/-- CMD_SET_STATE (R277). -/
def execCmdSetState (inst : Nat) (start : Bool) (s : State) : Host.Outcome State Fault Refusal :=
  command (cmdSetState inst start) s

/-- CMD_RESET_CONTROL (R278); `inst` is ignored. -/
def execCmdResetControl (_inst : Nat) (s : State) : Host.Outcome State Fault Refusal :=
  command cmdResetControl s

end Sys2Proof.Machine
end

