-- ==== Sys2Proof/Machine/Irq.lean ====
section
/-! DEFINITION. Family 0x6n: the interrupt and fault dispatcher (45_irq.md R240 to R252). The handler itself, which the
platform may start between any two accesses, is `takeInterrupt` in Machine/Ops.lean. -/

namespace Sys2Proof.Machine

/-- Unmask category `k`: `Wr(P, INT_MSK[k], CAT[k].ebits)` (R241). -/
def unmaskCategory (k : Nat) (s : State) : Res Unit := wr (.p (.intMsk k)) (catEntry s.cfg k).ebits s

/-- Mask category `k`: `Wr(P, INT_MSK[k], 0)` (R241). -/
def maskCategory (k : Nat) (s : State) : Res Unit := wr (.p (.intMsk k)) 0 s

/-- `enable()`: all 14 categories in table order (R242). -/
def irqEnable (s : State) : Res Unit := forEach (List.range Config.numCat) unmaskCategory s

/-- `disable()` (R243). -/
def irqDisable (s : State) : Res Unit := forEach (List.range Config.numCat) maskCategory s

/-- Category `k` is named by a bitmask: its id bit is set (R244). -/
def namedBy (c : Cfg) (bitmask k : Nat) : Bool := bitmask.testBit (catEntry c k).id

/-- `disable_by_mask(bitmask)` (R244): the result is computed from the bitmask alone (R245). -/
def irqDisableByMask (bitmask : Nat) (s : State) : Res Bool :=
  (forEach (List.range Config.numCat)
    (fun k s => if namedBy s.cfg bitmask k then maskCategory k s else .ok () s) s).mapValue
    fun _ => (List.range Config.numCat).any fun k => !namedBy s.cfg bitmask k

/-- IRQ_ENABLE (R242). -/
def execIrqEnable (s : State) : Host.Outcome State Fault Refusal :=
  runConfig (fun s => okUnit (irqEnable s)) s

/-- IRQ_DISABLE (R243). -/
def execIrqDisable (s : State) : Host.Outcome State Fault Refusal :=
  runConfig (fun s => okUnit (irqDisable s)) s

/-- IRQ_DISABLE_BY_MASK (R244). -/
def execIrqDisableByMask (bitmask : Nat) (s : State) : Host.Outcome State Fault Refusal :=
  runConfig (fun s => (irqDisableByMask bitmask s).mapValue .bool) s

/-- IRQ_HANDLE, started directly (R246, R247); never while the handler runs (R311; notes/assumptions/22.md). -/
def execIrqHandle (s : State) : Host.Outcome State Fault Refusal :=
  if s.ctx = .interrupt then .fault .preconditionViolated else finish (okUnit (takeInterrupt s))

end Sys2Proof.Machine
end

