-- ==== Sys2Proof/Machine/Power.lean ====
section
/-! DEFINITION. Family 0x7n: the power hooks (46_commands.md R282 to R285). -/

namespace Sys2Proof.Machine

def Clocks.get (k : Clocks) : Clk → ClkState
  | .ipi => k.ipi
  | .pclk => k.pclk
  | .cfg => k.cfg

def Clocks.put (k : Clocks) (c : Clk) (v : ClkState) : Clocks :=
  match c with
  | .ipi => { k with ipi := v }
  | .pclk => { k with pclk := v }
  | .cfg => { k with cfg := v }

def ClkAnswers.get (k : ClkAnswers) : Clk → Bool
  | .ipi => k.ipi
  | .pclk => k.pclk
  | .cfg => k.cfg

/-- The enable order (R283) and the disable order (R284). -/
def enableOrder : List Clk := [.ipi, .pclk, .cfg]
def disableOrder : List Clk := [.cfg, .pclk, .ipi]

/-- `clk[c] <- v`. -/
def setClock (c : Clk) (v : ClkState) (s : State) : State := s.setClk (s.clk.put c v)

/-- Some present clock is in state `v`. -/
def someClock (k : Clocks) (v : ClkState) : Bool := enableOrder.any fun c => k.get c == v

/-- Every register of P, X and W and every byte of T holds a fresh arbitrary value: a new draw (R61, R63, R283). -/
def redraw (s : State) : State :=
  { s with
    draw := s.draw + 1
    p := Bank.drawn s.cfg (s.draw + 1) .p
    x := Bank.drawn s.cfg (s.draw + 1) .x
    w := wrapperDrawn s.cfg (s.draw + 1)
    t := [] }

/-- The clocks are on again: registers drawn, the phases Reset and Disabled, the test trace and the event list empty
(R63, R283, R331; notes/assumptions/12.md). -/
def powerOn (s : State) : State :=
  { redraw s with
    dphy := .reset
    ch := List.replicate Config.maxPixCh .disabled
    testTrace := []
    events := [] }

/-- The clocks are gone: registers and phases become unknown (R61; notes/assumptions/12.md). -/
def powerLost (s : State) : State :=
  { redraw s with
    dphy := Config.lostDphy (s.draw + 1)
    ch := (List.range Config.maxPixCh).map (Config.lostCh (s.draw + 1)) }

/-- The enable loop with its rollback: clocks that are off are enabled in order; when one fails, those this call enabled
go off again in reverse order and the call fails (R283; notes/assumptions/13.md). `done` is newest first. -/
def enableClocks : List Clk → List Clk → State → Res Unit
  | [], _, s => .ok () s
  | c :: rest, done, s =>
    match s.clk.get c with
    | .absent => enableClocks rest done s
    | .on => enableClocks rest done s
    | .off =>
      if s.clkOk.get c then enableClocks rest (c :: done) (setClock c .on s)
      else raise .invalidArgument (done.foldl (fun s d => setClock d .off s) s)

/-- Resume (R283): the registers are redrawn only when a clock went from off to on. DEDUCED, unsafe: with no clock off, all
three absent among them, the phases stay as they are too (notes/assumptions/40.md). -/
def pwrResume (s : State) : Res Unit :=
  (enableClocks enableOrder [] s).andThen fun _ s' =>
    .ok () (if someClock s.clk .off then powerOn s' else s')

/-- The disable loop: every present clock off (R284). -/
def disableClocks (s : State) : State :=
  disableOrder.foldl (fun s c => if s.clk.get c = .absent then s else setClock c .off s) s

/-- Suspend (R284): the register state is lost when a clock that was on goes off (R61). -/
def pwrSuspend (s : State) : Res Unit :=
  .ok () (if someClock s.clk .on then powerLost (disableClocks s) else disableClocks s)

/-- PWR_RESUME (R283). -/
def execPwrResume (s : State) : Host.Outcome State Fault Refusal :=
  runConfig (fun s => okUnit (pwrResume s)) s

/-- PWR_SUSPEND (R284). -/
def execPwrSuspend (s : State) : Host.Outcome State Fault Refusal :=
  runConfig (fun s => okUnit (pwrSuspend s)) s

end Sys2Proof.Machine
end

