-- ==== Sys2Proof/Machine/RegAccess.lean ====
section
/-! DEFINITION. Family 0x1n: REG_READ, REG_WRITE, REG_READ_EXT, REG_WRITE_EXT (40_regaccess.md R110 to R114). -/

namespace Sys2Proof.Machine

/-- The register at an offset of a window, for an access: the window's preconditions first (R110), then the offset must be
mapped and a multiple of 4 (R73). -/
def atOffset {α : Type} (space : PReg → Loc) (offset : Nat) (body : PReg → State → Res α) (s : State) : Res α :=
  if accessible s (space .version) then
    match regAt s.cfg offset with
    | some r => body r s
    | none => .stop .unmappedOffset
  else .stop .preconditionViolated

/-- `return Ok(MemRead(space:offset, 4))` (R111, R113). -/
def memRead (space : PReg → Loc) (offset : Nat) (s : State) : Res Value :=
  atOffset space offset (fun r s => (rd (space r) s).mapValue .word) s

/-- `MemWrite(space:offset, 4, value); return Ok` (R112, R114). -/
def memWrite (space : PReg → Loc) (offset : Nat) (value : Word) (s : State) : Res Value :=
  okUnit (atOffset space offset (fun r s => wr (space r) value s) s)

/-- REG_READ (R111). -/
def execRegRead (offset : Nat) (s : State) : Host.Outcome State Fault Refusal :=
  runConfig (memRead .p offset) s

/-- REG_WRITE (R112). -/
def execRegWrite (offset : Nat) (value : Word) (s : State) : Host.Outcome State Fault Refusal :=
  runConfig (memWrite .p offset value) s

/-- REG_READ_EXT (R113). -/
def execRegReadExt (offset : Nat) (s : State) : Host.Outcome State Fault Refusal :=
  runConfig (memRead .x offset) s

/-- REG_WRITE_EXT (R114). -/
def execRegWriteExt (offset : Nat) (value : Word) (s : State) : Host.Outcome State Fault Refusal :=
  runConfig (memWrite .x offset value) s

end Sys2Proof.Machine
end

