-- ==== Sys2Proof/Machine/Dispatch.lean ====
section
/-! DEFINITION. The dispatch: one arm per instruction, each one direct call of its meaning. -/

namespace Sys2Proof.Machine

def exec (i : Instr) (s : State) : Host.Outcome State Fault Refusal :=
  match i with
  | .cmdSetVcCfg inst vcId embEn vcMode => Sys2Proof.Machine.execCmdSetVcCfg inst vcId embEn vcMode s
  | .cmdSetLanes inst lanes => Sys2Proof.Machine.execCmdSetLanes inst lanes s
  | .cmdSetLaneRate inst rate => Sys2Proof.Machine.execCmdSetLaneRate inst rate s
  | .cmdSetTpgMode inst enable pkt2pkt => Sys2Proof.Machine.execCmdSetTpgMode inst enable pkt2pkt s
  | .cmdSetBypass inst bypass => Sys2Proof.Machine.execCmdSetBypass inst bypass s
  | .cmdSetFormat inst width height format => Sys2Proof.Machine.execCmdSetFormat inst width height format s
  | .cmdSetState inst start => Sys2Proof.Machine.execCmdSetState inst start s
  | .cmdResetControl inst => Sys2Proof.Machine.execCmdResetControl inst s
  | .regRead offset => Sys2Proof.Machine.execRegRead offset s
  | .regWrite offset value => Sys2Proof.Machine.execRegWrite offset value s
  | .regReadExt offset => Sys2Proof.Machine.execRegReadExt offset s
  | .regWriteExt offset value => Sys2Proof.Machine.execRegWriteExt offset value s
  | .wrapEnableClock id => Sys2Proof.Machine.execWrapEnableClock id s
  | .wrapForceRxMode id lanes force => Sys2Proof.Machine.execWrapForceRxMode id lanes force s
  | .wrapGetLaneMode id => Sys2Proof.Machine.execWrapGetLaneMode id s
  | .wrapSetLaneMode id merged => Sys2Proof.Machine.execWrapSetLaneMode id merged s
  | .wrapSetHsfreqrange id rate => Sys2Proof.Machine.execWrapSetHsfreqrange id rate s
  | .wrapEnablePpipgClk enable => Sys2Proof.Machine.execWrapEnablePpipgClk enable s
  | .wrapSetTestcode id code => Sys2Proof.Machine.execWrapSetTestcode id code s
  | .wrapTestcodeSelOtherPhy id select => Sys2Proof.Machine.execWrapTestcodeSelOtherPhy id select s
  | .dphyReset => Sys2Proof.Machine.execDphyReset s
  | .dphyPowerup => Sys2Proof.Machine.execDphyPowerup s
  | .dphyPowerupStd id lanes rate => Sys2Proof.Machine.execDphyPowerupStd id lanes rate s
  | .dphyPowerupMerged id lanes rate => Sys2Proof.Machine.execDphyPowerupMerged id lanes rate s
  | .dphyTestWrite id other code data => Sys2Proof.Machine.execDphyTestWrite id other code data s
  | .dphyWaitStopstate n => Sys2Proof.Machine.execDphyWaitStopstate n s
  | .timClassify fmt => Sys2Proof.Machine.execTimClassify fmt s
  | .timHsdLegacy fmt width hsa hbp => Sys2Proof.Machine.execTimHsdLegacy fmt width hsa hbp s
  | .timCutThrough => Sys2Proof.Machine.execTimCutThrough s
  | .timPkt2pkt => Sys2Proof.Machine.execTimPkt2pkt s
  | .ipiSetVcCfg ch vcId embEn vcMode => Sys2Proof.Machine.execIpiSetVcCfg ch vcId embEn vcMode s
  | .ipiInit ch width height format cutThrough adv => Sys2Proof.Machine.execIpiInit ch width height format cutThrough adv s
  | .ipiStart ch => Sys2Proof.Machine.execIpiStart ch s
  | .ipiStop ch => Sys2Proof.Machine.execIpiStop ch s
  | .ipiResetAndDown ch enable => Sys2Proof.Machine.execIpiResetAndDown ch enable s
  | .ipiOverflowReset ch => Sys2Proof.Machine.execIpiOverflowReset ch s
  | .ipiRegDump ch mask => Sys2Proof.Machine.execIpiRegDump ch mask s
  | .ipiRegSet ch mask v0 v1 v2 v3 v4 v5 v6 v7 => Sys2Proof.Machine.execIpiRegSet ch mask v0 v1 v2 v3 v4 v5 v6 v7 s
  | .irqEnable => Sys2Proof.Machine.execIrqEnable s
  | .irqDisable => Sys2Proof.Machine.execIrqDisable s
  | .irqDisableByMask bitmask => Sys2Proof.Machine.execIrqDisableByMask bitmask s
  | .irqHandle => Sys2Proof.Machine.execIrqHandle s
  | .pwrResume => Sys2Proof.Machine.execPwrResume s
  | .pwrSuspend => Sys2Proof.Machine.execPwrSuspend s

end Sys2Proof.Machine
end

