-- ==== Sys2Proof/Machine/Step.lean ====
section
/-! DEFINITION. One step: the next delivered command or operation is decoded and run to completion (30_encoding.md R90, R95;
60_exceptions.md R316). With nothing delivered the block idles and the other agents may act (R317). -/

namespace Sys2Proof.Machine

/-- An idle step: the next moves of the schedule, among them interrupts (R308, R317; notes/assumptions/4.md). -/
def idleStep (s : State) : Host.Outcome State Fault Refusal :=
  match configTick s with
  | .ok _ s => .next s
  | .err e s => .next (takeError e s)
  | .stop f => .fault f

/-- A decoded delivery runs: an instruction by `exec`, an unknown command id by R270 and R279; what names no operation is
refused (R97). -/
def runDecoded (d : Decoded) (s : State) : Host.Outcome State Fault Refusal :=
  match d with
  | .instr i => exec i s
  | .unknownCommand _ => unknownCommand s
  | .unknownSelector sel => .refused (.unknownSelector sel)
  | .truncated => .refused .truncatedDelivery

/-- One step of the machine. -/
def step (s : State) : Host.Outcome State Fault Refusal :=
  match s.inbox with
  | [] => idleStep s
  | d :: later => runDecoded (decode d) (s.setInbox later)

/-- The state with an instruction of the opcode table placed at the head of the delivery queue, which is where the next
step takes its instruction from (notes/assumptions/4.md). -/
def State.withFetchWord (s : State) (nbits w : Nat) : State :=
  s.setInbox (tableDelivery nbits w :: s.inbox)

end Sys2Proof.Machine
end

