-- ==== Sys2Proof/Safety.lean ====
section
/-! DEFINITION. What a legal configuration is (92_eei_decisions.md section 2), when the block is ready for an operation, what
a good state is, and how statements say that the rest of a state is unchanged. -/

namespace Sys2Proof.Machine

/-! ## Legal configurations -/

/-- Two fields of one register that share no bit. -/
def FieldsApart (p q : FieldPos) : Prop :=
  p.lo + p.width ≤ q.lo ∨ q.lo + q.width ≤ p.lo ∨ p.width = 0 ∨ q.width = 0

/-- The width the rules give a field of P, where they give one (10_state.md R32 to R51, constraint (d)). -/
def PField.ruleWidth : PField → Option Nat
  | .nLanes => none
  | .tpgVc => none
  | .pkt2pkt => none
  | .vcid _ => none
  | .tpgDt => some 6
  | .dt _ => some 6
  | .hsa _ => some 12
  | .hbp _ => some 12
  | .hsd _ => some 12
  | .softrstn ch => if ch < Config.maxPixCh then some 1 else none
  | _ => some 1

/-- The width the rules give a wrapper field that exists (R54 to R56, constraint (d)). -/
def WField.ruleWidth : WField → Option Nat
  | .enableclk id => if id < Config.numPhy then some 1 else none
  | .hsfreqrange id => if id < Config.numPhy then some 7 else none
  | .ctrlSel k => if k < Config.numPhy / 2 then some 1 else none
  | .selOther id => if id < Config.numPhy then some 1 else none
  | .ppipgClkEn => some 1
  | _ => none

/-- A wrapper field that exists (R54 to R56). -/
def WField.Exists : WField → Prop
  | .enableclk id => id < Config.numPhy
  | .forcerxmode id => id < Config.numPhy
  | .hsfreqrange id => id < Config.numPhy
  | .ctrlSel k => k < Config.numPhy / 2
  | .testcode id => id < Config.numPhy
  | .selOther id => id < Config.numPhy
  | .ppipgClkEn => True

/-- The constraints the spec puts on the configuration: 00_scope.md R6, 92_eei_decisions.md section 2 (a) to (g). -/
structure LegalCfg (c : Cfg) : Prop where
  numInst : 2 ≤ c.numInst ∧ c.numInst ≤ 9
  hsdDefault : Config.hsdMin ≤ c.hsdDefault ∧ c.hsdDefault ≤ Config.hsdMax
  offsetsAligned : ∀ r ∈ bankRegs c, offsetOf c r % 4 = 0
  offsetsDistinct : ((bankRegs c).map (offsetOf c)).Nodup
  fieldsFit : ∀ f, (placeOf c f).lo + (placeOf c f).width ≤ 32
  fieldsApart : ∀ f g : PField, f ≠ g → f.reg = g.reg → FieldsApart (fieldPos c f) (fieldPos c g)
  fieldWidths : ∀ (f : PField) (n : Nat), f.ruleWidth = some n → (fieldPos c f).width = n
  wrapperApart : ∀ f g : WField, f ≠ g → (wrapperPos c f).word = (wrapperPos c g).word →
    FieldsApart (placeOf c (.w f)) (placeOf c (.w g))
  wrapperWidths : ∀ (f : WField) (n : Nat), f.ruleWidth = some n → (wrapperPos c f).width = n
  wrapperWords : ∀ f : WField, f.Exists → (wrapperPos c f).word < c.map.wWords
  pairWord : ∀ k < Config.numPhy / 2, ∀ f ∈ [WField.forcerxmode (2 * k), .hsfreqrange (2 * k), .enableclk (2 * k + 1),
    .forcerxmode (2 * k + 1), .hsfreqrange (2 * k + 1)], (wrapperPos c f).word = (wrapperPos c (.enableclk (2 * k))).word
  testcodeWidths : ∀ id < Config.numPhy, (wrapperPos c (.testcode id)).width = testcodeWidth c
  catCount : c.cat.length = Config.numCat
  catIds : ∀ k < Config.numCat, (catEntry c k).id = k
  mainbits : ∀ k < Config.numCat, (catEntry c k).mainbit ≠ 0
  mainbitsApart : ∀ j < Config.numCat, ∀ k < Config.numCat, j ≠ k →
    (catEntry c j).mainbit &&& (catEntry c k).mainbit = 0
  fatalCats : c.ipiFatalCat.length = 4 ∧ c.ipiFatalCat.Nodup ∧ ∀ k ∈ c.ipiFatalCat, k < Config.numCat
  overflowDefined : ∀ k ∈ c.ipiFatalCat, (catEntry c k).ebits.getLsbD c.ipiOvfBit = true

/-! ## When the block is ready for an operation -/

/-- No other agent acts while the operation runs: its schedule of moves is empty. -/
def Quiet (s : State) : Prop := s.env = []

/-- No configuration operation is in flight and the configuration context runs (60_exceptions.md R315, R316). -/
def Idle (s : State) : Prop := s.opInFlight = false ∧ s.ctx = .config

/-- Every window can be accessed: the bases are configured and every present clock is on (R110, R285). -/
def Powered (s : State) : Prop :=
  clocksOn s.clk = true ∧ s.inst.baseP.isSome = true ∧ s.inst.baseX.isSome = true ∧ s.inst.baseW.isSome = true

/-- A state in which an operation starts and runs undisturbed. -/
structure Ready (s : State) : Prop where
  legal : LegalCfg s.cfg
  quiet : Quiet s
  idle : Idle s
  powered : Powered s

/-- The attributes the timing calculator needs (43_timing.md R170). -/
def TimingInputs (s : State) (lanes rate : Nat) : Prop :=
  s.inst.lanes = some lanes ∧ s.inst.laneRate = some rate ∧ 1 ≤ lanes ∧ lanes ≤ 4 ∧ 0 < rate ∧ 0 < s.inst.pixclk

/-- A pixel channel of the instance (10_state.md R23). -/
def PixelChannel (s : State) (ch : Nat) : Prop := ch < s.cfg.numInst - 1

/-! ## Good states -/

/-- The sizes of the register tables of a bank. -/
def Bank.Sized (c : Cfg) (b : Bank) : Prop :=
  b.dataIds.length = c.map.dataIds.length ∧ b.ipi.length = Config.maxPixCh ∧ b.intSt.length = Config.numCat ∧
  b.intMsk.length = Config.numCat ∧ b.intForce.length = Config.numCat

/-- What holds between any two steps: a legal configuration, the invariants of R22, the range of the PHY index (R21), a
6-bit data type (R21), the byte memory in canonical form and inside space T (R57), tables of the size the spec gives, and
no operation in flight (R316). -/
structure Good (s : State) : Prop where
  legal : LegalCfg s.cfg
  idle : Idle s
  id : s.inst.id < Config.numPhy
  lanes : ∀ n, s.inst.lanes = some n → 1 ≤ n ∧ n ≤ 4
  laneRate : ∀ r, s.inst.laneRate = some r → 0 < r
  pixclk : 0 < s.inst.pixclk
  tpgDt : s.inst.tpgDt < 2 ^ 6
  memory : Memory.wf s.draw s.t = true
  memorySpace : ∀ a ∈ s.t, a.1 < Config.numPhy * 2 ^ testcodeWidth s.cfg
  bankP : Bank.Sized s.cfg s.p
  bankX : Bank.Sized s.cfg s.x
  wrapper : s.w.length = s.cfg.map.wWords
  phases : s.ch.length = Config.maxPixCh

/-! ## Frames -/

/-- Every register of a bank outside a list holds what it held. -/
def Bank.SameBut (b b' : Bank) (regs : List PReg) : Prop := ∀ r, r ∉ regs → b'.get r = b.get r

/-- Every byte of the test registers, space T, reads as before. -/
def SameMemory (s t : State) : Prop := ∀ a, Memory.read t.draw t.t a = Memory.read s.draw s.t a

/-- Of `s`, only registers of P in the list differ in `t`, beside the trace and the result. -/
structure OnlyP (s t : State) (regs : List PReg) : Prop where
  rest : t = { s with p := t.p, trace := t.trace, result := t.result }
  bank : Bank.SameBut s.p t.p regs
  memory : SameMemory s t

/-- The same for X. -/
structure OnlyX (s t : State) (regs : List PReg) : Prop where
  rest : t = { s with x := t.x, trace := t.trace, result := t.result }
  bank : Bank.SameBut s.x t.x regs
  memory : SameMemory s t

/-- Only registers of P in the list and `ch_state[ch]` differ, beside the trace and the result. -/
structure OnlyPAndPhase (s t : State) (ch : Nat) (regs : List PReg) : Prop where
  rest : t = { s with p := t.p, ch := t.ch, trace := t.trace, result := t.result }
  bank : Bank.SameBut s.p t.p regs
  phases : ∀ c, c ≠ ch → phaseOf t c = phaseOf s c
  memory : SameMemory s t

/-- The words of the wrapper after one field update (R78). -/
def wSet (c : Cfg) (w : List Word) (f : WField) (n : Nat) : List Word :=
  tblPut 0 w (wrapperPos c f).word (setField (tblGet 0 w (wrapperPos c f).word) (placeOf c (.w f)) n)

/-- Exactly one wrapper field was written, beside the trace and the result: its word by `set` (R8), its value truncated to
the field, every other field and every other word as before (R120). -/
structure WroteWrapper (s t : State) (f : WField) (n : Nat) : Prop where
  rest : t = { s with w := t.w, trace := t.trace, result := t.result }
  words : t.w = wSet s.cfg s.w f n
  value : wField t f = n % 2 ^ (wrapperPos s.cfg f).width
  others : ∀ g, g ≠ f → wField t g = wField s g
  memory : SameMemory s t

/-- The register an access writes. -/
def Access.written : Access → Option Loc
  | .wr l _ => some l
  | .rd _ _ => none

/-- The registers an operation wrote, in order: the writes of the trace since `s`. -/
def writtenSince (s t : State) : List Loc := (t.trace.drop s.trace.length).filterMap Access.written

/-- A read of the main status or of a category's status register (45_irq.md R246). -/
def isStatusRead : Access → Bool
  | .rd (.p .intStMain) _ => true
  | .rd (.p (.intSt _)) _ => true
  | _ => false

/-- `idx(rate)` by the intervals of 41_wrapper.md R126, for a rate of at least 160. -/
def rangeIndex (rate : Nat) : Nat :=
  if 2500 ≤ rate then 0 else if 2000 ≤ rate then 1 else if 1500 ≤ rate then 2 else if 1000 ≤ rate then 3
  else if 800 ≤ rate then 4 else if 600 ≤ rate then 5 else if 500 ≤ rate then 6 else if 400 ≤ rate then 7
  else if 300 ≤ rate then 8 else if 205 ≤ rate then 9 else if 190 ≤ rate then 10 else 11

/-! ## Domains -/

/-- The operations of 60_exceptions.md R304, which never end in `Err`. -/
def neverErrs : Instr → Bool
  | .regRead .. => true
  | .regWrite .. => true
  | .regReadExt .. => true
  | .regWriteExt .. => true
  | .wrapEnableClock .. => true
  | .wrapForceRxMode .. => true
  | .wrapGetLaneMode .. => true
  | .wrapSetLaneMode .. => true
  | .wrapSetHsfreqrange .. => false
  | .wrapEnablePpipgClk .. => true
  | .wrapSetTestcode .. => true
  | .wrapTestcodeSelOtherPhy .. => true
  | .dphyReset => true
  | .dphyPowerup => false
  | .dphyPowerupStd .. => false
  | .dphyPowerupMerged .. => false
  | .dphyTestWrite .. => true
  | .dphyWaitStopstate .. => false
  | .timClassify .. => false
  | .timHsdLegacy .. => false
  | .timCutThrough => true
  | .timPkt2pkt => true
  | .ipiSetVcCfg .. => false
  | .ipiInit .. => false
  | .ipiStart .. => false
  | .ipiStop .. => false
  | .ipiResetAndDown .. => false
  | .ipiOverflowReset .. => false
  | .ipiRegDump .. => false
  | .ipiRegSet .. => false
  | .irqEnable => true
  | .irqDisable => true
  | .irqDisableByMask .. => true
  | .irqHandle => true
  | .pwrResume => false
  | .pwrSuspend => true
  | .cmdSetVcCfg .. => false
  | .cmdSetLanes .. => false
  | .cmdSetLaneRate .. => false
  | .cmdSetTpgMode .. => true
  | .cmdSetBypass .. => true
  | .cmdSetFormat .. => false
  | .cmdSetState .. => false
  | .cmdResetControl .. => true

/-- The attributes IPI_INIT computes with: the timing of a bridged instance, and the packet time of the test-pattern
generator when none was supplied (44_ipi.md R203 steps 6 and 9). -/
def InitInputs (s : State) : Prop :=
  (∃ lanes rate, TimingInputs s lanes rate) ∨
  (s.inst.isNative = true ∧ (s.inst.tpgEnabled = false ∨ s.inst.tpgPkt2pkt ≠ 0))

/-- An instruction's operands and attributes meet the preconditions of 60_exceptions.md R314. -/
def InDomain (s : State) : Instr → Prop
  | .regRead offset => ∃ r, regAt s.cfg offset = some r
  | .regWrite offset _ => ∃ r, regAt s.cfg offset = some r
  | .regReadExt offset => ∃ r, regAt s.cfg offset = some r
  | .regWriteExt offset _ => ∃ r, regAt s.cfg offset = some r
  | .wrapEnableClock id => id < Config.numPhy
  | .wrapForceRxMode id lanes _ => id < Config.numPhy ∧ 1 ≤ lanes ∧ lanes ≤ 4
  | .wrapGetLaneMode id => id < Config.numPhy
  | .wrapSetLaneMode id _ => id < Config.numPhy
  | .wrapSetHsfreqrange id _ => id < Config.numPhy
  | .wrapEnablePpipgClk _ => True
  | .wrapSetTestcode id _ => id < Config.numPhy
  | .wrapTestcodeSelOtherPhy id _ => id < Config.numPhy
  | .dphyReset => True
  | .dphyPowerup => (∃ lanes, s.inst.lanes = some lanes) ∧ ∃ rate, s.inst.laneRate = some rate
  | .dphyPowerupStd id lanes _ => id < Config.numPhy ∧ 1 ≤ lanes ∧ lanes ≤ 4
  | .dphyPowerupMerged id lanes _ => id < Config.numPhy ∧ 1 ≤ lanes ∧ lanes ≤ 4
  | .dphyTestWrite id _ _ _ => id < Config.numPhy
  | .dphyWaitStopstate n => 1 ≤ n ∧ n ≤ 4
  | .timClassify _ => True
  | .timHsdLegacy _ _ _ _ => ∃ lanes rate, TimingInputs s lanes rate
  | .timCutThrough => ∃ lanes rate, TimingInputs s lanes rate
  | .timPkt2pkt => ∃ lanes rate, TimingInputs s lanes rate
  | .ipiSetVcCfg _ _ _ _ => True
  | .ipiInit _ _ _ _ _ _ => InitInputs s
  | .ipiStart _ => True
  | .ipiStop _ => True
  | .ipiResetAndDown _ _ => True
  | .ipiOverflowReset _ => True
  | .ipiRegDump _ _ => True
  | .ipiRegSet _ _ _ _ _ _ _ _ _ _ => True
  | .irqEnable => True
  | .irqDisable => True
  | .irqDisableByMask _ => True
  | .irqHandle => True
  | .pwrResume => True
  | .pwrSuspend => True
  | .cmdSetVcCfg _ _ _ _ => True
  | .cmdSetLanes _ _ => True
  | .cmdSetLaneRate _ _ => True
  | .cmdSetTpgMode _ _ _ => True
  | .cmdSetBypass _ _ => True
  | .cmdSetFormat _ _ _ _ => InitInputs s
  | .cmdSetState _ _ => True
  | .cmdResetControl _ => True

/-- The moves that break no rule of the platform: a second operation in flight is none (R316). -/
def Lawful (moves : List EnvMove) : Prop := EnvMove.secondOp ∉ moves

/-- Software breaks no rule: the schedule starts no second operation. -/
def LawfulEnv (s : State) : Prop := ∀ moves ∈ s.env, Lawful moves

/-- A safe step: it does not end in a model-level fault (R314). -/
def SafeStep (s : State) : Prop := ∀ f, step s ≠ .fault f

end Sys2Proof.Machine
end

