-- ==== Sys2Proof/Certificates/Slice0/Obligations.lean ====
section
/-! DEFINITION. The statements for the provers. Each says which rules of spec/ it formalises; OBLIGATIONS.json lists them.
A statement about one operation is about an undisturbed one (`Ready`: a legal configuration, no other agent's move, clocks
and bases present); the invariants, the domain statement and the litmus statements are about every environment. -/

open Sys2Proof Sys2Proof.Machine

/-! ## Encoding and the step -/

/-- 30_encoding.md R91 to R95: the encoding of an instruction decodes to it, whatever its operands. -/
def Obligations.DecodeInvertsEncode : Prop :=
  ∀ i : Instr, i.wellFormed = true → decode (encode i) = .instr i

/-- R94: every operand of a decoded instruction is an unsigned 32-bit number. -/
def Obligations.DecodedInstructionsAreWellFormed : Prop :=
  ∀ (d : Delivery) (i : Instr), decode d = .instr i → i.wellFormed = true

/-- A step takes the next delivery and runs the instruction it decodes to; with nothing delivered and no other agent it
does nothing (60_exceptions.md R316; notes/assumptions/4.md). -/
def Obligations.StepRunsTheDecodedInstruction : Prop :=
  (∀ (s : State) (d : Delivery) (later : List Delivery) (i : Instr),
    s.inbox = d :: later → decode d = .instr i → step s = exec i (s.setInbox later)) ∧
  (∀ s : State, s.inbox = [] → Quiet s → step s = .next s)

/-- Some words of 46_commands.md's examples and 95_test_vectors.md decode to their instructions; a TIM_HSD_LEGACY record that
ends before `hbp`, or before `hsa`, has their defaults (43_timing.md R174; that a short record stands for an operand left
out is the model's layout: notes/assumptions/5.md). -/
def Obligations.SampleWordsDecode : Prop :=
  decode ⟨.msg, bytesOfWords [0, 0, 1, 1, 0]⟩ = .instr (.cmdSetVcCfg 0 1 true 0) ∧
  decode ⟨.msg, [1, 0, 0, 0, 0, 0, 0, 0, 4, 0, 0, 0]⟩ = .instr (.cmdSetLanes 0 4) ∧
  decode ⟨.msg, bytesOfWords [2, 0, 800]⟩ = .instr (.cmdSetLaneRate 0 800) ∧
  decode ⟨.msg, bytesOfWords [5, 1, 1920, 1080, 1]⟩ = .instr (.cmdSetFormat 1 1920 1080 1) ∧
  decode ⟨.msg, bytesOfWords [7, 0]⟩ = .instr (.cmdResetControl 0) ∧
  decode ⟨.op, bytesOfWords [0x24, 1, 1499]⟩ = .instr (.wrapSetHsfreqrange 1 1499) ∧
  decode ⟨.op, bytesOfWords [0x62, 0x3fff]⟩ = .instr (.irqDisableByMask 0x3fff) ∧
  decode ⟨.op, bytesOfWords [0x41, 1, 1920]⟩ = .instr (.timHsdLegacy 1 1920 4 4) ∧
  decode ⟨.op, bytesOfWords [0x41, 1, 1920, 7]⟩ = .instr (.timHsdLegacy 1 1920 7 4)

/-- 46_commands.md R279: an unknown command id ends in InvalidArgument without a change; on a native instance in `Ok`. -/
def Obligations.UnknownCommandIdIsRejected : Prop :=
  ∀ (s : State) (later : List Delivery) (id : Word) (payload : List Word),
    8 ≤ id.toNat → s.opInFlight = false → s.inbox = ⟨.msg, bytesOfWords (id :: payload)⟩ :: later →
    step s = .next { s with
      inbox := later
      result := some (if s.inst.isNative then .ok .unit else .err .invalidArgument) }

/-- 30_encoding.md R97, the OP half: a selector that R95 does not list names no operation and is refused. -/
def Obligations.UnknownSelectorIsRefused : Prop :=
  ∀ (s : State) (later : List Delivery) (sel : Word) (operands : List Word),
    sel.toNat ∉ [0x10, 0x11, 0x12, 0x13, 0x20, 0x21, 0x22, 0x23, 0x24, 0x25, 0x26, 0x27, 0x30, 0x31, 0x32, 0x33, 0x34,
      0x35, 0x40, 0x41, 0x42, 0x43, 0x50, 0x51, 0x52, 0x53, 0x54, 0x55, 0x56, 0x57, 0x60, 0x61, 0x62, 0x63, 0x70,
      0x71] →
    s.inbox = ⟨.op, bytesOfWords (sel :: operands)⟩ :: later →
    step s = .refused (.unknownSelector sel.toNat)

/-- 46_commands.md R270: on a native instance every command is a no-op that ends in `Ok`. -/
def Obligations.NativeInstanceIgnoresCommands : Prop :=
  ∀ (i : Instr) (s : State), i.port = .msg → s.inst.isNative = true → s.opInFlight = false →
    exec i s = .next { s with result := some (.ok .unit) }

/-! ## Reset and invariants -/

/-- The reset state is good. -/
def Obligations.ResetStateIsGood : Prop := Good State.reset

/-- Whatever the other agents do, a step from a good state leads to a good state: the legal configuration, the attribute
ranges of 10_state.md R21 and R22, the canonical memory inside space T (R57), the sizes of the register tables, and no
operation in flight (60_exceptions.md R316). -/
def Obligations.EveryStepKeepsGood : Prop :=
  ∀ s t : State, Good s → step s = .next t → Good t

/-- 10_state.md R63, R64, 70_reset_and_hazards.md R331: the attributes at bind, the phases, the clocks, the empty lists,
and every register and every byte of T at its unknown value (that an unknown value is an opaque constant:
notes/assumptions/2.md, 15.md; that PHY_STOPSTATE is one of them: notes/assumptions/9.md; that INT_ST[c] is not restricted
to `ebits`: notes/assumptions/16.md; the platform inputs are not stated here: notes/assumptions/3.md). -/
def Obligations.ResetHoldsBindValuesAndUnknownRegisters : Prop :=
  let s := State.reset
  (s.inst.lanes = none ∧ s.inst.laneRate = none ∧ s.inst.bypass = false ∧ s.inst.tpgEnabled = false ∧ s.inst.tpgVc = 0 ∧
    s.inst.tpgDt = 0 ∧ s.inst.tpgPkt2pkt = 0 ∧ s.onFault = .empty ∧ s.onDone = .empty) ∧
  s.dphy = .reset ∧ (∀ ch, phaseOf s ch = .disabled) ∧ s.clk = ⟨.off, .off, .off⟩ ∧ s.events = [] ∧
  s.testTrace = [] ∧ s.ctx = .config ∧ (∀ a, Memory.read s.draw s.t a = Config.resetByte 0 a) ∧
  (∀ r ∈ bankRegs s.cfg, r ≠ .version → r ≠ .intStMain →
    s.p.get r = Config.resetVal 0 (.p r) ∧ s.x.get r = Config.resetVal 0 (.x r)) ∧
  (∀ k < s.cfg.map.wWords, tblGet 0 s.w k = Config.resetVal 0 (.w k))

/-- 46_commands.md R286: the writers of each attribute, of `dphy_state` and of the clocks; PWR_SUSPEND makes `dphy_state`
unknown (10_state.md R61). In every environment; no instruction and, once the bind is over, no step changes a callback slot,
and at bind the caller fills both (10_state.md R21; when the bind is over is the model's reading: notes/assumptions/34.md). -/
def Obligations.AttributesHaveOnlyTheListedWriters : Prop :=
  (∀ s t : State, bindOpen s = false → step s = .next t → t.onFault = s.onFault ∧ t.onDone = s.onDone) ∧
  (∀ (s : State) (v w : Slot), bindOpen s = true → s.inbox = [] → s.env = [[.onFault v, .onDone w]] →
    step s = .next { s with env := [], onFault := v, onDone := w }) ∧
  ∀ (i : Instr) (s t : State), exec i s = .next t →
    t.cfg = s.cfg ∧
    (t.inst.id = s.inst.id ∧ t.inst.pixclk = s.inst.pixclk ∧ t.inst.isNative = s.inst.isNative ∧
      t.inst.tpgHorizontal = s.inst.tpgHorizontal ∧ t.inst.baseP = s.inst.baseP ∧ t.inst.baseX = s.inst.baseX ∧
      t.inst.baseW = s.inst.baseW) ∧
    (t.onFault = s.onFault ∧ t.onDone = s.onDone) ∧
    (t.inst.lanes ≠ s.inst.lanes → ∃ a n, i = .cmdSetLanes a n) ∧
    (t.inst.laneRate ≠ s.inst.laneRate → ∃ a r, i = .cmdSetLaneRate a r) ∧
    ((t.inst.tpgEnabled ≠ s.inst.tpgEnabled ∨ t.inst.tpgPkt2pkt ≠ s.inst.tpgPkt2pkt) →
      ∃ a e p, i = .cmdSetTpgMode a e p) ∧
    (t.inst.bypass ≠ s.inst.bypass → ∃ a b, i = .cmdSetBypass a b) ∧
    ((t.inst.tpgVc ≠ s.inst.tpgVc ∨ t.inst.tpgDt ≠ s.inst.tpgDt) →
      (∃ ch w h f c a, i = .ipiInit ch w h f c a) ∨ ∃ a w h f, i = .cmdSetFormat a w h f) ∧
    (t.clk ≠ s.clk → i = .pwrResume ∨ i = .pwrSuspend) ∧
    (t.dphy ≠ s.dphy → i = .dphyReset ∨ i = .dphyPowerup ∨ (∃ id l r, i = .dphyPowerupStd id l r) ∨
      (∃ id l r, i = .dphyPowerupMerged id l r) ∨ (∃ a r, i = .cmdSetLaneRate a r) ∨ i = .pwrResume ∨ i = .pwrSuspend)

/-- 60_exceptions.md R304: the operations that can never end in `Err`, in every environment. -/
def Obligations.ListedOperationsNeverEndInErr : Prop :=
  ∀ (i : Instr) (s t : State), neverErrs i = true → exec i s = .next t → ∀ e, t.result ≠ some (.err e)

/-- 60_exceptions.md R313 with R314: with the preconditions met, no error of an operation, no fault bit, no interrupt and
no other agent stops the block: every instruction answers a next state, in every environment that breaks no rule. The
domain rests on the model's readings that a merged power-up runs with 1 or 2 lanes (notes/assumptions/20.md), that
TIM_CLASSIFY needs no attribute (21.md) and that X has every register of P (27.md). -/
def Obligations.NoErrorAndNoFaultStopsTheBlock : Prop :=
  ∀ (i : Instr) (s : State), Good s → Powered s → LawfulEnv s → InDomain s i → ∃ t, exec i s = .next t

/-! ## Register access -/

/-- 40_regaccess.md R111, R113: REG_READ and REG_READ_EXT return the register's current content (VERSION its constant,
10_state.md R31; INT_ST_MAIN the derived value, whose bit is 1 exactly when it is a main bit of a category with a pending
defined unmasked error, R34) and change nothing, but for the clearing of INT_ST[c]
(45_irq.md R249). That X has every register of P, with its derived status and its clearing reads, is the model's reading
(notes/assumptions/27.md); that its VERSION is this instance's VERSION_VAL is the model's choice (notes/assumptions/41.md). -/
def Obligations.RegisterReadsReturnTheContent : Prop :=
  ∀ (s : State) (r : PReg), Ready s → r ∈ bankRegs s.cfg →
    (∃ t v, exec (.regRead (offsetOf s.cfg r)) s = .next t ∧ t.result = some (.ok (.word v)) ∧
      (r = .version → v = s.cfg.versionVal) ∧ (r = .intStMain → v = mainStatus s.cfg s.p) ∧
      (r = .intStMain → ∀ b, v.getLsbD b = true ↔ ∃ k < 14, (catEntry s.cfg k).mainbit.getLsbD b = true ∧
        s.p.get (.intSt k) &&& (catEntry s.cfg k).ebits &&& s.p.get (.intMsk k) ≠ 0) ∧
      (r ≠ .version → r ≠ .intStMain → v = s.p.get r) ∧
      t = { s with p := t.p, trace := s.trace ++ [.rd (.p r) v], result := t.result } ∧
      (∀ c, r = .intSt c → s.cfg.stReadClears = true → t.p.get r = 0) ∧
      (∀ q, (q ≠ r ∨ (∀ c, r ≠ .intSt c) ∨ s.cfg.stReadClears = false) → t.p.get q = s.p.get q) ∧
      SameMemory s t) ∧
    (∃ t v, exec (.regReadExt (offsetOf s.cfg r)) s = .next t ∧ t.result = some (.ok (.word v)) ∧
      (r = .version → v = s.cfg.versionVal) ∧ (r = .intStMain → v = mainStatus s.cfg s.x) ∧
      (r = .intStMain → ∀ b, v.getLsbD b = true ↔ ∃ k < 14, (catEntry s.cfg k).mainbit.getLsbD b = true ∧
        s.x.get (.intSt k) &&& (catEntry s.cfg k).ebits &&& s.x.get (.intMsk k) ≠ 0) ∧
      (r ≠ .version → r ≠ .intStMain → v = s.x.get r) ∧
      t = { s with x := t.x, trace := s.trace ++ [.rd (.x r) v], result := t.result } ∧
      (∀ c, r = .intSt c → s.cfg.stReadClears = true → t.x.get r = 0) ∧
      (∀ q, (q ≠ r ∨ (∀ c, r ≠ .intSt c) ∨ s.cfg.stReadClears = false) → t.x.get q = s.x.get q) ∧
      SameMemory s t)

/-- 40_regaccess.md R112, R114: REG_WRITE and REG_WRITE_EXT store the value (in a memory-flush register with `manual_flush`
0 when the configuration says that it clears itself: U9, notes/assumptions/19.md); a write to a read-only register is ignored
(10_state.md R58). That X has every register of P, with P's read-only set, is the model's reading
(notes/assumptions/27.md). -/
def Obligations.RegisterWritesStoreTheValue : Prop :=
  ∀ (s : State) (r : PReg) (v : Word), Ready s → r ∈ bankRegs s.cfg →
    let readOnly := r = .version ∨ r = .intStMain ∨ r = .phyStopstate ∨ ∃ c, r = .intSt c
    let selfClears := (∃ ch, r = .ipi ch .memFlush) ∧ s.cfg.manualFlushSelfClears = true
    (∃ t, exec (.regWrite (offsetOf s.cfg r) v) s = .next t ∧ t.result = some (.ok .unit) ∧ OnlyP s t [r] ∧
      (readOnly → t.p = s.p) ∧ (¬ readOnly → ¬ selfClears → t.p.get r = v) ∧
      (selfClears → t.p.get r = setField v s.cfg.map.fManualFlush 0)) ∧
    (∃ t, exec (.regWriteExt (offsetOf s.cfg r) v) s = .next t ∧ t.result = some (.ok .unit) ∧ OnlyX s t [r] ∧
      (readOnly → t.x = s.x) ∧ (¬ readOnly → ¬ selfClears → t.x.get r = v) ∧
      (selfClears → t.x.get r = setField v s.cfg.map.fManualFlush 0))

/-- 10_state.md R58, the example of 40_regaccess.md R111: a read-write register reads back the last value written. -/
def Obligations.WrittenRegisterReadsBack : Prop :=
  ∀ (s : State) (r : PReg) (v : Word), Ready s → r ∈ bankRegs s.cfg → readOnlyReg r = false →
    ((∃ ch, r = .ipi ch .memFlush) → s.cfg.manualFlushSelfClears = false) →
    ∃ t u, exec (.regWrite (offsetOf s.cfg r) v) s = .next t ∧ exec (.regRead (offsetOf s.cfg r)) t = .next u ∧
      u.result = some (.ok (.word v))

/-- 20_memory.md R73: an access at an offset that is not a multiple of 4 or that MAP does not map faults. -/
def Obligations.OffsetsOutsideTheMapFault : Prop :=
  ∀ (s : State) (offset : Nat) (v : Word), Ready s →
    (offset % 4 ≠ 0 ∨ ∀ r ∈ bankRegs s.cfg, offsetOf s.cfg r ≠ offset) →
    exec (.regRead offset) s = .fault .unmappedOffset ∧ exec (.regWrite offset v) s = .fault .unmappedOffset ∧
    exec (.regReadExt offset) s = .fault .unmappedOffset ∧ exec (.regWriteExt offset v) s = .fault .unmappedOffset

/-! ## Model-level faults -/

/-- 60_exceptions.md R314, the operands: a PHY index beyond NUM_PHY, a lane count outside 1..4 given to an operation other
than CMD_SET_LANES, timing or power-up with `lanes` or `lane_rate` unset; also inside IPI_INIT and CMD_SET_FORMAT, where the
timing of a bridged instance, or the packet time of a generator that was given none, is computed (44_ipi.md R203,
46_commands.md R276). -/
def Obligations.OperandPreconditionsFault : Prop :=
  ∀ s : State, Idle s →
    (∀ id, Config.numPhy ≤ id → ∀ lanes rate code data b,
      exec (.wrapEnableClock id) s = .fault .preconditionViolated ∧
      exec (.wrapForceRxMode id lanes b) s = .fault .preconditionViolated ∧
      exec (.wrapGetLaneMode id) s = .fault .preconditionViolated ∧
      exec (.wrapSetLaneMode id b) s = .fault .preconditionViolated ∧
      exec (.wrapSetHsfreqrange id rate) s = .fault .preconditionViolated ∧
      exec (.wrapSetTestcode id code) s = .fault .preconditionViolated ∧
      exec (.wrapTestcodeSelOtherPhy id b) s = .fault .preconditionViolated ∧
      exec (.dphyPowerupStd id lanes rate) s = .fault .preconditionViolated ∧
      exec (.dphyPowerupMerged id lanes rate) s = .fault .preconditionViolated ∧
      exec (.dphyTestWrite id b code data) s = .fault .preconditionViolated) ∧
    (∀ lanes, (lanes < 1 ∨ 4 < lanes) → ∀ id rate b,
      exec (.wrapForceRxMode id lanes b) s = .fault .preconditionViolated ∧
      exec (.dphyPowerupStd id lanes rate) s = .fault .preconditionViolated ∧
      exec (.dphyPowerupMerged id lanes rate) s = .fault .preconditionViolated ∧
      exec (.dphyWaitStopstate lanes) s = .fault .preconditionViolated) ∧
    ((s.inst.lanes = none ∨ s.inst.laneRate = none) →
      exec .dphyPowerup s = .fault .preconditionViolated ∧ exec .timCutThrough s = .fault .preconditionViolated ∧
      exec .timPkt2pkt s = .fault .preconditionViolated ∧
      ∀ fmt width hsa hbp, fmt < 6 → exec (.timHsdLegacy fmt width hsa hbp) s = .fault .preconditionViolated) ∧
    (Quiet s → (s.inst.lanes = none ∨ s.inst.laneRate = none) → ∀ ch width height fmt, PixelChannel s ch → fmt < 6 →
      (s.inst.isNative = false ∨ (s.inst.tpgEnabled = true ∧ s.inst.tpgPkt2pkt = 0) →
        ∀ cut adv, exec (.ipiInit ch width height fmt cut adv) s = .fault .preconditionViolated) ∧
      (s.inst.isNative = false → exec (.cmdSetFormat ch width height fmt) s = .fault .preconditionViolated))

/-- 60_exceptions.md R314, 46_commands.md R285, 42_dphy_sequencer.md R155: an access to P or X with a present clock off, the
handler with a present clock off, an access to a window with no base (40_regaccess.md R110, R113), a blocking operation in
the interrupt context, a second configuration operation in flight. That an unmapped offset ends in this fault too, and not
in UnmappedOffset, is the model's order (notes/assumptions/29.md). -/
def Obligations.StatePreconditionsFault : Prop :=
  (∀ s : State, s.opInFlight = false → clocksOn s.clk = false → ∀ offset v,
    exec (.regRead offset) s = .fault .preconditionViolated ∧
    exec (.regWrite offset v) s = .fault .preconditionViolated ∧
    exec (.regReadExt offset) s = .fault .preconditionViolated ∧
    exec (.regWriteExt offset v) s = .fault .preconditionViolated ∧
    exec .dphyReset s = .fault .preconditionViolated ∧ exec .irqEnable s = .fault .preconditionViolated ∧
    exec .irqHandle s = .fault .preconditionViolated) ∧
  (∀ s : State, s.opInFlight = false → s.inst.baseP = none → ∀ offset v,
    exec (.regRead offset) s = .fault .preconditionViolated ∧
    exec (.regWrite offset v) s = .fault .preconditionViolated ∧
    exec .dphyReset s = .fault .preconditionViolated ∧ exec .irqEnable s = .fault .preconditionViolated ∧
    exec .irqHandle s = .fault .preconditionViolated) ∧
  (∀ s : State, s.opInFlight = false → s.inst.baseX = none → ∀ offset v,
    exec (.regReadExt offset) s = .fault .preconditionViolated ∧
    exec (.regWriteExt offset v) s = .fault .preconditionViolated) ∧
  (∀ s : State, s.opInFlight = false → s.inst.baseW = none → ∀ id lanes rate code data b,
    exec (.wrapEnableClock id) s = .fault .preconditionViolated ∧
    exec (.wrapForceRxMode id lanes b) s = .fault .preconditionViolated ∧
    exec (.wrapGetLaneMode id) s = .fault .preconditionViolated ∧
    exec (.wrapSetLaneMode id b) s = .fault .preconditionViolated ∧
    (160 ≤ rate → exec (.wrapSetHsfreqrange id rate) s = .fault .preconditionViolated) ∧
    exec (.wrapEnablePpipgClk b) s = .fault .preconditionViolated ∧
    exec (.wrapSetTestcode id code) s = .fault .preconditionViolated ∧
    exec (.wrapTestcodeSelOtherPhy id b) s = .fault .preconditionViolated ∧
    exec (.dphyTestWrite id b code data) s = .fault .preconditionViolated) ∧
  (∀ s : State, s.ctx = .interrupt → ∀ id lanes rate n,
    exec .dphyPowerup s = .fault .preconditionViolated ∧
    exec (.dphyPowerupStd id lanes rate) s = .fault .preconditionViolated ∧
    exec (.dphyPowerupMerged id lanes rate) s = .fault .preconditionViolated ∧
    exec (.dphyWaitStopstate n) s = .fault .preconditionViolated) ∧
  (∀ (i : Instr) (s : State), i ≠ .irqHandle → s.opInFlight = true → exec i s = .fault .preconditionViolated)

/-! ## Wrapper -/

/-- 41_wrapper.md R121, R124, R128, R129, R130: five operations write one wrapper field each, and no other (R120). -/
def Obligations.WrapperOperationsWriteOneField : Prop :=
  ∀ s : State, Ready s →
    (∀ id < Config.numPhy, ∃ t, exec (.wrapEnableClock id) s = .next t ∧ t.result = some (.ok .unit) ∧
      WroteWrapper s t (.enableclk id) 1) ∧
    (∀ id < Config.numPhy, ∀ merged, ∃ t, exec (.wrapSetLaneMode id merged) s = .next t ∧
      t.result = some (.ok .unit) ∧ WroteWrapper s t (.ctrlSel (id / 2)) (if merged then 1 else 0)) ∧
    (∀ enable, ∃ t, exec (.wrapEnablePpipgClk enable) s = .next t ∧ t.result = some (.ok .unit) ∧
      WroteWrapper s t .ppipgClkEn (if enable then 1 else 0)) ∧
    (∀ id < Config.numPhy, ∀ code, ∃ t, exec (.wrapSetTestcode id code) s = .next t ∧
      t.result = some (.ok .unit) ∧ WroteWrapper s t (.testcode id) code) ∧
    (∀ id < Config.numPhy, ∀ select, ∃ t, exec (.wrapTestcodeSelOtherPhy id select) s = .next t ∧
      t.result = some (.ok .unit) ∧ WroteWrapper s t (.selOther id) (if select then 1 else 0))

/-- 41_wrapper.md R122: the own half, and for more than 2 lanes the mate's half after it; with at most 2 lanes the mate's
half is not touched, with `force` false the halves are cleared. -/
def Obligations.ForceRxModeWritesOneOrTwoHalves : Prop :=
  ∀ (s : State) (id lanes : Nat) (force : Bool), Ready s → id < Config.numPhy → 1 ≤ lanes → lanes ≤ 4 →
    ∃ t, exec (.wrapForceRxMode id lanes force) s = .next t ∧ t.result = some (.ok .unit) ∧
      (lanes ≤ 2 → WroteWrapper s t (.forcerxmode id) (if force then s.cfg.frxOwn.getD (lanes - 1) 0 else 0)) ∧
      (2 < lanes → ∃ m, WroteWrapper s m (.forcerxmode id) (if force then s.cfg.frxOwn.getD (lanes - 1) 0 else 0) ∧
        WroteWrapper m t (.forcerxmode (id ^^^ 1)) (if force then s.cfg.frxMate.getD (lanes - 1) 0 else 0))

/-- 41_wrapper.md R123: the result is the pair's control-select bit; nothing is written. -/
def Obligations.LaneModeReadsThePairBit : Prop :=
  ∀ (s : State) (id : Nat), Ready s → id < Config.numPhy →
    ∃ t, exec (.wrapGetLaneMode id) s = .next t ∧
      t.result = some (.ok (.bool (decide (wField s (.ctrlSel (id / 2)) = 1)))) ∧
      t = { s with trace := t.trace, result := t.result } ∧ SameMemory s t

/-- 41_wrapper.md R125, R126: the table entry whose interval holds the rate; below 160 nothing is accessed. -/
def Obligations.HsfreqrangeSelectsTheTableEntry : Prop :=
  ∀ (s : State) (id rate : Nat), Ready s → id < Config.numPhy →
    (rate < 160 → exec (.wrapSetHsfreqrange id rate) s = .next { s with result := some (.err .invalidArgument) }) ∧
    (160 ≤ rate → ∃ t, exec (.wrapSetHsfreqrange id rate) s = .next t ∧ t.result = some (.ok .unit) ∧
      WroteWrapper s t (.hsfreqrange id) (Config.hsfreqCode (rangeIndex rate)).toNat)

/-! ## D-PHY sequencer -/

/-- 42_dphy_sequencer.md R141: the three lines low in order, the phase Reset from any phase, nothing else. -/
def Obligations.DphyResetDrivesTheLinesLow : Prop :=
  ∀ s : State, Ready s →
    ∃ t, exec .dphyReset s = .next t ∧ t.result = some (.ok .unit) ∧
      t = { s with p := t.p, dphy := .reset, trace := t.trace, result := t.result } ∧
      Bank.SameBut s.p t.p [.dphyRstz, .phyShutdownz, .phyShut] ∧
      t.p.dphyRstz = setField s.p.dphyRstz s.cfg.map.fRstz 0 ∧
      t.p.phyShutdownz = setField s.p.phyShutdownz s.cfg.map.fShutdownz 0 ∧
      t.p.phyShut = setField s.p.phyShut s.cfg.map.fPhyshut 0 ∧
      writtenSince s t = [.p .dphyRstz, .p .phyShutdownz, .p .phyShut] ∧ SameMemory s t

/-- 42_dphy_sequencer.md R142: merged for more than 2 lanes without the test-pattern generator, standard otherwise; a fault
when an attribute is unset. -/
def Obligations.PowerupSelectsItsPath : Prop :=
  ∀ s : State,
    ((s.inst.lanes = none ∨ s.inst.laneRate = none) → exec .dphyPowerup s = .fault .preconditionViolated) ∧
    (∀ lanes rate, s.inst.lanes = some lanes → s.inst.laneRate = some rate →
      exec .dphyPowerup s =
        if 2 < lanes ∧ s.inst.tpgEnabled = false then exec (.dphyPowerupMerged s.inst.id lanes rate) s
        else exec (.dphyPowerupStd s.inst.id lanes rate) s)

/-- 42_dphy_sequencer.md R143, the successful run: with the expected stop bits shown, the standard path, run directly or
selected by DPHY_POWERUP, programs range and clock, releases reset and then shutdown, and ends Ready; `physhut`,
`ctrl_sel` and space X are not written (R144). -/
def Obligations.StandardPowerupReachesReady : Prop :=
  ∀ (s : State) (i : Instr) (id lanes rate : Nat), Ready s → id < Config.numPhy → 1 ≤ lanes → lanes ≤ 4 → 160 ≤ rate →
    (∀ b < lanes, s.p.phyStopstate.getLsbD b = true) →
    (i = .dphyPowerupStd id lanes rate ∨
      (i = .dphyPowerup ∧ s.inst.id = id ∧ s.inst.lanes = some lanes ∧ s.inst.laneRate = some rate ∧
        (lanes ≤ 2 ∨ s.inst.tpgEnabled = true))) →
    ∃ t, exec i s = .next t ∧ t.result = some (.ok .unit) ∧ t.dphy = .ready ∧
      t = { s with p := t.p, w := t.w, dphy := t.dphy, trace := t.trace, result := t.result } ∧
      Bank.SameBut s.p t.p [.dphyRstz, .phyShutdownz] ∧
      t.p.dphyRstz = setField s.p.dphyRstz s.cfg.map.fRstz 1 ∧
      t.p.phyShutdownz = setField s.p.phyShutdownz s.cfg.map.fShutdownz 1 ∧
      t.w = wSet s.cfg (wSet s.cfg s.w (.hsfreqrange id) (Config.hsfreqCode (rangeIndex rate)).toNat) (.enableclk id) 1 ∧
      writtenSince s t = [.p .dphyRstz, .p .phyShutdownz, .w (wrapperPos s.cfg (.hsfreqrange id)).word,
        .w (wrapperPos s.cfg (.enableclk id)).word, .p .dphyRstz, .p .phyShutdownz] ∧
      SameMemory s t

/-- 42_dphy_sequencer.md R143, R144, R154: a rate below 160 leaves the lines low and the phase Reset, with no wrapper write;
missing stop bits leave the lines released, the wrapper programmed and the phase ErrorTimeout. -/
def Obligations.StandardPowerupFailures : Prop :=
  ∀ (s : State) (id lanes rate : Nat), Ready s → id < Config.numPhy → 1 ≤ lanes → lanes ≤ 4 →
    (rate < 160 → ∃ t, exec (.dphyPowerupStd id lanes rate) s = .next t ∧
      t.result = some (.err .invalidArgument) ∧ t.dphy = .reset ∧
      t = { s with p := t.p, dphy := t.dphy, trace := t.trace, result := t.result } ∧
      Bank.SameBut s.p t.p [.dphyRstz, .phyShutdownz] ∧
      t.p.dphyRstz = setField s.p.dphyRstz s.cfg.map.fRstz 0 ∧
      t.p.phyShutdownz = setField s.p.phyShutdownz s.cfg.map.fShutdownz 0 ∧ SameMemory s t) ∧
    (160 ≤ rate → (∃ b < lanes, s.p.phyStopstate.getLsbD b = false) →
      ∃ t, exec (.dphyPowerupStd id lanes rate) s = .next t ∧ t.result = some (.err .timeout) ∧
        t.dphy = .errorTimeout ∧
        t = { s with p := t.p, w := t.w, dphy := t.dphy, trace := t.trace, result := t.result } ∧
        Bank.SameBut s.p t.p [.dphyRstz, .phyShutdownz] ∧
        t.p.dphyRstz = setField s.p.dphyRstz s.cfg.map.fRstz 1 ∧
        t.p.phyShutdownz = setField s.p.phyShutdownz s.cfg.map.fShutdownz 1 ∧
        t.w = wSet s.cfg (wSet s.cfg s.w (.hsfreqrange id) (Config.hsfreqCode (rangeIndex rate)).toNat) (.enableclk id) 1 ∧
        SameMemory s t)

/-- 42_dphy_sequencer.md R147, R148, R149: the successful merged run, direct or selected by DPHY_POWERUP. The merge bit, the
range on both halves, the test writes of MERGE_SEQ in order on "this" and "other", both banks' lines, the fixed order of
all writes (70_reset_and_hazards.md R341), the phase Ready. An even index is not refused, an odd one when the pair does not
read merged. -/
def Obligations.MergedPowerupReachesReady : Prop :=
  ∀ (s : State) (i : Instr) (id lanes rate : Nat), Ready s → id < Config.numPhy → 3 ≤ lanes → lanes ≤ 4 → 160 ≤ rate →
    (id % 2 = 1 → wField s (.ctrlSel (id / 2)) ≠ 1) →
    (∀ b < 4, s.p.phyStopstate.getLsbD b = true) →
    (i = .dphyPowerupMerged id lanes rate ∨
      (i = .dphyPowerup ∧ s.inst.id = id ∧ s.inst.lanes = some lanes ∧ s.inst.laneRate = some rate ∧
        s.inst.tpgEnabled = false)) →
    let c := s.cfg
    let major := id - id % 2
    let target := fun m : TestWrite => if m.other then id ^^^ 1 else id
    ∃ t, exec i s = .next t ∧ t.result = some (.ok .unit) ∧ t.dphy = .ready ∧
      t = { s with p := t.p, x := t.x, w := t.w, t := t.t, testTrace := t.testTrace, dphy := t.dphy, trace := t.trace,
                   result := t.result } ∧
      Bank.SameBut s.p t.p [.dphyRstz, .phyShutdownz] ∧ Bank.SameBut s.x t.x [.dphyRstz, .phyShutdownz] ∧
      t.p.dphyRstz = setField s.p.dphyRstz c.map.fRstz 1 ∧ t.x.dphyRstz = setField s.x.dphyRstz c.map.fRstz 1 ∧
      t.p.phyShutdownz = setField s.p.phyShutdownz c.map.fShutdownz 1 ∧
      t.x.phyShutdownz = setField s.x.phyShutdownz c.map.fShutdownz 1 ∧
      t.w = c.mergeSeq.foldl
        (fun w m => wSet c (wSet c w (.selOther id) (if m.other then 1 else 0)) (.testcode id) m.code)
        (wSet c (wSet c (wSet c s.w (.ctrlSel (id / 2)) 1) (.hsfreqrange major) (Config.hsfreqCode (rangeIndex rate)).toNat)
          (.hsfreqrange (major + 1)) (Config.hsfreqCode (rangeIndex rate)).toNat) ∧
      t.testTrace = s.testTrace ++ c.mergeSeq.map (fun m => ⟨target m, m.code % 2 ^ testcodeWidth c, m.data⟩) ∧
      t.t = c.mergeSeq.foldl (fun mem m => Memory.write s.draw mem (testAddress c (target m) m.code) m.data) s.t ∧
      (∀ a, (∀ m ∈ c.mergeSeq, testAddress c (target m) m.code ≠ a) →
        Memory.read t.draw t.t a = Memory.read s.draw s.t a) ∧
      writtenSince s t =
        [.w (wrapperPos c (.ctrlSel (id / 2))).word, .p .dphyRstz, .x .dphyRstz, .p .phyShutdownz, .x .phyShutdownz,
         .w (wrapperPos c (.hsfreqrange major)).word, .w (wrapperPos c (.hsfreqrange (major + 1))).word] ++
        c.mergeSeq.flatMap (fun _ => [.w (wrapperPos c (.selOther id)).word, .w (wrapperPos c (.testcode id)).word]) ++
        [.p .dphyRstz, .x .dphyRstz, .p .phyShutdownz, .x .phyShutdownz]

/-- 42_dphy_sequencer.md R147 (a) to (g), 60_exceptions.md R303: Busy before any write on an odd index whose pair reads
merged, whatever the rate; a rate below 160 leaves the pair merged, the lines of both banks low and the phase Reset, with
no test write; stop bits missing for 2 or for 4 lanes leave the lines released, the wrapper fields and the test registers
as programmed (R302) and the phase ErrorTimeout, and nothing else changed. -/
def Obligations.MergedPowerupRefusals : Prop :=
  ∀ (s : State) (id lanes rate : Nat), Ready s → id < Config.numPhy → 3 ≤ lanes → lanes ≤ 4 →
    (id % 2 = 1 → wField s (.ctrlSel (id / 2)) = 1 →
      ∃ t, exec (.dphyPowerupMerged id lanes rate) s = .next t ∧ t.result = some (.err .busy) ∧
        t = { s with trace := t.trace, result := t.result } ∧ writtenSince s t = [] ∧ SameMemory s t) ∧
    ((id % 2 = 1 → wField s (.ctrlSel (id / 2)) ≠ 1) → rate < 160 →
      ∃ t, exec (.dphyPowerupMerged id lanes rate) s = .next t ∧ t.result = some (.err .invalidArgument) ∧
        t.dphy = .reset ∧
        t = { s with p := t.p, x := t.x, w := t.w, dphy := t.dphy, trace := t.trace, result := t.result } ∧
        t.w = wSet s.cfg s.w (.ctrlSel (id / 2)) 1 ∧
        Bank.SameBut s.p t.p [.dphyRstz, .phyShutdownz] ∧ Bank.SameBut s.x t.x [.dphyRstz, .phyShutdownz] ∧
        pField t .rstz = 0 ∧ pField t .shutdownz = 0 ∧ xField t .rstz = 0 ∧ xField t .shutdownz = 0 ∧
        SameMemory s t) ∧
    ((id % 2 = 1 → wField s (.ctrlSel (id / 2)) ≠ 1) → 160 ≤ rate → (∃ b < 4, s.p.phyStopstate.getLsbD b = false) →
      let c := s.cfg
      let major := id - id % 2
      let target := fun m : TestWrite => if m.other then id ^^^ 1 else id
      ∃ t, exec (.dphyPowerupMerged id lanes rate) s = .next t ∧ t.result = some (.err .timeout) ∧
        t.dphy = .errorTimeout ∧
        t = { s with p := t.p, x := t.x, w := t.w, t := t.t, testTrace := t.testTrace, dphy := t.dphy, trace := t.trace,
                     result := t.result } ∧
        Bank.SameBut s.p t.p [.dphyRstz, .phyShutdownz] ∧ Bank.SameBut s.x t.x [.dphyRstz, .phyShutdownz] ∧
        t.p.dphyRstz = setField s.p.dphyRstz c.map.fRstz 1 ∧ t.x.dphyRstz = setField s.x.dphyRstz c.map.fRstz 1 ∧
        t.p.phyShutdownz = setField s.p.phyShutdownz c.map.fShutdownz 1 ∧
        t.x.phyShutdownz = setField s.x.phyShutdownz c.map.fShutdownz 1 ∧
        t.w = c.mergeSeq.foldl
          (fun w m => wSet c (wSet c w (.selOther id) (if m.other then 1 else 0)) (.testcode id) m.code)
          (wSet c (wSet c (wSet c s.w (.ctrlSel (id / 2)) 1) (.hsfreqrange major) (Config.hsfreqCode (rangeIndex rate)).toNat)
            (.hsfreqrange (major + 1)) (Config.hsfreqCode (rangeIndex rate)).toNat) ∧
        t.testTrace = s.testTrace ++ c.mergeSeq.map (fun m => ⟨target m, m.code % 2 ^ testcodeWidth c, m.data⟩) ∧
        t.t = c.mergeSeq.foldl (fun mem m => Memory.write s.draw mem (testAddress c (target m) m.code) m.data) s.t ∧
        (∀ a, (∀ m ∈ c.mergeSeq, testAddress c (target m) m.code ≠ a) →
          Memory.read t.draw t.t a = Memory.read s.draw s.t a))

/-- 42_dphy_sequencer.md R150: steering, test address, one byte of space T, one record; every other byte as before. The list
of bytes keeps its canonical form (an invariant: `EveryStepKeepsGood`). -/
def Obligations.TestWriteStoresOneByte : Prop :=
  ∀ (s : State) (id : Nat) (other : Bool) (code data : Nat), Ready s → id < Config.numPhy →
    let target := if other then id ^^^ 1 else id
    ∃ t, exec (.dphyTestWrite id other code data) s = .next t ∧ t.result = some (.ok .unit) ∧
      t = { s with w := t.w, t := t.t, testTrace := t.testTrace, trace := t.trace, result := t.result } ∧
      t.w = wSet s.cfg (wSet s.cfg s.w (.selOther id) (if other then 1 else 0)) (.testcode id) code ∧
      t.testTrace = s.testTrace ++ [⟨target, code % 2 ^ testcodeWidth s.cfg, BitVec.ofNat 8 data⟩] ∧
      (Memory.wf s.draw s.t = true →
        Memory.read t.draw t.t (testAddress s.cfg target code) = BitVec.ofNat 8 data ∧ Memory.wf t.draw t.t = true) ∧
      (∀ a, a ≠ testAddress s.cfg target code → Memory.read t.draw t.t a = Memory.read s.draw s.t a)

/-- 42_dphy_sequencer.md R152, R153 for an answer that does not change: all `n` bits shown end the wait at the first read;
a missing bit ends it in Timeout after exactly 3000 reads. -/
def Obligations.WaitStopstateOutcomes : Prop :=
  ∀ (s : State) (n : Nat), Ready s → 1 ≤ n → n ≤ 4 →
    ((∀ b < n, s.p.phyStopstate.getLsbD b = true) →
      exec (.dphyWaitStopstate n) s = .next { s with
        trace := s.trace ++ [.rd (.p .phyStopstate) s.p.phyStopstate], result := some (.ok .unit) }) ∧
    ((∃ b < n, s.p.phyStopstate.getLsbD b = false) →
      exec (.dphyWaitStopstate n) s = .next { s with
        trace := s.trace ++ List.replicate 3000 (.rd (.p .phyStopstate) s.p.phyStopstate)
        result := some (.err .timeout) })

/-- 42_dphy_sequencer.md R153 (g): from every state the run that succeeds after any number of failed polls from 0 to 2999
exists, and so does the Timeout run after 3000 failed polls; the PHY agent alone decides, and the operation's accesses are
the polls. A failed poll is a read of PHY_STOPSTATE that lacks one of the `n` bits (R152). -/
def Obligations.WaitAdmitsEveryPollCount : Prop :=
  ∀ (s : State) (n : Nat), Idle s → Powered s → 1 ≤ n → n ≤ 4 →
    let phyOnly := fun env : List (List EnvMove) => ∀ moves ∈ env, ∀ m ∈ moves, ∃ a, m = .stopstate .p a
    let fails := fun v : Word => ∃ b < n, v.getLsbD b = false
    let poll := fun v : Word => Access.rd (.p .phyStopstate) v
    (∀ k < 3000, ∃ (env : List (List EnvMove)) (failed : List Word) (v : Word) (t : State),
      phyOnly env ∧ failed.length = k ∧ (∀ u ∈ failed, fails u) ∧ (∀ b < n, v.getLsbD b = true) ∧
      exec (.dphyWaitStopstate n) { s with env := env } = .next t ∧ t.result = some (.ok .unit) ∧
      t.trace = s.trace ++ failed.map poll ++ [poll v]) ∧
    (∃ (env : List (List EnvMove)) (failed : List Word) (t : State),
      phyOnly env ∧ failed.length = 3000 ∧ (∀ u ∈ failed, fails u) ∧
      exec (.dphyWaitStopstate n) { s with env := env } = .next t ∧ t.result = some (.err .timeout) ∧
      t.trace = s.trace ++ failed.map poll)

/-! ## Timing calculator -/

/-- 43_timing.md R171, R172: the six formats (the values of DT and BPP but RAW10's are configuration); any other number is
not in the recognized set. That it also runs with `lanes` and `lane_rate` unset, where R170 taken to the letter faults, is the
model's reading (notes/assumptions/21.md). -/
def Obligations.ClassifyGivesTheFormatRow : Prop :=
  ∀ s : State, Idle s →
    exec (.timClassify 0) s
      = .next { s with result := some (.ok (.format ⟨s.cfg.dt.raw8, true, s.cfg.bpp.raw8⟩)) } ∧
    exec (.timClassify 1) s = .next { s with result := some (.ok (.format ⟨s.cfg.dt.raw10, true, 10⟩)) } ∧
    exec (.timClassify 2) s
      = .next { s with result := some (.ok (.format ⟨s.cfg.dt.raw12, true, s.cfg.bpp.raw12⟩)) } ∧
    exec (.timClassify 3) s
      = .next { s with result := some (.ok (.format ⟨s.cfg.dt.yuyv, false, s.cfg.bpp.yuyv⟩)) } ∧
    exec (.timClassify 4) s
      = .next { s with result := some (.ok (.format ⟨s.cfg.dt.nv12, false, s.cfg.bpp.nv12⟩)) } ∧
    exec (.timClassify 5) s
      = .next { s with result := some (.ok (.format ⟨s.cfg.dt.rgb888, false, s.cfg.bpp.rgb888⟩)) } ∧
    ∀ fmt, 6 ≤ fmt → exec (.timClassify fmt) s = .next { s with result := some (.err .unsupported) }

/-- 43_timing.md R174: the legacy formula on naturals, the default exactly when the difference is 0, the three clamps. Of its
two tables the RAW10 cells are fixed, 10 bits and `(width + 2) div 3` cycles (R172); the other cells are configuration
(notes/assumptions/26.md, 33.md). -/
def Obligations.LegacyTimingFormula : Prop :=
  (∀ (c : Cfg) (width : Nat), bppOf c .raw10 = 10 ∧ cycOf .raw10 width = (width + 2) / 3) ∧
  ∀ (s : State) (fmt width hsa hbp lanes rate : Nat), Idle s → TimingInputs s lanes rate →
    (∀ f, formatOfCode fmt = some f →
      let rx := rate * 1000000 * lanes / 2
      let q := bppOf s.cfg f * width * s.inst.pixclk / rx
      let h := q - (hsa + hbp + cycOf f width)
      exec (.timHsdLegacy fmt width hsa hbp) s = .next { s with result := some (.ok (.timing
        ⟨min (max hsa 1) 0xfff, min (max hbp 1) 0xfff, min (max (if h = 0 then s.cfg.hsdDefault else h) 4) 0xfff⟩)) }) ∧
    (6 ≤ fmt → exec (.timHsdLegacy fmt width hsa hbp) s = .next { s with result := some (.err .unsupported) })

/-- 43_timing.md R178: the cut-through formula, inner division first, the overflow moved into HBP and then into HSA. -/
def Obligations.CutThroughTimingFormula : Prop :=
  ∀ (s : State) (lanes rate : Nat), Idle s → TimingInputs s lanes rate →
    let rx := rate * 1000000 * lanes / 2
    let raw := 8 * s.inst.pixclk / (rx / 8) + s.cfg.calMin
    exec .timCutThrough s = .next { s with result := some (.ok (.timing
      (if raw ≤ 4091 then ⟨1, 1, raw + 4⟩
       else if raw - 4091 ≤ 4094 then ⟨1, raw - 4091 + 1, 4091 + 4⟩
       else if raw - 4091 - 4094 ≤ 4094 then ⟨raw - 4091 - 4094 + 1, 4094 + 1, 4091 + 4⟩
       else ⟨4094 + 1, 4094 + 1, 4091 + 4⟩))) }

/-- 43_timing.md R181: both formulas return values inside the register-field ranges, for every input that meets the
preconditions. -/
def Obligations.TimingTriplesAreInRange : Prop :=
  ∀ (s : State) (fmt width hsa hbp lanes rate : Nat), Idle s → TimingInputs s lanes rate →
    (fmt < 6 → ∃ v, exec (.timHsdLegacy fmt width hsa hbp) s = .next { s with result := some (.ok (.timing v)) } ∧
      1 ≤ v.hsa ∧ v.hsa ≤ 0xfff ∧ 1 ≤ v.hbp ∧ v.hbp ≤ 0xfff ∧ 4 ≤ v.hsd ∧ v.hsd ≤ 0xfff) ∧
    (∃ v, exec .timCutThrough s = .next { s with result := some (.ok (.timing v)) } ∧
      1 ≤ v.hsa ∧ v.hsa ≤ 0xfff ∧ 1 ≤ v.hbp ∧ v.hbp ≤ 0xfff ∧ 4 ≤ v.hsd ∧ v.hsd ≤ 0xfff)

/-- 43_timing.md R182: the open function of the lane rate and the pixel clock with the fsync type 2; nothing is stored. -/
def Obligations.Pkt2pktIsTheOpenFunction : Prop :=
  ∀ (s : State) (lanes rate : Nat), Idle s → TimingInputs s lanes rate →
    exec .timPkt2pkt s = .next { s with result := some (.ok (.nat (Config.pkt2pkt rate s.inst.pixclk 2))) }

/-- 43_timing.md R173: the receive bit clock, its exactness, and its bounds. -/
def Obligations.ReceiveBitClockBounds : Prop :=
  (∀ rate lanes, 0 < rate → 1 ≤ lanes → lanes ≤ 4 →
    2 * rxBitClk rate lanes = rate * 1000000 * lanes ∧ 500000 ≤ rxBitClk rate lanes ∧ 62500 ≤ rxBitClk rate lanes / 8) ∧
  rxBitClk 2500 4 = 5000000000 ∧ (∀ rate lanes, rate ≤ 2500 → lanes ≤ 4 → rxBitClk rate lanes ≤ 5000000000)

/-- 43_timing.md R176, R177, R180: the worked examples (CAL_MIN = 4 in the last two). -/
def Obligations.TimingWorkedExamples : Prop :=
  ∀ s : State, Idle s → Config.hsdMin ≤ s.cfg.hsdDefault → s.cfg.hsdDefault ≤ Config.hsdMax →
    (TimingInputs s 4 2500 → s.inst.pixclk = 40000000 →
      exec (.timHsdLegacy 1 1920 4 4) s = .next { s with result := some (.ok (.timing ⟨4, 4, s.cfg.hsdDefault⟩)) }) ∧
    (TimingInputs s 2 800 → s.inst.pixclk = 100000000 →
      exec (.timHsdLegacy 1 1920 4 4) s = .next { s with result := some (.ok (.timing ⟨4, 4, 1752⟩)) }) ∧
    (TimingInputs s 1 160 → s.inst.pixclk = 100000000 →
      exec (.timHsdLegacy 1 1920 4 4) s = .next { s with result := some (.ok (.timing ⟨4, 4, 4095⟩)) }) ∧
    (TimingInputs s 4 2500 → s.inst.pixclk = 40000000 → s.cfg.calMin = 4 →
      exec .timCutThrough s = .next { s with result := some (.ok (.timing ⟨1, 1, 8⟩)) }) ∧
    (TimingInputs s 1 160 → s.inst.pixclk = 600000000 → s.cfg.calMin = 4 →
      exec .timCutThrough s = .next { s with result := some (.ok (.timing ⟨1, 1, 488⟩)) })

/-! ## IPI and protocol configurator -/

/-- 44_ipi.md R201, 46_commands.md R271: `vcid`, `emb_en` and `ctrl_mode` of the channel; CTRL on channel 0 only, CAMERA on
every channel. -/
def Obligations.SetVcCfgWritesTheChannel : Prop :=
  ∀ (s : State) (i : Instr) (ch vcId : Nat) (embEn ctrl : Bool), Ready s → PixelChannel s ch → (ctrl = true → ch = 0) →
    (i = .ipiSetVcCfg ch vcId embEn (if ctrl then 1 else 0) ∨
      (s.inst.isNative = false ∧ i = .cmdSetVcCfg ch vcId embEn (if ctrl then 1 else 0))) →
    ∃ t, exec i s = .next t ∧ t.result = some (.ok .unit) ∧
      OnlyP s t [.ipi ch .vcid, .ipi ch .dataType, .ipi ch .mode] ∧
      t.p.get (.ipi ch .vcid) = setField (s.p.get (.ipi ch .vcid)) s.cfg.map.fVcid vcId ∧
      t.p.get (.ipi ch .dataType) = setField (s.p.get (.ipi ch .dataType)) s.cfg.map.fEmbEn (if embEn then 1 else 0) ∧
      t.p.get (.ipi ch .mode) = setField (s.p.get (.ipi ch .mode)) s.cfg.map.fCtrlMode (if ctrl then 1 else 0)

/-- 44_ipi.md R201 step 4, R202 (a): CTRL on another channel fails; `vcid` and `emb_en` each hold their old or their new
value (which, the model leaves free: notes/assumptions/17.md), `ctrl_mode` and everything else are unchanged. A bad enum
word in the command fails before any write (46_commands.md R271). In the operation no rule states its result: the model runs
it with a mode left free, CAMERA or CTRL (notes/assumptions/36.md), and it ends as the operation with that mode does. -/
def Obligations.CtrlModeOnlyOnChannelZero : Prop :=
  ∀ (s : State) (i : Instr) (ch vcId : Nat) (embEn : Bool), Ready s → PixelChannel s ch →
    (ch ≠ 0 → (i = .ipiSetVcCfg ch vcId embEn 1 ∨ (s.inst.isNative = false ∧ i = .cmdSetVcCfg ch vcId embEn 1)) →
      ∃ t, exec i s = .next t ∧ t.result = some (.err .invalidArgument) ∧
        t = { s with p := t.p, choice := t.choice, trace := t.trace, result := t.result } ∧
        Bank.SameBut s.p t.p [.ipi ch .vcid, .ipi ch .dataType] ∧
        (t.p.get (.ipi ch .vcid) = s.p.get (.ipi ch .vcid) ∨
          t.p.get (.ipi ch .vcid) = setField (s.p.get (.ipi ch .vcid)) s.cfg.map.fVcid vcId) ∧
        (t.p.get (.ipi ch .dataType) = s.p.get (.ipi ch .dataType) ∨
          t.p.get (.ipi ch .dataType)
            = setField (s.p.get (.ipi ch .dataType)) s.cfg.map.fEmbEn (if embEn then 1 else 0)) ∧
        SameMemory s t) ∧
    (∀ mode, 2 ≤ mode → s.inst.isNative = false →
      exec (.cmdSetVcCfg ch vcId embEn mode) s = .next { s with result := some (.err .invalidArgument) }) ∧
    (∀ mode, 2 ≤ mode → ∃ free t, (free = 0 ∨ free = 1) ∧ exec (.ipiSetVcCfg ch vcId embEn mode) s = .next t ∧
      exec (.ipiSetVcCfg ch vcId embEn free) { s with choice := s.choice + 1 } = .next t)

/-- 44_ipi.md R203, R204, 46_commands.md R276: IPI_INIT, and CMD_SET_FORMAT with the configuration's options, program the
channel: data type, auto-flush, colour and cut-through mode, the timing triple (the defaults in native mode, else the
calculator's: the two formulas have their own statements), the test-pattern registers when the generator is active (with
RGB888 instead of the format asked), the advanced features, and the soft-reset pulse; the channel is Configured. `vcid`,
`emb_en`, `ctrl_mode` and `enable` keep their bits. The writes are in R203's order and end with the pulse, held and then
released: that direction is the model's choice (R205, notes/assumptions/18.md), and so is a `manual_flush` that clears itself
(notes/assumptions/19.md). -/
def Obligations.InitProgramsTheChannel : Prop :=
  ∀ (s : State) (i : Instr) (ch width height fmt : Nat) (f : Format) (cut : Bool) (adv : Word),
    Ready s → PixelChannel s ch → InitInputs s → formatOfCode fmt = some f →
    (i = .ipiInit ch width height fmt cut adv ∨
      (s.inst.isNative = false ∧ cut = s.cfg.cutThrough ∧ adv = s.cfg.advFeatures ∧
        i = .cmdSetFormat ch width height fmt)) →
    let c := s.cfg
    let eff := if s.inst.tpgEnabled then .rgb888 else f
    let dt := (formatEntry c.dt eff).toNat
    let vc := getField (s.p.get (.ipi ch .vcid)) c.map.fVcid
    ∃ t tm, exec i s = .next t ∧ t.result = some (.ok .unit) ∧
      (s.inst.isNative = true → tm = ⟨4, 4, c.hsdDefault⟩) ∧
      (∀ lanes rate, s.inst.isNative = false → TimingInputs s lanes rate →
        tm = if cut then cutThroughTiming c lanes rate s.inst.pixclk
             else legacyTiming c eff width 4 4 lanes rate s.inst.pixclk) ∧
      t = { s with p := t.p, ch := t.ch, inst := t.inst, trace := t.trace, result := t.result } ∧
      phaseOf t ch = .configured ∧ (∀ k, k ≠ ch → phaseOf t k = phaseOf s k) ∧
      t.p.get (.ipi ch .dataType) = setField (s.p.get (.ipi ch .dataType)) c.map.fDt dt ∧
      t.p.get (.ipi ch .memFlush)
        = storedValue c (.ipi ch .memFlush) (setField (s.p.get (.ipi ch .memFlush)) c.map.fAutoFlush 1) ∧
      t.p.get (.ipi ch .mode) = setField (setField (s.p.get (.ipi ch .mode)) c.map.fColor16
        (if color16Of eff then 1 else 0)) c.map.fCutThrough (if cut then 1 else 0) ∧
      t.p.get (.ipi ch .hsaTime) = setField (s.p.get (.ipi ch .hsaTime)) c.map.fHsa tm.hsa ∧
      t.p.get (.ipi ch .hbpTime) = setField (s.p.get (.ipi ch .hbpTime)) c.map.fHbp tm.hbp ∧
      t.p.get (.ipi ch .hsdTime) = setField (s.p.get (.ipi ch .hsdTime)) c.map.fHsd tm.hsd ∧
      t.p.get (.ipi ch .advFeatures) = adv ∧
      t.p.ipiSoftrstn = setField s.p.ipiSoftrstn (fieldPos c (.softrstn ch)) 1 ∧
      writtenSince s t =
        [.p (.ipi ch .dataType), .p (.ipi ch .memFlush), .p (.ipi ch .mode), .p (.ipi ch .mode), .p (.ipi ch .hsaTime),
         .p (.ipi ch .hbpTime), .p (.ipi ch .hsdTime)] ++
        (if s.inst.tpgEnabled then [.p .tpgConfig, .p .tpgConfig, .p .tpgConfig, .p .tpgPkt2pkt] else []) ++
        [.p (.ipi ch .advFeatures), .p .ipiSoftrstn, .p .ipiSoftrstn] ∧
      (∃ before, t.trace = before ++
        [.wr (.p (.ipi ch .advFeatures)) adv,
         .rd (.p .ipiSoftrstn) s.p.ipiSoftrstn,
         .wr (.p .ipiSoftrstn) (setField s.p.ipiSoftrstn (fieldPos c (.softrstn ch)) 0),
         .rd (.p .ipiSoftrstn) (setField s.p.ipiSoftrstn (fieldPos c (.softrstn ch)) 0),
         .wr (.p .ipiSoftrstn) (setField s.p.ipiSoftrstn (fieldPos c (.softrstn ch)) 1)]) ∧
      (s.inst.tpgEnabled = false → t.inst = s.inst ∧
        Bank.SameBut s.p t.p [.ipi ch .dataType, .ipi ch .memFlush, .ipi ch .mode, .ipi ch .hsaTime, .ipi ch .hbpTime,
          .ipi ch .hsdTime, .ipi ch .advFeatures, .ipiSoftrstn]) ∧
      (s.inst.tpgEnabled = true → t.inst = { s.inst with tpgVc := vc, tpgDt := dt } ∧
        t.p.tpgConfig = setField (setField (setField s.p.tpgConfig c.map.fTpgHorizontal
          (if s.inst.tpgHorizontal then 1 else 0)) c.map.fTpgVc vc) c.map.fTpgDt dt ∧
        (s.inst.tpgPkt2pkt ≠ 0 → t.p.tpgPkt2pkt = setField s.p.tpgPkt2pkt c.map.fPkt2pkt s.inst.tpgPkt2pkt) ∧
        (∀ rate, s.inst.tpgPkt2pkt = 0 → s.inst.laneRate = some rate →
          t.p.tpgPkt2pkt = setField s.p.tpgPkt2pkt c.map.fPkt2pkt (Config.pkt2pkt rate s.inst.pixclk 2)) ∧
        Bank.SameBut s.p t.p [.ipi ch .dataType, .ipi ch .memFlush, .ipi ch .mode, .ipi ch .hsaTime, .ipi ch .hbpTime,
          .ipi ch .hsdTime, .ipi ch .advFeatures, .ipiSoftrstn, .tpgConfig, .tpgPkt2pkt]) ∧
      SameMemory s t

/-- 44_ipi.md R207, R208, R209, 46_commands.md R277: start sets the enable bit, and stop clears it together with the
controller reset line; the generator and the bypass are switched exactly when the attributes say so at the time. -/
def Obligations.StartAndStopSwitchTheChannel : Prop :=
  ∀ (s : State) (i : Instr) (ch : Nat), Ready s → PixelChannel s ch →
    ((i = .ipiStart ch ∨ (s.inst.isNative = false ∧ i = .cmdSetState ch true)) →
      ∃ t, exec i s = .next t ∧ t.result = some (.ok .unit) ∧
        OnlyPAndPhase s t ch [.ipi ch .mode, .tpgEnable, .idiBypass] ∧ phaseOf t ch = .enabled ∧
        t.p.get (.ipi ch .mode) = setField (s.p.get (.ipi ch .mode)) s.cfg.map.fEnable 1 ∧
        t.p.tpgEnable = (if s.inst.tpgEnabled then setField s.p.tpgEnable s.cfg.map.fTpgEn 1 else s.p.tpgEnable) ∧
        t.p.idiBypass = (if s.inst.bypass then setField s.p.idiBypass s.cfg.map.fBypassEn 1 else s.p.idiBypass)) ∧
    ((i = .ipiStop ch ∨ (s.inst.isNative = false ∧ i = .cmdSetState ch false)) →
      ∃ t, exec i s = .next t ∧ t.result = some (.ok .unit) ∧
        OnlyPAndPhase s t ch [.ipi ch .mode, .tpgEnable, .idiBypass, .csi2Resetn] ∧ phaseOf t ch = .disabled ∧
        t.p.get (.ipi ch .mode) = setField (s.p.get (.ipi ch .mode)) s.cfg.map.fEnable 0 ∧
        t.p.tpgEnable = (if s.inst.tpgEnabled then setField s.p.tpgEnable s.cfg.map.fTpgEn 0 else s.p.tpgEnable) ∧
        t.p.idiBypass = (if s.inst.bypass then setField s.p.idiBypass s.cfg.map.fBypassEn 0 else s.p.idiBypass) ∧
        t.p.csi2Resetn = setField s.p.csi2Resetn s.cfg.map.fResetn 0)

/-- 44_ipi.md R210: release, then enable; or disable, then hold. Nothing else is touched. -/
def Obligations.ResetAndDownIsSymmetric : Prop :=
  ∀ (s : State) (ch : Nat), Ready s → PixelChannel s ch →
    (∃ t, exec (.ipiResetAndDown ch true) s = .next t ∧ t.result = some (.ok .unit) ∧
      OnlyPAndPhase s t ch [.ipiSoftrstn, .ipi ch .mode] ∧ phaseOf t ch = .enabled ∧
      t.p.ipiSoftrstn = setField s.p.ipiSoftrstn (fieldPos s.cfg (.softrstn ch)) 1 ∧
      t.p.get (.ipi ch .mode) = setField (s.p.get (.ipi ch .mode)) s.cfg.map.fEnable 1 ∧
      writtenSince s t = [.p .ipiSoftrstn, .p (.ipi ch .mode)]) ∧
    (∃ t, exec (.ipiResetAndDown ch false) s = .next t ∧ t.result = some (.ok .unit) ∧
      OnlyPAndPhase s t ch [.ipiSoftrstn, .ipi ch .mode] ∧ phaseOf t ch = .disabled ∧
      t.p.ipiSoftrstn = setField s.p.ipiSoftrstn (fieldPos s.cfg (.softrstn ch)) 0 ∧
      t.p.get (.ipi ch .mode) = setField (s.p.get (.ipi ch .mode)) s.cfg.map.fEnable 0 ∧
      writtenSince s t = [.p (.ipi ch .mode), .p .ipiSoftrstn])

/-- 44_ipi.md R211, R212, 10_state.md R51, 70_reset_and_hazards.md R348: the manual flush, the pulse of the channel, then
every channel released and every other bit of IPI_SOFTRSTN 0; `enable` is not written, an Enabled channel becomes
Configured. Called directly it makes the seven accesses that R211's pseudocode fixes (R352); the pulse's direction is the
model's choice (notes/assumptions/18.md), and so is a `manual_flush` that clears itself (notes/assumptions/19.md). -/
def Obligations.OverflowResetReleasesAllChannels : Prop :=
  ∀ (s : State) (ch : Nat), Ready s → PixelChannel s ch →
    ∃ t, exec (.ipiOverflowReset ch) s = .next t ∧ t.result = some (.ok .unit) ∧
      OnlyPAndPhase s t ch [.ipi ch .memFlush, .ipiSoftrstn] ∧
      phaseOf t ch = (if phaseOf s ch = .enabled then .configured else phaseOf s ch) ∧
      t.p.get (.ipi ch .memFlush)
        = storedValue s.cfg (.ipi ch .memFlush) (setField (s.p.get (.ipi ch .memFlush)) s.cfg.map.fManualFlush 1) ∧
      (∀ k < Config.maxPixCh, pField t (.softrstn k) = 1) ∧
      (∀ b < 32, (∀ k < Config.maxPixCh, b ≠ (fieldPos s.cfg (.softrstn k)).lo) → t.p.ipiSoftrstn.getLsbD b = false) ∧
      t.trace = s.trace ++
        [.rd (.p (.ipi ch .memFlush)) (s.p.get (.ipi ch .memFlush)),
         .wr (.p (.ipi ch .memFlush)) (setField (s.p.get (.ipi ch .memFlush)) s.cfg.map.fManualFlush 1),
         .rd (.p .ipiSoftrstn) s.p.ipiSoftrstn,
         .wr (.p .ipiSoftrstn) (setField s.p.ipiSoftrstn (fieldPos s.cfg (.softrstn ch)) 0),
         .rd (.p .ipiSoftrstn) (setField s.p.ipiSoftrstn (fieldPos s.cfg (.softrstn ch)) 0),
         .wr (.p .ipiSoftrstn) (setField s.p.ipiSoftrstn (fieldPos s.cfg (.softrstn ch)) 1),
         .wr (.p .ipiSoftrstn) t.p.ipiSoftrstn]

/-- 44_ipi.md R200, 46_commands.md R281, 60_exceptions.md R303: a channel index beyond the pixel channels ends in
InvalidArgument before any access, also when the format is bad; a bad format on a good channel in Unsupported. -/
def Obligations.BadChannelIsRejectedBeforeAnyAccess : Prop :=
  ∀ (s : State) (ch : Nat), s.opInFlight = false →
    (s.cfg.numInst - 1 ≤ ch → ∀ (i : Instr),
      ((∃ v e m, i = .ipiSetVcCfg ch v e m) ∨ (∃ w h f c a, i = .ipiInit ch w h f c a) ∨ i = .ipiStart ch ∨
        i = .ipiStop ch ∨ (∃ e, i = .ipiResetAndDown ch e) ∨ i = .ipiOverflowReset ch ∨ (∃ m, i = .ipiRegDump ch m) ∨
        (∃ m v0 v1 v2 v3 v4 v5 v6 v7, i = .ipiRegSet ch m v0 v1 v2 v3 v4 v5 v6 v7) ∨
        (s.inst.isNative = false ∧ ((∃ v e m, i = .cmdSetVcCfg ch v e m) ∨ (∃ w h f, i = .cmdSetFormat ch w h f) ∨
          ∃ b, i = .cmdSetState ch b))) →
      exec i s = .next { s with result := some (.err .invalidArgument) }) ∧
    (ch < s.cfg.numInst - 1 → ∀ width height fmt cut adv, 6 ≤ fmt →
      exec (.ipiInit ch width height fmt cut adv) s = .next { s with result := some (.err .unsupported) } ∧
      (s.inst.isNative = false →
        exec (.cmdSetFormat ch width height fmt) s = .next { s with result := some (.err .unsupported) }))

/-- 44_ipi.md R213, R215: the entries the mask names, in order; entry 7 is the channel's fatal status within `ebits`, and its
read clears that status when reads clear (45_irq.md R249); channels without a category have no entry 7. -/
def Obligations.RegDumpReturnsTheMaskedEntries : Prop :=
  ∀ (s : State) (ch : Nat) (mask : BitVec 8), Ready s → PixelChannel s ch →
    ∃ t out, exec (.ipiRegDump ch mask) s = .next t ∧ t.result = some (.ok (.dump out)) ∧ out.length = 8 ∧
      (∀ i r, [PReg.ipi ch .mode, .ipi ch .vcid, .ipi ch .dataType, .ipi ch .hsaTime, .ipi ch .hbpTime, .ipi ch .hsdTime,
          .ipi ch .advFeatures][i]? = some r →
        out[i]? = some (if mask.getLsbD i then some (s.p.get r) else none)) ∧
      (∀ k, s.cfg.ipiFatalCat[ch]? = some k →
        out[7]? = some (if mask.getLsbD 7 then some (s.p.get (.intSt k) &&& (catEntry s.cfg k).ebits) else none)) ∧
      (4 ≤ ch → out[7]? = some none) ∧
      t = { s with p := t.p, trace := t.trace, result := t.result } ∧
      (∀ k, s.cfg.ipiFatalCat[ch]? = some k → mask.getLsbD 7 = true → s.cfg.stReadClears = true →
        t.p.get (.intSt k) = 0) ∧
      (∀ q, ((∀ k, s.cfg.ipiFatalCat[ch]? = some k → q ≠ .intSt k) ∨ mask.getLsbD 7 = false ∨
        s.cfg.stReadClears = false) → t.p.get q = s.p.get q) ∧
      SameMemory s t

/-- 44_ipi.md R214: whole-register writes of the entries the mask names, entry 7 ignored, no phase changed. -/
def Obligations.RegSetWritesTheMaskedEntries : Prop :=
  ∀ (s : State) (ch : Nat) (mask : BitVec 8) (v0 v1 v2 v3 v4 v5 v6 v7 : Word), Ready s → PixelChannel s ch →
    ∃ t, exec (.ipiRegSet ch mask v0 v1 v2 v3 v4 v5 v6 v7) s = .next t ∧ t.result = some (.ok .unit) ∧
      OnlyP s t [.ipi ch .mode, .ipi ch .vcid, .ipi ch .dataType, .ipi ch .hsaTime, .ipi ch .hbpTime, .ipi ch .hsdTime,
        .ipi ch .advFeatures] ∧
      t.p.get (.ipi ch .mode) = (if mask.getLsbD 0 then v0 else s.p.get (.ipi ch .mode)) ∧
      t.p.get (.ipi ch .vcid) = (if mask.getLsbD 1 then v1 else s.p.get (.ipi ch .vcid)) ∧
      t.p.get (.ipi ch .dataType) = (if mask.getLsbD 2 then v2 else s.p.get (.ipi ch .dataType)) ∧
      t.p.get (.ipi ch .hsaTime) = (if mask.getLsbD 3 then v3 else s.p.get (.ipi ch .hsaTime)) ∧
      t.p.get (.ipi ch .hbpTime) = (if mask.getLsbD 4 then v4 else s.p.get (.ipi ch .hbpTime)) ∧
      t.p.get (.ipi ch .hsdTime) = (if mask.getLsbD 5 then v5 else s.p.get (.ipi ch .hsdTime)) ∧
      t.p.get (.ipi ch .advFeatures) = (if mask.getLsbD 6 then v6 else s.p.get (.ipi ch .advFeatures))

/-- 44_ipi.md R216, the table of `ch_state` transitions of undisturbed operations (the power hooks and the handler have
their own statements). -/
def Obligations.ChannelPhaseTable : Prop :=
  ∀ (i : Instr) (s t : State), Quiet s → exec i s = .next t → i ≠ .irqHandle → i ≠ .pwrSuspend →
    (∀ e, t.result = some (.err e) → t.ch = s.ch) ∧
    (∀ v, t.result = some (.ok v) → i ≠ .pwrResume → ∀ k,
      phaseOf t k = match i with
        | .ipiInit ch _ _ _ _ _ => if k = ch then .configured else phaseOf s k
        | .ipiStart ch => if k = ch then .enabled else phaseOf s k
        | .ipiStop ch => if k = ch then .disabled else phaseOf s k
        | .ipiResetAndDown ch enable =>
          if k = ch then (if enable then .enabled else .disabled) else phaseOf s k
        | .ipiOverflowReset ch => if k = ch ∧ phaseOf s k = .enabled then .configured else phaseOf s k
        | .cmdSetFormat ch _ _ _ => if k = ch ∧ s.inst.isNative = false then .configured else phaseOf s k
        | .cmdSetState ch start =>
          if k = ch ∧ s.inst.isNative = false then (if start then .enabled else .disabled) else phaseOf s k
        | _ => phaseOf s k)

/-! ## Interrupts -/

/-- 45_irq.md R242, R243, R241: enable writes every category's defined bits into its mask register, disable writes 0, in
table order; after disable the summary is 0 and the line low, whatever is pending, and no status bit is lost. -/
def Obligations.EnableAndDisableWriteEveryMask : Prop :=
  ∀ s : State, Ready s →
    (∃ t, exec .irqEnable s = .next t ∧ t.result = some (.ok .unit) ∧
      OnlyP s t ((List.range 14).map .intMsk) ∧
      (∀ c < 14, t.p.get (.intMsk c) = (catEntry s.cfg c).ebits) ∧
      t.trace = s.trace ++ (List.range 14).map fun c => .wr (.p (.intMsk c)) (catEntry s.cfg c).ebits) ∧
    (∃ t, exec .irqDisable s = .next t ∧ t.result = some (.ok .unit) ∧
      OnlyP s t ((List.range 14).map .intMsk) ∧ (∀ c < 14, t.p.get (.intMsk c) = 0) ∧
      mainStatus t.cfg t.p = 0 ∧ irqLine t = false ∧
      t.trace = s.trace ++ (List.range 14).map fun c => .wr (.p (.intMsk c)) 0)

/-- 45_irq.md R244, R245: the categories whose id bit is set are masked, the others left; the result says whether some
category is not named, from the bitmask alone, bits 14 and up ignored. -/
def Obligations.DisableByMaskReportsTheRest : Prop :=
  ∀ (s : State) (bitmask : Nat), Ready s →
    ∃ t, exec (.irqDisableByMask bitmask) s = .next t ∧
      t.result = some (.ok (.bool ((List.range 14).any fun c => !bitmask.testBit c))) ∧
      OnlyP s t ((List.range 14).map .intMsk) ∧
      (∀ c < 14, t.p.get (.intMsk c) = if bitmask.testBit c then 0 else s.p.get (.intMsk c))

/-- 45_irq.md R247, R248, 60_exceptions.md R307 to R312: the undisturbed handler notifies, in table order, exactly the
categories with a pending unmasked bit, each with its status within the defined bits and its overflow flag; runs the
recovery for each existing channel whose category shows the overflow bit; reports the main status read at the start; and
changes nothing else. It makes at most 15 status reads and, in at most 4 recoveries, at most 24 other accesses (R246, R352;
which read of R211 a recovery leaves out is the model's reading: notes/assumptions/39.md). A `manual_flush` that clears
itself is the model's choice (notes/assumptions/19.md). -/
def Obligations.HandlerReportsEveryPendingCategory : Prop :=
  ∀ s : State, Ready s →
    let c := s.cfg
    let status := fun k => s.p.get (.intSt k) &&& (catEntry c k).ebits
    let visited := fun k => decide (status k &&& s.p.get (.intMsk k) ≠ 0)
    let overflow := fun k => decide (k ∈ c.ipiFatalCat) && (status k).getLsbD c.ipiOvfBit
    let recovered := fun ch =>
      ch < c.numInst - 1 ∧ ∃ k, c.ipiFatalCat[ch]? = some k ∧ visited k = true ∧ overflow k = true
    ∃ t, exec .irqHandle s = .next t ∧ t.result = some (.ok .unit) ∧
      t = { s with p := t.p, ch := t.ch, events := t.events, trace := t.trace, result := t.result } ∧
      t.events = s.events ++
        (((List.range 14).filter visited).map fun k =>
          Event.faultNotify s.inst.id (status k) k (overflow k) (decide (s.onFault = .registered))) ++
        (if s.onDone = .registered then [Event.doneNotify s.inst.id (mainStatus c s.p)] else []) ∧
      (∀ k < 14, t.p.get (.intSt k)
        = if visited k = true ∧ c.stReadClears = true then 0 else s.p.get (.intSt k)) ∧
      (∀ ch, recovered ch → t.p.ipiSoftrstn = allRelease c ∧
        t.p.get (.ipi ch .memFlush)
          = storedValue c (.ipi ch .memFlush) (setField (s.p.get (.ipi ch .memFlush)) c.map.fManualFlush 1) ∧
        phaseOf t ch = if phaseOf s ch = .enabled then .configured else phaseOf s ch) ∧
      (∀ ch, ¬ recovered ch →
        t.p.get (.ipi ch .memFlush) = s.p.get (.ipi ch .memFlush) ∧ phaseOf t ch = phaseOf s ch) ∧
      ((∀ ch, ¬ recovered ch) → t.p.ipiSoftrstn = s.p.ipiSoftrstn) ∧
      (∀ r, (∀ k < 14, r ≠ .intSt k) → (∀ ch, r ≠ .ipi ch .memFlush) → r ≠ .ipiSoftrstn → t.p.get r = s.p.get r) ∧
      (∃ accesses, t.trace = s.trace ++ accesses ∧ (accesses.filter isStatusRead).length ≤ 15 ∧
        (accesses.filter fun a => !isStatusRead a).length ≤ 4 * 6) ∧
      SameMemory s t

/-- 45_irq.md R249, 10_state.md R34, R59: when reads clear the status, the undisturbed handler leaves no summary bit and
the line low. -/
def Obligations.HandlerLowersTheLine : Prop :=
  ∀ s : State, Ready s → s.cfg.stReadClears = true →
    ∃ t, exec .irqHandle s = .next t ∧ mainStatus t.cfg t.p = 0 ∧ irqLine t = false

/-! ## Commands and power -/

/-- 46_commands.md R272, R274, R275, R278: four commands of a bridged instance; `inst` is ignored (R281). That
the controller reset pulse is 0 and then 1, and ends released, is the model's choice (notes/assumptions/18.md). -/
def Obligations.AttributeAndResetCommands : Prop :=
  ∀ (s : State) (a : Nat), Ready s → s.inst.isNative = false →
    (∀ lanes, 1 ≤ lanes → lanes ≤ 4 →
      ∃ t, exec (.cmdSetLanes a lanes) s = .next t ∧ t.result = some (.ok .unit) ∧
        t = { s with inst := { s.inst with lanes := some lanes }, p := t.p, trace := t.trace, result := t.result } ∧
        Bank.SameBut s.p t.p [.nLanes] ∧
        t.p.nLanes = setField s.p.nLanes s.cfg.map.fNLanes (s.cfg.lanesEnc.getD (lanes - 1) 0) ∧ SameMemory s t) ∧
    (∀ lanes, (lanes < 1 ∨ 4 < lanes) →
      exec (.cmdSetLanes a lanes) s = .next { s with result := some (.err .invalidArgument) }) ∧
    (∀ enable pkt2pkt, exec (.cmdSetTpgMode a enable pkt2pkt) s = .next { s with
      inst := { s.inst with tpgEnabled := enable, tpgPkt2pkt := pkt2pkt }, result := some (.ok .unit) }) ∧
    (∀ bypass, exec (.cmdSetBypass a bypass) s = .next { s with
      inst := { s.inst with bypass := bypass }, result := some (.ok .unit) }) ∧
    (∃ t, exec (.cmdResetControl a) s = .next t ∧ t.result = some (.ok .unit) ∧ OnlyP s t [.csi2Resetn] ∧
      t.p.csi2Resetn = setField s.p.csi2Resetn s.cfg.map.fResetn 1 ∧
      t.trace = s.trace ++ [.rd (.p .csi2Resetn) s.p.csi2Resetn,
        .wr (.p .csi2Resetn) (setField s.p.csi2Resetn s.cfg.map.fResetn 0),
        .rd (.p .csi2Resetn) (setField s.p.csi2Resetn s.cfg.map.fResetn 0),
        .wr (.p .csi2Resetn) (setField s.p.csi2Resetn s.cfg.map.fResetn 1)])

/-- 46_commands.md R273: rate 0 or no lane count ends in InvalidArgument with no change; else the rate is stored and the
power-up runs, whose result is the command's; with the stop bits shown the standard path ends Ready, and on an error the
new rate stays. -/
def Obligations.LaneRateCommandRunsThePowerup : Prop :=
  ∀ (s : State) (a rate : Nat), Ready s → s.inst.isNative = false →
    (rate = 0 ∨ s.inst.lanes = none →
      exec (.cmdSetLaneRate a rate) s = .next { s with result := some (.err .invalidArgument) }) ∧
    (∀ lanes, 0 < rate → s.inst.lanes = some lanes →
      exec (.cmdSetLaneRate a rate) s = exec .dphyPowerup { s with inst := { s.inst with laneRate := some rate } }) ∧
    (∀ lanes, 160 ≤ rate → s.inst.lanes = some lanes → 1 ≤ lanes → lanes ≤ 4 → s.inst.id < Config.numPhy →
      (lanes ≤ 2 ∨ s.inst.tpgEnabled = true) → (∀ b < lanes, s.p.phyStopstate.getLsbD b = true) →
      ∃ t, exec (.cmdSetLaneRate a rate) s = .next t ∧ t.result = some (.ok .unit) ∧ t.dphy = .ready ∧
        t = { s with inst := { s.inst with laneRate := some rate }, p := t.p, w := t.w, dphy := t.dphy, trace := t.trace,
                     result := t.result } ∧
        Bank.SameBut s.p t.p [.dphyRstz, .phyShutdownz] ∧
        t.p.dphyRstz = setField s.p.dphyRstz s.cfg.map.fRstz 1 ∧
        t.p.phyShutdownz = setField s.p.phyShutdownz s.cfg.map.fShutdownz 1 ∧
        t.w = wSet s.cfg (wSet s.cfg s.w (.hsfreqrange s.inst.id) (Config.hsfreqCode (rangeIndex rate)).toNat)
          (.enableclk s.inst.id) 1 ∧ SameMemory s t)

/-- 46_commands.md R283, 10_state.md R61, 70_reset_and_hazards.md R331: with all clocks on or absent, nothing; from clocks
off with every enable answered, all present clocks on, every register a fresh unknown value, phases at their reset values,
attributes kept; a refused enable leaves the clocks and everything else as before. That W, T, the test trace and the event
list start afresh is the reading of notes/assumptions/12.md, which clocks are asked that of 13.md, and that a resume with
all clocks absent does nothing that of 40.md; that the fresh PHY_STOPSTATE is an unknown value and the fresh INT_ST[c] not restricted to `ebits`: 9.md and 16.md. -/
def Obligations.ResumeEnablesTheClocksOrRollsBack : Prop :=
  ∀ s : State, Idle s →
    (clocksOn s.clk = true → exec .pwrResume s = .next { s with result := some (.ok .unit) }) ∧
    (clocksOn s.clk = false → (∀ c, s.clk.get c = .off → s.clkOk.get c = true) →
      ∃ t, exec .pwrResume s = .next t ∧ t.result = some (.ok .unit) ∧
        (∀ c, t.clk.get c = if s.clk.get c = .absent then .absent else .on) ∧
        t = { s with
          clk := t.clk, dphy := .reset, ch := List.replicate 8 .disabled, p := t.p, x := t.x, w := t.w, t := [],
          testTrace := [], events := [], draw := s.draw + 1, result := t.result } ∧
        (∀ r ∈ bankRegs s.cfg, r ≠ .version → r ≠ .intStMain →
          t.p.get r = Config.resetVal (s.draw + 1) (.p r) ∧ t.x.get r = Config.resetVal (s.draw + 1) (.x r)) ∧
        (∀ k < s.cfg.map.wWords, tblGet 0 t.w k = Config.resetVal (s.draw + 1) (.w k)) ∧
        (∀ a, Memory.read t.draw t.t a = Config.resetByte (s.draw + 1) a)) ∧
    (∀ c, s.clk.get c = .off → s.clkOk.get c = false →
      exec .pwrResume s = .next { s with result := some (.err .invalidArgument) })

/-- 46_commands.md R284, R285, 10_state.md R61: every present clock goes off, the attributes survive, the registers of P, X
and W and the bytes of T do not (R61's own decision for W and T: notes/assumptions/12.md; unknown values as at reset:
notes/assumptions/9.md, 16.md), and every access to P or X is a fault until a resume (an unmapped offset too:
notes/assumptions/29.md). -/
def Obligations.SuspendStopsTheClocks : Prop :=
  ∀ s : State, Idle s →
    ∃ t, exec .pwrSuspend s = .next t ∧ t.result = some (.ok .unit) ∧
      (∀ c, t.clk.get c = if s.clk.get c = .absent then .absent else .off) ∧
      t = { s with clk := t.clk, dphy := t.dphy, ch := t.ch, p := t.p, x := t.x, w := t.w, t := t.t, draw := t.draw,
                   result := t.result } ∧
      ((∀ c, s.clk.get c ≠ .on) → t = { s with result := t.result }) ∧
      ((∃ c, s.clk.get c = .on) → t.draw = s.draw + 1 ∧
        (∀ a, Memory.read t.draw t.t a = Config.resetByte (s.draw + 1) a) ∧
        (∀ k < s.cfg.map.wWords, tblGet 0 t.w k = Config.resetVal (s.draw + 1) (.w k)) ∧
        ∀ r ∈ bankRegs s.cfg, r ≠ .version → r ≠ .intStMain →
          t.p.get r = Config.resetVal (s.draw + 1) (.p r) ∧ t.x.get r = Config.resetVal (s.draw + 1) (.x r)) ∧
      ((∃ c, s.clk.get c ≠ .absent) → ∀ offset v, exec (.regRead offset) t = .fault .preconditionViolated ∧
        exec (.regWrite offset v) t = .fault .preconditionViolated ∧
        exec (.regReadExt offset) t = .fault .preconditionViolated ∧
        exec (.regWriteExt offset v) t = .fault .preconditionViolated)

/-! ## Interleavings -/

/-- 70_reset_and_hazards.md R343, 20_memory.md R84, R75: the mate's write of a wrapper word between the read and the write of
a field update is lost; before the read it is kept. -/
def Obligations.UpdateOfSharedWrapperWordCanBeLost : Prop :=
  ∀ (s : State) (id : Nat) (v : Word), Idle s → Powered s → id < Config.numPhy →
    let f := wrapperPos s.cfg (.enableclk id)
    f.word < s.w.length →
    (∃ t, exec (.wrapEnableClock id) { s with env := [[], [.mateWriteW f.word v]] } = .next t ∧
      t.result = some (.ok .unit) ∧ tblGet 0 t.w f.word = setField (tblGet 0 s.w f.word) ⟨f.lo, f.width⟩ 1) ∧
    (∃ t, exec (.wrapEnableClock id) { s with env := [[.mateWriteW f.word v]] } = .next t ∧
      t.result = some (.ok .unit) ∧ tblGet 0 t.w f.word = setField v ⟨f.lo, f.width⟩ 1)

/-- 70_reset_and_hazards.md R344, 60_exceptions.md R308, R317: the handler between the read and the write of a field update
of IPI_SOFTRSTN runs to completion and notifies the overflow, and the configuration write then puts back what it had read:
the handler's release of the other channels is undone. -/
def Obligations.HandlerBetweenReadAndWriteIsUndone : Prop :=
  ∀ (s : State) (ch k j : Nat), Good s → Powered s → PixelChannel s ch → PixelChannel s k →
    s.cfg.ipiFatalCat[k]? = some j →
    (s.p.get (.intSt j) &&& s.p.get (.intMsk j) &&& (catEntry s.cfg j).ebits).getLsbD s.cfg.ipiOvfBit = true →
    ∃ t, exec (.ipiResetAndDown ch true) { s with env := [[], [.irq]] } = .next t ∧ t.result = some (.ok .unit) ∧
      t.p.ipiSoftrstn = setField s.p.ipiSoftrstn (fieldPos s.cfg (.softrstn ch)) 1 ∧
      (∃ st d, Event.faultNotify s.inst.id st j true d ∈ t.events) ∧
      (k ≠ ch → phaseOf t k = if phaseOf s k = .enabled then .configured else phaseOf s k)

/-- 70_reset_and_hazards.md R346: with reads that clear, a dump of entry 7 or a REG_READ of INT_ST[c] consumes the pending
bits, and the main bit falls with them. -/
def Obligations.StatusReadsConsumeFaults : Prop :=
  ∀ (s : State) (ch k : Nat) (mask : BitVec 8), Ready s → s.cfg.stReadClears = true → PixelChannel s ch →
    s.cfg.ipiFatalCat[ch]? = some k → mask.getLsbD 7 = true →
    (∃ t, exec (.ipiRegDump ch mask) s = .next t ∧ t.p.get (.intSt k) = 0 ∧
      mainStatus t.cfg t.p &&& (catEntry s.cfg k).mainbit = 0) ∧
    (∀ c < 14, ∃ t, exec (.regRead (offsetOf s.cfg (.intSt c))) s = .next t ∧ t.p.get (.intSt c) = 0 ∧
      mainStatus t.cfg t.p &&& (catEntry s.cfg c).mainbit = 0)
end

