-- ==== Sys2Proof/Laws/State.lean ====
section
/-! SUPPORT. One lemma per field per named update of State. -/

namespace Sys2Proof.Machine

section
variable (s : State) (v : Instance)
@[simp] theorem State.setInst_cfg : (s.setInst v).cfg = s.cfg := rfl
@[simp] theorem State.setInst_inst : (s.setInst v).inst = v := rfl
@[simp] theorem State.setInst_onFault : (s.setInst v).onFault = s.onFault := rfl
@[simp] theorem State.setInst_onDone : (s.setInst v).onDone = s.onDone := rfl
@[simp] theorem State.setInst_dphy : (s.setInst v).dphy = s.dphy := rfl
@[simp] theorem State.setInst_ch : (s.setInst v).ch = s.ch := rfl
@[simp] theorem State.setInst_p : (s.setInst v).p = s.p := rfl
@[simp] theorem State.setInst_x : (s.setInst v).x = s.x := rfl
@[simp] theorem State.setInst_w : (s.setInst v).w = s.w := rfl
@[simp] theorem State.setInst_t : (s.setInst v).t = s.t := rfl
@[simp] theorem State.setInst_testTrace : (s.setInst v).testTrace = s.testTrace := rfl
@[simp] theorem State.setInst_clk : (s.setInst v).clk = s.clk := rfl
@[simp] theorem State.setInst_events : (s.setInst v).events = s.events := rfl
@[simp] theorem State.setInst_result : (s.setInst v).result = s.result := rfl
@[simp] theorem State.setInst_trace : (s.setInst v).trace = s.trace := rfl
@[simp] theorem State.setInst_ctx : (s.setInst v).ctx = s.ctx := rfl
@[simp] theorem State.setInst_opInFlight : (s.setInst v).opInFlight = s.opInFlight := rfl
@[simp] theorem State.setInst_inbox : (s.setInst v).inbox = s.inbox := rfl
@[simp] theorem State.setInst_env : (s.setInst v).env = s.env := rfl
@[simp] theorem State.setInst_clkOk : (s.setInst v).clkOk = s.clkOk := rfl
@[simp] theorem State.setInst_draw : (s.setInst v).draw = s.draw := rfl
@[simp] theorem State.setInst_choice : (s.setInst v).choice = s.choice := rfl
@[simp] theorem State.setInst_setInst (v' : Instance) : (s.setInst v).setInst v' = s.setInst v' := rfl
@[simp] theorem State.setInst_self : s.setInst s.inst = s := rfl
end

section
variable (s : State) (v : Slot)
@[simp] theorem State.setOnFault_cfg : (s.setOnFault v).cfg = s.cfg := rfl
@[simp] theorem State.setOnFault_inst : (s.setOnFault v).inst = s.inst := rfl
@[simp] theorem State.setOnFault_onFault : (s.setOnFault v).onFault = v := rfl
@[simp] theorem State.setOnFault_onDone : (s.setOnFault v).onDone = s.onDone := rfl
@[simp] theorem State.setOnFault_dphy : (s.setOnFault v).dphy = s.dphy := rfl
@[simp] theorem State.setOnFault_ch : (s.setOnFault v).ch = s.ch := rfl
@[simp] theorem State.setOnFault_p : (s.setOnFault v).p = s.p := rfl
@[simp] theorem State.setOnFault_x : (s.setOnFault v).x = s.x := rfl
@[simp] theorem State.setOnFault_w : (s.setOnFault v).w = s.w := rfl
@[simp] theorem State.setOnFault_t : (s.setOnFault v).t = s.t := rfl
@[simp] theorem State.setOnFault_testTrace : (s.setOnFault v).testTrace = s.testTrace := rfl
@[simp] theorem State.setOnFault_clk : (s.setOnFault v).clk = s.clk := rfl
@[simp] theorem State.setOnFault_events : (s.setOnFault v).events = s.events := rfl
@[simp] theorem State.setOnFault_result : (s.setOnFault v).result = s.result := rfl
@[simp] theorem State.setOnFault_trace : (s.setOnFault v).trace = s.trace := rfl
@[simp] theorem State.setOnFault_ctx : (s.setOnFault v).ctx = s.ctx := rfl
@[simp] theorem State.setOnFault_opInFlight : (s.setOnFault v).opInFlight = s.opInFlight := rfl
@[simp] theorem State.setOnFault_inbox : (s.setOnFault v).inbox = s.inbox := rfl
@[simp] theorem State.setOnFault_env : (s.setOnFault v).env = s.env := rfl
@[simp] theorem State.setOnFault_clkOk : (s.setOnFault v).clkOk = s.clkOk := rfl
@[simp] theorem State.setOnFault_draw : (s.setOnFault v).draw = s.draw := rfl
@[simp] theorem State.setOnFault_choice : (s.setOnFault v).choice = s.choice := rfl
@[simp] theorem State.setOnFault_setOnFault (v' : Slot) : (s.setOnFault v).setOnFault v' = s.setOnFault v' := rfl
@[simp] theorem State.setOnFault_self : s.setOnFault s.onFault = s := rfl
end

section
variable (s : State) (v : Slot)
@[simp] theorem State.setOnDone_cfg : (s.setOnDone v).cfg = s.cfg := rfl
@[simp] theorem State.setOnDone_inst : (s.setOnDone v).inst = s.inst := rfl
@[simp] theorem State.setOnDone_onFault : (s.setOnDone v).onFault = s.onFault := rfl
@[simp] theorem State.setOnDone_onDone : (s.setOnDone v).onDone = v := rfl
@[simp] theorem State.setOnDone_dphy : (s.setOnDone v).dphy = s.dphy := rfl
@[simp] theorem State.setOnDone_ch : (s.setOnDone v).ch = s.ch := rfl
@[simp] theorem State.setOnDone_p : (s.setOnDone v).p = s.p := rfl
@[simp] theorem State.setOnDone_x : (s.setOnDone v).x = s.x := rfl
@[simp] theorem State.setOnDone_w : (s.setOnDone v).w = s.w := rfl
@[simp] theorem State.setOnDone_t : (s.setOnDone v).t = s.t := rfl
@[simp] theorem State.setOnDone_testTrace : (s.setOnDone v).testTrace = s.testTrace := rfl
@[simp] theorem State.setOnDone_clk : (s.setOnDone v).clk = s.clk := rfl
@[simp] theorem State.setOnDone_events : (s.setOnDone v).events = s.events := rfl
@[simp] theorem State.setOnDone_result : (s.setOnDone v).result = s.result := rfl
@[simp] theorem State.setOnDone_trace : (s.setOnDone v).trace = s.trace := rfl
@[simp] theorem State.setOnDone_ctx : (s.setOnDone v).ctx = s.ctx := rfl
@[simp] theorem State.setOnDone_opInFlight : (s.setOnDone v).opInFlight = s.opInFlight := rfl
@[simp] theorem State.setOnDone_inbox : (s.setOnDone v).inbox = s.inbox := rfl
@[simp] theorem State.setOnDone_env : (s.setOnDone v).env = s.env := rfl
@[simp] theorem State.setOnDone_clkOk : (s.setOnDone v).clkOk = s.clkOk := rfl
@[simp] theorem State.setOnDone_draw : (s.setOnDone v).draw = s.draw := rfl
@[simp] theorem State.setOnDone_choice : (s.setOnDone v).choice = s.choice := rfl
@[simp] theorem State.setOnDone_setOnDone (v' : Slot) : (s.setOnDone v).setOnDone v' = s.setOnDone v' := rfl
@[simp] theorem State.setOnDone_self : s.setOnDone s.onDone = s := rfl
end

section
variable (s : State) (v : DphyState)
@[simp] theorem State.setDphy_cfg : (s.setDphy v).cfg = s.cfg := rfl
@[simp] theorem State.setDphy_inst : (s.setDphy v).inst = s.inst := rfl
@[simp] theorem State.setDphy_onFault : (s.setDphy v).onFault = s.onFault := rfl
@[simp] theorem State.setDphy_onDone : (s.setDphy v).onDone = s.onDone := rfl
@[simp] theorem State.setDphy_dphy : (s.setDphy v).dphy = v := rfl
@[simp] theorem State.setDphy_ch : (s.setDphy v).ch = s.ch := rfl
@[simp] theorem State.setDphy_p : (s.setDphy v).p = s.p := rfl
@[simp] theorem State.setDphy_x : (s.setDphy v).x = s.x := rfl
@[simp] theorem State.setDphy_w : (s.setDphy v).w = s.w := rfl
@[simp] theorem State.setDphy_t : (s.setDphy v).t = s.t := rfl
@[simp] theorem State.setDphy_testTrace : (s.setDphy v).testTrace = s.testTrace := rfl
@[simp] theorem State.setDphy_clk : (s.setDphy v).clk = s.clk := rfl
@[simp] theorem State.setDphy_events : (s.setDphy v).events = s.events := rfl
@[simp] theorem State.setDphy_result : (s.setDphy v).result = s.result := rfl
@[simp] theorem State.setDphy_trace : (s.setDphy v).trace = s.trace := rfl
@[simp] theorem State.setDphy_ctx : (s.setDphy v).ctx = s.ctx := rfl
@[simp] theorem State.setDphy_opInFlight : (s.setDphy v).opInFlight = s.opInFlight := rfl
@[simp] theorem State.setDphy_inbox : (s.setDphy v).inbox = s.inbox := rfl
@[simp] theorem State.setDphy_env : (s.setDphy v).env = s.env := rfl
@[simp] theorem State.setDphy_clkOk : (s.setDphy v).clkOk = s.clkOk := rfl
@[simp] theorem State.setDphy_draw : (s.setDphy v).draw = s.draw := rfl
@[simp] theorem State.setDphy_choice : (s.setDphy v).choice = s.choice := rfl
@[simp] theorem State.setDphy_setDphy (v' : DphyState) : (s.setDphy v).setDphy v' = s.setDphy v' := rfl
@[simp] theorem State.setDphy_self : s.setDphy s.dphy = s := rfl
end

section
variable (s : State) (v : List ChState)
@[simp] theorem State.setChs_cfg : (s.setChs v).cfg = s.cfg := rfl
@[simp] theorem State.setChs_inst : (s.setChs v).inst = s.inst := rfl
@[simp] theorem State.setChs_onFault : (s.setChs v).onFault = s.onFault := rfl
@[simp] theorem State.setChs_onDone : (s.setChs v).onDone = s.onDone := rfl
@[simp] theorem State.setChs_dphy : (s.setChs v).dphy = s.dphy := rfl
@[simp] theorem State.setChs_ch : (s.setChs v).ch = v := rfl
@[simp] theorem State.setChs_p : (s.setChs v).p = s.p := rfl
@[simp] theorem State.setChs_x : (s.setChs v).x = s.x := rfl
@[simp] theorem State.setChs_w : (s.setChs v).w = s.w := rfl
@[simp] theorem State.setChs_t : (s.setChs v).t = s.t := rfl
@[simp] theorem State.setChs_testTrace : (s.setChs v).testTrace = s.testTrace := rfl
@[simp] theorem State.setChs_clk : (s.setChs v).clk = s.clk := rfl
@[simp] theorem State.setChs_events : (s.setChs v).events = s.events := rfl
@[simp] theorem State.setChs_result : (s.setChs v).result = s.result := rfl
@[simp] theorem State.setChs_trace : (s.setChs v).trace = s.trace := rfl
@[simp] theorem State.setChs_ctx : (s.setChs v).ctx = s.ctx := rfl
@[simp] theorem State.setChs_opInFlight : (s.setChs v).opInFlight = s.opInFlight := rfl
@[simp] theorem State.setChs_inbox : (s.setChs v).inbox = s.inbox := rfl
@[simp] theorem State.setChs_env : (s.setChs v).env = s.env := rfl
@[simp] theorem State.setChs_clkOk : (s.setChs v).clkOk = s.clkOk := rfl
@[simp] theorem State.setChs_draw : (s.setChs v).draw = s.draw := rfl
@[simp] theorem State.setChs_choice : (s.setChs v).choice = s.choice := rfl
@[simp] theorem State.setChs_setChs (v' : List ChState) : (s.setChs v).setChs v' = s.setChs v' := rfl
@[simp] theorem State.setChs_self : s.setChs s.ch = s := rfl
end

section
variable (s : State) (v : Bank)
@[simp] theorem State.setP_cfg : (s.setP v).cfg = s.cfg := rfl
@[simp] theorem State.setP_inst : (s.setP v).inst = s.inst := rfl
@[simp] theorem State.setP_onFault : (s.setP v).onFault = s.onFault := rfl
@[simp] theorem State.setP_onDone : (s.setP v).onDone = s.onDone := rfl
@[simp] theorem State.setP_dphy : (s.setP v).dphy = s.dphy := rfl
@[simp] theorem State.setP_ch : (s.setP v).ch = s.ch := rfl
@[simp] theorem State.setP_p : (s.setP v).p = v := rfl
@[simp] theorem State.setP_x : (s.setP v).x = s.x := rfl
@[simp] theorem State.setP_w : (s.setP v).w = s.w := rfl
@[simp] theorem State.setP_t : (s.setP v).t = s.t := rfl
@[simp] theorem State.setP_testTrace : (s.setP v).testTrace = s.testTrace := rfl
@[simp] theorem State.setP_clk : (s.setP v).clk = s.clk := rfl
@[simp] theorem State.setP_events : (s.setP v).events = s.events := rfl
@[simp] theorem State.setP_result : (s.setP v).result = s.result := rfl
@[simp] theorem State.setP_trace : (s.setP v).trace = s.trace := rfl
@[simp] theorem State.setP_ctx : (s.setP v).ctx = s.ctx := rfl
@[simp] theorem State.setP_opInFlight : (s.setP v).opInFlight = s.opInFlight := rfl
@[simp] theorem State.setP_inbox : (s.setP v).inbox = s.inbox := rfl
@[simp] theorem State.setP_env : (s.setP v).env = s.env := rfl
@[simp] theorem State.setP_clkOk : (s.setP v).clkOk = s.clkOk := rfl
@[simp] theorem State.setP_draw : (s.setP v).draw = s.draw := rfl
@[simp] theorem State.setP_choice : (s.setP v).choice = s.choice := rfl
@[simp] theorem State.setP_setP (v' : Bank) : (s.setP v).setP v' = s.setP v' := rfl
@[simp] theorem State.setP_self : s.setP s.p = s := rfl
end

section
variable (s : State) (v : Bank)
@[simp] theorem State.setX_cfg : (s.setX v).cfg = s.cfg := rfl
@[simp] theorem State.setX_inst : (s.setX v).inst = s.inst := rfl
@[simp] theorem State.setX_onFault : (s.setX v).onFault = s.onFault := rfl
@[simp] theorem State.setX_onDone : (s.setX v).onDone = s.onDone := rfl
@[simp] theorem State.setX_dphy : (s.setX v).dphy = s.dphy := rfl
@[simp] theorem State.setX_ch : (s.setX v).ch = s.ch := rfl
@[simp] theorem State.setX_p : (s.setX v).p = s.p := rfl
@[simp] theorem State.setX_x : (s.setX v).x = v := rfl
@[simp] theorem State.setX_w : (s.setX v).w = s.w := rfl
@[simp] theorem State.setX_t : (s.setX v).t = s.t := rfl
@[simp] theorem State.setX_testTrace : (s.setX v).testTrace = s.testTrace := rfl
@[simp] theorem State.setX_clk : (s.setX v).clk = s.clk := rfl
@[simp] theorem State.setX_events : (s.setX v).events = s.events := rfl
@[simp] theorem State.setX_result : (s.setX v).result = s.result := rfl
@[simp] theorem State.setX_trace : (s.setX v).trace = s.trace := rfl
@[simp] theorem State.setX_ctx : (s.setX v).ctx = s.ctx := rfl
@[simp] theorem State.setX_opInFlight : (s.setX v).opInFlight = s.opInFlight := rfl
@[simp] theorem State.setX_inbox : (s.setX v).inbox = s.inbox := rfl
@[simp] theorem State.setX_env : (s.setX v).env = s.env := rfl
@[simp] theorem State.setX_clkOk : (s.setX v).clkOk = s.clkOk := rfl
@[simp] theorem State.setX_draw : (s.setX v).draw = s.draw := rfl
@[simp] theorem State.setX_choice : (s.setX v).choice = s.choice := rfl
@[simp] theorem State.setX_setX (v' : Bank) : (s.setX v).setX v' = s.setX v' := rfl
@[simp] theorem State.setX_self : s.setX s.x = s := rfl
end

section
variable (s : State) (v : List Word)
@[simp] theorem State.setW_cfg : (s.setW v).cfg = s.cfg := rfl
@[simp] theorem State.setW_inst : (s.setW v).inst = s.inst := rfl
@[simp] theorem State.setW_onFault : (s.setW v).onFault = s.onFault := rfl
@[simp] theorem State.setW_onDone : (s.setW v).onDone = s.onDone := rfl
@[simp] theorem State.setW_dphy : (s.setW v).dphy = s.dphy := rfl
@[simp] theorem State.setW_ch : (s.setW v).ch = s.ch := rfl
@[simp] theorem State.setW_p : (s.setW v).p = s.p := rfl
@[simp] theorem State.setW_x : (s.setW v).x = s.x := rfl
@[simp] theorem State.setW_w : (s.setW v).w = v := rfl
@[simp] theorem State.setW_t : (s.setW v).t = s.t := rfl
@[simp] theorem State.setW_testTrace : (s.setW v).testTrace = s.testTrace := rfl
@[simp] theorem State.setW_clk : (s.setW v).clk = s.clk := rfl
@[simp] theorem State.setW_events : (s.setW v).events = s.events := rfl
@[simp] theorem State.setW_result : (s.setW v).result = s.result := rfl
@[simp] theorem State.setW_trace : (s.setW v).trace = s.trace := rfl
@[simp] theorem State.setW_ctx : (s.setW v).ctx = s.ctx := rfl
@[simp] theorem State.setW_opInFlight : (s.setW v).opInFlight = s.opInFlight := rfl
@[simp] theorem State.setW_inbox : (s.setW v).inbox = s.inbox := rfl
@[simp] theorem State.setW_env : (s.setW v).env = s.env := rfl
@[simp] theorem State.setW_clkOk : (s.setW v).clkOk = s.clkOk := rfl
@[simp] theorem State.setW_draw : (s.setW v).draw = s.draw := rfl
@[simp] theorem State.setW_choice : (s.setW v).choice = s.choice := rfl
@[simp] theorem State.setW_setW (v' : List Word) : (s.setW v).setW v' = s.setW v' := rfl
@[simp] theorem State.setW_self : s.setW s.w = s := rfl
end

section
variable (s : State) (v : Memory)
@[simp] theorem State.setT_cfg : (s.setT v).cfg = s.cfg := rfl
@[simp] theorem State.setT_inst : (s.setT v).inst = s.inst := rfl
@[simp] theorem State.setT_onFault : (s.setT v).onFault = s.onFault := rfl
@[simp] theorem State.setT_onDone : (s.setT v).onDone = s.onDone := rfl
@[simp] theorem State.setT_dphy : (s.setT v).dphy = s.dphy := rfl
@[simp] theorem State.setT_ch : (s.setT v).ch = s.ch := rfl
@[simp] theorem State.setT_p : (s.setT v).p = s.p := rfl
@[simp] theorem State.setT_x : (s.setT v).x = s.x := rfl
@[simp] theorem State.setT_w : (s.setT v).w = s.w := rfl
@[simp] theorem State.setT_t : (s.setT v).t = v := rfl
@[simp] theorem State.setT_testTrace : (s.setT v).testTrace = s.testTrace := rfl
@[simp] theorem State.setT_clk : (s.setT v).clk = s.clk := rfl
@[simp] theorem State.setT_events : (s.setT v).events = s.events := rfl
@[simp] theorem State.setT_result : (s.setT v).result = s.result := rfl
@[simp] theorem State.setT_trace : (s.setT v).trace = s.trace := rfl
@[simp] theorem State.setT_ctx : (s.setT v).ctx = s.ctx := rfl
@[simp] theorem State.setT_opInFlight : (s.setT v).opInFlight = s.opInFlight := rfl
@[simp] theorem State.setT_inbox : (s.setT v).inbox = s.inbox := rfl
@[simp] theorem State.setT_env : (s.setT v).env = s.env := rfl
@[simp] theorem State.setT_clkOk : (s.setT v).clkOk = s.clkOk := rfl
@[simp] theorem State.setT_draw : (s.setT v).draw = s.draw := rfl
@[simp] theorem State.setT_choice : (s.setT v).choice = s.choice := rfl
@[simp] theorem State.setT_setT (v' : Memory) : (s.setT v).setT v' = s.setT v' := rfl
@[simp] theorem State.setT_self : s.setT s.t = s := rfl
end

section
variable (s : State) (v : List TestRecord)
@[simp] theorem State.setTestTrace_cfg : (s.setTestTrace v).cfg = s.cfg := rfl
@[simp] theorem State.setTestTrace_inst : (s.setTestTrace v).inst = s.inst := rfl
@[simp] theorem State.setTestTrace_onFault : (s.setTestTrace v).onFault = s.onFault := rfl
@[simp] theorem State.setTestTrace_onDone : (s.setTestTrace v).onDone = s.onDone := rfl
@[simp] theorem State.setTestTrace_dphy : (s.setTestTrace v).dphy = s.dphy := rfl
@[simp] theorem State.setTestTrace_ch : (s.setTestTrace v).ch = s.ch := rfl
@[simp] theorem State.setTestTrace_p : (s.setTestTrace v).p = s.p := rfl
@[simp] theorem State.setTestTrace_x : (s.setTestTrace v).x = s.x := rfl
@[simp] theorem State.setTestTrace_w : (s.setTestTrace v).w = s.w := rfl
@[simp] theorem State.setTestTrace_t : (s.setTestTrace v).t = s.t := rfl
@[simp] theorem State.setTestTrace_testTrace : (s.setTestTrace v).testTrace = v := rfl
@[simp] theorem State.setTestTrace_clk : (s.setTestTrace v).clk = s.clk := rfl
@[simp] theorem State.setTestTrace_events : (s.setTestTrace v).events = s.events := rfl
@[simp] theorem State.setTestTrace_result : (s.setTestTrace v).result = s.result := rfl
@[simp] theorem State.setTestTrace_trace : (s.setTestTrace v).trace = s.trace := rfl
@[simp] theorem State.setTestTrace_ctx : (s.setTestTrace v).ctx = s.ctx := rfl
@[simp] theorem State.setTestTrace_opInFlight : (s.setTestTrace v).opInFlight = s.opInFlight := rfl
@[simp] theorem State.setTestTrace_inbox : (s.setTestTrace v).inbox = s.inbox := rfl
@[simp] theorem State.setTestTrace_env : (s.setTestTrace v).env = s.env := rfl
@[simp] theorem State.setTestTrace_clkOk : (s.setTestTrace v).clkOk = s.clkOk := rfl
@[simp] theorem State.setTestTrace_draw : (s.setTestTrace v).draw = s.draw := rfl
@[simp] theorem State.setTestTrace_choice : (s.setTestTrace v).choice = s.choice := rfl
@[simp] theorem State.setTestTrace_setTestTrace (v' : List TestRecord) : (s.setTestTrace v).setTestTrace v' = s.setTestTrace v' := rfl
@[simp] theorem State.setTestTrace_self : s.setTestTrace s.testTrace = s := rfl
end

section
variable (s : State) (v : Clocks)
@[simp] theorem State.setClk_cfg : (s.setClk v).cfg = s.cfg := rfl
@[simp] theorem State.setClk_inst : (s.setClk v).inst = s.inst := rfl
@[simp] theorem State.setClk_onFault : (s.setClk v).onFault = s.onFault := rfl
@[simp] theorem State.setClk_onDone : (s.setClk v).onDone = s.onDone := rfl
@[simp] theorem State.setClk_dphy : (s.setClk v).dphy = s.dphy := rfl
@[simp] theorem State.setClk_ch : (s.setClk v).ch = s.ch := rfl
@[simp] theorem State.setClk_p : (s.setClk v).p = s.p := rfl
@[simp] theorem State.setClk_x : (s.setClk v).x = s.x := rfl
@[simp] theorem State.setClk_w : (s.setClk v).w = s.w := rfl
@[simp] theorem State.setClk_t : (s.setClk v).t = s.t := rfl
@[simp] theorem State.setClk_testTrace : (s.setClk v).testTrace = s.testTrace := rfl
@[simp] theorem State.setClk_clk : (s.setClk v).clk = v := rfl
@[simp] theorem State.setClk_events : (s.setClk v).events = s.events := rfl
@[simp] theorem State.setClk_result : (s.setClk v).result = s.result := rfl
@[simp] theorem State.setClk_trace : (s.setClk v).trace = s.trace := rfl
@[simp] theorem State.setClk_ctx : (s.setClk v).ctx = s.ctx := rfl
@[simp] theorem State.setClk_opInFlight : (s.setClk v).opInFlight = s.opInFlight := rfl
@[simp] theorem State.setClk_inbox : (s.setClk v).inbox = s.inbox := rfl
@[simp] theorem State.setClk_env : (s.setClk v).env = s.env := rfl
@[simp] theorem State.setClk_clkOk : (s.setClk v).clkOk = s.clkOk := rfl
@[simp] theorem State.setClk_draw : (s.setClk v).draw = s.draw := rfl
@[simp] theorem State.setClk_choice : (s.setClk v).choice = s.choice := rfl
@[simp] theorem State.setClk_setClk (v' : Clocks) : (s.setClk v).setClk v' = s.setClk v' := rfl
@[simp] theorem State.setClk_self : s.setClk s.clk = s := rfl
end

section
variable (s : State) (v : List Event)
@[simp] theorem State.setEvents_cfg : (s.setEvents v).cfg = s.cfg := rfl
@[simp] theorem State.setEvents_inst : (s.setEvents v).inst = s.inst := rfl
@[simp] theorem State.setEvents_onFault : (s.setEvents v).onFault = s.onFault := rfl
@[simp] theorem State.setEvents_onDone : (s.setEvents v).onDone = s.onDone := rfl
@[simp] theorem State.setEvents_dphy : (s.setEvents v).dphy = s.dphy := rfl
@[simp] theorem State.setEvents_ch : (s.setEvents v).ch = s.ch := rfl
@[simp] theorem State.setEvents_p : (s.setEvents v).p = s.p := rfl
@[simp] theorem State.setEvents_x : (s.setEvents v).x = s.x := rfl
@[simp] theorem State.setEvents_w : (s.setEvents v).w = s.w := rfl
@[simp] theorem State.setEvents_t : (s.setEvents v).t = s.t := rfl
@[simp] theorem State.setEvents_testTrace : (s.setEvents v).testTrace = s.testTrace := rfl
@[simp] theorem State.setEvents_clk : (s.setEvents v).clk = s.clk := rfl
@[simp] theorem State.setEvents_events : (s.setEvents v).events = v := rfl
@[simp] theorem State.setEvents_result : (s.setEvents v).result = s.result := rfl
@[simp] theorem State.setEvents_trace : (s.setEvents v).trace = s.trace := rfl
@[simp] theorem State.setEvents_ctx : (s.setEvents v).ctx = s.ctx := rfl
@[simp] theorem State.setEvents_opInFlight : (s.setEvents v).opInFlight = s.opInFlight := rfl
@[simp] theorem State.setEvents_inbox : (s.setEvents v).inbox = s.inbox := rfl
@[simp] theorem State.setEvents_env : (s.setEvents v).env = s.env := rfl
@[simp] theorem State.setEvents_clkOk : (s.setEvents v).clkOk = s.clkOk := rfl
@[simp] theorem State.setEvents_draw : (s.setEvents v).draw = s.draw := rfl
@[simp] theorem State.setEvents_choice : (s.setEvents v).choice = s.choice := rfl
@[simp] theorem State.setEvents_setEvents (v' : List Event) : (s.setEvents v).setEvents v' = s.setEvents v' := rfl
@[simp] theorem State.setEvents_self : s.setEvents s.events = s := rfl
end

section
variable (s : State) (v : Option Result)
@[simp] theorem State.setResult_cfg : (s.setResult v).cfg = s.cfg := rfl
@[simp] theorem State.setResult_inst : (s.setResult v).inst = s.inst := rfl
@[simp] theorem State.setResult_onFault : (s.setResult v).onFault = s.onFault := rfl
@[simp] theorem State.setResult_onDone : (s.setResult v).onDone = s.onDone := rfl
@[simp] theorem State.setResult_dphy : (s.setResult v).dphy = s.dphy := rfl
@[simp] theorem State.setResult_ch : (s.setResult v).ch = s.ch := rfl
@[simp] theorem State.setResult_p : (s.setResult v).p = s.p := rfl
@[simp] theorem State.setResult_x : (s.setResult v).x = s.x := rfl
@[simp] theorem State.setResult_w : (s.setResult v).w = s.w := rfl
@[simp] theorem State.setResult_t : (s.setResult v).t = s.t := rfl
@[simp] theorem State.setResult_testTrace : (s.setResult v).testTrace = s.testTrace := rfl
@[simp] theorem State.setResult_clk : (s.setResult v).clk = s.clk := rfl
@[simp] theorem State.setResult_events : (s.setResult v).events = s.events := rfl
@[simp] theorem State.setResult_result : (s.setResult v).result = v := rfl
@[simp] theorem State.setResult_trace : (s.setResult v).trace = s.trace := rfl
@[simp] theorem State.setResult_ctx : (s.setResult v).ctx = s.ctx := rfl
@[simp] theorem State.setResult_opInFlight : (s.setResult v).opInFlight = s.opInFlight := rfl
@[simp] theorem State.setResult_inbox : (s.setResult v).inbox = s.inbox := rfl
@[simp] theorem State.setResult_env : (s.setResult v).env = s.env := rfl
@[simp] theorem State.setResult_clkOk : (s.setResult v).clkOk = s.clkOk := rfl
@[simp] theorem State.setResult_draw : (s.setResult v).draw = s.draw := rfl
@[simp] theorem State.setResult_choice : (s.setResult v).choice = s.choice := rfl
@[simp] theorem State.setResult_setResult (v' : Option Result) : (s.setResult v).setResult v' = s.setResult v' := rfl
@[simp] theorem State.setResult_self : s.setResult s.result = s := rfl
end

section
variable (s : State) (v : List Access)
@[simp] theorem State.setTrace_cfg : (s.setTrace v).cfg = s.cfg := rfl
@[simp] theorem State.setTrace_inst : (s.setTrace v).inst = s.inst := rfl
@[simp] theorem State.setTrace_onFault : (s.setTrace v).onFault = s.onFault := rfl
@[simp] theorem State.setTrace_onDone : (s.setTrace v).onDone = s.onDone := rfl
@[simp] theorem State.setTrace_dphy : (s.setTrace v).dphy = s.dphy := rfl
@[simp] theorem State.setTrace_ch : (s.setTrace v).ch = s.ch := rfl
@[simp] theorem State.setTrace_p : (s.setTrace v).p = s.p := rfl
@[simp] theorem State.setTrace_x : (s.setTrace v).x = s.x := rfl
@[simp] theorem State.setTrace_w : (s.setTrace v).w = s.w := rfl
@[simp] theorem State.setTrace_t : (s.setTrace v).t = s.t := rfl
@[simp] theorem State.setTrace_testTrace : (s.setTrace v).testTrace = s.testTrace := rfl
@[simp] theorem State.setTrace_clk : (s.setTrace v).clk = s.clk := rfl
@[simp] theorem State.setTrace_events : (s.setTrace v).events = s.events := rfl
@[simp] theorem State.setTrace_result : (s.setTrace v).result = s.result := rfl
@[simp] theorem State.setTrace_trace : (s.setTrace v).trace = v := rfl
@[simp] theorem State.setTrace_ctx : (s.setTrace v).ctx = s.ctx := rfl
@[simp] theorem State.setTrace_opInFlight : (s.setTrace v).opInFlight = s.opInFlight := rfl
@[simp] theorem State.setTrace_inbox : (s.setTrace v).inbox = s.inbox := rfl
@[simp] theorem State.setTrace_env : (s.setTrace v).env = s.env := rfl
@[simp] theorem State.setTrace_clkOk : (s.setTrace v).clkOk = s.clkOk := rfl
@[simp] theorem State.setTrace_draw : (s.setTrace v).draw = s.draw := rfl
@[simp] theorem State.setTrace_choice : (s.setTrace v).choice = s.choice := rfl
@[simp] theorem State.setTrace_setTrace (v' : List Access) : (s.setTrace v).setTrace v' = s.setTrace v' := rfl
@[simp] theorem State.setTrace_self : s.setTrace s.trace = s := rfl
end

section
variable (s : State) (v : Context)
@[simp] theorem State.setCtx_cfg : (s.setCtx v).cfg = s.cfg := rfl
@[simp] theorem State.setCtx_inst : (s.setCtx v).inst = s.inst := rfl
@[simp] theorem State.setCtx_onFault : (s.setCtx v).onFault = s.onFault := rfl
@[simp] theorem State.setCtx_onDone : (s.setCtx v).onDone = s.onDone := rfl
@[simp] theorem State.setCtx_dphy : (s.setCtx v).dphy = s.dphy := rfl
@[simp] theorem State.setCtx_ch : (s.setCtx v).ch = s.ch := rfl
@[simp] theorem State.setCtx_p : (s.setCtx v).p = s.p := rfl
@[simp] theorem State.setCtx_x : (s.setCtx v).x = s.x := rfl
@[simp] theorem State.setCtx_w : (s.setCtx v).w = s.w := rfl
@[simp] theorem State.setCtx_t : (s.setCtx v).t = s.t := rfl
@[simp] theorem State.setCtx_testTrace : (s.setCtx v).testTrace = s.testTrace := rfl
@[simp] theorem State.setCtx_clk : (s.setCtx v).clk = s.clk := rfl
@[simp] theorem State.setCtx_events : (s.setCtx v).events = s.events := rfl
@[simp] theorem State.setCtx_result : (s.setCtx v).result = s.result := rfl
@[simp] theorem State.setCtx_trace : (s.setCtx v).trace = s.trace := rfl
@[simp] theorem State.setCtx_ctx : (s.setCtx v).ctx = v := rfl
@[simp] theorem State.setCtx_opInFlight : (s.setCtx v).opInFlight = s.opInFlight := rfl
@[simp] theorem State.setCtx_inbox : (s.setCtx v).inbox = s.inbox := rfl
@[simp] theorem State.setCtx_env : (s.setCtx v).env = s.env := rfl
@[simp] theorem State.setCtx_clkOk : (s.setCtx v).clkOk = s.clkOk := rfl
@[simp] theorem State.setCtx_draw : (s.setCtx v).draw = s.draw := rfl
@[simp] theorem State.setCtx_choice : (s.setCtx v).choice = s.choice := rfl
@[simp] theorem State.setCtx_setCtx (v' : Context) : (s.setCtx v).setCtx v' = s.setCtx v' := rfl
@[simp] theorem State.setCtx_self : s.setCtx s.ctx = s := rfl
end

section
variable (s : State) (v : Bool)
@[simp] theorem State.setInFlight_cfg : (s.setInFlight v).cfg = s.cfg := rfl
@[simp] theorem State.setInFlight_inst : (s.setInFlight v).inst = s.inst := rfl
@[simp] theorem State.setInFlight_onFault : (s.setInFlight v).onFault = s.onFault := rfl
@[simp] theorem State.setInFlight_onDone : (s.setInFlight v).onDone = s.onDone := rfl
@[simp] theorem State.setInFlight_dphy : (s.setInFlight v).dphy = s.dphy := rfl
@[simp] theorem State.setInFlight_ch : (s.setInFlight v).ch = s.ch := rfl
@[simp] theorem State.setInFlight_p : (s.setInFlight v).p = s.p := rfl
@[simp] theorem State.setInFlight_x : (s.setInFlight v).x = s.x := rfl
@[simp] theorem State.setInFlight_w : (s.setInFlight v).w = s.w := rfl
@[simp] theorem State.setInFlight_t : (s.setInFlight v).t = s.t := rfl
@[simp] theorem State.setInFlight_testTrace : (s.setInFlight v).testTrace = s.testTrace := rfl
@[simp] theorem State.setInFlight_clk : (s.setInFlight v).clk = s.clk := rfl
@[simp] theorem State.setInFlight_events : (s.setInFlight v).events = s.events := rfl
@[simp] theorem State.setInFlight_result : (s.setInFlight v).result = s.result := rfl
@[simp] theorem State.setInFlight_trace : (s.setInFlight v).trace = s.trace := rfl
@[simp] theorem State.setInFlight_ctx : (s.setInFlight v).ctx = s.ctx := rfl
@[simp] theorem State.setInFlight_opInFlight : (s.setInFlight v).opInFlight = v := rfl
@[simp] theorem State.setInFlight_inbox : (s.setInFlight v).inbox = s.inbox := rfl
@[simp] theorem State.setInFlight_env : (s.setInFlight v).env = s.env := rfl
@[simp] theorem State.setInFlight_clkOk : (s.setInFlight v).clkOk = s.clkOk := rfl
@[simp] theorem State.setInFlight_draw : (s.setInFlight v).draw = s.draw := rfl
@[simp] theorem State.setInFlight_choice : (s.setInFlight v).choice = s.choice := rfl
@[simp] theorem State.setInFlight_setInFlight (v' : Bool) : (s.setInFlight v).setInFlight v' = s.setInFlight v' := rfl
@[simp] theorem State.setInFlight_self : s.setInFlight s.opInFlight = s := rfl
end

section
variable (s : State) (v : List Delivery)
@[simp] theorem State.setInbox_cfg : (s.setInbox v).cfg = s.cfg := rfl
@[simp] theorem State.setInbox_inst : (s.setInbox v).inst = s.inst := rfl
@[simp] theorem State.setInbox_onFault : (s.setInbox v).onFault = s.onFault := rfl
@[simp] theorem State.setInbox_onDone : (s.setInbox v).onDone = s.onDone := rfl
@[simp] theorem State.setInbox_dphy : (s.setInbox v).dphy = s.dphy := rfl
@[simp] theorem State.setInbox_ch : (s.setInbox v).ch = s.ch := rfl
@[simp] theorem State.setInbox_p : (s.setInbox v).p = s.p := rfl
@[simp] theorem State.setInbox_x : (s.setInbox v).x = s.x := rfl
@[simp] theorem State.setInbox_w : (s.setInbox v).w = s.w := rfl
@[simp] theorem State.setInbox_t : (s.setInbox v).t = s.t := rfl
@[simp] theorem State.setInbox_testTrace : (s.setInbox v).testTrace = s.testTrace := rfl
@[simp] theorem State.setInbox_clk : (s.setInbox v).clk = s.clk := rfl
@[simp] theorem State.setInbox_events : (s.setInbox v).events = s.events := rfl
@[simp] theorem State.setInbox_result : (s.setInbox v).result = s.result := rfl
@[simp] theorem State.setInbox_trace : (s.setInbox v).trace = s.trace := rfl
@[simp] theorem State.setInbox_ctx : (s.setInbox v).ctx = s.ctx := rfl
@[simp] theorem State.setInbox_opInFlight : (s.setInbox v).opInFlight = s.opInFlight := rfl
@[simp] theorem State.setInbox_inbox : (s.setInbox v).inbox = v := rfl
@[simp] theorem State.setInbox_env : (s.setInbox v).env = s.env := rfl
@[simp] theorem State.setInbox_clkOk : (s.setInbox v).clkOk = s.clkOk := rfl
@[simp] theorem State.setInbox_draw : (s.setInbox v).draw = s.draw := rfl
@[simp] theorem State.setInbox_choice : (s.setInbox v).choice = s.choice := rfl
@[simp] theorem State.setInbox_setInbox (v' : List Delivery) : (s.setInbox v).setInbox v' = s.setInbox v' := rfl
@[simp] theorem State.setInbox_self : s.setInbox s.inbox = s := rfl
end

section
variable (s : State) (v : List (List EnvMove))
@[simp] theorem State.setEnv_cfg : (s.setEnv v).cfg = s.cfg := rfl
@[simp] theorem State.setEnv_inst : (s.setEnv v).inst = s.inst := rfl
@[simp] theorem State.setEnv_onFault : (s.setEnv v).onFault = s.onFault := rfl
@[simp] theorem State.setEnv_onDone : (s.setEnv v).onDone = s.onDone := rfl
@[simp] theorem State.setEnv_dphy : (s.setEnv v).dphy = s.dphy := rfl
@[simp] theorem State.setEnv_ch : (s.setEnv v).ch = s.ch := rfl
@[simp] theorem State.setEnv_p : (s.setEnv v).p = s.p := rfl
@[simp] theorem State.setEnv_x : (s.setEnv v).x = s.x := rfl
@[simp] theorem State.setEnv_w : (s.setEnv v).w = s.w := rfl
@[simp] theorem State.setEnv_t : (s.setEnv v).t = s.t := rfl
@[simp] theorem State.setEnv_testTrace : (s.setEnv v).testTrace = s.testTrace := rfl
@[simp] theorem State.setEnv_clk : (s.setEnv v).clk = s.clk := rfl
@[simp] theorem State.setEnv_events : (s.setEnv v).events = s.events := rfl
@[simp] theorem State.setEnv_result : (s.setEnv v).result = s.result := rfl
@[simp] theorem State.setEnv_trace : (s.setEnv v).trace = s.trace := rfl
@[simp] theorem State.setEnv_ctx : (s.setEnv v).ctx = s.ctx := rfl
@[simp] theorem State.setEnv_opInFlight : (s.setEnv v).opInFlight = s.opInFlight := rfl
@[simp] theorem State.setEnv_inbox : (s.setEnv v).inbox = s.inbox := rfl
@[simp] theorem State.setEnv_env : (s.setEnv v).env = v := rfl
@[simp] theorem State.setEnv_clkOk : (s.setEnv v).clkOk = s.clkOk := rfl
@[simp] theorem State.setEnv_draw : (s.setEnv v).draw = s.draw := rfl
@[simp] theorem State.setEnv_choice : (s.setEnv v).choice = s.choice := rfl
@[simp] theorem State.setEnv_setEnv (v' : List (List EnvMove)) : (s.setEnv v).setEnv v' = s.setEnv v' := rfl
@[simp] theorem State.setEnv_self : s.setEnv s.env = s := rfl
end

section
variable (s : State) (v : ClkAnswers)
@[simp] theorem State.setClkOk_cfg : (s.setClkOk v).cfg = s.cfg := rfl
@[simp] theorem State.setClkOk_inst : (s.setClkOk v).inst = s.inst := rfl
@[simp] theorem State.setClkOk_onFault : (s.setClkOk v).onFault = s.onFault := rfl
@[simp] theorem State.setClkOk_onDone : (s.setClkOk v).onDone = s.onDone := rfl
@[simp] theorem State.setClkOk_dphy : (s.setClkOk v).dphy = s.dphy := rfl
@[simp] theorem State.setClkOk_ch : (s.setClkOk v).ch = s.ch := rfl
@[simp] theorem State.setClkOk_p : (s.setClkOk v).p = s.p := rfl
@[simp] theorem State.setClkOk_x : (s.setClkOk v).x = s.x := rfl
@[simp] theorem State.setClkOk_w : (s.setClkOk v).w = s.w := rfl
@[simp] theorem State.setClkOk_t : (s.setClkOk v).t = s.t := rfl
@[simp] theorem State.setClkOk_testTrace : (s.setClkOk v).testTrace = s.testTrace := rfl
@[simp] theorem State.setClkOk_clk : (s.setClkOk v).clk = s.clk := rfl
@[simp] theorem State.setClkOk_events : (s.setClkOk v).events = s.events := rfl
@[simp] theorem State.setClkOk_result : (s.setClkOk v).result = s.result := rfl
@[simp] theorem State.setClkOk_trace : (s.setClkOk v).trace = s.trace := rfl
@[simp] theorem State.setClkOk_ctx : (s.setClkOk v).ctx = s.ctx := rfl
@[simp] theorem State.setClkOk_opInFlight : (s.setClkOk v).opInFlight = s.opInFlight := rfl
@[simp] theorem State.setClkOk_inbox : (s.setClkOk v).inbox = s.inbox := rfl
@[simp] theorem State.setClkOk_env : (s.setClkOk v).env = s.env := rfl
@[simp] theorem State.setClkOk_clkOk : (s.setClkOk v).clkOk = v := rfl
@[simp] theorem State.setClkOk_draw : (s.setClkOk v).draw = s.draw := rfl
@[simp] theorem State.setClkOk_choice : (s.setClkOk v).choice = s.choice := rfl
@[simp] theorem State.setClkOk_setClkOk (v' : ClkAnswers) : (s.setClkOk v).setClkOk v' = s.setClkOk v' := rfl
@[simp] theorem State.setClkOk_self : s.setClkOk s.clkOk = s := rfl
end

section
variable (s : State) (v : Nat)
@[simp] theorem State.setDraw_cfg : (s.setDraw v).cfg = s.cfg := rfl
@[simp] theorem State.setDraw_inst : (s.setDraw v).inst = s.inst := rfl
@[simp] theorem State.setDraw_onFault : (s.setDraw v).onFault = s.onFault := rfl
@[simp] theorem State.setDraw_onDone : (s.setDraw v).onDone = s.onDone := rfl
@[simp] theorem State.setDraw_dphy : (s.setDraw v).dphy = s.dphy := rfl
@[simp] theorem State.setDraw_ch : (s.setDraw v).ch = s.ch := rfl
@[simp] theorem State.setDraw_p : (s.setDraw v).p = s.p := rfl
@[simp] theorem State.setDraw_x : (s.setDraw v).x = s.x := rfl
@[simp] theorem State.setDraw_w : (s.setDraw v).w = s.w := rfl
@[simp] theorem State.setDraw_t : (s.setDraw v).t = s.t := rfl
@[simp] theorem State.setDraw_testTrace : (s.setDraw v).testTrace = s.testTrace := rfl
@[simp] theorem State.setDraw_clk : (s.setDraw v).clk = s.clk := rfl
@[simp] theorem State.setDraw_events : (s.setDraw v).events = s.events := rfl
@[simp] theorem State.setDraw_result : (s.setDraw v).result = s.result := rfl
@[simp] theorem State.setDraw_trace : (s.setDraw v).trace = s.trace := rfl
@[simp] theorem State.setDraw_ctx : (s.setDraw v).ctx = s.ctx := rfl
@[simp] theorem State.setDraw_opInFlight : (s.setDraw v).opInFlight = s.opInFlight := rfl
@[simp] theorem State.setDraw_inbox : (s.setDraw v).inbox = s.inbox := rfl
@[simp] theorem State.setDraw_env : (s.setDraw v).env = s.env := rfl
@[simp] theorem State.setDraw_clkOk : (s.setDraw v).clkOk = s.clkOk := rfl
@[simp] theorem State.setDraw_draw : (s.setDraw v).draw = v := rfl
@[simp] theorem State.setDraw_choice : (s.setDraw v).choice = s.choice := rfl
@[simp] theorem State.setDraw_setDraw (v' : Nat) : (s.setDraw v).setDraw v' = s.setDraw v' := rfl
@[simp] theorem State.setDraw_self : s.setDraw s.draw = s := rfl
end

section
variable (s : State) (v : Nat)
@[simp] theorem State.setChoice_cfg : (s.setChoice v).cfg = s.cfg := rfl
@[simp] theorem State.setChoice_inst : (s.setChoice v).inst = s.inst := rfl
@[simp] theorem State.setChoice_onFault : (s.setChoice v).onFault = s.onFault := rfl
@[simp] theorem State.setChoice_onDone : (s.setChoice v).onDone = s.onDone := rfl
@[simp] theorem State.setChoice_dphy : (s.setChoice v).dphy = s.dphy := rfl
@[simp] theorem State.setChoice_ch : (s.setChoice v).ch = s.ch := rfl
@[simp] theorem State.setChoice_p : (s.setChoice v).p = s.p := rfl
@[simp] theorem State.setChoice_x : (s.setChoice v).x = s.x := rfl
@[simp] theorem State.setChoice_w : (s.setChoice v).w = s.w := rfl
@[simp] theorem State.setChoice_t : (s.setChoice v).t = s.t := rfl
@[simp] theorem State.setChoice_testTrace : (s.setChoice v).testTrace = s.testTrace := rfl
@[simp] theorem State.setChoice_clk : (s.setChoice v).clk = s.clk := rfl
@[simp] theorem State.setChoice_events : (s.setChoice v).events = s.events := rfl
@[simp] theorem State.setChoice_result : (s.setChoice v).result = s.result := rfl
@[simp] theorem State.setChoice_trace : (s.setChoice v).trace = s.trace := rfl
@[simp] theorem State.setChoice_ctx : (s.setChoice v).ctx = s.ctx := rfl
@[simp] theorem State.setChoice_opInFlight : (s.setChoice v).opInFlight = s.opInFlight := rfl
@[simp] theorem State.setChoice_inbox : (s.setChoice v).inbox = s.inbox := rfl
@[simp] theorem State.setChoice_env : (s.setChoice v).env = s.env := rfl
@[simp] theorem State.setChoice_clkOk : (s.setChoice v).clkOk = s.clkOk := rfl
@[simp] theorem State.setChoice_draw : (s.setChoice v).draw = s.draw := rfl
@[simp] theorem State.setChoice_choice : (s.setChoice v).choice = v := rfl
@[simp] theorem State.setChoice_setChoice (v' : Nat) : (s.setChoice v).setChoice v' = s.setChoice v' := rfl
@[simp] theorem State.setChoice_self : s.setChoice s.choice = s := rfl
end

/-- Two states that agree in every field are equal. -/
theorem State.eq_of_fields {s t : State} (cfg : s.cfg = t.cfg) (inst : s.inst = t.inst)
    (onFault : s.onFault = t.onFault) (onDone : s.onDone = t.onDone) (dphy : s.dphy = t.dphy)
    (ch : s.ch = t.ch) (p : s.p = t.p) (x : s.x = t.x) (w : s.w = t.w) (mem : s.t = t.t)
    (testTrace : s.testTrace = t.testTrace) (clk : s.clk = t.clk) (events : s.events = t.events)
    (result : s.result = t.result) (trace : s.trace = t.trace) (ctx : s.ctx = t.ctx)
    (opInFlight : s.opInFlight = t.opInFlight) (inbox : s.inbox = t.inbox) (env : s.env = t.env)
    (clkOk : s.clkOk = t.clkOk) (draw : s.draw = t.draw) (choice : s.choice = t.choice) : s = t := by
  cases s
  cases t
  simp_all

end Sys2Proof.Machine
end

