-- ==== Sys2Proof/Laws/Bank.lean ====
section
/-! SUPPORT. Laws of tables and banks: reading after writing, and every other register left alone; sizes are kept. -/

namespace Sys2Proof.Machine

@[simp] theorem tblGet_tblPut_same {α : Type} (d : α) (l : List α) (i : Nat) (v : α) :
    tblGet d (tblPut d l i v) i = v := by
  induction l generalizing i with
  | nil =>
    induction i with
    | zero => rfl
    | succ i ih => simpa [tblGet, tblPut] using ih
  | cons a l ih =>
    cases i with
    | zero => rfl
    | succ i => simpa [tblGet, tblPut] using ih i

theorem tblGet_tblPut_ne {α : Type} (d : α) (l : List α) (i j : Nat) (v : α) (h : j ≠ i) :
    tblGet d (tblPut d l i v) j = tblGet d l j := by
  induction l generalizing i j with
  | nil =>
    induction i generalizing j with
    | zero => cases j with
      | zero => exact absurd rfl h
      | succ j => simp [tblGet, tblPut]
    | succ i ih => cases j with
      | zero => simp [tblGet, tblPut]
      | succ j => simpa [tblGet, tblPut] using ih j (by omega)
  | cons a l ih =>
    cases i with
    | zero => cases j with
      | zero => exact absurd rfl h
      | succ j => simp [tblGet, tblPut]
    | succ i => cases j with
      | zero => simp [tblGet, tblPut]
      | succ j => simpa [tblGet, tblPut] using ih i j (by omega)

theorem tblGet_tblPut {α : Type} (d : α) (l : List α) (i j : Nat) (v : α) :
    tblGet d (tblPut d l i v) j = if j = i then v else tblGet d l j := by
  split
  · next h => subst h; simp
  · next h => exact tblGet_tblPut_ne d l i j v h

theorem length_tblPut {α : Type} (d : α) (l : List α) (i : Nat) (v : α) (h : i < l.length) :
    (tblPut d l i v).length = l.length := by
  induction l generalizing i with
  | nil => simp at h
  | cons a l ih =>
    cases i with
    | zero => rfl
    | succ i => simp [tblPut, ih i (by simpa using h)]

@[simp] theorem IpiBlock.get_put_same (b : IpiBlock) (r : IpiReg) (v : Word) : (b.put r v).get r = v := by
  cases r <;> rfl

theorem IpiBlock.get_put_ne (b : IpiBlock) (r q : IpiReg) (v : Word) (h : q ≠ r) :
    (b.put r v).get q = b.get q := by
  cases r <;> cases q <;> first | rfl | exact absurd rfl h

/-- A register that stores what is put into it (all but VERSION and INT_ST_MAIN). -/
def storedReg : PReg → Bool
  | .version => false
  | .intStMain => false
  | _ => true

theorem Bank.get_put_same (b : Bank) (r : PReg) (v : Word) (h : storedReg r = true) : (b.put r v).get r = v := by
  cases r <;> simp_all [storedReg, Bank.put, Bank.get]

theorem Bank.get_put_ne (b : Bank) (r q : PReg) (v : Word) (h : q ≠ r) : (b.put r v).get q = b.get q := by
  cases r <;> cases q <;> simp_all [Bank.put, Bank.get, tblGet_tblPut]
  all_goals (rename_i ch r ch' r'; by_cases hc : ch' = ch <;> simp_all [IpiBlock.get_put_ne])

theorem Bank.get_put (b : Bank) (r q : PReg) (v : Word) (h : storedReg r = true) :
    (b.put r v).get q = if q = r then v else b.get q := by
  split
  · next e => subst e; exact Bank.get_put_same b _ v h
  · next e => exact Bank.get_put_ne b r q v e

theorem storedReg_of_writable (r : PReg) (h : readOnlyReg r = false) : storedReg r = true := by
  cases r <;> simp_all [readOnlyReg, storedReg]

/-- No named field lies in a read-only register (R58). -/
@[simp] theorem readOnlyReg_fieldReg (f : PField) : readOnlyReg f.reg = false := by cases f <;> rfl

@[simp] theorem storedReg_fieldReg (f : PField) : storedReg f.reg = true := by cases f <;> rfl

/-- Reading a field's register has no side effect (R77). -/
@[simp] theorem bankAfterRead_fieldReg (c : Cfg) (b : Bank) (f : PField) : bankAfterRead c b f.reg = b := by
  cases f <;> rfl

/-- A field's register reads as its content (R58). -/
@[simp] theorem bankValue_fieldReg (c : Cfg) (b : Bank) (f : PField) : bankValue c b f.reg = b.get f.reg := by
  cases f <;> rfl

/-! ## Registers of unknown value -/

theorem tblGet_map_range {α : Type} (d : α) (f : Nat → α) {n k : Nat} (h : k < n) :
    tblGet d ((List.range n).map f) k = f k := by
  simp [tblGet, h]

/-- Every stored register of a drawn bank holds its unknown value (R63). -/
theorem Bank.get_drawn {c : Cfg} {n : Nat} {loc : PReg → Loc} {r : PReg} (hr : r ∈ bankRegs c) (h1 : r ≠ .version)
    (h2 : r ≠ .intStMain) : (Bank.drawn c n loc).get r = Config.resetVal n (loc r) := by
  simp only [bankRegs, List.mem_append, List.mem_map, List.mem_flatMap, List.mem_range, List.mem_cons,
    List.not_mem_nil, or_false] at hr
  rcases hr with ((hr | ⟨k, hk, rfl⟩) | ⟨ch, hch, hr⟩) | ⟨k, hk, hr⟩
  · rcases hr with rfl | rfl | rfl | rfl | rfl | rfl | rfl | rfl | rfl | rfl | rfl | rfl | rfl | rfl | rfl <;>
      first | rfl | exact absurd rfl h1 | exact absurd rfl h2
  · exact tblGet_map_range _ _ hk
  · rcases hr with rfl | rfl | rfl | rfl | rfl | rfl | rfl | rfl <;>
      simp [Bank.get, Bank.drawn, tblGet_map_range _ _ hch, IpiBlock.get, IpiBlock.drawn]
  · rcases hr with rfl | rfl | rfl <;> simp [Bank.get, Bank.drawn, tblGet_map_range _ _ hk]

end Sys2Proof.Machine
end

