-- ==== Sys2Proof/Laws/Fields.lean ====
section
/-! SUPPORT. Laws of register fields (00_scope.md R8): each bit of `setField`, reading a field back, leaving the others. -/

namespace Sys2Proof.Machine

theorem getLsbD_fieldMask (w i : Nat) : (fieldMask w).getLsbD i = (decide (i < 32) && decide (i < w)) := by
  simp [fieldMask, BitVec.getLsbD_ofNat, Nat.testBit_two_pow_sub_one]

theorem getLsbD_setField (v : Word) (f : FieldPos) (x i : Nat) :
    (setField v f x).getLsbD i =
      if i < 32 ∧ f.lo ≤ i ∧ i < f.lo + f.width then x.testBit (i - f.lo) else v.getLsbD i := by
  simp only [setField, BitVec.getLsbD_or, BitVec.getLsbD_and, BitVec.getLsbD_not, BitVec.getLsbD_shiftLeft,
    getLsbD_fieldMask, BitVec.getLsbD_ofNat]
  by_cases hi : i < 32
  · by_cases hl : f.lo ≤ i
    · by_cases hw : i < f.lo + f.width
      · have h1 : i - f.lo < f.width := by omega
        have h2 : i - f.lo < 32 := by omega
        have h3 : ¬ i < f.lo := by omega
        simp only [hi, hl, hw, h1, h2, h3, and_self, if_true, decide_true, decide_false, Bool.true_and, Bool.and_true,
          Bool.not_true, Bool.not_false, Bool.and_false, Bool.false_or]
      · have h1 : ¬ i - f.lo < f.width := by omega
        simp only [hi, hw, h1, and_false, if_false, decide_true, decide_false, Bool.and_false, Bool.not_false,
          Bool.and_true, Bool.or_false, Bool.true_and]
    · have h3 : i < f.lo := by omega
      simp only [hi, hl, h3, and_false, false_and, if_false, decide_true, Bool.not_true, Bool.and_false, Bool.false_and,
        Bool.not_false, Bool.and_true, Bool.or_false]
  · simp [hi, BitVec.getLsbD_of_ge v i (by omega)]

theorem getField_testBit (v : Word) (f : FieldPos) (i : Nat) :
    (getField v f).testBit i = (decide (i < 32) && decide (i < f.width) && v.getLsbD (f.lo + i)) := by
  simp only [getField, BitVec.testBit_toNat, BitVec.getLsbD_and, BitVec.getLsbD_ushiftRight, getLsbD_fieldMask]
  rw [Bool.and_comm]

/-- A field holds a number of its width (R8). -/
theorem getField_lt (v : Word) (f : FieldPos) : getField v f < 2 ^ f.width := by
  apply Nat.lt_pow_two_of_testBit
  intro i hi
  rw [getField_testBit]
  have : ¬ i < f.width := by omega
  simp [this]

/-- Reading a field after setting it gives the value, truncated to the field (R8). -/
theorem getField_setField_same (v : Word) (f : FieldPos) (x : Nat) (h : f.lo + f.width ≤ 32) :
    getField (setField v f x) f = x % 2 ^ f.width := by
  apply Nat.eq_of_testBit_eq
  intro i
  rw [getField_testBit, getLsbD_setField, Nat.testBit_mod_two_pow]
  by_cases hw : i < f.width
  · have h1 : f.lo + i < 32 := by omega
    have h2 : i < 32 := by omega
    simp [hw, h1, h2]
  · simp [hw]

/-- Setting a field leaves every field that shares no bit with it (R8, R78). -/
theorem getField_setField_apart (v : Word) (f g : FieldPos) (x : Nat) (h : FieldsApart f g) :
    getField (setField v f x) g = getField v g := by
  apply Nat.eq_of_testBit_eq
  intro i
  rw [getField_testBit, getField_testBit, getLsbD_setField]
  by_cases hi : i < g.width
  · have : ¬ (g.lo + i < 32 ∧ f.lo ≤ g.lo + i ∧ g.lo + i < f.lo + f.width) := by
      rcases h with h | h | h | h <;> omega
    simp [this]
  · simp [hi]

/-- The second of two settings of a field wins. -/
@[simp] theorem setField_setField (v : Word) (f : FieldPos) (a b : Nat) :
    setField (setField v f a) f b = setField v f b := by
  apply BitVec.eq_of_getLsbD_eq
  intro i hi
  simp only [getLsbD_setField]
  split <;> rfl

/-- A field that lies in its register is not changed by writing back what it holds. -/
theorem setField_getField (v : Word) (f : FieldPos) : setField v f (getField v f) = v := by
  apply BitVec.eq_of_getLsbD_eq
  intro i hi
  rw [getLsbD_setField]
  split
  · next h =>
    rw [getField_testBit]
    have h1 : i - f.lo < 32 := by omega
    have h2 : i - f.lo < f.width := by omega
    have h3 : f.lo + (i - f.lo) = i := by omega
    simp [h1, h2, h3]
  · rfl

end Sys2Proof.Machine
end

