-- ==== Sys2Proof/Laws/Memory.lean ====
section
/-! SUPPORT. Laws of the byte memory, space T: a read after a write, the canonical form is kept, and memories in canonical
form that read the same are the same. -/

namespace Sys2Proof.Machine

/-- Every listed address is above `a`. -/
def Memory.above (a : Nat) (m : Memory) : Prop := ∀ e ∈ m, a < e.1

variable {n : Nat}

@[simp] theorem Memory.wf_nil : Memory.wf n [] = true := rfl

theorem Memory.wf_cons (a : Nat) (v : Byte) (m : Memory) :
    Memory.wf n ((a, v) :: m) = true ↔ Memory.above a m ∧ v ≠ Config.resetByte n a ∧ Memory.wf n m = true := by
  simp [Memory.wf, Memory.above, and_assoc]

/-- An address below every listed one reads as its arbitrary byte. -/
theorem Memory.read_above {a : Nat} {m : Memory} (h : Memory.above a m) : Memory.read n m a = Config.resetByte n a := by
  induction m with
  | nil => rfl
  | cons e m ih =>
    have he := h e (List.mem_cons_self ..)
    rw [Memory.read, if_neg (by omega)]
    exact ih fun x hx => h x (List.mem_cons_of_mem _ hx)

theorem Memory.above_trans {a b : Nat} {m : Memory} (hab : a < b) (h : Memory.above b m) : Memory.above a m :=
  fun e he => Nat.lt_trans hab (h e he)

theorem Memory.above_cons {a b : Nat} {v : Byte} {m : Memory} (hab : a < b) (h : Memory.above b m) :
    Memory.above a ((b, v) :: m) := by
  intro e he
  rcases List.mem_cons.mp he with rfl | he
  · exact hab
  · exact Memory.above_trans hab h e he

/-! ## One entry -/

theorem Memory.mem_entry {b : Nat} {v : Byte} {m : Memory} {e : Nat × Byte} (h : e ∈ Memory.entry n b v m) :
    e = (b, v) ∨ e ∈ m := by
  unfold Memory.entry at h
  split at h
  · exact .inr h
  · exact List.mem_cons.mp h

theorem Memory.wf_entry {b : Nat} {v : Byte} {m : Memory} (ha : Memory.above b m) (hw : Memory.wf n m = true) :
    Memory.wf n (Memory.entry n b v m) = true := by
  unfold Memory.entry
  split
  · exact hw
  · next hv => exact (Memory.wf_cons b v m).mpr ⟨ha, hv, hw⟩

theorem Memory.read_entry_same {b : Nat} {v : Byte} {m : Memory} (ha : Memory.above b m) :
    Memory.read n (Memory.entry n b v m) b = v := by
  unfold Memory.entry
  split
  · next hv => rw [Memory.read_above ha, hv]
  · simp [Memory.read]

theorem Memory.read_entry_ne {a b : Nat} (h : a ≠ b) (v : Byte) (m : Memory) :
    Memory.read n (Memory.entry n b v m) a = Memory.read n m a := by
  unfold Memory.entry
  split
  · rfl
  · simp [Memory.read, h]

/-! ## Writes -/

theorem Memory.mem_write (m : Memory) (b : Nat) (v : Byte) (e : Nat × Byte) (h : e ∈ Memory.write n m b v) :
    e = (b, v) ∨ e ∈ m := by
  induction m with
  | nil => exact Memory.mem_entry h
  | cons x m ih =>
    obtain ⟨a, u⟩ := x
    rw [Memory.write] at h
    split at h
    · exact (Memory.mem_entry h).imp id (List.mem_cons_of_mem _)
    · split at h
      · exact Memory.mem_entry h
      · rcases List.mem_cons.mp h with h | h
        · exact .inr (h ▸ List.mem_cons_self ..)
        · exact (ih h).imp id (List.mem_cons_of_mem _)

/-- A write keeps the canonical form. -/
theorem Memory.wf_write (m : Memory) (b : Nat) (v : Byte) (h : Memory.wf n m = true) :
    Memory.wf n (Memory.write n m b v) = true := by
  induction m with
  | nil => exact Memory.wf_entry (fun _ he => absurd he (List.not_mem_nil)) rfl
  | cons x m ih =>
    obtain ⟨a, u⟩ := x
    have ⟨ha, hu, hw⟩ := (Memory.wf_cons a u m).mp h
    rw [Memory.write]
    split
    · next hba => exact Memory.wf_entry (hba ▸ ha) hw
    · split
      · next hlt => exact Memory.wf_entry (Memory.above_cons hlt ha) h
      · next hne hnl =>
        refine (Memory.wf_cons a u _).mpr ⟨?_, hu, ih hw⟩
        intro e he
        rcases Memory.mem_write m b v e he with rfl | he
        · show a < b
          omega
        · exact ha e he

/-- A byte that was written reads as written. -/
theorem Memory.read_write_same (m : Memory) (b : Nat) (v : Byte) (h : Memory.wf n m = true) :
    Memory.read n (Memory.write n m b v) b = v := by
  induction m with
  | nil => exact Memory.read_entry_same fun _ he => absurd he (List.not_mem_nil)
  | cons x m ih =>
    obtain ⟨a, u⟩ := x
    have ⟨ha, _, hw⟩ := (Memory.wf_cons a u m).mp h
    rw [Memory.write]
    split
    · next hba => exact Memory.read_entry_same (hba ▸ ha)
    · next hne =>
      split
      · next hlt => exact Memory.read_entry_same (Memory.above_cons hlt ha)
      · simp [Memory.read, hne, ih hw]

/-- Every other byte reads as before. -/
theorem Memory.read_write_ne (m : Memory) (b : Nat) (v : Byte) (a : Nat) (h : a ≠ b) :
    Memory.read n (Memory.write n m b v) a = Memory.read n m a := by
  induction m with
  | nil => exact Memory.read_entry_ne h v []
  | cons x m ih =>
    obtain ⟨c, u⟩ := x
    rw [Memory.write]
    split
    · next hbc => rw [Memory.read_entry_ne h, Memory.read, if_neg (hbc ▸ h)]
    · split
      · exact Memory.read_entry_ne h v _
      · simp only [Memory.read, ih]

/-- Equal memories are equal data: memories in canonical form that read the same everywhere are the same list. -/
theorem Memory.eq_of_read {m k : Memory} (hm : Memory.wf n m = true) (hk : Memory.wf n k = true)
    (h : ∀ a, Memory.read n m a = Memory.read n k a) : m = k := by
  induction m generalizing k with
  | nil =>
    cases k with
    | nil => rfl
    | cons y k =>
      obtain ⟨b, u⟩ := y
      refine absurd ?_ ((Memory.wf_cons b u k).mp hk).2.1
      simpa [Memory.read] using (h b).symm
  | cons x m ih =>
    obtain ⟨a, v⟩ := x
    obtain ⟨ham, hv, hwm⟩ := (Memory.wf_cons a v m).mp hm
    have hra : Memory.read n ((a, v) :: m) a = v := by simp [Memory.read]
    cases k with
    | nil => exact absurd (hra.symm.trans (h a)) hv
    | cons y k =>
      obtain ⟨b, u⟩ := y
      obtain ⟨hbk, hu, hwk⟩ := (Memory.wf_cons b u k).mp hk
      have hrb : Memory.read n ((b, u) :: k) b = u := by simp [Memory.read]
      rcases Nat.lt_trichotomy a b with hab | rfl | hab
      · exact absurd (hra.symm.trans ((h a).trans (Memory.read_above (Memory.above_cons hab hbk)))) hv
      · obtain rfl : v = u := hra.symm.trans ((h a).trans hrb)
        rw [ih hwm hwk fun c => ?_]
        by_cases hc : c = a
        · rw [hc, Memory.read_above ham, Memory.read_above hbk]
        · simpa [Memory.read, hc] using h c
      · exact absurd (hrb.symm.trans ((h b).symm.trans (Memory.read_above (Memory.above_cons hab ham)))) hu

end Sys2Proof.Machine
end

