-- ==== Sys2Proof/Laws/Ops.lean ====
section
/-! SUPPORT. What the shared operations can do, said once: the algebra of outcomes, and that an undisturbed access or field
update has exactly one outcome (`rd_quiet`, `wr_quiet`, `upd_quiet`). Accesses among other agents: Laws/Agents.lean. -/

namespace Sys2Proof.Machine

/-! ## Outcomes -/

section
variable {α β : Type}
@[simp] theorem Res.andThen_ok (a : α) (s : State) (f : α → State → Res β) : (Res.ok a s).andThen f = f a s := rfl
@[simp] theorem Res.andThen_err (e : Err) (s : State) (f : α → State → Res β) :
    (Res.err e s).andThen f = .err e s := rfl
@[simp] theorem Res.andThen_stop (g : Fault) (f : α → State → Res β) : (Res.stop g).andThen f = .stop g := rfl
@[simp] theorem Res.onErr_ok (a : α) (s : State) (f : Err → State → Res α) : (Res.ok a s).onErr f = .ok a s := rfl
@[simp] theorem Res.onErr_err (e : Err) (s : State) (f : Err → State → Res α) : (Res.err e s).onErr f = f e s := rfl
@[simp] theorem Res.onErr_stop (g : Fault) (f : Err → State → Res α) : (Res.stop g).onErr f = .stop g := rfl
@[simp] theorem Res.mapState_ok (a : α) (s : State) (f : State → State) : (Res.ok a s).mapState f = .ok a (f s) := rfl
@[simp] theorem Res.mapState_err (e : Err) (s : State) (f : State → State) :
    (Res.err e s : Res α).mapState f = .err e (f s) := rfl
@[simp] theorem Res.mapState_stop (g : Fault) (f : State → State) : (Res.stop g : Res α).mapState f = .stop g := rfl
@[simp] theorem Res.mapValue_ok (a : α) (s : State) (f : α → β) : (Res.ok a s).mapValue f = .ok (f a) s := rfl
@[simp] theorem Res.mapValue_err (e : Err) (s : State) (f : α → β) : (Res.err e s).mapValue f = .err e s := rfl
@[simp] theorem Res.mapValue_stop (g : Fault) (f : α → β) : (Res.stop g : Res α).mapValue f = .stop g := rfl
@[simp] theorem okUnit_ok (s : State) : okUnit (.ok () s) = .ok .unit s := rfl
@[simp] theorem okUnit_err (e : Err) (s : State) : okUnit (.err e s) = .err e s := rfl
@[simp] theorem okUnit_stop (g : Fault) : okUnit (.stop g) = .stop g := rfl
@[simp] theorem raise_eq (e : Err) (s : State) : (raise e s : Res α) = .err e s := rfl
@[simp] theorem forEach_nil (f : α → State → Res Unit) (s : State) : forEach [] f s = .ok () s := rfl
@[simp] theorem forEach_cons (a : α) (l : List α) (f : α → State → Res Unit) (s : State) :
    forEach (a :: l) f s = (f a s).andThen fun _ s' => forEach l f s' := rfl
@[simp] theorem finish_ok (v : Value) (s : State) : finish (.ok v s) = .next (completeOk v s) := rfl
@[simp] theorem finish_err (e : Err) (s : State) : finish (.err e s) = .next (takeError e s) := rfl
@[simp] theorem finish_stop (f : Fault) : finish (.stop f) = .fault f := rfl
end

/-- What an operation can do, said as one specification: every state it leaves has `P`, an error needs `E`, a model-level
fault needs `F`. `E` or `F` false: it does not end so. -/
def Res.Spec {α : Type} (P : State → Prop) (E F : Prop) : Res α → Prop
  | .ok _ s => P s
  | .err _ s => E ∧ P s
  | .stop _ => F

section
variable {α β : Type} {P Q : State → Prop} {E F : Prop}

theorem Res.Spec.andThen {r : Res α} {f : α → State → Res β} (h : r.Spec P E F)
    (hf : ∀ a s, P s → (f a s).Spec P E F) : (r.andThen f).Spec P E F := by
  cases r with
  | ok a s => exact hf a s h
  | err e s => exact h
  | stop g => exact h

theorem Res.Spec.onErr {r : Res α} {f : Err → State → Res α} (h : r.Spec P E F)
    (hf : ∀ e s, E → P s → (f e s).Spec P E F) : (r.onErr f).Spec P E F := by
  cases r with
  | ok a s => exact h
  | err e s => exact hf e s h.1 h.2
  | stop g => exact h

theorem Res.Spec.mapValue {r : Res α} {f : α → β} (h : r.Spec P E F) : (r.mapValue f).Spec P E F := by
  cases r <;> exact h

theorem Res.Spec.okUnit {r : Res Unit} (h : r.Spec P E F) : (okUnit r).Spec P E F := h.mapValue

theorem Res.Spec.mapState {r : Res α} {f : State → State} (h : r.Spec P E F) (hf : ∀ s, P s → Q (f s)) :
    (r.mapState f).Spec Q E F := by
  cases r with
  | ok a s => exact hf s h
  | err e s => exact ⟨h.1, hf s h.2⟩
  | stop g => exact h

theorem Res.Spec.mono {r : Res α} (h : r.Spec P E F) (hPQ : ∀ s, P s → Q s) : r.Spec Q E F := by
  cases r with
  | ok a s => exact hPQ s h
  | err e s => exact ⟨h.1, hPQ s h.2⟩
  | stop g => exact h

theorem Res.Spec.weaken {E' F' : Prop} {r : Res α} (h : r.Spec P E F) (hE : E → E') (hF : F → F') :
    r.Spec P E' F' := by
  cases r with
  | ok a s => exact h
  | err e s => exact ⟨hE h.1, h.2⟩
  | stop g => exact hF h

/-- An operation without an error of its own may be part of one with errors. -/
theorem Res.Spec.mayErr {r : Res α} (h : r.Spec P False F) : r.Spec P E F := h.weaken False.elim id

theorem Res.Spec.and {r : Res α} (h : r.Spec P E F) (h' : r.Spec Q True True) : r.Spec (fun s => P s ∧ Q s) E F := by
  cases r with
  | ok a s => exact ⟨h, h'⟩
  | err e s => exact ⟨h.1, h.2, h'.2⟩
  | stop g => exact h

/-- An operation that neither fails nor faults ends in `Ok`. -/
theorem Res.Spec.completes {r : Res α} (h : r.Spec P False False) : ∃ a s, r = .ok a s ∧ P s := by
  cases r with
  | ok a s => exact ⟨a, s, rfl, h⟩
  | err e s => exact h.1.elim
  | stop g => exact False.elim h

theorem forEach_spec {l : List α} {f : α → State → Res Unit} {s : State} (h : P s)
    (hf : ∀ a ∈ l, ∀ s, P s → (f a s).Spec P E F) : (forEach l f s).Spec P E F := by
  induction l generalizing s with
  | nil => exact h
  | cons a l ih =>
    exact (hf a (List.mem_cons_self ..) s h).andThen fun _ s' h' =>
      ih h' fun b hb => hf b (List.mem_cons_of_mem _ hb)

/-- An operation that ends in a next state left a state with its property, and the result written is `Err` only if the
operation may fail. -/
theorem finish_next {r : Res Value} {t : State} (h : r.Spec P E F) (hn : finish r = .next t) :
    ∃ u, P u ∧ ∃ x, t = u.setResult (some x) ∧ ((∃ e, x = .err e) → E) := by
  cases r with
  | ok v s =>
    cases hn
    refine ⟨s, h, _, rfl, ?_⟩
    rintro ⟨e, he⟩
    cases he
  | err e s => cases hn; exact ⟨s, h.2, _, rfl, fun _ => h.1⟩
  | stop g => cases hn

/-- An operation that cannot fault ends in a next state. -/
theorem finish_runs {r : Res Value} (h : r.Spec P E False) : ∃ t, finish r = .next t := by
  cases r with
  | ok v s => exact ⟨_, rfl⟩
  | err e s => exact ⟨_, rfl⟩
  | stop g => exact False.elim h

theorem runConfig_next {body : State → Res Value} {s t : State} (h : (body (s.setInFlight true)).Spec P E F)
    (hn : runConfig body s = .next t) :
    ∃ u, P u ∧ ∃ x, t = (u.setInFlight false).setResult (some x) ∧ ((∃ e, x = .err e) → E) := by
  unfold runConfig at hn
  split at hn
  · cases hn
  · obtain ⟨_, ⟨u, hu, rfl⟩, x, rfl, hx⟩ :=
      finish_next (h.mapState (Q := fun v => ∃ u, P u ∧ v = u.setInFlight false) fun u hu => ⟨u, hu, rfl⟩) hn
    exact ⟨u, hu, x, rfl, hx⟩

theorem runConfig_runs {body : State → Res Value} {s : State} (hf : s.opInFlight = false)
    (h : (body (s.setInFlight true)).Spec P E False) : ∃ t, runConfig body s = .next t := by
  unfold runConfig
  rw [if_neg (by simp [hf])]
  exact finish_runs (h.mapState (Q := fun _ => True) fun _ _ => trivial)

end

/-! ## Undisturbed accesses -/

@[simp] theorem configTick_quiet {s : State} (h : s.env = []) : configTick s = .ok () s := by simp [configTick, h]

@[simp] theorem interruptTick_quiet {s : State} (h : s.env = []) : interruptTick s = .ok () s := by
  simp [interruptTick, h]

/-- A tick that does nothing on an empty schedule: `configTick` and `interruptTick` are such. -/
def QuietTick (t : Tick) : Prop := ∀ s, s.env = [] → t s = .ok () s

theorem quietTick_config : QuietTick configTick := fun _ h => configTick_quiet h
theorem quietTick_interrupt : QuietTick interruptTick := fun _ h => interruptTick_quiet h

/-- The state after an undisturbed read. -/
def readState (s : State) (l : Loc) : State := logAccess (.rd l (valueAt s l)) (afterRead s l)

/-- The state after an undisturbed write. -/
def wroteState (s : State) (l : Loc) (v : Word) : State := logAccess (.wr l v) (afterWrite s l v)

/-- The value an undisturbed field update writes. -/
def updValue (s : State) (f : Field) (n : Nat) : Word := setField (valueAt s (fieldLoc s.cfg f)) (placeOf s.cfg f) n

/-- The state after an undisturbed field update: one register written, two accesses more in the trace. -/
def updState (s : State) (f : Field) (n : Nat) : State :=
  (afterWrite s (fieldLoc s.cfg f) (updValue s f n)).setTrace
    (s.trace ++ [.rd (fieldLoc s.cfg f) (valueAt s (fieldLoc s.cfg f)), .wr (fieldLoc s.cfg f) (updValue s f n)])

section
variable (s : State) (l : Loc) (v : Word)
@[simp] theorem afterRead_cfg : (afterRead s l).cfg = s.cfg := by cases l <;> rfl
@[simp] theorem afterRead_inst : (afterRead s l).inst = s.inst := by cases l <;> rfl
@[simp] theorem afterRead_onFault : (afterRead s l).onFault = s.onFault := by cases l <;> rfl
@[simp] theorem afterRead_onDone : (afterRead s l).onDone = s.onDone := by cases l <;> rfl
@[simp] theorem afterRead_clk : (afterRead s l).clk = s.clk := by cases l <;> rfl
@[simp] theorem afterRead_env : (afterRead s l).env = s.env := by cases l <;> rfl
@[simp] theorem afterRead_dphy : (afterRead s l).dphy = s.dphy := by cases l <;> rfl
@[simp] theorem afterRead_ch : (afterRead s l).ch = s.ch := by cases l <;> rfl
@[simp] theorem afterRead_w : (afterRead s l).w = s.w := by cases l <;> rfl
@[simp] theorem afterRead_t : (afterRead s l).t = s.t := by cases l <;> rfl
@[simp] theorem afterRead_testTrace : (afterRead s l).testTrace = s.testTrace := by cases l <;> rfl
@[simp] theorem afterRead_events : (afterRead s l).events = s.events := by cases l <;> rfl
@[simp] theorem afterRead_result : (afterRead s l).result = s.result := by cases l <;> rfl
@[simp] theorem afterRead_trace : (afterRead s l).trace = s.trace := by cases l <;> rfl
@[simp] theorem afterRead_ctx : (afterRead s l).ctx = s.ctx := by cases l <;> rfl
@[simp] theorem afterRead_opInFlight : (afterRead s l).opInFlight = s.opInFlight := by cases l <;> rfl
@[simp] theorem afterRead_inbox : (afterRead s l).inbox = s.inbox := by cases l <;> rfl
@[simp] theorem afterRead_clkOk : (afterRead s l).clkOk = s.clkOk := by cases l <;> rfl
@[simp] theorem afterRead_draw : (afterRead s l).draw = s.draw := by cases l <;> rfl
@[simp] theorem afterRead_choice : (afterRead s l).choice = s.choice := by cases l <;> rfl
@[simp] theorem afterWrite_cfg : (afterWrite s l v).cfg = s.cfg := by cases l <;> rfl
@[simp] theorem afterWrite_inst : (afterWrite s l v).inst = s.inst := by cases l <;> rfl
@[simp] theorem afterWrite_onFault : (afterWrite s l v).onFault = s.onFault := by cases l <;> rfl
@[simp] theorem afterWrite_onDone : (afterWrite s l v).onDone = s.onDone := by cases l <;> rfl
@[simp] theorem afterWrite_clk : (afterWrite s l v).clk = s.clk := by cases l <;> rfl
@[simp] theorem afterWrite_env : (afterWrite s l v).env = s.env := by cases l <;> rfl
@[simp] theorem afterWrite_dphy : (afterWrite s l v).dphy = s.dphy := by cases l <;> rfl
@[simp] theorem afterWrite_ch : (afterWrite s l v).ch = s.ch := by cases l <;> rfl
@[simp] theorem afterWrite_t : (afterWrite s l v).t = s.t := by cases l <;> rfl
@[simp] theorem afterWrite_testTrace : (afterWrite s l v).testTrace = s.testTrace := by cases l <;> rfl
@[simp] theorem afterWrite_events : (afterWrite s l v).events = s.events := by cases l <;> rfl
@[simp] theorem afterWrite_result : (afterWrite s l v).result = s.result := by cases l <;> rfl
@[simp] theorem afterWrite_trace : (afterWrite s l v).trace = s.trace := by cases l <;> rfl
@[simp] theorem afterWrite_ctx : (afterWrite s l v).ctx = s.ctx := by cases l <;> rfl
@[simp] theorem afterWrite_opInFlight : (afterWrite s l v).opInFlight = s.opInFlight := by cases l <;> rfl
@[simp] theorem afterWrite_inbox : (afterWrite s l v).inbox = s.inbox := by cases l <;> rfl
@[simp] theorem afterWrite_clkOk : (afterWrite s l v).clkOk = s.clkOk := by cases l <;> rfl
@[simp] theorem afterWrite_draw : (afterWrite s l v).draw = s.draw := by cases l <;> rfl
@[simp] theorem afterWrite_choice : (afterWrite s l v).choice = s.choice := by cases l <;> rfl
end

/-- Whether a window can be accessed depends on the attributes and the clocks alone. -/
theorem accessible_congr {s s' : State} (hi : s'.inst = s.inst) (hc : s'.clk = s.clk) (l : Loc) :
    accessible s' l = accessible s l := by
  cases l <;> simp [accessible, hi, hc]

theorem readVia_quiet {t : Tick} (ht : QuietTick t) {s : State} {l : Loc} (h : s.env = [])
    (ha : accessible s l = true) : readVia t l s = .ok (valueAt s l) (readState s l) := by
  simp [readVia, ha, ht s h, readState]

theorem writeVia_quiet {t : Tick} (ht : QuietTick t) {s : State} {l : Loc} {v : Word} (h : s.env = [])
    (ha : accessible s l = true) : writeVia t l v s = .ok () (wroteState s l v) := by
  simp [writeVia, ha, ht s h, wroteState]

theorem rd_quiet {s : State} {l : Loc} (h : s.env = []) (ha : accessible s l = true) :
    rd l s = .ok (valueAt s l) (readState s l) := readVia_quiet quietTick_config h ha

theorem wr_quiet {s : State} {l : Loc} {v : Word} (h : s.env = []) (ha : accessible s l = true) :
    wr l v s = .ok () (wroteState s l v) := writeVia_quiet quietTick_config h ha

/-- Reading a field's register changes nothing but the trace. -/
theorem afterRead_fieldLoc (s : State) (f : Field) : afterRead s (fieldLoc s.cfg f) = s := by
  cases f with
  | p g => simp [afterRead, fieldLoc]
  | x g => simp [afterRead, fieldLoc]
  | w g => rfl

theorem afterWrite_setTrace (s : State) (l : Loc) (v : Word) (tr : List Access) :
    afterWrite (s.setTrace tr) l v = (afterWrite s l v).setTrace tr := by cases l <;> rfl

theorem updateVia_quiet {t : Tick} (ht : QuietTick t) {s : State} {f : Field} {n : Nat} (h : s.env = [])
    (ha : accessible s (fieldLoc s.cfg f) = true) : updateVia t f n s = .ok () (updState s f n) := by
  have h1 : readState s (fieldLoc s.cfg f)
      = s.setTrace (s.trace ++ [.rd (fieldLoc s.cfg f) (valueAt s (fieldLoc s.cfg f))]) := by
    simp [readState, afterRead_fieldLoc, logAccess]
  have h2 := writeVia_quiet ht (s := s.setTrace (s.trace ++ [.rd (fieldLoc s.cfg f) (valueAt s (fieldLoc s.cfg f))]))
    (l := fieldLoc s.cfg f) (v := updValue s f n) h ((accessible_congr (s := s) rfl rfl _).trans ha)
  unfold updateVia
  rw [readVia_quiet ht h ha, Res.andThen_ok, h1, State.setTrace_cfg]
  refine h2.trans ?_
  simp [wroteState, updState, logAccess, afterWrite_setTrace]

/-- An undisturbed field update: one read, one write, one field changed (R78). -/
theorem upd_quiet {s : State} {f : Field} {n : Nat} (h : s.env = [])
    (ha : accessible s (fieldLoc s.cfg f) = true) : upd f n s = .ok () (updState s f n) :=
  updateVia_quiet quietTick_config h ha

section
variable (s : State) (f : Field) (n : Nat) (g : PField) (k : WField)
@[simp] theorem updState_cfg : (updState s f n).cfg = s.cfg := by simp [updState]
@[simp] theorem updState_inst : (updState s f n).inst = s.inst := by simp [updState]
@[simp] theorem updState_onFault : (updState s f n).onFault = s.onFault := by simp [updState]
@[simp] theorem updState_onDone : (updState s f n).onDone = s.onDone := by simp [updState]
@[simp] theorem updState_clk : (updState s f n).clk = s.clk := by simp [updState]
@[simp] theorem updState_env : (updState s f n).env = s.env := by simp [updState]
@[simp] theorem updState_dphy : (updState s f n).dphy = s.dphy := by simp [updState]
@[simp] theorem updState_ch : (updState s f n).ch = s.ch := by simp [updState]
@[simp] theorem updState_t : (updState s f n).t = s.t := by simp [updState]
@[simp] theorem updState_testTrace : (updState s f n).testTrace = s.testTrace := by simp [updState]
@[simp] theorem updState_events : (updState s f n).events = s.events := by simp [updState]
@[simp] theorem updState_result : (updState s f n).result = s.result := by simp [updState]
@[simp] theorem updState_ctx : (updState s f n).ctx = s.ctx := by simp [updState]
@[simp] theorem updState_opInFlight : (updState s f n).opInFlight = s.opInFlight := by simp [updState]
@[simp] theorem updState_inbox : (updState s f n).inbox = s.inbox := by simp [updState]
@[simp] theorem updState_clkOk : (updState s f n).clkOk = s.clkOk := by simp [updState]
@[simp] theorem updState_draw : (updState s f n).draw = s.draw := by simp [updState]
@[simp] theorem updState_choice : (updState s f n).choice = s.choice := by simp [updState]
@[simp] theorem updState_trace : (updState s f n).trace = s.trace ++ [.rd (fieldLoc s.cfg f)
    (valueAt s (fieldLoc s.cfg f)), .wr (fieldLoc s.cfg f) (updValue s f n)] := rfl
theorem updState_p_p : (updState s (.p g) n).p
    = bankAfterWrite s.cfg s.p g.reg (setField (s.p.get g.reg) (fieldPos s.cfg g) n) := by
  simp [updState, updValue, fieldLoc, valueAt, placeOf, afterWrite]
@[simp] theorem updState_p_x : (updState s (.p g) n).x = s.x := rfl
@[simp] theorem updState_p_w : (updState s (.p g) n).w = s.w := rfl
@[simp] theorem updState_x_p : (updState s (.x g) n).p = s.p := rfl
theorem updState_x_x : (updState s (.x g) n).x
    = bankAfterWrite s.cfg s.x g.reg (setField (s.x.get g.reg) (fieldPos s.cfg g) n) := by
  simp [updState, updValue, fieldLoc, valueAt, placeOf, afterWrite]
@[simp] theorem updState_x_w : (updState s (.x g) n).w = s.w := rfl
@[simp] theorem updState_w_p : (updState s (.w k) n).p = s.p := rfl
@[simp] theorem updState_w_x : (updState s (.w k) n).x = s.x := rfl
theorem updState_w_w : (updState s (.w k) n).w = tblPut 0 s.w (wrapperPos s.cfg k).word
    (setField (tblGet 0 s.w (wrapperPos s.cfg k).word) (placeOf s.cfg (.w k)) n) := rfl
@[simp] theorem accessible_updState (l : Loc) : accessible (updState s f n) l = accessible s l :=
  accessible_congr (by simp) (by simp) l
end

/-- After an undisturbed update of a field of P, a register of P holds what the update wrote, if it is the field's, and
else what it held; `manual_flush` may clear itself (R48). -/
theorem updState_get (s : State) (g : PField) (n : Nat) (r : PReg) :
    (updState s (.p g) n).p.get r =
      if r = g.reg then storedValue s.cfg g.reg (setField (s.p.get g.reg) (fieldPos s.cfg g) n) else s.p.get r := by
  rw [updState_p_p, bankAfterWrite]
  simp [Bank.get_put]

theorem updState_get_x (s : State) (g : PField) (n : Nat) (r : PReg) :
    (updState s (.x g) n).x.get r =
      if r = g.reg then storedValue s.cfg g.reg (setField (s.x.get g.reg) (fieldPos s.cfg g) n) else s.x.get r := by
  rw [updState_x_x, bankAfterWrite]
  simp [Bank.get_put]

end Sys2Proof.Machine
end

