-- ==== Sys2Proof/Laws/Agents.lean ====
section
/-! SUPPORT. What an access can do when the other agents act: it keeps every property that single accesses and agent moves
keep, it never ends in an error, and it does not fault while every window is open (`AccInv`, `BusInv`, `OpInv`). -/

namespace Sys2Proof.Machine

/-! ## Properties that accesses keep -/

/-- A register that exists. -/
def RegIn (c : Cfg) : PReg → Prop
  | .dataIds k => k < c.map.dataIds.length
  | .ipi ch _ => ch < Config.maxPixCh ∨ ch < c.numInst - 1
  | .intSt k => k < Config.numCat ∨ k ∈ c.ipiFatalCat
  | .intMsk k => k < Config.numCat
  | .intForce k => k < Config.numCat
  | _ => True

/-- A place that exists. -/
def LocIn (c : Cfg) : Loc → Prop
  | .p r => RegIn c r
  | .x r => RegIn c r
  | .w n => n < c.map.wWords ∨ ∃ f : WField, f.Exists ∧ n = (wrapperPos c f).word

theorem regIn_of_mem {c : Cfg} {r : PReg} (h : r ∈ bankRegs c) : RegIn c r := by
  simp only [bankRegs, List.mem_append, List.mem_map, List.mem_flatMap, List.mem_range, List.mem_cons,
    List.not_mem_nil, or_false] at h
  rcases h with ((h | ⟨k, hk, rfl⟩) | ⟨ch, hch, h⟩) | ⟨k, hk, h⟩
  · rcases h with rfl | rfl | rfl | rfl | rfl | rfl | rfl | rfl | rfl | rfl | rfl | rfl | rfl | rfl | rfl <;> trivial
  · exact hk
  · rcases h with rfl | rfl | rfl | rfl | rfl | rfl | rfl | rfl <;> exact .inl hch
  · rcases h with rfl | rfl | rfl
    · exact .inl hk
    · exact hk
    · exact hk

theorem locIn_wrapper {c : Cfg} {f : WField} (h : f.Exists) : LocIn c (fieldLoc c (.w f)) := .inr ⟨f, h, rfl⟩

/-- A property `P`, of states with configuration `c`, that a single access to a place that exists, its record, a move of
another agent, and the handler's own bookkeeping keep. `M` holds of every move scheduled in a state with `P`. `F` true: a
model-level fault is allowed; `F` false: in states with `P` every window is open and no second operation is started, so
that no access faults. -/
structure AccInv (c : Cfg) (M : EnvMove → Prop) (F : Prop) (P : State → Prop) : Prop where
  cfg : ∀ s, P s → s.cfg = c
  access : ∀ s l, P s → F ∨ accessible s l = true
  second : F ∨ ¬ M .secondOp
  moves : ∀ s moves later, s.env = moves :: later → P s → ∀ m ∈ moves, M m
  env : ∀ s moves later, s.env = moves :: later → P s → P (s.setEnv later)
  agent : ∀ s m, M m → P s → P (agentMove m s)
  log : ∀ s a, P s → P (logAccess a s)
  read : ∀ s l, LocIn c l → P s → P (afterRead s l)
  write : ∀ s l v, LocIn c l → P s → P (afterWrite s l v)
  phase : ∀ s ch v, ch < c.numInst - 1 → P s → P (setPhase ch v s)
  emit : ∀ s e, P s → P (emit e s)

/-- Such a property that does not speak of the context, so that the handler keeps it throughout. -/
structure BusInv (c : Cfg) (M : EnvMove → Prop) (F : Prop) (P : State → Prop) : Prop extends AccInv c M F P where
  ctx : ∀ s k, P s → P (s.setCtx k)

section
variable {c : Cfg} {M : EnvMove → Prop} {F : Prop} {P : State → Prop} (hP : AccInv c M F P) {t : Tick}
  (ht : ∀ s, P s → (t s).Spec P False F)
include hP

theorem foldl_agentMove_keeps {ms : List EnvMove} (hms : ∀ m ∈ ms, M m) {s : State} (h : P s) :
    P (ms.foldl (fun s m => agentMove m s) s) := by
  induction ms generalizing s with
  | nil => exact h
  | cons m ms ih =>
    exact ih (fun k hk => hms k (List.mem_cons_of_mem _ hk)) (hP.agent _ _ (hms m (List.mem_cons_self ..)) h)

theorem interruptTick_spec (s : State) (h : P s) : (interruptTick s).Spec P False F := by
  unfold interruptTick
  split
  · exact h
  · next he => exact foldl_agentMove_keeps hP (hP.moves _ _ _ he h) (hP.env _ _ _ he h)

include ht

theorem readVia_spec (l : Loc) (hl : LocIn c l) {s : State} (h : P s) : (readVia t l s).Spec P False F := by
  unfold readVia
  split
  · exact (ht s h).andThen fun _ s' h' => hP.log _ _ (hP.read _ _ hl h')
  · next ha => exact (hP.access s l h).resolve_right ha

theorem writeVia_spec (l : Loc) (hl : LocIn c l) (v : Word) {s : State} (h : P s) :
    (writeVia t l v s).Spec P False F := by
  unfold writeVia
  split
  · exact (ht s h).andThen fun _ s' h' => hP.log _ _ (hP.write _ _ _ hl h')
  · next ha => exact (hP.access s l h).resolve_right ha

theorem updateVia_spec (f : Field) (hf : LocIn c (fieldLoc c f)) (n : Nat) {s : State} (h : P s) :
    (updateVia t f n s).Spec P False F := by
  unfold updateVia
  rw [hP.cfg s h]
  exact (readVia_spec hP ht _ hf h).andThen fun _ s' h' => by
    rw [hP.cfg s' h']
    exact writeVia_spec hP ht _ hf _ h'

theorem softResetPulse_spec (ch : Nat) {s : State} (h : P s) : (softResetPulse t ch s).Spec P False F :=
  (updateVia_spec hP ht (.p (.softrstn ch)) trivial _ h).andThen fun _ _ h' =>
    updateVia_spec hP ht (.p (.softrstn ch)) trivial _ h'

theorem softResetPulseOnce_spec (ch : Nat) {s : State} (h : P s) : (softResetPulseOnce t ch s).Spec P False F :=
  (readVia_spec hP ht (.p .ipiSoftrstn) trivial h).andThen fun _ _ h' =>
    (writeVia_spec hP ht (.p .ipiSoftrstn) trivial _ h').andThen fun _ _ h'' =>
      writeVia_spec hP ht (.p .ipiSoftrstn) trivial _ h''

theorem overflowResetWith_spec {pulse : State → Res Unit} (hpulse : ∀ s, P s → (pulse s).Spec P False F) {ch : Nat}
    (hch : ch < c.numInst - 1) {s : State} (h : P s) : (overflowResetWith t pulse ch s).Spec P False F := by
  unfold overflowResetWith withChannel
  rw [if_neg (by rw [hP.cfg s h]; omega)]
  refine (updateVia_spec hP ht (.p (.manualFlush ch)) (Or.inr hch) _ h).andThen fun _ s h => ?_
  refine (hpulse s h).andThen fun _ _ h => ?_
  refine (writeVia_spec hP ht (.p .ipiSoftrstn) trivial _ h).andThen fun _ s h => ?_
  show P _
  split
  · exact hP.phase _ _ _ hch h
  · exact h

omit ht

theorem handleCategory_spec (main : Word) {k : Nat} (hk : k < Config.numCat) {s : State} (h : P s) :
    (handleCategory main k s).Spec P False F := by
  unfold handleCategory
  split
  · exact h
  · refine (readVia_spec hP (interruptTick_spec hP) (.p (.intSt k)) (Or.inl hk) h).andThen fun v s h => ?_
    have hr : (recoverOverflow k (overflowBit s.cfg k (v &&& (catEntry s.cfg k).ebits)) s).Spec P False F := by
      unfold recoverOverflow
      split
      · split
        · next hb =>
          simp only [Bool.and_eq_true, decide_eq_true_eq, hP.cfg s h] at hb
          exact overflowResetWith_spec hP (interruptTick_spec hP)
            (fun _ h => softResetPulseOnce_spec hP (interruptTick_spec hP) _ h) hb.2 h
        · exact h
      · exact h
    refine hr.andThen fun _ s' h' => ?_
    show P _
    split
    · exact h'
    · exact hP.emit _ _ h'

end

section
variable {c : Cfg} {M : EnvMove → Prop} {F : Prop} {P : State → Prop} (hP : BusInv c M F P)
include hP

/-- The interrupt handler ends in `Ok`, whatever the other agents do, if the primary bank can be accessed (R310, R313). -/
theorem takeInterrupt_spec {s : State} (h : P s) : (takeInterrupt s).Spec P False F := by
  unfold takeInterrupt
  refine (readVia_spec hP.toAccInv (interruptTick_spec hP.toAccInv) (.p .intStMain) trivial (hP.ctx _ _ h)).andThen fun main s' h' => ?_
  refine (forEach_spec h' fun k hk s h => handleCategory_spec hP.toAccInv main (List.mem_range.mp hk) h).andThen fun _ s'' h'' => ?_
  refine hP.ctx _ _ ?_
  unfold notifyDone
  split
  · exact hP.emit _ _ h''
  · exact h''

theorem configMove_spec {m : EnvMove} (hm : M m) {s : State} (h : P s) :
    (configMove m s).Spec P False F := by
  cases m with
  | irq =>
    simp only [configMove]
    split
    · exact h
    · exact takeInterrupt_spec hP h
  | secondOp =>
    simp only [configMove]
    split
    · exact hP.second.resolve_right fun hn => hn hm
    · exact h
  | fault i k bits => exact hP.agent _ _ hm h
  | unfault i k bits => exact hP.agent _ _ hm h
  | stopstate i v => exact hP.agent _ _ hm h
  | mateWriteX r v => exact hP.agent _ _ hm h
  | mateReadX r => exact hP.agent _ _ hm h
  | mateLine r v => exact hP.agent _ _ hm h
  | mateWriteW n v => exact hP.agent _ _ hm h
  | mateTest phy code data => exact hP.agent _ _ hm h
  | onFault v => exact hP.agent _ _ hm h
  | onDone v => exact hP.agent _ _ hm h
  | clkOk c b => exact hP.agent _ _ hm h

theorem configTick_spec (s : State) (h : P s) : (configTick s).Spec P False F := by
  unfold configTick
  split
  · exact h
  · next moves later he =>
    exact forEach_spec (hP.env _ _ _ he h) fun m hm s h' => configMove_spec hP (hP.moves _ _ _ he h m hm) h'

end

/-! ## The context -/

theorem agentMove_ctx (m : EnvMove) (s : State) : (agentMove m s).ctx = s.ctx := by
  cases m with
  | fault i k bits => cases i <;> rfl
  | unfault i k bits => simp only [agentMove]; split <;> first | rfl | (cases i <;> rfl)
  | stopstate i v => cases i <;> rfl
  | irq => rfl
  | secondOp => rfl
  | onFault v => simp only [agentMove]; split <;> rfl
  | onDone v => simp only [agentMove]; split <;> rfl
  | clkOk c b => rfl
  | mateWriteX r v => simp only [agentMove]; split <;> rfl
  | mateReadX r => simp only [agentMove]; split <;> rfl
  | mateLine r v => simp only [agentMove]; split <;> rfl
  | mateWriteW n v => simp only [agentMove]; split <;> rfl
  | mateTest phy code data => simp only [agentMove]; split <;> rfl

theorem agentMove_env (m : EnvMove) (s : State) : (agentMove m s).env = s.env := by
  cases m with
  | fault i k bits => cases i <;> rfl
  | unfault i k bits => simp only [agentMove]; split <;> first | rfl | (cases i <;> rfl)
  | stopstate i v => cases i <;> rfl
  | irq => rfl
  | secondOp => rfl
  | onFault v => simp only [agentMove]; split <;> rfl
  | onDone v => simp only [agentMove]; split <;> rfl
  | clkOk c b => rfl
  | mateWriteX r v => simp only [agentMove]; split <;> rfl
  | mateReadX r => simp only [agentMove]; split <;> rfl
  | mateLine r v => simp only [agentMove]; split <;> rfl
  | mateWriteW n v => simp only [agentMove]; split <;> rfl
  | mateTest phy code data => simp only [agentMove]; split <;> rfl


theorem agentMove_cfg (m : EnvMove) (s : State) : (agentMove m s).cfg = s.cfg := by
  cases m with
  | fault i k bits => cases i <;> rfl
  | unfault i k bits => simp only [agentMove]; split <;> first | rfl | (cases i <;> rfl)
  | stopstate i v => cases i <;> rfl
  | irq => rfl
  | secondOp => rfl
  | onFault v => simp only [agentMove]; split <;> rfl
  | onDone v => simp only [agentMove]; split <;> rfl
  | clkOk c b => rfl
  | mateWriteX r v => simp only [agentMove]; split <;> rfl
  | mateReadX r => simp only [agentMove]; split <;> rfl
  | mateLine r v => simp only [agentMove]; split <;> rfl
  | mateWriteW n v => simp only [agentMove]; split <;> rfl
  | mateTest phy code data => simp only [agentMove]; split <;> rfl

/-- The configuration is constant. -/
theorem busInv_cfg (c : Cfg) : BusInv c (fun _ => True) True fun s => s.cfg = c where
  cfg := fun _ h => h
  access := fun _ _ _ => .inl trivial
  second := .inl trivial
  moves := fun _ _ _ _ _ _ _ => trivial
  env := fun _ _ _ _ h => h
  agent := fun s m _ h => (agentMove_cfg m s).trans h
  log := fun _ _ h => h
  read := fun s l _ h => (afterRead_cfg s l).trans h
  write := fun s l v _ h => (afterWrite_cfg s l v).trans h
  phase := fun _ _ _ _ h => h
  emit := fun _ _ h => h
  ctx := fun _ _ h => h

/-- The handler returns to the context it interrupted (R310). -/
theorem takeInterrupt_ctx (s : State) : (takeInterrupt s).Spec (fun u => u.ctx = s.ctx) False True := by
  have hP := busInv_cfg s.cfg
  have h1 := readVia_spec hP.toAccInv (interruptTick_spec hP.toAccInv) (.p .intStMain) trivial
    (s := enterInterrupt s) rfl
  unfold takeInterrupt
  cases hr : readVia interruptTick (.p .intStMain) (enterInterrupt s) with
  | stop g => trivial
  | err e u => rw [hr] at h1; exact h1.1.elim
  | ok main u =>
    rw [hr] at h1
    have h2 := forEach_spec (f := handleCategory main) h1 fun k hk s h =>
      handleCategory_spec hP.toAccInv main (List.mem_range.mp hk) h
    rw [Res.andThen_ok]
    cases hf : forEach (List.range Config.numCat) (handleCategory main) u with
    | stop g => trivial
    | err e v => rw [hf] at h2; exact h2.1.elim
    | ok _ v => rfl

theorem configMove_ctx (m : EnvMove) (s : State) : (configMove m s).Spec (fun u => u.ctx = s.ctx) True True := by
  have agent : ∀ m, (Res.ok () (agentMove m s)).Spec (fun u => u.ctx = s.ctx) True True := fun m => agentMove_ctx m s
  cases m with
  | irq =>
    simp only [configMove]
    split
    · rfl
    · exact (takeInterrupt_ctx s).weaken (by simp) (by simp)
  | secondOp =>
    simp only [configMove]
    split <;> trivial
  | fault i k bits => exact agent _
  | unfault i k bits => exact agent _
  | stopstate i v => exact agent _
  | mateWriteX r v => exact agent _
  | mateReadX r => exact agent _
  | mateLine r v => exact agent _
  | mateWriteW n v => exact agent _
  | mateTest phy code data => exact agent _
  | onFault v => exact agent _
  | onDone v => exact agent _
  | clkOk c b => exact agent _

theorem configTick_ctx (k : Context) {s : State} (h : s.ctx = k) :
    (configTick s).Spec (fun u => u.ctx = k) True True := by
  unfold configTick
  split
  · exact h
  · exact forEach_spec h fun m _ u hu => (configMove_ctx m u).mono fun v hv => hv.trans hu

/-! ## Accesses of the configuration context -/

/-- A property that the accesses of a configuration operation keep, whatever the other agents do. -/
structure OpInv (c : Cfg) (M : EnvMove → Prop) (F : Prop) (P : State → Prop) : Prop extends AccInv c M F P where
  tick : ∀ s, P s → (configTick s).Spec P False F

theorem BusInv.opInv {c : Cfg} {M : EnvMove → Prop} {F : Prop} {P : State → Prop} (hP : BusInv c M F P) : OpInv c M F P :=
  ⟨hP.toAccInv, configTick_spec hP⟩

/-- The same beside a fixed context. -/
theorem BusInv.opInvCtx {c : Cfg} {M : EnvMove → Prop} {F : Prop} {P : State → Prop} (hP : BusInv c M F P) (k : Context) :
    OpInv c M F fun s => P s ∧ s.ctx = k where
  cfg := fun s h => hP.cfg s h.1
  access := fun s l h => hP.access s l h.1
  second := hP.second
  moves := fun s moves later he h => hP.moves s moves later he h.1
  env := fun s moves later he h => ⟨hP.env s moves later he h.1, h.2⟩
  agent := fun s m hm h => ⟨hP.agent s m hm h.1, (agentMove_ctx m s).trans h.2⟩
  log := fun s a h => ⟨hP.log s a h.1, h.2⟩
  read := fun s l hl h => ⟨hP.read s l hl h.1, (afterRead_ctx s l).trans h.2⟩
  write := fun s l v hl h => ⟨hP.write s l v hl h.1, (afterWrite_ctx s l v).trans h.2⟩
  phase := fun s ch v hch h => ⟨hP.phase s ch v hch h.1, h.2⟩
  emit := fun s e h => ⟨hP.emit s e h.1, h.2⟩
  tick := fun s h => (configTick_spec hP s h.1).and (configTick_ctx k h.2)

section
variable {c : Cfg} {M : EnvMove → Prop} {F : Prop} {P : State → Prop} (hP : OpInv c M F P) {s : State} (h : P s)
include hP h

/-- Whatever the other agents do, a read of the configuration context keeps the property and ends in no error. -/
theorem rd_spec (l : Loc) (hl : LocIn c l) : (rd l s).Spec P False F := readVia_spec hP.toAccInv hP.tick l hl h

theorem wr_spec (l : Loc) (hl : LocIn c l) (v : Word) : (wr l v s).Spec P False F :=
  writeVia_spec hP.toAccInv hP.tick l hl v h

theorem upd_spec (f : Field) (hf : LocIn c (fieldLoc c f)) (n : Nat) : (upd f n s).Spec P False F :=
  updateVia_spec hP.toAccInv hP.tick f hf n h

end

/-! ## What no access and no agent changes -/

/-- The parts of the state that register accesses, the other agents and the handler leave alone: configuration, attributes,
clocks, `dphy_state`, the result, the delivery queue and the counters (R286). -/
structure Kept (s s' : State) : Prop where
  cfg : s'.cfg = s.cfg
  inst : s'.inst = s.inst
  clk : s'.clk = s.clk
  dphy : s'.dphy = s.dphy
  result : s'.result = s.result
  opInFlight : s'.opInFlight = s.opInFlight
  inbox : s'.inbox = s.inbox
  draw : s'.draw = s.draw
  choice : s'.choice = s.choice

theorem Kept.refl (s : State) : Kept s s := ⟨rfl, rfl, rfl, rfl, rfl, rfl, rfl, rfl, rfl⟩

theorem Kept.trans {s t u : State} (h : Kept s t) (h' : Kept t u) : Kept s u :=
  ⟨h'.cfg.trans h.cfg, h'.inst.trans h.inst, h'.clk.trans h.clk, h'.dphy.trans h.dphy, h'.result.trans h.result,
   h'.opInFlight.trans h.opInFlight, h'.inbox.trans h.inbox, h'.draw.trans h.draw, h'.choice.trans h.choice⟩

theorem agentMove_kept (m : EnvMove) (s : State) : Kept s (agentMove m s) := by
  cases m with
  | fault i k bits => cases i <;> exact ⟨rfl, rfl, rfl, rfl, rfl, rfl, rfl, rfl, rfl⟩
  | unfault i k bits =>
    simp only [agentMove]; split
    · exact Kept.refl s
    · cases i <;> exact ⟨rfl, rfl, rfl, rfl, rfl, rfl, rfl, rfl, rfl⟩
  | stopstate i v => cases i <;> exact ⟨rfl, rfl, rfl, rfl, rfl, rfl, rfl, rfl, rfl⟩
  | irq => exact Kept.refl s
  | secondOp => exact Kept.refl s
  | onFault v => simp only [agentMove]; split <;> exact ⟨rfl, rfl, rfl, rfl, rfl, rfl, rfl, rfl, rfl⟩
  | onDone v => simp only [agentMove]; split <;> exact ⟨rfl, rfl, rfl, rfl, rfl, rfl, rfl, rfl, rfl⟩
  | clkOk c b => exact ⟨rfl, rfl, rfl, rfl, rfl, rfl, rfl, rfl, rfl⟩
  | mateWriteX r v => simp only [agentMove]; split <;> exact ⟨rfl, rfl, rfl, rfl, rfl, rfl, rfl, rfl, rfl⟩
  | mateReadX r => simp only [agentMove]; split <;> exact ⟨rfl, rfl, rfl, rfl, rfl, rfl, rfl, rfl, rfl⟩
  | mateLine r v => simp only [agentMove]; split <;> exact ⟨rfl, rfl, rfl, rfl, rfl, rfl, rfl, rfl, rfl⟩
  | mateWriteW n v => simp only [agentMove]; split <;> exact ⟨rfl, rfl, rfl, rfl, rfl, rfl, rfl, rfl, rfl⟩
  | mateTest phy code data => simp only [agentMove]; split <;> exact ⟨rfl, rfl, rfl, rfl, rfl, rfl, rfl, rfl, rfl⟩

theorem Kept.afterRead {s s' : State} (h : Kept s s') (l : Loc) : Kept s (afterRead s' l) :=
  ⟨by simpa using h.1, by simpa using h.2, by simpa using h.3, by simpa using h.4,
    by simpa using h.5, by simpa using h.6, by simpa using h.7, by simpa using h.8, by simpa using h.9⟩

theorem Kept.afterWrite {s s' : State} (h : Kept s s') (l : Loc) (v : Word) : Kept s (afterWrite s' l v) :=
  ⟨by simpa using h.1, by simpa using h.2, by simpa using h.3, by simpa using h.4,
    by simpa using h.5, by simpa using h.6, by simpa using h.7, by simpa using h.8, by simpa using h.9⟩

/-- `Kept` from a fixed state is kept by every access, whatever the other agents do. -/
theorem busInv_kept (s₀ : State) : BusInv s₀.cfg (fun _ => True) True (Kept s₀) where
  cfg := fun _ h => h.cfg
  access := fun _ _ _ => .inl trivial
  second := .inl trivial
  moves := fun _ _ _ _ _ _ _ => trivial
  env := fun _ _ _ _ h => ⟨h.1, h.2, h.3, h.4, h.5, h.6, h.7, h.8, h.9⟩
  agent := fun s m _ h => h.trans (agentMove_kept m s)
  log := fun _ _ h => ⟨h.1, h.2, h.3, h.4, h.5, h.6, h.7, h.8, h.9⟩
  read := fun _ l _ h => h.afterRead l
  write := fun _ l v _ h => h.afterWrite l v
  phase := fun _ _ _ _ h => ⟨h.1, h.2, h.3, h.4, h.5, h.6, h.7, h.8, h.9⟩
  emit := fun _ _ h => ⟨h.1, h.2, h.3, h.4, h.5, h.6, h.7, h.8, h.9⟩
  ctx := fun _ _ h => ⟨h.1, h.2, h.3, h.4, h.5, h.6, h.7, h.8, h.9⟩


theorem LawfulEnv.congr {s s' : State} (h : LawfulEnv s) (he : s'.env = s.env) : LawfulEnv s' := by
  unfold LawfulEnv at *
  rwa [he]

/-- What an operation relies on from access to access among agents that break no rule: every window open, a lawful
schedule, and everything of `Kept`. -/
structure Calm (s₀ s : State) : Prop where
  kept : Kept s₀ s
  powered : Powered s
  lawful : LawfulEnv s

theorem Powered.access {s : State} (h : Powered s) (l : Loc) : accessible s l = true := by
  obtain ⟨hc, hp, hx, hw⟩ := h
  cases l <;> simp [accessible, *]

theorem Powered.congr {s s' : State} (h : Powered s) (hi : s'.inst = s.inst) (hc : s'.clk = s.clk) : Powered s' := by
  unfold Powered at *
  rwa [hi, hc]

/-- Among lawful agents no access faults. -/
theorem busInv_calm (s₀ : State) : BusInv s₀.cfg (· ≠ .secondOp) False (Calm s₀) where
  cfg := fun _ h => h.kept.cfg
  access := fun _ l h => .inr (h.powered.access l)
  second := .inr fun h => h rfl
  moves := fun _ _ _ he h _ hm e => h.lawful _ (he ▸ List.mem_cons_self ..) (e ▸ hm)
  env := fun _ _ _ he h => ⟨(busInv_kept s₀).env _ _ _ he h.kept, h.powered,
    fun m hm => h.lawful m (he ▸ List.mem_cons_of_mem _ hm)⟩
  agent := fun s m _ h => ⟨h.kept.trans (agentMove_kept m s),
    h.powered.congr (agentMove_kept m s).inst (agentMove_kept m s).clk, h.lawful.congr (agentMove_env m s)⟩
  log := fun _ _ h => ⟨(busInv_kept s₀).log _ _ h.kept, h.powered, h.lawful⟩
  read := fun s l _ h => ⟨h.kept.afterRead l, h.powered.congr (afterRead_inst s l) (afterRead_clk s l),
    h.lawful.congr (afterRead_env s l)⟩
  write := fun s l v _ h => ⟨h.kept.afterWrite l v, h.powered.congr (afterWrite_inst s l v) (afterWrite_clk s l v),
    h.lawful.congr (afterWrite_env s l v)⟩
  phase := fun _ _ _ hch h => ⟨(busInv_kept s₀).phase _ _ _ hch h.kept, h.powered, h.lawful⟩
  emit := fun _ _ h => ⟨(busInv_kept s₀).emit _ _ h.kept, h.powered, h.lawful⟩
  ctx := fun _ _ h => ⟨(busInv_kept s₀).ctx _ _ h.kept, h.powered, h.lawful⟩

/-! ## The callback slots -/

/-- The configuration and the callback slots are those of `s₀`. -/
structure SlotsKept (s₀ s : State) : Prop where
  cfg : s.cfg = s₀.cfg
  onFault : s.onFault = s₀.onFault
  onDone : s.onDone = s₀.onDone

/-- What keeps the bind over from access to access, whichever context runs. -/
def Started (s : State) : Prop := s.opInFlight = true ∨ s.result ≠ none ∨ s.trace ≠ []

theorem Started.bindOver {s : State} (h : Started s) : bindOpen s = false := by
  unfold bindOpen
  rcases h with h | h | h
  · simp [h]
  · simp [Option.isNone_iff_eq_none, h]
  · simp [h]

theorem bindOpen_interrupt {s : State} (h : s.ctx = .interrupt) : bindOpen s = false := by simp [bindOpen, h]

/-- The bind is over in the interrupt context, and once anything has started. -/
theorem bindOpen_false_iff (s : State) : bindOpen s = false ↔ s.ctx = .interrupt ∨ Started s := by
  refine ⟨fun h => ?_, fun h => h.elim bindOpen_interrupt Started.bindOver⟩
  by_cases hs : Started s
  · exact .inr hs
  · unfold Started at hs
    push Not at hs
    cases hc : s.ctx with
    | interrupt => exact .inl rfl
    | config => simp [bindOpen, hc, hs] at h

theorem agentMove_trace (m : EnvMove) (s : State) : (agentMove m s).trace = s.trace := by
  cases m with
  | fault i k bits => cases i <;> rfl
  | unfault i k bits => simp only [agentMove]; split <;> first | rfl | (cases i <;> rfl)
  | stopstate i v => cases i <;> rfl
  | irq => rfl
  | secondOp => rfl
  | onFault v => simp only [agentMove]; split <;> rfl
  | onDone v => simp only [agentMove]; split <;> rfl
  | clkOk c b => rfl
  | mateWriteX r v => simp only [agentMove]; split <;> rfl
  | mateReadX r => simp only [agentMove]; split <;> rfl
  | mateLine r v => simp only [agentMove]; split <;> rfl
  | mateWriteW n v => simp only [agentMove]; split <;> rfl
  | mateTest phy code data => simp only [agentMove]; split <;> rfl

/-- Once the bind is over no move changes a callback slot (R286). -/
theorem agentMove_slots {s : State} (h : bindOpen s = false) (m : EnvMove) : SlotsKept s (agentMove m s) := by
  suffices hs : (agentMove m s).onFault = s.onFault ∧ (agentMove m s).onDone = s.onDone from
    ⟨agentMove_cfg m s, hs.1, hs.2⟩
  cases m with
  | fault i k bits => cases i <;> exact ⟨rfl, rfl⟩
  | unfault i k bits => simp only [agentMove]; split <;> first | exact ⟨rfl, rfl⟩ | (cases i <;> exact ⟨rfl, rfl⟩)
  | stopstate i v => cases i <;> exact ⟨rfl, rfl⟩
  | irq => exact ⟨rfl, rfl⟩
  | secondOp => exact ⟨rfl, rfl⟩
  | onFault v => simp [agentMove, h]
  | onDone v => simp [agentMove, h]
  | clkOk c b => exact ⟨rfl, rfl⟩
  | mateWriteX r v => simp only [agentMove]; split <;> exact ⟨rfl, rfl⟩
  | mateReadX r => simp only [agentMove]; split <;> exact ⟨rfl, rfl⟩
  | mateLine r v => simp only [agentMove]; split <;> exact ⟨rfl, rfl⟩
  | mateWriteW n v => simp only [agentMove]; split <;> exact ⟨rfl, rfl⟩
  | mateTest phy code data => simp only [agentMove]; split <;> exact ⟨rfl, rfl⟩

theorem SlotsKept.trans {s t u : State} (h : SlotsKept s t) (h' : SlotsKept t u) : SlotsKept s u :=
  ⟨h'.1.trans h.1, h'.2.trans h.2, h'.3.trans h.3⟩

theorem Started.congr {s s' : State} (h : Started s) (hf : s'.opInFlight = s.opInFlight) (hr : s'.result = s.result)
    (ht : s'.trace = s.trace) : Started s' := by
  unfold Started at *
  rwa [hf, hr, ht]

/-- Once anything has started, no access and no agent changes a callback slot. -/
theorem busInv_slots (s₀ : State) : BusInv s₀.cfg (fun _ => True) True fun s => SlotsKept s₀ s ∧ Started s where
  cfg := fun _ h => h.1.cfg
  access := fun _ _ _ => .inl trivial
  second := .inl trivial
  moves := fun _ _ _ _ _ _ _ => trivial
  env := fun _ _ _ _ h => ⟨⟨h.1.1, h.1.2, h.1.3⟩, h.2⟩
  agent := fun s m _ h => ⟨h.1.trans (agentMove_slots h.2.bindOver m),
    h.2.congr (agentMove_kept m s).opInFlight (agentMove_kept m s).result (agentMove_trace m s)⟩
  log := fun _ _ h => ⟨⟨h.1.1, h.1.2, h.1.3⟩, h.2.imp id (.imp id fun _ => by simp [logAccess])⟩
  read := fun s l _ h => ⟨h.1.trans ⟨by simp, by simp, by simp⟩, h.2.congr (by simp) (by simp) (by simp)⟩
  write := fun s l v _ h => ⟨h.1.trans ⟨by simp, by simp, by simp⟩, h.2.congr (by simp) (by simp) (by simp)⟩
  phase := fun _ _ _ _ h => ⟨⟨h.1.1, h.1.2, h.1.3⟩, h.2⟩
  emit := fun _ _ h => ⟨⟨h.1.1, h.1.2, h.1.3⟩, h.2⟩
  ctx := fun _ _ h => ⟨⟨h.1.1, h.1.2, h.1.3⟩, h.2⟩

/-- Inside the handler no access and no agent changes a callback slot. -/
theorem accInv_slots (s₀ : State) :
    AccInv s₀.cfg (fun _ => True) True fun s => SlotsKept s₀ s ∧ s.ctx = .interrupt where
  cfg := fun _ h => h.1.cfg
  access := fun _ _ _ => .inl trivial
  second := .inl trivial
  moves := fun _ _ _ _ _ _ _ => trivial
  env := fun _ _ _ _ h => ⟨⟨h.1.1, h.1.2, h.1.3⟩, h.2⟩
  agent := fun s m _ h => ⟨h.1.trans (agentMove_slots (bindOpen_interrupt h.2) m), (agentMove_ctx m s).trans h.2⟩
  log := fun _ _ h => ⟨⟨h.1.1, h.1.2, h.1.3⟩, h.2⟩
  read := fun s l _ h => ⟨h.1.trans ⟨by simp, by simp, by simp⟩, (afterRead_ctx s l).trans h.2⟩
  write := fun s l v _ h => ⟨h.1.trans ⟨by simp, by simp, by simp⟩, (afterWrite_ctx s l v).trans h.2⟩
  phase := fun _ _ _ _ h => ⟨⟨h.1.1, h.1.2, h.1.3⟩, h.2⟩
  emit := fun _ _ h => ⟨⟨h.1.1, h.1.2, h.1.3⟩, h.2⟩

/-- The handler changes no callback slot, wherever it starts. -/
theorem takeInterrupt_slots (s : State) : (takeInterrupt s).Spec (SlotsKept s) False True := by
  have hP := accInv_slots s
  have h1 := readVia_spec hP (interruptTick_spec hP) (.p .intStMain) trivial (s := enterInterrupt s)
    ⟨⟨rfl, rfl, rfl⟩, rfl⟩
  unfold takeInterrupt
  cases hr : readVia interruptTick (.p .intStMain) (enterInterrupt s) with
  | stop g => trivial
  | err e u => rw [hr] at h1; exact h1.1.elim
  | ok main u =>
    rw [hr] at h1
    have h2 := forEach_spec (f := handleCategory main) h1 fun k hk s h =>
      handleCategory_spec hP main (List.mem_range.mp hk) h
    rw [Res.andThen_ok]
    cases hf : forEach (List.range Config.numCat) (handleCategory main) u with
    | stop g => trivial
    | err e v => rw [hf] at h2; exact h2.1.elim
    | ok _ v =>
      rw [hf] at h2
      show SlotsKept s (leaveInterrupt s.ctx (notifyDone main v))
      unfold notifyDone leaveInterrupt
      split <;> exact ⟨h2.1.1, h2.1.2, h2.1.3⟩

end Sys2Proof.Machine
end

