-- ==== Sys2Proof/Laws/Config.lean ====
section
/-! SUPPORT. The default configuration meets the spec's constraints on a configuration (92_eei_decisions.md section 2). -/

namespace Sys2Proof.Machine

theorem FieldsApart.of_zero_left {p q : FieldPos} (h : p.width = 0) : FieldsApart p q := .inr (.inr (.inl h))
theorem FieldsApart.of_zero_right {p q : FieldPos} (h : q.width = 0) : FieldsApart p q := .inr (.inr (.inr h))

/-- The default place of a soft-reset bit: 4 bits apart; none beyond the eight channels. -/
theorem softrstn_default (ch : Nat) : fieldPos Config.default (.softrstn ch) = if ch < 8 then ⟨4 * ch, 1⟩ else ⟨0, 0⟩ := by
  rcases ch with _ | _ | _ | _ | _ | _ | _ | _ | ch <;> try rfl

theorem tblGet_beyond {α : Type} (d : α) (l : List α) (i : Nat) (h : l.length ≤ i) : tblGet d l i = d := by
  simp [tblGet, h]

/-- The wrapper fields that exist in the default map. -/
def wrapperFields : List WField :=
  ((List.range 4).flatMap fun id =>
    [.enableclk id, .forcerxmode id, .hsfreqrange id, .testcode id, .selOther id]) ++
  [.ctrlSel 0, .ctrlSel 1, .ppipgClkEn]

/-- A wrapper field of the default map is one of the list or has width 0. -/
theorem wrapper_default (f : WField) : f ∈ wrapperFields ∨ wrapperPos Config.default f = ⟨0, 0, 0⟩ := by
  cases f with
  | ppipgClkEn => exact .inl (by decide)
  | ctrlSel k =>
    rcases k with _ | _ | k
    · exact .inl (by decide)
    · exact .inl (by decide)
    · exact .inr (tblGet_beyond _ _ _ (by simp [Config.default, Config.defaultMap]))
  | _ id =>
    rcases id with _ | _ | _ | _ | id
    · exact .inl (by decide)
    · exact .inl (by decide)
    · exact .inl (by decide)
    · exact .inl (by decide)
    · exact .inr (tblGet_beyond _ _ _ (by simp [Config.default, Config.defaultMap]))

theorem fieldsFit_default (f : Field) :
    (placeOf Config.default f).lo + (placeOf Config.default f).width ≤ 32 := by
  have hp : ∀ g : PField, (fieldPos Config.default g).lo + (fieldPos Config.default g).width ≤ 32 := by
    intro g
    cases g with
    | softrstn ch =>
      rw [softrstn_default]
      split
      · simp only; omega
      · simp
    | _ => exact Nat.le_of_ble_eq_true rfl
  cases f with
  | p g => exact hp g
  | x g => exact hp g
  | w g =>
    have hall : ∀ g ∈ wrapperFields,
        (placeOf Config.default (.w g)).lo + (placeOf Config.default (.w g)).width ≤ 32 := by decide
    rcases wrapper_default g with h | h
    · exact hall g h
    · simp [placeOf, h]

theorem wrapperApart_default (f g : WField) (hne : f ≠ g)
    (hw : (wrapperPos Config.default f).word = (wrapperPos Config.default g).word) :
    FieldsApart (placeOf Config.default (.w f)) (placeOf Config.default (.w g)) := by
  have hall : ∀ f ∈ wrapperFields, ∀ g ∈ wrapperFields, f ≠ g →
      (wrapperPos Config.default f).word = (wrapperPos Config.default g).word →
      let p := placeOf Config.default (.w f); let q := placeOf Config.default (.w g)
      p.lo + p.width ≤ q.lo ∨ q.lo + q.width ≤ p.lo := by decide
  rcases wrapper_default f with hf | hf
  · rcases wrapper_default g with hg | hg
    · rcases hall f hf g hg hne hw with h | h
      · exact .inl h
      · exact .inr (.inl h)
    · exact .of_zero_right (by simp [placeOf, hg])
  · exact .of_zero_left (by simp [placeOf, hf])

theorem fieldsApart_default (f g : PField) (hne : f ≠ g) (hr : f.reg = g.reg) :
    FieldsApart (fieldPos Config.default f) (fieldPos Config.default g) := by
  cases f <;> cases g <;> first
    | exact absurd rfl hne
    | (cases hr; done)
    | exact .inl (Nat.le_of_ble_eq_true rfl)
    | exact .inr (.inl (Nat.le_of_ble_eq_true rfl))
    | skip
  all_goals first
    | (injection hr with hr; exact absurd (congrArg _ hr) hne)
    | skip
  next a b =>
    rw [softrstn_default, softrstn_default]
    split
    · split
      · have : a ≠ b := fun e => hne (e ▸ rfl)
        unfold FieldsApart
        simp only
        omega
      · exact .of_zero_right rfl
    · exact .of_zero_left rfl

theorem legalCfg_default : LegalCfg Config.default where
  numInst := by decide
  hsdDefault := by decide
  offsetsAligned := by decide +kernel
  offsetsDistinct := by decide +kernel
  fieldsFit := fieldsFit_default
  fieldsApart := fieldsApart_default
  fieldWidths := by
    intro f n h
    cases f with
    | softrstn ch =>
      rw [PField.ruleWidth] at h
      by_cases hc : ch < Config.maxPixCh
      · rw [if_pos hc] at h
        rw [softrstn_default, if_pos (show ch < 8 from hc)]
        exact Option.some.inj h
      · rw [if_neg hc] at h
        cases h
    | _ => first | cases h; done | (cases h; rfl)
  wrapperApart := wrapperApart_default
  wrapperWidths := by
    intro f n h
    have hall : ∀ f ∈ wrapperFields, ∀ n ∈ f.ruleWidth, (wrapperPos Config.default f).width = n := by decide
    rcases wrapper_default f with hf | hf
    · exact hall f hf n h
    · revert h
      cases f with
      | ppipgClkEn => simp [wrapperPos, Config.default, Config.defaultMap] at hf
      | forcerxmode id => intro h; cases h
      | testcode id => intro h; cases h
      | _ id =>
        simp only [WField.ruleWidth]
        split
        · next hid =>
          exfalso
          revert hf hid
          simp only [Config.numPhy]
          rcases id with _ | _ | _ | _ | id <;> first | decide | (intro _ h; omega)
        · intro h; cases h
  wrapperWords := by
    intro f hf
    have hall : ∀ f ∈ wrapperFields, (wrapperPos Config.default f).word < Config.default.map.wWords := by decide
    rcases wrapper_default f with h | h
    · exact hall f h
    · rw [h]; decide
  pairWord := by decide
  testcodeWidths := by decide
  catCount := by decide
  catIds := by decide
  mainbits := by decide
  mainbitsApart := by decide
  fatalCats := by decide
  overflowDefined := by decide

/-- No other constraint speaks of the number of instances. -/
theorem LegalCfg.withNumInst {c : Cfg} (h : LegalCfg c) (n : Nat) (hn : 2 ≤ n ∧ n ≤ 9) :
    LegalCfg { c with numInst := n } where
  numInst := hn
  hsdDefault := h.hsdDefault
  offsetsAligned := h.offsetsAligned
  offsetsDistinct := h.offsetsDistinct
  fieldsFit := h.fieldsFit
  fieldsApart := h.fieldsApart
  fieldWidths := h.fieldWidths
  wrapperApart := h.wrapperApart
  wrapperWidths := h.wrapperWidths
  wrapperWords := h.wrapperWords
  pairWord := h.pairWord
  testcodeWidths := h.testcodeWidths
  catCount := h.catCount
  catIds := h.catIds
  mainbits := h.mainbits
  mainbitsApart := h.mainbitsApart
  fatalCats := h.fatalCats
  overflowDefined := h.overflowDefined

/-- No constraint speaks of a `manual_flush` that clears itself (U9). -/
theorem LegalCfg.withSelfClear {c : Cfg} (h : LegalCfg c) (b : Bool) :
    LegalCfg { c with manualFlushSelfClears := b } where
  numInst := h.numInst
  hsdDefault := h.hsdDefault
  offsetsAligned := h.offsetsAligned
  offsetsDistinct := h.offsetsDistinct
  fieldsFit := h.fieldsFit
  fieldsApart := h.fieldsApart
  fieldWidths := h.fieldWidths
  wrapperApart := h.wrapperApart
  wrapperWidths := h.wrapperWidths
  wrapperWords := h.wrapperWords
  pairWord := h.pairWord
  testcodeWidths := h.testcodeWidths
  catCount := h.catCount
  catIds := h.catIds
  mainbits := h.mainbits
  mainbitsApart := h.mainbitsApart
  fatalCats := h.fatalCats
  overflowDefined := h.overflowDefined

end Sys2Proof.Machine
end

