-- ==== Sys2Proof/Laws/Decode.lean ====
section
/-! SUPPORT. Laws of the delivery's bytes: the words of the bytes of words are those words (30_encoding.md R91), and an
operand word holds a number that fits it (R94). -/

namespace Sys2Proof

theorem wordOfBytes_bytesOfWord (w : Word) :
    wordOfBytes (w.extractLsb' 0 8) (w.extractLsb' 8 8) (w.extractLsb' 16 8) (w.extractLsb' 24 8) = w := by
  apply BitVec.eq_of_getLsbD_eq
  intro i hi
  simp only [wordOfBytes, BitVec.getLsbD_append, BitVec.getLsbD_extractLsb']
  by_cases h0 : i < 8
  · simp [h0]
  · by_cases h1 : i - 8 < 8
    · have : 8 + (i - 8) = i := by omega
      simp [h0, h1, this]
    · by_cases h2 : i - 8 - 8 < 8
      · have : 16 + (i - 8 - 8) = i := by omega
        simp [h0, h1, h2, this]
      · have h3 : i - 8 - 8 - 8 < 8 := by omega
        have : 24 + (i - 8 - 8 - 8) = i := by omega
        simp [h0, h1, h2, h3, this]

@[simp] theorem wordsOfBytes_bytesOfWords (ws : List Word) : wordsOfBytes (bytesOfWords ws) = ws := by
  induction ws with
  | nil => rfl
  | cons w ws ih =>
    have h : bytesOfWords (w :: ws) = w.extractLsb' 0 8 :: w.extractLsb' 8 8 :: w.extractLsb' 16 8 ::
        w.extractLsb' 24 8 :: bytesOfWords ws := rfl
    rw [h, wordsOfBytes, ih, wordOfBytes_bytesOfWord]

@[simp] theorem wordBool_boolWord (b : Bool) : wordBool (boolWord b) = b := by cases b <;> rfl

theorem toNat_ofNat_of_fits {n : Nat} (h : fitsWord n = true) : (BitVec.ofNat 32 n).toNat = n := by
  rw [BitVec.toNat_ofNat]
  exact Nat.mod_eq_of_lt (of_decide_eq_true h)

@[simp] theorem setWidth_setWidth_mask (m : BitVec 8) : (m.setWidth 32).setWidth 8 = m := by
  apply BitVec.eq_of_getLsbD_eq
  intro i hi
  simp

end Sys2Proof
end

