-- ==== Sys2Proof/Laws/Families.lean ====
section
/-! SUPPORT. What each operation can do, among other agents: one lemma for each, over any property its accesses keep (`OpInv`)
and the further updates the operation makes. `E` is whether it may end in `Err`, `F` whether it may fault. -/

namespace Sys2Proof.Machine

/-! ## Places the operations access -/

theorem mateOf_lt {id : Nat} (h : id < Config.numPhy) : mateOf id < Config.numPhy := by
  unfold Config.numPhy at *
  interval_cases id <;> decide

theorem majorOf_lt {id : Nat} (h : id < Config.numPhy) : majorOf id + 1 < Config.numPhy := by
  unfold Config.numPhy at *
  interval_cases id <;> decide

theorem pairOf_lt {id : Nat} (h : id < Config.numPhy) : pairOf id < Config.numPhy / 2 := by
  unfold Config.numPhy at *
  interval_cases id <;> decide

theorem regIn_of_regAt {c : Cfg} {offset : Nat} {r : PReg} (h : regAt c offset = some r) : RegIn c r := by
  unfold regAt at h
  split at h
  · exact regIn_of_mem (List.mem_of_find?_eq_some h)
  · cases h

theorem regIn_dump {c : Cfg} {ch : Nat} (h : ch < c.numInst - 1) (i : Nat) : RegIn c (dumpReg ch i) := by
  unfold dumpReg
  split <;> exact .inr h

section
variable {c : Cfg} {M : EnvMove → Prop} {E F : Prop} {P : State → Prop} (hP : OpInv c M F P)
include hP

theorem updW_spec (f : WField) (hf : f.Exists) (n : Nat) {s : State} (h : P s) : (upd (.w f) n s).Spec P E F :=
  (upd_spec hP h (.w f) (locIn_wrapper hf) n).mayErr

theorem updP_spec (f : PField) (hf : RegIn c f.reg) (n : Nat) {s : State} (h : P s) : (upd (.p f) n s).Spec P E F :=
  (upd_spec hP h (.p f) hf n).mayErr

theorem updX_spec (f : PField) (hf : RegIn c f.reg) (n : Nat) {s : State} (h : P s) : (upd (.x f) n s).Spec P E F :=
  (upd_spec hP h (.x f) hf n).mayErr

theorem wrP_spec (r : PReg) (hr : RegIn c r) (v : Word) {s : State} (h : P s) : (wr (.p r) v s).Spec P E F :=
  (wr_spec hP h (.p r) hr v).mayErr

theorem rdP_spec (r : PReg) (hr : RegIn c r) {s : State} (h : P s) : (rd (.p r) s).Spec P E F :=
  (rd_spec hP h (.p r) hr).mayErr

/-! ## Register access -/

theorem atOffset_spec {α : Type} {space : PReg → Loc} {offset : Nat} {body : PReg → State → Res α} {s : State}
    (hr : F ∨ ∃ r, regAt c offset = some r) (hb : ∀ r, RegIn c r → (body r s).Spec P E F) (h : P s) :
    (atOffset space offset body s).Spec P E F := by
  unfold atOffset
  split
  · rw [hP.cfg s h]
    split
    · next r he => exact hb r (regIn_of_regAt he)
    · next he =>
      refine hr.resolve_right ?_
      rintro ⟨r, hr⟩
      rw [he] at hr
      cases hr
  · next ha => exact (hP.access s _ h).resolve_right ha

theorem memRead_p_spec {offset : Nat} {s : State} (hr : F ∨ ∃ r, regAt c offset = some r) (h : P s) :
    (memRead .p offset s).Spec P E F :=
  atOffset_spec hP hr (fun r hr => (rd_spec hP h (.p r) hr).mayErr.mapValue) h

theorem memRead_x_spec {offset : Nat} {s : State} (hr : F ∨ ∃ r, regAt c offset = some r) (h : P s) :
    (memRead .x offset s).Spec P E F :=
  atOffset_spec hP hr (fun r hr => (rd_spec hP h (.x r) hr).mayErr.mapValue) h

theorem memWrite_p_spec {offset : Nat} {v : Word} {s : State} (hr : F ∨ ∃ r, regAt c offset = some r) (h : P s) :
    (memWrite .p offset v s).Spec P E F :=
  (atOffset_spec hP hr (fun r hr => (wr_spec hP h (.p r) hr v).mayErr) h).okUnit

theorem memWrite_x_spec {offset : Nat} {v : Word} {s : State} (hr : F ∨ ∃ r, regAt c offset = some r) (h : P s) :
    (memWrite .x offset v s).Spec P E F :=
  (atOffset_spec hP hr (fun r hr => (wr_spec hP h (.x r) hr v).mayErr) h).okUnit

/-! ## Wrapper -/

omit hP in
theorem withPhy_spec {α : Type} {id : Nat} {body : State → Res α} {s : State} (hi : F ∨ id < Config.numPhy)
    (hb : id < Config.numPhy → (body s).Spec P E F) : (withPhy id body s).Spec P E F := by
  unfold withPhy
  split
  · next h => exact hb h
  · next h => exact hi.resolve_right h

omit hP in
theorem withLanes_spec {α : Type} {n : Nat} {body : State → Res α} {s : State} (hn : F ∨ (1 ≤ n ∧ n ≤ 4))
    (hb : (body s).Spec P E F) : (withLanes n body s).Spec P E F := by
  unfold withLanes
  split
  · exact hb
  · next h => exact hn.resolve_right h

theorem wrapEnableClock_spec {id : Nat} (hi : F ∨ id < Config.numPhy) {s : State} (h : P s) :
    (wrapEnableClock id s).Spec P E F :=
  withPhy_spec hi fun hi => updW_spec hP (.enableclk id) hi _ h

theorem wrapForceRxMode_spec {id lanes : Nat} {force : Bool} (hi : F ∨ id < Config.numPhy)
    (hn : F ∨ (1 ≤ lanes ∧ lanes ≤ 4)) {s : State} (h : P s) : (wrapForceRxMode id lanes force s).Spec P E F := by
  refine withPhy_spec hi fun hi => withLanes_spec hn ?_
  refine (updW_spec hP (.forcerxmode id) hi _ h).andThen fun _ s h => ?_
  split
  · exact updW_spec hP (.forcerxmode (mateOf id)) (mateOf_lt hi) _ h
  · exact h

theorem wrapGetLaneMode_spec {id : Nat} (hi : F ∨ id < Config.numPhy) {s : State} (h : P s) :
    (wrapGetLaneMode id s).Spec P E F := by
  refine withPhy_spec hi fun hi => ?_
  rw [hP.cfg s h]
  exact (rd_spec hP h _ (locIn_wrapper (f := .ctrlSel (pairOf id)) (pairOf_lt hi))).mayErr.andThen fun _ _ h => h

theorem wrapSetLaneMode_spec {id : Nat} {merged : Bool} (hi : F ∨ id < Config.numPhy) {s : State} (h : P s) :
    (wrapSetLaneMode id merged s).Spec P E F :=
  withPhy_spec hi fun hi => updW_spec hP (.ctrlSel (pairOf id)) (pairOf_lt hi) _ h

theorem wrapSetHsfreqrange_spec {id rate : Nat} (hi : F ∨ id < Config.numPhy) (he : E) {s : State} (h : P s) :
    (wrapSetHsfreqrange id rate s).Spec P E F := by
  refine withPhy_spec hi fun hi => ?_
  split
  · exact updW_spec hP (.hsfreqrange id) hi _ h
  · exact ⟨he, h⟩

theorem wrapEnablePpipgClk_spec {enable : Bool} {s : State} (h : P s) : (wrapEnablePpipgClk enable s).Spec P E F :=
  updW_spec hP .ppipgClkEn trivial _ h

theorem wrapSetTestcode_spec {id code : Nat} (hi : F ∨ id < Config.numPhy) {s : State} (h : P s) :
    (wrapSetTestcode id code s).Spec P E F :=
  withPhy_spec hi fun hi => updW_spec hP (.testcode id) hi _ h

theorem wrapTestcodeSelOtherPhy_spec {id : Nat} {select : Bool} (hi : F ∨ id < Config.numPhy) {s : State} (h : P s) :
    (wrapTestcodeSelOtherPhy id select s).Spec P E F :=
  withPhy_spec hi fun hi => updW_spec hP (.selOther id) hi _ h

/-! ## IPI and protocol configurator -/

omit hP in
theorem withChannel_spec {α : Type} {ch : Nat} {body : State → Res α} {s : State} (hc : s.cfg = c) (he : E) (h : P s)
    (hb : ch < c.numInst - 1 → (body s).Spec P E F) : (withChannel ch body s).Spec P E F := by
  unfold withChannel
  rw [hc]
  split
  · exact ⟨he, h⟩
  · exact hb (by omega)

theorem ipiSetVcCfg_spec (hchoice : ∀ s n, P s → P (s.setChoice n)) {ch vcId : Nat} {embEn : Bool} {m : VcMode} (he : E)
    {s : State} (h : P s) : (ipiSetVcCfg ch vcId embEn m s).Spec P E F := by
  refine withChannel_spec (hP.cfg s h) he h fun hch => ?_
  have maybe : ∀ (f : PField) (_ : RegIn c f.reg) (n : Nat) {s : State}, P s → (maybeUpd (.p f) n s).Spec P E F := by
    intro f hf n s h
    unfold maybeUpd
    split
    · exact updP_spec hP f hf _ (hchoice _ _ h)
    · exact hchoice _ _ h
  split
  · refine (maybe (.vcid ch) (.inr hch) _ h).andThen fun _ _ h => ?_
    refine (maybe (.embEn ch) (.inr hch) _ h).andThen fun _ _ h => ?_
    exact ⟨he, h⟩
  · refine (updP_spec hP (.vcid ch) (.inr hch) _ h).andThen fun _ _ h => ?_
    refine (updP_spec hP (.embEn ch) (.inr hch) _ h).andThen fun _ _ h => ?_
    exact updP_spec hP (.ctrlMode ch) (.inr hch) _ h

theorem ipiSetVcCfgWord_spec (hchoice : ∀ s n, P s → P (s.setChoice n)) {ch vcId : Nat} {embEn : Bool} {vcMode : Nat}
    (he : E) {s : State} (h : P s) : (ipiSetVcCfgWord ch vcId embEn vcMode s).Spec P E F := by
  refine withChannel_spec (hP.cfg s h) he h fun _ => ?_
  split
  · exact ipiSetVcCfg_spec hP hchoice he h
  · exact ipiSetVcCfg_spec hP hchoice he (hchoice _ _ h)

omit hP in
theorem withTimingInputs_spec {α : Type} {body : Nat → Nat → State → Res α} {s : State}
    (ht : F ∨ ∃ lanes rate, TimingInputs s lanes rate) (hb : ∀ lanes rate, (body lanes rate s).Spec P E F) :
    (withTimingInputs body s).Spec P E F := by
  unfold withTimingInputs
  split
  · next lanes rate hl hr =>
    split
    · exact hb _ _
    · next hn =>
      refine ht.resolve_right ?_
      rintro ⟨l, r, h1, h2, h3, h4, h5, h6⟩
      rw [hl] at h1
      rw [hr] at h2
      cases h1
      cases h2
      exact hn ⟨h3, h4, h5, h6⟩
  · next hn =>
    refine ht.resolve_right ?_
    rintro ⟨l, r, h1, h2, -⟩
    exact hn _ _ h1 h2

omit hP in
theorem withFormat_spec {α : Type} {fmt : Nat} {body : Format → State → Res α} {s : State} (he : E) (h : P s)
    (hb : ∀ f, (body f s).Spec P E F) : (withFormat fmt body s).Spec P E F := by
  unfold withFormat
  split
  · exact hb _
  · exact ⟨he, h⟩

omit hP in
theorem timClassify_spec {fmt : Nat} (he : E) {s : State} (h : P s) : (timClassify fmt s).Spec P E F :=
  withFormat_spec he h fun _ => h

omit hP in
theorem timHsdLegacyOf_spec {f : Format} {width hsa hbp : Nat} {s : State}
    (ht : F ∨ ∃ lanes rate, TimingInputs s lanes rate) (h : P s) : (timHsdLegacyOf f width hsa hbp s).Spec P E F :=
  withTimingInputs_spec ht fun _ _ => h

omit hP in
theorem timHsdLegacy_spec {fmt width hsa hbp : Nat} (he : E) {s : State}
    (ht : F ∨ ∃ lanes rate, TimingInputs s lanes rate) (h : P s) : (timHsdLegacy fmt width hsa hbp s).Spec P E F :=
  withTimingInputs_spec ht fun _ _ => withFormat_spec he h fun _ => timHsdLegacyOf_spec ht h

omit hP in
theorem timCutThrough_spec {s : State} (ht : F ∨ ∃ lanes rate, TimingInputs s lanes rate) (h : P s) :
    (timCutThrough s).Spec P E F :=
  withTimingInputs_spec ht fun _ _ => h

omit hP in
theorem timPkt2pkt_spec {s : State} (ht : F ∨ ∃ lanes rate, TimingInputs s lanes rate) (h : P s) :
    (timPkt2pkt s).Spec P E F :=
  withTimingInputs_spec ht fun _ _ => h

theorem writeTiming_spec {ch : Nat} (hch : ch < c.numInst - 1) (t : Timing) {s : State} (h : P s) :
    (writeTiming ch t s).Spec P E F := by
  refine (updP_spec hP (.hsa ch) (.inr hch) _ h).andThen fun _ _ h => ?_
  refine (updP_spec hP (.hbp ch) (.inr hch) _ h).andThen fun _ _ h => ?_
  exact updP_spec hP (.hsd ch) (.inr hch) _ h

/-- IPI_INIT; `b` is whether the test-pattern generator is active, which the property must fix where a fault is excluded. -/
theorem ipiInit_spec (b : Bool) (hb : ∀ s, P s → F ∨ s.inst.tpgEnabled = b) (htpg : ∀ s vc (dt : BitVec 6), P s → P (s.setInst { s.inst with tpgVc := vc, tpgDt := dt.toNat }))
    (hin : ∀ s, P s → F ∨ InitInputs s) {ch width height fmt : Nat} {cut : Bool} {adv : Word} (he : E) {s : State}
    (h : P s) : (ipiInit ch width height fmt cut adv s).Spec P E F := by
  refine withChannel_spec (hP.cfg s h) he h fun hch => ?_
  refine withFormat_spec he h fun f => ?_
  generalize he1 : effectiveFormat s f = eff
  generalize he2 : s.cfg = c₀
  have hreg : ∀ r, RegIn c (.ipi ch r) := fun r => .inr hch
  refine (updP_spec hP (.dt ch) (hreg _) _ h).andThen fun _ _ h => ?_
  refine (updP_spec hP (.autoFlush ch) (hreg _) _ h).andThen fun _ _ h => ?_
  refine (updP_spec hP (.color16 ch) (hreg _) _ h).andThen fun _ _ h => ?_
  refine (updP_spec hP (.cutThrough ch) (hreg _) _ h).andThen fun _ s h => ?_
  refine Res.Spec.andThen ?_ fun t _ h => ?_
  · unfold initTiming
    split
    · exact h
    · next hn =>
      have ht : F ∨ ∃ lanes rate, TimingInputs s lanes rate :=
        (hin s h).imp id fun hi => hi.resolve_right fun hi => hn hi.1
      split
      · exact timCutThrough_spec ht h
      · exact timHsdLegacyOf_spec ht h
  refine (writeTiming_spec hP hch t h).andThen fun _ s hs => ?_
  refine Res.Spec.andThen ?_ fun _ _ h => ?_
  · split
    · next hen =>
      refine (rdP_spec hP (.ipi ch .vcid) (hreg _) hs).andThen fun v s h => ?_
      have h := htpg s (getField v (fieldPos s.cfg (.vcid ch))) (classOf c₀ eff).dt h
      refine (updP_spec hP .tpgHorizontal trivial _ h).andThen fun _ _ h => ?_
      refine (updP_spec hP .tpgVc trivial _ h).andThen fun _ _ h => ?_
      refine (updP_spec hP .tpgDt trivial _ h).andThen fun _ s h => ?_
      refine Res.Spec.andThen ?_ fun p _ h => updP_spec hP .pkt2pkt trivial _ h
      unfold pkt2pktTime
      split
      · exact h
      · next hz =>
        refine timPkt2pkt_spec ?_ h
        rcases hin _ h with hf | ht | ⟨-, h1 | h2⟩
        · exact .inl hf
        · exact .inr ht
        · have h0 := hb _ hs
          rcases hb _ h with hf | hb
          · exact .inl hf
          · exact h0.imp id fun h0 => by rw [h1, ← h0, hen] at hb; cases hb
        · exact absurd h2 hz
    · exact hs
  refine (wrP_spec hP (.ipi ch .advFeatures) (hreg _) _ h).andThen fun _ _ h => ?_
  refine (softResetPulse_spec hP.toAccInv hP.tick ch h).mayErr.andThen fun _ _ h => ?_
  exact hP.phase _ _ _ hch h

theorem switchOptional_spec (n : Nat) {s : State} (h : P s) : (switchOptional n s).Spec P E F := by
  unfold switchOptional
  refine Res.Spec.andThen ?_ fun _ _ h => ?_
  · split
    · exact updP_spec hP .tpgEn trivial _ h
    · exact h
  · split
    · exact updP_spec hP .bypassEn trivial _ h
    · exact h

theorem ipiStart_spec {ch : Nat} (he : E) {s : State} (h : P s) : (ipiStart ch s).Spec P E F := by
  refine withChannel_spec (hP.cfg s h) he h fun hch => ?_
  refine (updP_spec hP (.enable ch) (.inr hch) _ h).andThen fun _ _ h => ?_
  refine (switchOptional_spec hP 1 h).andThen fun _ _ h => ?_
  exact hP.phase _ _ _ hch h

theorem ipiStop_spec {ch : Nat} (he : E) {s : State} (h : P s) : (ipiStop ch s).Spec P E F := by
  refine withChannel_spec (hP.cfg s h) he h fun hch => ?_
  refine (updP_spec hP (.enable ch) (.inr hch) _ h).andThen fun _ _ h => ?_
  refine (switchOptional_spec hP 0 h).andThen fun _ _ h => ?_
  refine (updP_spec hP .resetn trivial _ h).andThen fun _ _ h => ?_
  exact hP.phase _ _ _ hch h

theorem ipiResetAndDown_spec {ch : Nat} {enable : Bool} (he : E) {s : State} (h : P s) :
    (ipiResetAndDown ch enable s).Spec P E F := by
  refine withChannel_spec (hP.cfg s h) he h fun hch => ?_
  split
  · refine (updP_spec hP (.softrstn ch) trivial _ h).andThen fun _ _ h => ?_
    refine (updP_spec hP (.enable ch) (.inr hch) _ h).andThen fun _ _ h => ?_
    exact hP.phase _ _ _ hch h
  · refine (updP_spec hP (.enable ch) (.inr hch) _ h).andThen fun _ _ h => ?_
    refine (updP_spec hP (.softrstn ch) trivial _ h).andThen fun _ _ h => ?_
    exact hP.phase _ _ _ hch h

theorem ipiOverflowReset_spec {ch : Nat} (he : E) {s : State} (h : P s) :
    (overflowReset ch s).Spec P E F := by
  by_cases hch : ch < c.numInst - 1
  · exact (overflowResetWith_spec hP.toAccInv hP.tick
      (fun _ h => softResetPulse_spec hP.toAccInv hP.tick _ h) hch h).mayErr
  · unfold overflowReset overflowResetWith withChannel
    rw [hP.cfg s h, if_pos (by omega)]
    exact ⟨he, h⟩

theorem dumpEntries_spec {ch : Nat} (hch : ch < c.numInst - 1) {mask : BitVec 8} (l : List Nat) {s : State} (h : P s) :
    (dumpEntries ch mask l s).Spec P E F := by
  induction l generalizing s with
  | nil => exact h
  | cons i l ih =>
    refine Res.Spec.andThen ?_ fun _ _ h => (ih h).mapValue
    unfold dumpEntry
    split
    · split
      · exact (rdP_spec hP _ (regIn_dump hch i) h).mapValue
      · split
        · next k hk =>
          refine (rdP_spec hP (.intSt k) (.inr ?_) h).mapValue
          rw [← hP.cfg s h]
          exact List.mem_of_getElem? hk
        · exact h
    · exact h

theorem ipiRegDump_spec {ch : Nat} {mask : BitVec 8} (he : E) {s : State} (h : P s) :
    (ipiRegDump ch mask s).Spec P E F :=
  withChannel_spec (hP.cfg s h) he h fun hch => dumpEntries_spec hP hch _ h

theorem ipiRegSet_spec {ch : Nat} {mask : BitVec 8} {vals : List Word} (he : E) {s : State} (h : P s) :
    (ipiRegSet ch mask vals s).Spec P E F := by
  refine withChannel_spec (hP.cfg s h) he h fun hch => forEach_spec h fun i _ s h => ?_
  split
  · exact wrP_spec hP _ (regIn_dump hch i) _ h
  · exact h

/-! ## Interrupt dispatcher -/

theorem irqEnable_spec {s : State} (h : P s) : (irqEnable s).Spec P E F :=
  forEach_spec h fun k hk _ h => wrP_spec hP (.intMsk k) (List.mem_range.mp hk) _ h

theorem irqDisable_spec {s : State} (h : P s) : (irqDisable s).Spec P E F :=
  forEach_spec h fun k hk _ h => wrP_spec hP (.intMsk k) (List.mem_range.mp hk) _ h

theorem irqDisableByMask_spec {bitmask : Nat} {s : State} (h : P s) : (irqDisableByMask bitmask s).Spec P E F := by
  refine (forEach_spec h fun k hk s h => ?_).mapValue
  split
  · exact wrP_spec hP (.intMsk k) (List.mem_range.mp hk) _ h
  · exact h

/-! ## D-PHY sequencer -/

theorem pollStop_spec (he : E) (fuel n : Nat) {s : State} (h : P s) : (pollStop fuel n s).Spec P E F := by
  induction fuel generalizing s with
  | zero => exact ⟨he, h⟩
  | succ fuel ih =>
    refine (rdP_spec hP .phyStopstate trivial h).andThen fun v s h => ?_
    split
    · exact h
    · exact ih h

omit hP in
theorem blocking_spec {α : Type} {body : State → Res α} {s : State} (hc : F ∨ s.ctx = .config)
    (hb : (body s).Spec P E F) : (blocking body s).Spec P E F := by
  unfold blocking
  split
  · next hi => exact hc.resolve_right (by simp [hi])
  · exact hb

theorem dphyWaitStopstate_spec (hctx : ∀ s, P s → F ∨ s.ctx = .config) {n : Nat} (hn : F ∨ (1 ≤ n ∧ n ≤ 4)) (he : E)
    {s : State} (h : P s) : (dphyWaitStopstate n s).Spec P E F :=
  blocking_spec (hctx s h) (withLanes_spec hn (pollStop_spec hP he _ _ h))

section
variable (hdphy : ∀ s v, P s → P (s.setDphy v))
include hdphy

theorem dphyReset_spec {s : State} (h : P s) : (dphyReset s).Spec P E F := by
  refine (updP_spec hP .rstz trivial _ h).andThen fun _ _ h => ?_
  refine (updP_spec hP .shutdownz trivial _ h).andThen fun _ _ h => ?_
  refine (updP_spec hP .physhut trivial _ h).andThen fun _ _ h => ?_
  exact hdphy _ _ h

variable (hctx : ∀ s, P s → F ∨ s.ctx = .config) (he : E)
include hctx he

theorem waitOrTimeout_spec {n : Nat} (hn : F ∨ (1 ≤ n ∧ n ≤ 4)) {s : State} (h : P s) :
    (waitOrTimeout n s).Spec P E F :=
  (dphyWaitStopstate_spec hP hctx hn he h).onErr fun _ _ he h => ⟨he, hdphy _ _ h⟩

theorem dphyPowerupStd_spec {id lanes rate : Nat} (hi : F ∨ id < Config.numPhy) (hn : F ∨ (1 ≤ lanes ∧ lanes ≤ 4))
    {s : State} (h : P s) : (dphyPowerupStd id lanes rate s).Spec P E F := by
  refine blocking_spec (hctx s h) (withPhy_spec hi fun hi => withLanes_spec hn ?_)
  refine (updP_spec hP .rstz trivial _ (hdphy _ _ h)).andThen fun _ _ h => ?_
  refine (updP_spec hP .shutdownz trivial _ h).andThen fun _ _ h => ?_
  refine Res.Spec.andThen ((wrapSetHsfreqrange_spec hP (.inr hi) he h).onErr fun _ _ he h => ⟨he, hdphy _ _ h⟩)
    fun _ _ h => ?_
  refine (wrapEnableClock_spec hP (.inr hi) h).andThen fun _ _ h => ?_
  refine (updP_spec hP .rstz trivial _ h).andThen fun _ _ h => ?_
  refine (updP_spec hP .shutdownz trivial _ h).andThen fun _ _ h => ?_
  refine (waitOrTimeout_spec hP hdphy hctx he hn (hdphy _ _ h)).andThen fun _ _ h => ?_
  exact hdphy _ _ h

omit hdphy hctx he

theorem dphyTestWrite_spec (htest : ∀ s phy code data, phy < Config.numPhy → P s → P (storeTest phy code data s))
    {id code data : Nat} {other : Bool} (hi : F ∨ id < Config.numPhy) {s : State} (h : P s) :
    (dphyTestWrite id other code data s).Spec P E F := by
  by_cases hid : id < Config.numPhy
  · refine (wrapTestcodeSelOtherPhy_spec hP (.inr hid) h).andThen fun _ _ h => ?_
    refine (wrapSetTestcode_spec hP (.inr hid) h).andThen fun _ s h => ?_
    refine (hP.tick s h).mayErr.andThen fun _ _ h => ?_
    refine htest _ _ _ _ ?_ h
    split
    · exact mateOf_lt hid
    · exact hid
  · unfold dphyTestWrite wrapTestcodeSelOtherPhy withPhy
    rw [if_neg hid]
    exact hi.resolve_right hid

include hdphy hctx he

theorem dphyPowerupMerged_spec
    (htest : ∀ s phy code data, phy < Config.numPhy → P s → P (storeTest phy code data s))
    {id lanes rate : Nat} (hi : F ∨ id < Config.numPhy) (hn : F ∨ (1 ≤ lanes ∧ lanes ≤ 4)) {s : State} (h : P s) :
    (dphyPowerupMerged id lanes rate s).Spec P E F := by
  refine blocking_spec (hctx s h) (withPhy_spec hi fun hi => withLanes_spec hn ?_)
  have both : ∀ (f : PField) (n : Nat) {s : State}, RegIn c f.reg → P s → (updBoth f n s).Spec P E F := fun f n _ hf h =>
    (updP_spec hP f hf n h).andThen fun _ _ h => updX_spec hP f hf n h
  have hm := majorOf_lt hi
  refine Res.Spec.andThen ?_ fun _ _ h => ?_
  · unfold mergeGuard
    split
    · refine (wrapGetLaneMode_spec hP (.inr hi) h).andThen fun _ _ h => ?_
      split
      · exact ⟨he, h⟩
      · exact h
    · exact h
  refine (wrapSetLaneMode_spec hP (.inr hi) (hdphy _ _ h)).andThen fun _ _ h => ?_
  refine (both .rstz 0 trivial h).andThen fun _ _ h => ?_
  refine (both .shutdownz 0 trivial h).andThen fun _ _ h => ?_
  refine Res.Spec.andThen ((wrapSetHsfreqrange_spec hP (.inr (by omega)) he h).onErr fun _ _ he h => ⟨he, hdphy _ _ h⟩)
    fun _ _ h => ?_
  refine (wrapSetHsfreqrange_spec hP (.inr hm) he h).andThen fun _ s h => ?_
  refine (forEach_spec h fun m _ s h => dphyTestWrite_spec hP htest (.inr hi) h).andThen fun _ _ h => ?_
  refine (both .rstz 1 trivial h).andThen fun _ _ h => ?_
  refine (both .shutdownz 1 trivial h).andThen fun _ _ h => ?_
  refine (waitOrTimeout_spec hP hdphy hctx he (.inr (by omega)) (hdphy _ _ h)).andThen fun _ _ h => ?_
  refine (waitOrTimeout_spec hP hdphy hctx he (.inr (by omega)) h).andThen fun _ _ h => ?_
  exact hdphy _ _ h

theorem dphyPowerup_spec (htest : ∀ s phy code data, phy < Config.numPhy → P s → P (storeTest phy code data s))
    {s : State} (h : P s)
    (hin : F ∨ (s.inst.id < Config.numPhy ∧ (∃ r, s.inst.laneRate = some r) ∧ ∃ n, s.inst.lanes = some n ∧ 1 ≤ n ∧ n ≤ 4)) :
    (dphyPowerup s).Spec P E F := by
  refine blocking_spec (hctx s h) ?_
  split
  · next lanes rate hl hr =>
    have hi : F ∨ s.inst.id < Config.numPhy := hin.imp id fun h => h.1
    have hn : F ∨ (1 ≤ lanes ∧ lanes ≤ 4) := hin.imp id fun h => by
      obtain ⟨-, -, n, h1, h2⟩ := h
      rw [hl] at h1
      cases h1
      exact h2
    split
    · exact dphyPowerupMerged_spec hP hdphy hctx he htest hi hn h
    · exact dphyPowerupStd_spec hP hdphy hctx he hi hn h
  · next hno =>
    refine hin.resolve_right ?_
    rintro ⟨-, ⟨r, hr⟩, n, hl, -⟩
    exact hno _ _ hl hr

end

/-! ## Commands -/

theorem cmdSetVcCfg_spec (hchoice : ∀ s n, P s → P (s.setChoice n)) {ch vcId mode : Nat} {embEn : Bool} (he : E)
    {s : State} (h : P s) : (cmdSetVcCfg ch vcId embEn mode s).Spec P E F := by
  unfold cmdSetVcCfg
  split
  · exact ipiSetVcCfg_spec hP hchoice he h
  · exact ⟨he, h⟩

theorem cmdSetLanes_spec {lanes : Nat} (he : E) {s : State} (h : P s)
    (hi : 1 ≤ lanes → lanes ≤ 4 → P (s.setInst { s.inst with lanes := some lanes })) :
    (cmdSetLanes lanes s).Spec P E F := by
  unfold cmdSetLanes
  split
  · exact ⟨he, h⟩
  · exact updP_spec hP .nLanes trivial _ (hi (by omega) (by omega))

theorem cmdSetLaneRate_spec (hdphy : ∀ s v, P s → P (s.setDphy v)) (hctx : ∀ s, P s → F ∨ s.ctx = .config) (he : E)
    (htest : ∀ s phy code data, phy < Config.numPhy → P s → P (storeTest phy code data s)) {rate : Nat} {s : State}
    (h : P s) (hi : 0 < rate → P (s.setInst { s.inst with laneRate := some rate }))
    (hin : F ∨ (s.inst.id < Config.numPhy ∧ ∀ n, s.inst.lanes = some n → 1 ≤ n ∧ n ≤ 4)) :
    (cmdSetLaneRate rate s).Spec P E F := by
  unfold cmdSetLaneRate
  split
  · exact ⟨he, h⟩
  · split
    · exact ⟨he, h⟩
    · next hr hl =>
      refine dphyPowerup_spec hP hdphy hctx he htest (hi (by omega)) (hin.imp id fun h => ⟨h.1, ⟨rate, rfl⟩, ?_⟩)
      cases hn : s.inst.lanes with
      | none => exact absurd hn hl
      | some n => exact ⟨n, hn, h.2 n hn⟩

theorem cmdSetState_spec {ch : Nat} {start : Bool} (he : E) {s : State} (h : P s) :
    (cmdSetState ch start s).Spec P E F := by
  unfold cmdSetState
  split
  · exact ipiStart_spec hP he h
  · exact ipiStop_spec hP he h

theorem cmdResetControl_spec {s : State} (h : P s) : (cmdResetControl s).Spec P E F :=
  (updP_spec hP .resetn trivial _ h).andThen fun _ _ h => updP_spec hP .resetn trivial _ h

/-! ## Power hooks -/

omit hP in
theorem setClock_keeps (hclk : ∀ s v, P s → P (s.setClk v)) (l : List Clk) (v : ClkState) {s : State} (h : P s) :
    P (l.foldl (fun s d => setClock d v s) s) := by
  induction l generalizing s with
  | nil => exact h
  | cons d l ih => exact ih (hclk _ _ h)

omit hP in
theorem enableClocks_spec (hclk : ∀ s v, P s → P (s.setClk v)) (he : E) (l done : List Clk) {s : State} (h : P s) :
    (enableClocks l done s).Spec P E F := by
  induction l generalizing done s with
  | nil => exact h
  | cons d l ih =>
    unfold enableClocks
    split
    · exact ih _ h
    · exact ih _ h
    · split
      · exact ih _ (hclk _ _ h)
      · exact ⟨he, setClock_keeps hclk _ _ h⟩

omit hP in
theorem pwrResume_spec (hclk : ∀ s v, P s → P (s.setClk v)) (hon : ∀ s, P s → P (powerOn s)) (he : E) {s : State}
    (h : P s) : (pwrResume s).Spec P E F := by
  refine (enableClocks_spec hclk he _ _ h).andThen fun _ s h => ?_
  show P _
  split
  · exact hon _ h
  · exact h

omit hP in
theorem disableClocks_keeps (hclk : ∀ s v, P s → P (s.setClk v)) {s : State} (h : P s) : P (disableClocks s) := by
  unfold disableClocks
  generalize disableOrder = l
  induction l generalizing s with
  | nil => exact h
  | cons d l ih =>
    rw [List.foldl_cons]
    refine ih ?_
    split
    · exact h
    · exact hclk _ _ h

omit hP in
theorem pwrSuspend_spec (hclk : ∀ s v, P s → P (s.setClk v)) (hlost : ∀ s, P s → P (powerLost s)) {s : State} (h : P s) :
    (pwrSuspend s).Spec P E F := by
  show P _
  split
  · exact hlost _ (disableClocks_keeps hclk h)
  · exact disableClocks_keeps hclk h

end

end Sys2Proof.Machine
end

