-- ==== Sys2Proof/Laws/Exec.lean ====
section
/-! SUPPORT. What every instruction can do, in one lemma (`exec_spec`): it keeps each property that its accesses and its own
updates keep, ends in `Err` only where R304 of 60_exceptions.md lets it, and faults only outside its domain. -/

namespace Sys2Proof.Machine

/-- The body of an instruction that runs as a configuration operation. IRQ_HANDLE is none: see `exec_eq_body`. -/
def bodyOf : Instr → State → Res Value
  | .cmdSetVcCfg ch v e m => fun s => if s.inst.isNative then .ok .unit s else okUnit (cmdSetVcCfg ch v e m s)
  | .cmdSetLanes _ n => fun s => if s.inst.isNative then .ok .unit s else okUnit (cmdSetLanes n s)
  | .cmdSetLaneRate _ r => fun s => if s.inst.isNative then .ok .unit s else okUnit (cmdSetLaneRate r s)
  | .cmdSetTpgMode _ e p => fun s => if s.inst.isNative then .ok .unit s else okUnit (cmdSetTpgMode e p s)
  | .cmdSetBypass _ b => fun s => if s.inst.isNative then .ok .unit s else okUnit (cmdSetBypass b s)
  | .cmdSetFormat ch w h f => fun s => if s.inst.isNative then .ok .unit s else okUnit (cmdSetFormat ch w h f s)
  | .cmdSetState ch b => fun s => if s.inst.isNative then .ok .unit s else okUnit (cmdSetState ch b s)
  | .cmdResetControl _ => fun s => if s.inst.isNative then .ok .unit s else okUnit (cmdResetControl s)
  | .regRead o => memRead .p o
  | .regWrite o v => memWrite .p o v
  | .regReadExt o => memRead .x o
  | .regWriteExt o v => memWrite .x o v
  | .wrapEnableClock id => fun s => okUnit (wrapEnableClock id s)
  | .wrapForceRxMode id n f => fun s => okUnit (wrapForceRxMode id n f s)
  | .wrapGetLaneMode id => fun s => (wrapGetLaneMode id s).mapValue .bool
  | .wrapSetLaneMode id m => fun s => okUnit (wrapSetLaneMode id m s)
  | .wrapSetHsfreqrange id r => fun s => okUnit (wrapSetHsfreqrange id r s)
  | .wrapEnablePpipgClk e => fun s => okUnit (wrapEnablePpipgClk e s)
  | .wrapSetTestcode id k => fun s => okUnit (wrapSetTestcode id k s)
  | .wrapTestcodeSelOtherPhy id b => fun s => okUnit (wrapTestcodeSelOtherPhy id b s)
  | .dphyReset => fun s => okUnit (dphyReset s)
  | .dphyPowerup => fun s => okUnit (dphyPowerup s)
  | .dphyPowerupStd id n r => fun s => okUnit (dphyPowerupStd id n r s)
  | .dphyPowerupMerged id n r => fun s => okUnit (dphyPowerupMerged id n r s)
  | .dphyTestWrite id o k d => fun s => okUnit (dphyTestWrite id o k d s)
  | .dphyWaitStopstate n => fun s => okUnit (dphyWaitStopstate n s)
  | .timClassify f => fun s => (timClassify f s).mapValue .format
  | .timHsdLegacy f w a b => fun s => (timHsdLegacy f w a b s).mapValue .timing
  | .timCutThrough => fun s => (timCutThrough s).mapValue .timing
  | .timPkt2pkt => fun s => (timPkt2pkt s).mapValue .nat
  | .ipiSetVcCfg ch v e m => fun s => okUnit (ipiSetVcCfgWord ch v e m s)
  | .ipiInit ch w h f k a => fun s => okUnit (ipiInit ch w h f k a s)
  | .ipiStart ch => fun s => okUnit (ipiStart ch s)
  | .ipiStop ch => fun s => okUnit (ipiStop ch s)
  | .ipiResetAndDown ch e => fun s => okUnit (ipiResetAndDown ch e s)
  | .ipiOverflowReset ch => fun s => okUnit (overflowReset ch s)
  | .ipiRegDump ch m => fun s => (ipiRegDump ch m s).mapValue .dump
  | .ipiRegSet ch m v0 v1 v2 v3 v4 v5 v6 v7 => fun s => okUnit (ipiRegSet ch m [v0, v1, v2, v3, v4, v5, v6, v7] s)
  | .irqEnable => fun s => okUnit (irqEnable s)
  | .irqDisable => fun s => okUnit (irqDisable s)
  | .irqDisableByMask m => fun s => (irqDisableByMask m s).mapValue .bool
  | .irqHandle => fun s => okUnit (takeInterrupt s)
  | .pwrResume => fun s => okUnit (pwrResume s)
  | .pwrSuspend => fun s => okUnit (pwrSuspend s)

theorem exec_eq_body (i : Instr) (s : State) :
    exec i s = if i = .irqHandle then
      (if s.ctx = .interrupt then .fault .preconditionViolated else finish (bodyOf i s))
    else runConfig (bodyOf i) s := by
  cases i <;> rfl

/-- The instructions that write `dphy_state` (46_commands.md R286), the power hooks apart. -/
def writesDphy : Instr → Prop
  | .dphyReset => True
  | .dphyPowerup => True
  | .dphyPowerupStd .. => True
  | .dphyPowerupMerged .. => True
  | .cmdSetLaneRate .. => True
  | _ => False

/-- The instructions that write the attributes `tpg.vc` and `tpg.dt` (46_commands.md R286). -/
def setsFormat : Instr → Prop
  | .ipiInit .. => True
  | .cmdSetFormat .. => True
  | _ => False

/-- What a property must survive, beyond accesses, for instruction `i` to keep it. -/
structure Updates (i : Instr) (c : Cfg) (M : EnvMove → Prop) (E F : Prop) (P : State → Prop) : Prop extends OpInv c M F P where
  take : ∀ s, i = .irqHandle → P s → (takeInterrupt s).Spec P False F
  ctx : ∀ s, P s → F ∨ s.ctx = .config
  err : neverErrs i = false → E
  dom : ∀ s, P s → F ∨ InDomain s i
  attrs : ∀ s, P s → F ∨ (s.inst.id < Config.numPhy ∧ ∀ n, s.inst.lanes = some n → 1 ≤ n ∧ n ≤ 4)
  generator : setsFormat i → ∃ b, ∀ s, P s → F ∨ s.inst.tpgEnabled = b
  choice : ∀ s n, P s → P (s.setChoice n)
  test : ∀ s phy code data, phy < Config.numPhy → P s → P (storeTest phy code data s)
  dphy : writesDphy i → ∀ s v, P s → P (s.setDphy v)
  format : setsFormat i → ∀ s vc (dt : BitVec 6), P s → P (s.setInst { s.inst with tpgVc := vc, tpgDt := dt.toNat })
  lanes : ∀ a n, i = .cmdSetLanes a n → 1 ≤ n → n ≤ 4 → ∀ s, P s → P (s.setInst { s.inst with lanes := some n })
  laneRate : ∀ a r, i = .cmdSetLaneRate a r → 0 < r → ∀ s, P s → P (s.setInst { s.inst with laneRate := some r })
  tpgMode : ∀ a e p, i = .cmdSetTpgMode a e p →
    ∀ s, P s → P (s.setInst { s.inst with tpgEnabled := e, tpgPkt2pkt := p })
  bypass : ∀ a b, i = .cmdSetBypass a b → ∀ s, P s → P (s.setInst { s.inst with bypass := b })
  clocks : i = .pwrResume ∨ i = .pwrSuspend → ∀ s v, P s → P (s.setClk v)
  powerOn : i = .pwrResume → ∀ s, P s → P (powerOn s)
  powerLost : i = .pwrSuspend → ∀ s, P s → P (powerLost s)

/-- A command on a native instance does nothing (46_commands.md R270). -/
theorem native_spec {P : State → Prop} {E F : Prop} {s : State} {r : Res Unit} (h : P s) (hr : r.Spec P E F) :
    (if s.inst.isNative then .ok .unit s else okUnit r : Res Value).Spec P E F := by
  split
  · exact h
  · exact hr.okUnit

/-- What an instruction can do. -/
theorem exec_spec {i : Instr} {c : Cfg} {M : EnvMove → Prop} {E F : Prop} {P : State → Prop} (u : Updates i c M E F P) {s : State} (h : P s) :
    (bodyOf i s).Spec P E F := by
  have hP := u.toOpInv
  have dom := u.dom s h
  have hc := hP.cfg s h
  cases i with
  | cmdSetVcCfg => exact native_spec h (cmdSetVcCfg_spec hP u.choice (u.err rfl) h)
  | cmdSetLanes a n =>
    exact native_spec h (cmdSetLanes_spec hP (u.err rfl) h fun h1 h4 => u.lanes a n rfl h1 h4 s h)
  | cmdSetLaneRate a r =>
    exact native_spec h (cmdSetLaneRate_spec hP (u.dphy trivial) u.ctx (u.err rfl) u.test h
      (fun hr => u.laneRate a r rfl hr s h) (u.attrs s h))
  | cmdSetTpgMode a e p => exact native_spec h (u.tpgMode a e p rfl s h)
  | cmdSetBypass a e => exact native_spec h (u.bypass a e rfl s h)
  | cmdSetFormat =>
    obtain ⟨b, hb⟩ := u.generator trivial
    exact native_spec h (ipiInit_spec hP b hb (u.format trivial) (fun s h => u.dom s h) (u.err rfl) h)
  | cmdSetState => exact native_spec h (cmdSetState_spec hP (u.err rfl) h)
  | cmdResetControl => exact native_spec h (cmdResetControl_spec hP h)
  | regRead => exact memRead_p_spec hP (hc ▸ dom) h
  | regWrite => exact memWrite_p_spec hP (hc ▸ dom) h
  | regReadExt => exact memRead_x_spec hP (hc ▸ dom) h
  | regWriteExt => exact memWrite_x_spec hP (hc ▸ dom) h
  | wrapEnableClock => exact (wrapEnableClock_spec hP dom h).okUnit
  | wrapForceRxMode => exact (wrapForceRxMode_spec hP (dom.imp id And.left) (dom.imp id And.right) h).okUnit
  | wrapGetLaneMode => exact (wrapGetLaneMode_spec hP dom h).mapValue
  | wrapSetLaneMode => exact (wrapSetLaneMode_spec hP dom h).okUnit
  | wrapSetHsfreqrange => exact (wrapSetHsfreqrange_spec hP dom (u.err rfl) h).okUnit
  | wrapEnablePpipgClk => exact (wrapEnablePpipgClk_spec hP h).okUnit
  | wrapSetTestcode => exact (wrapSetTestcode_spec hP dom h).okUnit
  | wrapTestcodeSelOtherPhy => exact (wrapTestcodeSelOtherPhy_spec hP dom h).okUnit
  | dphyReset => exact (dphyReset_spec hP (u.dphy trivial) h).okUnit
  | dphyPowerup =>
    refine (dphyPowerup_spec hP (u.dphy trivial) u.ctx (u.err rfl) u.test h ?_).okUnit
    rcases dom with hf | ⟨⟨n, hn⟩, hr⟩
    · exact .inl hf
    · exact (u.attrs s h).imp id fun ha => ⟨ha.1, hr, n, hn, ha.2 n hn⟩
  | dphyPowerupStd =>
    exact (dphyPowerupStd_spec hP (u.dphy trivial) u.ctx (u.err rfl) (dom.imp id And.left) (dom.imp id And.right) h).okUnit
  | dphyPowerupMerged =>
    exact (dphyPowerupMerged_spec hP (u.dphy trivial) u.ctx (u.err rfl) u.test (dom.imp id And.left)
      (dom.imp id And.right) h).okUnit
  | dphyTestWrite => exact (dphyTestWrite_spec hP u.test dom h).okUnit
  | dphyWaitStopstate => exact (dphyWaitStopstate_spec hP u.ctx dom (u.err rfl) h).okUnit
  | timClassify => exact (timClassify_spec (u.err rfl) h).mapValue
  | timHsdLegacy => exact (timHsdLegacy_spec (u.err rfl) dom h).mapValue
  | timCutThrough => exact (timCutThrough_spec dom h).mapValue
  | timPkt2pkt => exact (timPkt2pkt_spec dom h).mapValue
  | ipiSetVcCfg => exact (ipiSetVcCfgWord_spec hP u.choice (u.err rfl) h).okUnit
  | ipiInit =>
    obtain ⟨b, hb⟩ := u.generator trivial
    exact (ipiInit_spec hP b hb (u.format trivial) (fun s h => u.dom s h) (u.err rfl) h).okUnit
  | ipiStart => exact (ipiStart_spec hP (u.err rfl) h).okUnit
  | ipiStop => exact (ipiStop_spec hP (u.err rfl) h).okUnit
  | ipiResetAndDown => exact (ipiResetAndDown_spec hP (u.err rfl) h).okUnit
  | ipiOverflowReset => exact (ipiOverflowReset_spec hP (u.err rfl) h).okUnit
  | ipiRegDump => exact (ipiRegDump_spec hP (u.err rfl) h).mapValue
  | ipiRegSet => exact (ipiRegSet_spec hP (u.err rfl) h).okUnit
  | irqEnable => exact (irqEnable_spec hP h).okUnit
  | irqDisable => exact (irqDisable_spec hP h).okUnit
  | irqDisableByMask => exact (irqDisableByMask_spec hP h).mapValue
  | irqHandle => exact (u.take s rfl h).mayErr.okUnit
  | pwrResume => exact (pwrResume_spec (u.clocks (.inl rfl)) (u.powerOn rfl) (u.err rfl) h).okUnit
  | pwrSuspend => exact (pwrSuspend_spec (u.clocks (.inr rfl)) (u.powerLost rfl) h).okUnit

end Sys2Proof.Machine
end

