-- ==== Sys2Proof/Laws/Run.lean ====
section
/-! SUPPORT. Undisturbed operations evaluate: in a state where nothing disturbs an access (`Open`), each access and field
update has its one outcome, which `simp` computes; then the operations built of them. -/

namespace Sys2Proof.Machine

/-- No other agent acts, and every window can be accessed. -/
def Open (s : State) : Prop := s.env = [] ∧ Powered s

theorem Ready.isOpen {s : State} (h : Ready s) : Open s := ⟨h.quiet, h.powered⟩

theorem Open.access {s : State} (h : Open s) (l : Loc) : accessible s l = true := by
  obtain ⟨_, hc, hp, hx, hw⟩ := h
  cases l <;> simp [accessible, *]

theorem Open.congr {s s' : State} (he : s'.env = s.env) (hi : s'.inst.baseP = s.inst.baseP)
    (hx : s'.inst.baseX = s.inst.baseX) (hw : s'.inst.baseW = s.inst.baseW) (hc : s'.clk = s.clk) :
    Open s' ↔ Open s := by
  unfold Open Powered
  rw [he, hi, hx, hw, hc]

section
variable (s : State)
@[simp] theorem open_setInFlight (v) : Open (s.setInFlight v) ↔ Open s := Iff.rfl
@[simp] theorem open_setTrace (v) : Open (s.setTrace v) ↔ Open s := Iff.rfl
@[simp] theorem open_setDphy (v) : Open (s.setDphy v) ↔ Open s := Iff.rfl
@[simp] theorem open_setChoice (v) : Open (s.setChoice v) ↔ Open s := Iff.rfl
@[simp] theorem open_setCtx (v) : Open (s.setCtx v) ↔ Open s := Iff.rfl
@[simp] theorem open_setEvents (v) : Open (s.setEvents v) ↔ Open s := Iff.rfl
@[simp] theorem open_setPhase (ch v) : Open (setPhase ch v s) ↔ Open s := Iff.rfl
@[simp] theorem open_storeTest (p c d) : Open (storeTest p c d s) ↔ Open s := Iff.rfl
@[simp] theorem open_delay (n) : Open (delay n s) ↔ Open s := Iff.rfl
@[simp] theorem open_updState (f n) : Open (updState s f n) ↔ Open s :=
  Open.congr (by simp) (by simp) (by simp) (by simp) (by simp)
@[simp] theorem open_readState (l) : Open (readState s l) ↔ Open s :=
  Open.congr (by simp [readState, logAccess]) (by simp [readState, logAccess]) (by simp [readState, logAccess])
    (by simp [readState, logAccess]) (by simp [readState, logAccess])
@[simp] theorem open_wroteState (l v) : Open (wroteState s l v) ↔ Open s :=
  Open.congr (by simp [wroteState, logAccess]) (by simp [wroteState, logAccess]) (by simp [wroteState, logAccess])
    (by simp [wroteState, logAccess]) (by simp [wroteState, logAccess])
end

@[simp] theorem upd_open {s : State} (h : Open s) (f : Field) (n : Nat) : upd f n s = .ok () (updState s f n) :=
  upd_quiet h.1 (h.access _)

@[simp] theorem rd_open {s : State} (h : Open s) (l : Loc) : rd l s = .ok (valueAt s l) (readState s l) :=
  rd_quiet h.1 (h.access _)

@[simp] theorem wr_open {s : State} (h : Open s) (l : Loc) (v : Word) : wr l v s = .ok () (wroteState s l v) :=
  wr_quiet h.1 (h.access _)

@[simp] theorem updateVia_config_open {s : State} (h : Open s) (f : Field) (n : Nat) :
    updateVia configTick f n s = .ok () (updState s f n) := upd_open h f n
@[simp] theorem updateVia_interrupt_open {s : State} (h : Open s) (f : Field) (n : Nat) :
    updateVia interruptTick f n s = .ok () (updState s f n) := updateVia_quiet quietTick_interrupt h.1 (h.access _)
@[simp] theorem readVia_interrupt_open {s : State} (h : Open s) (l : Loc) :
    readVia interruptTick l s = .ok (valueAt s l) (readState s l) := readVia_quiet quietTick_interrupt h.1 (h.access _)
@[simp] theorem writeVia_interrupt_open {s : State} (h : Open s) (l : Loc) (v : Word) :
    writeVia interruptTick l v s = .ok () (wroteState s l v) := writeVia_quiet quietTick_interrupt h.1 (h.access _)
@[simp] theorem writeVia_config_open {s : State} (h : Open s) (l : Loc) (v : Word) :
    writeVia configTick l v s = .ok () (wroteState s l v) := wr_open h l v
@[simp] theorem configTick_open {s : State} (h : Open s) : configTick s = .ok () s := configTick_quiet h.1

/-! ## The fields of a state after an undisturbed access, and after the operations' own updates -/

section
variable (s : State) (l : Loc) (v : Word) (f : PField) (g : WField) (n : Nat) (r q : PReg)
@[simp] theorem readState_cfg : (readState s l).cfg = s.cfg := by simp [readState, logAccess]
@[simp] theorem readState_inst : (readState s l).inst = s.inst := by simp [readState, logAccess]
@[simp] theorem readState_onFault : (readState s l).onFault = s.onFault := by simp [readState, logAccess]
@[simp] theorem readState_onDone : (readState s l).onDone = s.onDone := by simp [readState, logAccess]
@[simp] theorem readState_dphy : (readState s l).dphy = s.dphy := by simp [readState, logAccess]
@[simp] theorem readState_ch : (readState s l).ch = s.ch := by simp [readState, logAccess]
@[simp] theorem readState_t : (readState s l).t = s.t := by simp [readState, logAccess]
@[simp] theorem readState_testTrace : (readState s l).testTrace = s.testTrace := by simp [readState, logAccess]
@[simp] theorem readState_clk : (readState s l).clk = s.clk := by simp [readState, logAccess]
@[simp] theorem readState_events : (readState s l).events = s.events := by simp [readState, logAccess]
@[simp] theorem readState_result : (readState s l).result = s.result := by simp [readState, logAccess]
@[simp] theorem readState_ctx : (readState s l).ctx = s.ctx := by simp [readState, logAccess]
@[simp] theorem readState_opInFlight : (readState s l).opInFlight = s.opInFlight := by simp [readState, logAccess]
@[simp] theorem readState_inbox : (readState s l).inbox = s.inbox := by simp [readState, logAccess]
@[simp] theorem readState_env : (readState s l).env = s.env := by simp [readState, logAccess]
@[simp] theorem readState_clkOk : (readState s l).clkOk = s.clkOk := by simp [readState, logAccess]
@[simp] theorem readState_draw : (readState s l).draw = s.draw := by simp [readState, logAccess]
@[simp] theorem readState_choice : (readState s l).choice = s.choice := by simp [readState, logAccess]
@[simp] theorem readState_trace : (readState s l).trace = s.trace ++ [.rd l (valueAt s l)] := by
  simp [readState, logAccess]
@[simp] theorem readState_w : (readState s l).w = s.w := by simp [readState, logAccess]
@[simp] theorem readState_p_p : (readState s (.p r)).p = bankAfterRead s.cfg s.p r := rfl
@[simp] theorem readState_p_x : (readState s (.p r)).x = s.x := rfl
@[simp] theorem readState_x_x : (readState s (.x r)).x = bankAfterRead s.cfg s.x r := rfl
@[simp] theorem readState_x_p : (readState s (.x r)).p = s.p := rfl
@[simp] theorem readState_w_p : (readState s (.w n)).p = s.p := rfl
@[simp] theorem readState_w_x : (readState s (.w n)).x = s.x := rfl
@[simp] theorem wroteState_cfg : (wroteState s l v).cfg = s.cfg := by simp [wroteState, logAccess]
@[simp] theorem wroteState_inst : (wroteState s l v).inst = s.inst := by simp [wroteState, logAccess]
@[simp] theorem wroteState_onFault : (wroteState s l v).onFault = s.onFault := by simp [wroteState, logAccess]
@[simp] theorem wroteState_onDone : (wroteState s l v).onDone = s.onDone := by simp [wroteState, logAccess]
@[simp] theorem wroteState_dphy : (wroteState s l v).dphy = s.dphy := by simp [wroteState, logAccess]
@[simp] theorem wroteState_ch : (wroteState s l v).ch = s.ch := by simp [wroteState, logAccess]
@[simp] theorem wroteState_t : (wroteState s l v).t = s.t := by simp [wroteState, logAccess]
@[simp] theorem wroteState_testTrace : (wroteState s l v).testTrace = s.testTrace := by simp [wroteState, logAccess]
@[simp] theorem wroteState_clk : (wroteState s l v).clk = s.clk := by simp [wroteState, logAccess]
@[simp] theorem wroteState_events : (wroteState s l v).events = s.events := by simp [wroteState, logAccess]
@[simp] theorem wroteState_result : (wroteState s l v).result = s.result := by simp [wroteState, logAccess]
@[simp] theorem wroteState_ctx : (wroteState s l v).ctx = s.ctx := by simp [wroteState, logAccess]
@[simp] theorem wroteState_opInFlight : (wroteState s l v).opInFlight = s.opInFlight := by simp [wroteState, logAccess]
@[simp] theorem wroteState_inbox : (wroteState s l v).inbox = s.inbox := by simp [wroteState, logAccess]
@[simp] theorem wroteState_env : (wroteState s l v).env = s.env := by simp [wroteState, logAccess]
@[simp] theorem wroteState_clkOk : (wroteState s l v).clkOk = s.clkOk := by simp [wroteState, logAccess]
@[simp] theorem wroteState_draw : (wroteState s l v).draw = s.draw := by simp [wroteState, logAccess]
@[simp] theorem wroteState_choice : (wroteState s l v).choice = s.choice := by simp [wroteState, logAccess]
@[simp] theorem wroteState_trace : (wroteState s l v).trace = s.trace ++ [.wr l v] := by simp [wroteState, logAccess]
@[simp] theorem wroteState_p_p : (wroteState s (.p r) v).p = bankAfterWrite s.cfg s.p r v := rfl
@[simp] theorem wroteState_p_x : (wroteState s (.p r) v).x = s.x := rfl
@[simp] theorem wroteState_p_w : (wroteState s (.p r) v).w = s.w := rfl
@[simp] theorem wroteState_x_x : (wroteState s (.x r) v).x = bankAfterWrite s.cfg s.x r v := rfl
@[simp] theorem wroteState_x_p : (wroteState s (.x r) v).p = s.p := rfl
@[simp] theorem wroteState_x_w : (wroteState s (.x r) v).w = s.w := rfl

/-- A bank after a write, register by register (R58). -/
theorem bankAfterWrite_get (c : Cfg) (b : Bank) :
    (bankAfterWrite c b r v).get q = if q = r ∧ readOnlyReg r = false then storedValue c r v else b.get q := by
  unfold bankAfterWrite
  split
  · next h => simp [h]
  · next h =>
    rw [Bool.not_eq_true] at h
    rw [Bank.get_put _ _ _ _ (storedReg_of_writable r h)]
    simp [h]

@[simp] theorem updState_p_get : (updState s (.p f) n).p.get q
    = if q = f.reg then storedValue s.cfg f.reg (setField (s.p.get f.reg) (fieldPos s.cfg f) n) else s.p.get q := by
  rw [updState_p_p, bankAfterWrite_get]
  simp

@[simp] theorem updState_x_get : (updState s (.x f) n).x.get q
    = if q = f.reg then storedValue s.cfg f.reg (setField (s.x.get f.reg) (fieldPos s.cfg f) n) else s.x.get q := by
  rw [updState_x_x, bankAfterWrite_get]
  simp
end

/-- Only MEM_FLUSH may store something else than the word written (R48, U9). -/
theorem storedValue_eq (c : Cfg) (r : PReg) (v : Word) (h : ∀ ch, r ≠ .ipi ch .memFlush) : storedValue c r v = v := by
  unfold storedValue
  split
  · next ch => exact absurd rfl (h ch)
  · rfl

section
variable (s : State) (ch c : Nat) (v : ChState)
@[simp] theorem setPhase_p : (setPhase ch v s).p = s.p := rfl
@[simp] theorem setPhase_trace : (setPhase ch v s).trace = s.trace := rfl
@[simp] theorem setPhase_cfg : (setPhase ch v s).cfg = s.cfg := rfl
@[simp] theorem phaseOf_setPhase : phaseOf (setPhase ch v s) c = if c = ch then v else phaseOf s c := by
  simp [phaseOf, setPhase, tblGet_tblPut]
end

/-- The frame of a configuration operation that starts alone (R316). -/
theorem runConfig_idle {s : State} (h : s.opInFlight = false) (body : State → Res Value) :
    runConfig body s = finish ((body (s.setInFlight true)).mapState fun s => s.setInFlight false) := by
  simp [runConfig, h]

/-- A configuration operation whose body ends in `Ok` ends in a next state, of which a statement follows from the body's. -/
theorem runConfig_ok {s u : State} (hf : s.opInFlight = false) {body : State → Res Value} {v : Value} {P : State → Prop}
    (h : body (s.setInFlight true) = .ok v u) (hp : P (completeOk v (u.setInFlight false))) :
    ∃ t, runConfig body s = .next t ∧ P t := by
  rw [runConfig_idle hf, h]
  exact ⟨_, rfl, hp⟩

/-- The same where the body ends in `Err`. -/
theorem runConfig_err {s u : State} (hf : s.opInFlight = false) {body : State → Res Value} {e : Err} {P : State → Prop}
    (h : body (s.setInFlight true) = .err e u) (hp : P (takeError e (u.setInFlight false))) :
    ∃ t, runConfig body s = .next t ∧ P t := by
  rw [runConfig_idle hf, h]
  exact ⟨_, rfl, hp⟩

/-- A configuration operation while another is in flight (R314). -/
theorem runConfig_busy {s : State} (h : s.opInFlight = true) (body : State → Res Value) :
    runConfig body s = .fault .preconditionViolated := by
  simp [runConfig, h]

theorem blocking_config {α : Type} {s : State} (h : s.ctx = .config) (body : State → Res α) : blocking body s = body s := by
  simp [blocking, h]

theorem blocking_interrupt {α : Type} {s : State} (h : s.ctx = .interrupt) (body : State → Res α) :
    blocking body s = .stop .preconditionViolated := by
  simp [blocking, h]

theorem withPhy_ok {α : Type} {id : Nat} (h : id < Config.numPhy) (body : State → Res α) (s : State) :
    withPhy id body s = body s := by
  simp [withPhy, h]

theorem withLanes_ok {α : Type} {n : Nat} (h1 : 1 ≤ n) (h4 : n ≤ 4) (body : State → Res α) (s : State) :
    withLanes n body s = body s := by
  simp [withLanes, h1, h4]

theorem withChannel_ok {α : Type} {ch : Nat} {s : State} (h : ch < s.cfg.numInst - 1) (body : State → Res α) :
    withChannel ch body s = body s := by
  unfold withChannel
  rw [if_neg (by omega)]

theorem withChannel_bad {α : Type} {ch : Nat} {s : State} (h : s.cfg.numInst - 1 ≤ ch) (body : State → Res α) :
    withChannel ch body s = .err .invalidArgument s := by
  unfold withChannel
  rw [if_pos h, raise_eq]

/-- The wrapper's words after an undisturbed update of one of its fields. -/
theorem updState_w (s : State) (f : WField) (n : Nat) : (updState s (.w f) n).w = wSet s.cfg s.w f n := rfl

/-- The lane-stop test is the conjunction of the bits (R152, R153 (c), (f)). -/
theorem lanesStopped_iff {n : Nat} (h : n ≤ 4) (v : Word) :
    lanesStopped n v = true ↔ ∀ b < n, v.getLsbD b = true := by
  unfold lanesStopped stopMask
  rw [beq_iff_eq]
  have bits : ∀ i, (BitVec.ofNat 32 (2 ^ n - 1)).getLsbD i = (decide (i < 32) && decide (i < n)) := fun i => by
    simp [BitVec.getLsbD_ofNat, Nat.testBit_two_pow_sub_one]
  constructor
  · intro h' b hb
    have := congrArg (fun w : Word => w.getLsbD b) h'
    simpa [bits, hb, show b < 32 by omega] using this
  · intro h'
    apply BitVec.eq_of_getLsbD_eq
    intro i hi
    rw [BitVec.getLsbD_and, bits]
    by_cases hb : i < n
    · simp [hb, h' i hb]
    · simp [hb]

/-- The table search and the intervals of R126 agree (R125). -/
theorem hsfreqIndex_eq {rate : Nat} (h : 160 ≤ rate) : hsfreqIndex rate = some (rangeIndex rate) := by
  unfold hsfreqIndex rangeIndex Config.hsfreqThr
  by_cases h0 : 2500 ≤ rate
  · simp [List.findIdx?_cons, h0]
  by_cases h1 : 2000 ≤ rate
  · simp [List.findIdx?_cons, h0, h1]
  by_cases h2 : 1500 ≤ rate
  · simp [List.findIdx?_cons, h0, h1, h2]
  by_cases h3 : 1000 ≤ rate
  · simp [List.findIdx?_cons, h0, h1, h2, h3]
  by_cases h4 : 800 ≤ rate
  · simp [List.findIdx?_cons, h0, h1, h2, h3, h4]
  by_cases h5 : 600 ≤ rate
  · simp [List.findIdx?_cons, h0, h1, h2, h3, h4, h5]
  by_cases h6 : 500 ≤ rate
  · simp [List.findIdx?_cons, h0, h1, h2, h3, h4, h5, h6]
  by_cases h7 : 400 ≤ rate
  · simp [List.findIdx?_cons, h0, h1, h2, h3, h4, h5, h6, h7]
  by_cases h8 : 300 ≤ rate
  · simp [List.findIdx?_cons, h0, h1, h2, h3, h4, h5, h6, h7, h8]
  by_cases h9 : 205 ≤ rate
  · simp [List.findIdx?_cons, h0, h1, h2, h3, h4, h5, h6, h7, h8, h9]
  by_cases h10 : 190 ≤ rate
  · simp [List.findIdx?_cons, h0, h1, h2, h3, h4, h5, h6, h7, h8, h9, h10]
  simp [List.findIdx?_cons, h0, h1, h2, h3, h4, h5, h6, h7, h8, h9, h10, h]

theorem hsfreqIndex_none {rate : Nat} (h : rate < 160) : hsfreqIndex rate = none := by
  unfold hsfreqIndex
  rw [List.findIdx?_eq_none_iff]
  intro t ht
  simp only [Config.hsfreqThr, List.mem_cons, List.not_mem_nil, or_false] at ht
  rw [decide_eq_false_iff_not]
  omega

/-- Every register of the map is found at its offset (R73, constraint (b)). -/
theorem regAt_offsetOf {c : Cfg} (hc : LegalCfg c) {r : PReg} (hr : r ∈ bankRegs c) :
    regAt c (offsetOf c r) = some r := by
  unfold regAt
  rw [if_pos (hc.offsetsAligned r hr)]
  have hn := hc.offsetsDistinct
  generalize bankRegs c = l at hr hn
  induction l with
  | nil => cases hr
  | cons a l ih =>
    rw [List.map_cons, List.nodup_cons] at hn
    rcases List.mem_cons.mp hr with rfl | hr
    · simp
    · have hne : offsetOf c a ≠ offsetOf c r := fun e => hn.1 (e ▸ List.mem_map_of_mem hr)
      rw [List.find?_cons_of_neg (by simpa using hne)]
      exact ih hr hn.2

theorem regAt_mem {c : Cfg} {offset : Nat} {r : PReg} (h : regAt c offset = some r) : r ∈ bankRegs c := by
  unfold regAt at h
  split at h
  · exact List.mem_of_find?_eq_some h
  · cases h

/-- Nothing new since the same trace; what was appended since is all there is. -/
theorem writtenSince_append {s t : State} {l : List Access} (h : t.trace = s.trace ++ l) :
    writtenSince s t = l.filterMap Access.written := by
  simp [writtenSince, h]

@[simp] theorem written_wr (l : Loc) (v : Word) : (Access.wr l v).written = some l := rfl
@[simp] theorem written_rd (l : Loc) (v : Word) : (Access.rd l v).written = none := rfl

/-! ## The wait -/

/-- The state after `n` undisturbed reads of PHY_STOPSTATE. -/
def polledState (s : State) (n : Nat) : State :=
  s.setTrace (s.trace ++ List.replicate n (.rd (.p .phyStopstate) s.p.phyStopstate))

theorem rd_stopstate_open {s : State} (h : Open s) :
    rd (.p .phyStopstate) s = .ok s.p.phyStopstate (polledState s 1) := rd_open h _

theorem pollStop_stopped {s : State} (h : Open s) {n : Nat} (hs : lanesStopped n s.p.phyStopstate = true) (fuel : Nat) :
    pollStop (fuel + 1) n s = .ok () (polledState s 1) := by
  simp [pollStop, rd_stopstate_open h, hs]

theorem pollStop_never {s : State} (h : Open s) {n : Nat} (hs : lanesStopped n s.p.phyStopstate = false) (fuel : Nat) :
    pollStop fuel n s = .err .timeout (polledState s fuel) := by
  induction fuel generalizing s with
  | zero => simp [pollStop, polledState]
  | succ fuel ih =>
    have ho : Open (polledState s 1) := h
    simp only [pollStop, rd_stopstate_open h, Res.andThen_ok, hs, delay]
    rw [if_neg (by simp), ih ho hs]
    simp [polledState, List.replicate_succ]

/-- An undisturbed wait whose bits show (R152, R153). -/
theorem wait_stopped {s : State} (h : Open s) (hc : s.ctx = .config) {n : Nat} (h1 : 1 ≤ n) (h4 : n ≤ 4)
    (hs : ∀ b < n, s.p.phyStopstate.getLsbD b = true) : dphyWaitStopstate n s = .ok () (polledState s 1) := by
  rw [dphyWaitStopstate, blocking_config hc, withLanes_ok h1 h4]
  exact pollStop_stopped h ((lanesStopped_iff h4 _).mpr hs) _

/-- An undisturbed wait in which a bit is missing (R152, R153). -/
theorem wait_timeout {s : State} (h : Open s) (hc : s.ctx = .config) {n : Nat} (h1 : 1 ≤ n) (h4 : n ≤ 4)
    (hs : ∃ b < n, s.p.phyStopstate.getLsbD b = false) :
    dphyWaitStopstate n s = .err .timeout (polledState s Config.pollMax) := by
  rw [dphyWaitStopstate, blocking_config hc, withLanes_ok h1 h4]
  refine pollStop_never h ?_ _
  rw [Bool.eq_false_iff, Ne, lanesStopped_iff h4]
  intro hall
  obtain ⟨b, hb, hn⟩ := hs
  rw [hall b hb] at hn
  cases hn

/-! ## The overflow recovery and the handler, undisturbed -/

/-- The state after an undisturbed recovery of a channel (R211). -/
def recoveredState (s : State) (ch : Nat) : State :=
  let u := wroteState (updState (updState (updState s (.p (.manualFlush ch)) 1) (.p (.softrstn ch)) 0)
    (.p (.softrstn ch)) 1) (.p .ipiSoftrstn) (allRelease s.cfg)
  if phaseOf s ch = .enabled then setPhase ch .configured u else u

theorem overflowReset_open {s : State} (ho : Open s) {ch : Nat} (hch : ch < s.cfg.numInst - 1) :
    overflowReset ch s = .ok () (recoveredState s ch) := by
  unfold overflowReset overflowResetWith softResetPulse recoveredState
  rw [withChannel_ok hch]
  simp [ho, phaseOf]
  rfl

/-- The state after an undisturbed recovery inside the handler: the same, with 6 accesses in the trace (R246). -/
def handlerRecoveredState (s : State) (ch : Nat) : State :=
  let m := setField (s.p.get (.ipi ch .memFlush)) (fieldPos s.cfg (.manualFlush ch)) 1
  let held := setField s.p.ipiSoftrstn (fieldPos s.cfg (.softrstn ch)) 0
  (recoveredState s ch).setTrace (s.trace ++
    [.rd (.p (.ipi ch .memFlush)) (s.p.get (.ipi ch .memFlush)), .wr (.p (.ipi ch .memFlush)) m,
     .rd (.p .ipiSoftrstn) s.p.ipiSoftrstn, .wr (.p .ipiSoftrstn) held,
     .wr (.p .ipiSoftrstn) (setField held (fieldPos s.cfg (.softrstn ch)) 1), .wr (.p .ipiSoftrstn) (allRelease s.cfg)])

/-- The one read of the handler's pulse stands for both of `softResetPulse`: the same state but for the trace. -/
theorem pulseOnce_state (s : State) (ch : Nat) (v : Word) :
    wroteState (wroteState (wroteState (readState s (.p .ipiSoftrstn)) (.p .ipiSoftrstn)
        (setField s.p.ipiSoftrstn (fieldPos s.cfg (.softrstn ch)) 0)) (.p .ipiSoftrstn)
        (setField (setField s.p.ipiSoftrstn (fieldPos s.cfg (.softrstn ch)) 0) (fieldPos s.cfg (.softrstn ch)) 1))
        (.p .ipiSoftrstn) v
      = (wroteState (updState (updState s (.p (.softrstn ch)) 0) (.p (.softrstn ch)) 1) (.p .ipiSoftrstn) v).setTrace
        (s.trace ++ [.rd (.p .ipiSoftrstn) s.p.ipiSoftrstn,
          .wr (.p .ipiSoftrstn) (setField s.p.ipiSoftrstn (fieldPos s.cfg (.softrstn ch)) 0),
          .wr (.p .ipiSoftrstn)
            (setField (setField s.p.ipiSoftrstn (fieldPos s.cfg (.softrstn ch)) 0) (fieldPos s.cfg (.softrstn ch)) 1),
          .wr (.p .ipiSoftrstn) v]) := by
  apply State.eq_of_fields
  case trace => simp [valueAt, bankValue, Bank.get]
  case p => simp [updState_p_p, bankAfterWrite, bankAfterRead, readOnlyReg, PField.reg, Bank.put]
  all_goals simp

theorem overflowRecovery_open {s : State} (ho : Open s) {ch : Nat} (hch : ch < s.cfg.numInst - 1) :
    overflowRecovery ch s = .ok () (handlerRecoveredState s ch) := by
  have h1 : Open (updState s (.p (.manualFlush ch)) 1) := by simpa using ho
  have hv : valueAt (updState s (.p (.manualFlush ch)) 1) (.p .ipiSoftrstn)
      = (updState s (.p (.manualFlush ch)) 1).p.ipiSoftrstn := rfl
  unfold overflowRecovery overflowResetWith softResetPulseOnce
  rw [withChannel_ok hch, updateVia_interrupt_open ho, Res.andThen_ok, readVia_interrupt_open h1, Res.andThen_ok, hv]
  simp only [writeVia_interrupt_open, open_readState, open_wroteState, h1, Res.andThen_ok, readState_cfg, wroteState_cfg]
  have hsp : (updState s (.p (.manualFlush ch)) 1).p.ipiSoftrstn = s.p.ipiSoftrstn := updState_get s _ 1 .ipiSoftrstn
  rw [pulseOnce_state]
  unfold handlerRecoveredState recoveredState
  simp only [updState_cfg, hsp, updState_trace, List.append_assoc, List.cons_append, List.nil_append]
  by_cases hp : phaseOf s ch = .enabled
  · rw [if_pos hp, if_pos ((by simp [phaseOf] : phaseOf _ ch = phaseOf s ch).trans hp)]
    rfl
  · rw [if_neg hp, if_neg fun h => hp ((by simp [phaseOf] : phaseOf s ch = phaseOf _ ch).trans h)]
    rfl

theorem open_recoveredState (s : State) (ch : Nat) : Open (recoveredState s ch) ↔ Open s := by
  unfold recoveredState
  simp only
  split <;> simp

theorem open_handlerRecoveredState (s : State) (ch : Nat) : Open (handlerRecoveredState s ch) ↔ Open s :=
  (open_setTrace _ _).trans (open_recoveredState s ch)

/-- Each bit of the release-all constant (R51). -/
theorem allRelease_getLsbD {c : Cfg} (hc : LegalCfg c) {b : Nat} (hb : b < 32) :
    (allRelease c).getLsbD b = decide (∃ k < Config.maxPixCh, b = (fieldPos c (.softrstn k)).lo) := by
  have fold : ∀ (l : List Nat) (a : Word), (∀ k ∈ l, k < Config.maxPixCh) →
      (l.foldl (fun acc ch => setField acc (fieldPos c (.softrstn ch)) 1) a).getLsbD b
        = (decide (∃ k ∈ l, b = (fieldPos c (.softrstn k)).lo) || a.getLsbD b) := by
    intro l
    induction l with
    | nil => intro a _; simp
    | cons k l ih =>
      intro a hl
      have hw : (fieldPos c (.softrstn k)).width = 1 :=
        hc.fieldWidths (.softrstn k) 1 (by simp [PField.ruleWidth, hl k (List.mem_cons_self ..)])
      rw [List.foldl_cons, ih _ fun j hj => hl j (List.mem_cons_of_mem _ hj), getLsbD_setField, hw]
      by_cases h : b = (fieldPos c (.softrstn k)).lo
      · have h1 : decide (∃ j ∈ k :: l, b = (fieldPos c (.softrstn j)).lo) = true :=
          decide_eq_true ⟨k, List.mem_cons_self .., h⟩
        rw [h1, if_pos ⟨hb, by omega, by omega⟩, h]
        simp
      · rw [if_neg (by omega)]
        congr 1
        simp only [List.mem_cons, exists_eq_or_imp, h, false_or]
  unfold allRelease
  rw [fold _ _ fun k hk => List.mem_range.mp hk]
  simp

/-- The state after an undisturbed visit of a category (R247 steps 4 to 9). -/
def handledState (main : Word) (s : State) (k : Nat) : State :=
  if main &&& (catEntry s.cfg k).mainbit = 0 then s
  else
    let st := valueAt s (.p (.intSt k)) &&& (catEntry s.cfg k).ebits
    let ovf := overflowBit s.cfg k st
    let u := readState s (.p (.intSt k))
    let v := match fatalChannel s.cfg k with
      | some ch => if ovf && decide (ch < s.cfg.numInst - 1) then handlerRecoveredState u ch else u
      | none => u
    if st = 0 then v else emit (.faultNotify s.inst.id st k ovf (s.onFault == .registered)) v

theorem recoveredState_cfg (s : State) (ch : Nat) : (recoveredState s ch).cfg = s.cfg := by
  unfold recoveredState
  simp only
  split <;> simp

theorem recoveredState_inst (s : State) (ch : Nat) : (recoveredState s ch).inst = s.inst := by
  unfold recoveredState
  simp only
  split <;> simp [setPhase]

theorem recoveredState_onFault (s : State) (ch : Nat) : (recoveredState s ch).onFault = s.onFault := by
  unfold recoveredState
  simp only
  split <;> simp [setPhase]

theorem handlerRecoveredState_inst (s : State) (ch : Nat) : (handlerRecoveredState s ch).inst = s.inst :=
  recoveredState_inst s ch

theorem handlerRecoveredState_onFault (s : State) (ch : Nat) : (handlerRecoveredState s ch).onFault = s.onFault :=
  recoveredState_onFault s ch

theorem handleCategory_open {s : State} (ho : Open s) (main : Word) (k : Nat) :
    handleCategory main k s = .ok () (handledState main s k) ∧ Open (handledState main s k) := by
  have ho' : Open (readState s (.p (.intSt k))) := by simpa using ho
  unfold handleCategory handledState
  split
  · exact ⟨rfl, ho⟩
  · rw [readVia_interrupt_open ho, Res.andThen_ok]
    simp only [recoverOverflow, readState_cfg]
    cases fatalChannel s.cfg k with
    | none => simp only [Res.andThen_ok, readState_inst, readState_onFault]; exact ⟨trivial, by split <;> exact ho'⟩
    | some ch =>
      simp only
      by_cases hb : (overflowBit s.cfg k (valueAt s (.p (.intSt k)) &&& (catEntry s.cfg k).ebits) &&
          decide (ch < s.cfg.numInst - 1)) = true
      · have hch : ch < (readState s (.p (.intSt k))).cfg.numInst - 1 := by
          simp only [Bool.and_eq_true, decide_eq_true_eq] at hb
          simpa using hb.2
        have hr : Open (handlerRecoveredState (readState s (.p (.intSt k))) ch) := (open_handlerRecoveredState _ _).mpr ho'
        rw [if_pos hb, if_pos hb, overflowRecovery_open ho' hch, Res.andThen_ok]
        simp only [handlerRecoveredState_inst, handlerRecoveredState_onFault, readState_inst, readState_onFault]
        exact ⟨trivial, by split <;> exact hr⟩
      · rw [if_neg hb, if_neg hb]
        simp only [Res.andThen_ok, readState_inst, readState_onFault]
        exact ⟨trivial, by split <;> exact ho'⟩

theorem handleCategories_open (main : Word) (l : List Nat) {s : State} (ho : Open s) :
    forEach l (handleCategory main) s = .ok () (l.foldl (handledState main) s) ∧ Open (l.foldl (handledState main) s) := by
  induction l generalizing s with
  | nil => exact ⟨rfl, ho⟩
  | cons k l ih =>
    have h := handleCategory_open ho main k
    rw [forEach_cons, h.1, Res.andThen_ok, List.foldl_cons]
    exact ih h.2

/-- The undisturbed handler: the summary is read once, every category has its turn, the done callback ends it (R247). -/
theorem takeInterrupt_open {s : State} (ho : Open s) :
    takeInterrupt s = .ok () (leaveInterrupt s.ctx (notifyDone (mainStatus s.cfg s.p)
      ((List.range Config.numCat).foldl (handledState (mainStatus s.cfg s.p))
        (readState (enterInterrupt s) (.p .intStMain))))) := by
  have ho' : Open (enterInterrupt s) := ho
  have ho'' : Open (readState (enterInterrupt s) (.p .intStMain)) := by simpa using ho'
  unfold takeInterrupt
  rw [readVia_interrupt_open ho', Res.andThen_ok]
  show (forEach _ (handleCategory (mainStatus s.cfg s.p)) _).andThen _ = _
  rw [(handleCategories_open _ _ ho'').1]
  rfl

end Sys2Proof.Machine
end

