-- ==== Sys2Proof/Laws/Status.lean ====
section
/-! SUPPORT. Laws of the summary register (10_state.md R34) and of the category table (R27). -/

namespace Sys2Proof.Machine

/-- A category's main bit is set in INT_ST_MAIN exactly when the category has an unmasked pending fault (R34). -/
theorem mainStatus_and {c : Cfg} (hc : LegalCfg c) (b : Bank) {k : Nat} (hk : k < Config.numCat) :
    mainStatus c b &&& (catEntry c k).mainbit = 0 ↔ unmaskedPending c b k = 0 := by
  have key : ∀ n ≤ Config.numCat, ((List.range n).foldl
      (fun acc k => if unmaskedPending c b k = 0 then acc else acc ||| (catEntry c k).mainbit) 0)
        &&& (catEntry c k).mainbit
      = if k < n ∧ unmaskedPending c b k ≠ 0 then (catEntry c k).mainbit else 0 := by
    intro n
    induction n with
    | zero => intro _; simp
    | succ n ih =>
      intro hn
      have ih := ih (by omega)
      rw [List.range_succ, List.foldl_append, List.foldl_cons, List.foldl_nil]
      by_cases hz : unmaskedPending c b n = 0
      · rw [if_pos hz, ih]
        by_cases hkn : k = n
        · subst hkn
          rw [if_neg (fun h => h.2 hz), if_neg (fun h => h.2 hz)]
        · have : k < n ↔ k < n + 1 := by omega
          simp only [this]
      · rw [if_neg hz]
        have dist : ∀ x y z : Word, (x ||| y) &&& z = (x &&& z) ||| (y &&& z) := fun x y z => by
          apply BitVec.eq_of_getLsbD_eq
          intro i _
          simp only [BitVec.getLsbD_and, BitVec.getLsbD_or, Bool.and_or_distrib_right]
        rw [dist, ih]
        by_cases hkn : k = n
        · subst hkn
          rw [if_neg (fun h => Nat.lt_irrefl _ h.1), if_pos ⟨by omega, hz⟩, BitVec.and_self]
          exact BitVec.zero_or
        · have : k < n ↔ k < n + 1 := by omega
          rw [hc.mainbitsApart n (by omega) k hk fun h => hkn h.symm]
          simp only [this]
          exact BitVec.or_zero
  unfold mainStatus
  rw [key _ (Nat.le_refl _)]
  by_cases h : unmaskedPending c b k = 0
  · rw [if_neg fun g => g.2 h]
    exact ⟨fun _ => h, fun _ => rfl⟩
  · rw [if_pos ⟨hk, h⟩]
    exact ⟨fun g => absurd g (hc.mainbits k hk), fun g => absurd g h⟩

/-- A bit of INT_ST_MAIN is 1 exactly when it is a main bit of a category with an unmasked pending fault (R34). -/
theorem mainStatus_getLsbD (c : Cfg) (b : Bank) (i : Nat) :
    (mainStatus c b).getLsbD i = true ↔
      ∃ k < Config.numCat, (catEntry c k).mainbit.getLsbD i = true ∧ unmaskedPending c b k ≠ 0 := by
  unfold mainStatus
  have key : ∀ (l : List Nat) (a : Word), (l.foldl
      (fun acc k => if unmaskedPending c b k = 0 then acc else acc ||| (catEntry c k).mainbit) a).getLsbD i = true ↔
        a.getLsbD i = true ∨ ∃ k ∈ l, (catEntry c k).mainbit.getLsbD i = true ∧ unmaskedPending c b k ≠ 0 := by
    intro l
    induction l with
    | nil => intro a; simp
    | cons k l ih =>
      intro a
      rw [List.foldl_cons, ih]
      by_cases h : unmaskedPending c b k = 0
      · simp [h]
      · rw [if_neg h, BitVec.getLsbD_or, Bool.or_eq_true, or_assoc]
        simp only [List.mem_cons, exists_eq_or_imp]
        exact or_congr_right (or_congr_left ⟨fun g => ⟨g, h⟩, And.left⟩)
  rw [key]
  simp

/-- INT_ST_MAIN is 0 exactly when no category has an unmasked pending fault. -/
theorem mainStatus_eq_zero {c : Cfg} {b : Bank} (h : ∀ k < Config.numCat, unmaskedPending c b k = 0) :
    mainStatus c b = 0 := by
  unfold mainStatus
  have key : ∀ (l : List Nat), (∀ k ∈ l, unmaskedPending c b k = 0) → l.foldl
      (fun acc k => if unmaskedPending c b k = 0 then acc else acc ||| (catEntry c k).mainbit) (0 : Word) = 0 := by
    intro l
    induction l with
    | nil => intro _; rfl
    | cons k l ih =>
      intro hl
      rw [List.foldl_cons, if_pos (hl k (List.mem_cons_self ..))]
      exact ih fun j hj => hl j (List.mem_cons_of_mem _ hj)
  exact key _ fun k hk => h k (List.mem_range.mp hk)

/-- The channel of a fatal category is its place in the table (R27). -/
theorem fatalChannel_some {c : Cfg} (hc : LegalCfg c) (k ch : Nat) :
    fatalChannel c k = some ch ↔ c.ipiFatalCat[ch]? = some k := by
  unfold fatalChannel
  rw [List.findIdx?_eq_some_iff_getElem]
  constructor
  · rintro ⟨h, h1, -⟩
    rw [List.getElem?_eq_getElem h]
    simpa using h1
  · intro h
    obtain ⟨h1, h2⟩ := List.getElem?_eq_some_iff.mp h
    refine ⟨h1, by simpa using h2, fun j hj => ?_⟩
    rw [Bool.not_eq_true, beq_eq_false_iff_ne]
    intro he
    have := (List.Nodup.getElem_inj_iff hc.fatalCats.2.1 (hi := by omega) (hj := h1)).mp (he.trans h2.symm)
    omega

theorem fatalChannel_isSome (c : Cfg) (k : Nat) : (fatalChannel c k).isSome = decide (k ∈ c.ipiFatalCat) := by
  unfold fatalChannel
  rw [List.findIdx?_isSome, Bool.eq_iff_iff]
  simp

/-- A status and a summary share the category's main bit only while a fault is pending and unmasked. -/
theorem irqLine_eq_false {s : State} (h : mainStatus s.cfg s.p = 0) : irqLine s = false := by
  simp [irqLine, h]

end Sys2Proof.Machine
end

