-- ==== Sys2Proof/Laws/Handler.lean ====
section
/-! SUPPORT. How many register accesses the undisturbed handler makes: one status read for each category, 6 accesses for each
recovery (45_irq.md R246, 70_reset_and_hazards.md R352). -/

namespace Sys2Proof.Machine

/-- The accesses from one state to another: at most `m` status reads and `n` others. -/
def TraceWithin (s t : State) (m n : Nat) : Prop :=
  ∃ accesses, t.trace = s.trace ++ accesses ∧ (accesses.filter isStatusRead).length ≤ m ∧
    (accesses.filter fun a => !isStatusRead a).length ≤ n

theorem TraceWithin.trans {s t u : State} {m n m' n' : Nat} (h : TraceWithin s t m n)
    (h' : TraceWithin t u m' n') : TraceWithin s u (m + m') (n + n') := by
  obtain ⟨a, ha, h1, h2⟩ := h
  obtain ⟨b, hb, h3, h4⟩ := h'
  refine ⟨a ++ b, by rw [hb, ha, List.append_assoc], ?_, ?_⟩ <;>
    (rw [List.filter_append, List.length_append]; omega)

theorem TraceWithin.mono {s t : State} {m n m' n' : Nat} (h : TraceWithin s t m n) (hm : m ≤ m') (hn : n ≤ n') :
    TraceWithin s t m' n' := by
  obtain ⟨a, h1, h2, h3⟩ := h
  exact ⟨a, h1, by omega, by omega⟩

theorem readState_traceWithin (s : State) {r : PReg} (v : Word) (h : isStatusRead (.rd (.p r) v) = true)
    (hv : valueAt s (.p r) = v) : TraceWithin s (readState s (.p r)) 1 0 := by
  refine ⟨[.rd (.p r) v], by rw [readState_trace, hv], ?_, ?_⟩ <;> simp [h]

/-- A recovery inside the handler makes 6 accesses, none a status read (R246). -/
theorem handlerRecoveredState_traceWithin (s : State) (ch : Nat) : TraceWithin s (handlerRecoveredState s ch) 0 6 :=
  ⟨_, rfl, by simp [isStatusRead], by simp [isStatusRead]⟩

theorem handledState_traceWithin (main : Word) (s : State) (k : Nat) :
    TraceWithin s (handledState main s k) 1 (if k ∈ s.cfg.ipiFatalCat then 6 else 0) := by
  have h1 : TraceWithin s (readState s (.p (.intSt k))) 1 0 := readState_traceWithin s _ rfl rfl
  have emit : ∀ (c : Prop) [Decidable c] (e : Event) (v : State) (m n : Nat), TraceWithin s v m n →
      TraceWithin s (if c then v else Machine.emit e v) m n := fun c _ e v m n h => by
    split
    · exact h
    · exact h
  unfold handledState
  split
  · exact ⟨[], by simp, by simp, by simp⟩
  · refine emit _ _ _ _ _ ?_
    split
    · next ch hf =>
      have hm : k ∈ s.cfg.ipiFatalCat := by simpa [hf] using (fatalChannel_isSome s.cfg k).symm
      rw [if_pos hm]
      split
      · exact h1.trans (handlerRecoveredState_traceWithin _ ch)
      · exact h1.mono (Nat.le_refl _) (by omega)
    · exact h1.mono (Nat.le_refl _) (by omega)

theorem handledState_cfg (main : Word) (s : State) (k : Nat) : (handledState main s k).cfg = s.cfg := by
  have emit : ∀ (c : Prop) [Decidable c] (e : Event) (v : State), v.cfg = s.cfg →
      (if c then v else Machine.emit e v).cfg = s.cfg := fun c _ e v h => by
    split
    · exact h
    · exact h
  unfold handledState
  split
  · rfl
  · refine emit _ _ _ ?_
    split
    · split
      · exact (recoveredState_cfg _ _).trans (readState_cfg _ _)
      · exact readState_cfg _ _
    · exact readState_cfg _ _

theorem handledStates_traceWithin (main : Word) (l : List Nat) (s : State) :
    TraceWithin s (l.foldl (handledState main) s) l.length (6 * (l.filter fun k => decide (k ∈ s.cfg.ipiFatalCat)).length) := by
  induction l generalizing s with
  | nil => exact ⟨[], by simp, by simp, by simp⟩
  | cons k l ih =>
    have h := (handledState_traceWithin main s k).trans (ih (handledState main s k))
    rw [handledState_cfg] at h
    rw [List.foldl_cons, List.length_cons, List.filter_cons]
    obtain ⟨a, h1, h2, h3⟩ := h
    refine ⟨a, h1, by omega, ?_⟩
    by_cases hk : k ∈ s.cfg.ipiFatalCat
    · simp only [hk, if_true, decide_true, List.length_cons] at h3 ⊢
      omega
    · simpa [hk] using h3

end Sys2Proof.Machine
end

