-- ==== Sys2Proof/Laws/PerInstr.lean ====
section
/-! SUPPORT. A statement about each instruction as syntax: the port, the first word and the number of words it is delivered
with (the rows of spec/opcode_table.json: 30_encoding.md R92, R93, R95). -/

namespace Sys2Proof.Laws.Opcode

/-- The row of an instruction: its port, the id or selector, and how many words follow it. -/
def row : Instr → Port × Word × Nat
  | .cmdSetVcCfg .. => (.msg, 0, 4)
  | .cmdSetLanes .. => (.msg, 1, 2)
  | .cmdSetLaneRate .. => (.msg, 2, 2)
  | .cmdSetTpgMode .. => (.msg, 3, 3)
  | .cmdSetBypass .. => (.msg, 4, 2)
  | .cmdSetFormat .. => (.msg, 5, 4)
  | .cmdSetState .. => (.msg, 6, 2)
  | .cmdResetControl .. => (.msg, 7, 1)
  | .regRead .. => (.op, 0x10, 1)
  | .regWrite .. => (.op, 0x11, 2)
  | .regReadExt .. => (.op, 0x12, 1)
  | .regWriteExt .. => (.op, 0x13, 2)
  | .wrapEnableClock .. => (.op, 0x20, 1)
  | .wrapForceRxMode .. => (.op, 0x21, 3)
  | .wrapGetLaneMode .. => (.op, 0x22, 1)
  | .wrapSetLaneMode .. => (.op, 0x23, 2)
  | .wrapSetHsfreqrange .. => (.op, 0x24, 2)
  | .wrapEnablePpipgClk .. => (.op, 0x25, 1)
  | .wrapSetTestcode .. => (.op, 0x26, 2)
  | .wrapTestcodeSelOtherPhy .. => (.op, 0x27, 2)
  | .dphyReset => (.op, 0x30, 0)
  | .dphyPowerup => (.op, 0x31, 0)
  | .dphyPowerupStd .. => (.op, 0x32, 3)
  | .dphyPowerupMerged .. => (.op, 0x33, 3)
  | .dphyTestWrite .. => (.op, 0x34, 4)
  | .dphyWaitStopstate .. => (.op, 0x35, 1)
  | .timClassify .. => (.op, 0x40, 1)
  | .timHsdLegacy .. => (.op, 0x41, 4)
  | .timCutThrough => (.op, 0x42, 0)
  | .timPkt2pkt => (.op, 0x43, 0)
  | .ipiSetVcCfg .. => (.op, 0x50, 4)
  | .ipiInit .. => (.op, 0x51, 6)
  | .ipiStart .. => (.op, 0x52, 1)
  | .ipiStop .. => (.op, 0x53, 1)
  | .ipiResetAndDown .. => (.op, 0x54, 2)
  | .ipiOverflowReset .. => (.op, 0x55, 1)
  | .ipiRegDump .. => (.op, 0x56, 2)
  | .ipiRegSet .. => (.op, 0x57, 10)
  | .irqEnable => (.op, 0x60, 0)
  | .irqDisable => (.op, 0x61, 0)
  | .irqDisableByMask .. => (.op, 0x62, 1)
  | .irqHandle => (.op, 0x63, 0)
  | .pwrResume => (.op, 0x70, 0)
  | .pwrSuspend => (.op, 0x71, 0)

/-- An instruction is delivered at its row's port, its first word is its row's, and its row's operand words follow. -/
def Statement (i : Instr) : Prop :=
  i.port = (row i).1 ∧ i.words.head? = some (row i).2.1 ∧ i.words.length = (row i).2.2 + 1

theorem cmdSetVcCfg (inst vcId : Nat) (embEn : Bool) (vcMode : Nat) : Statement (.cmdSetVcCfg inst vcId embEn vcMode) :=
  ⟨rfl, rfl, rfl⟩
theorem cmdSetLanes (inst lanes : Nat) : Statement (.cmdSetLanes inst lanes) :=
  ⟨rfl, rfl, rfl⟩
theorem cmdSetLaneRate (inst rate : Nat) : Statement (.cmdSetLaneRate inst rate) :=
  ⟨rfl, rfl, rfl⟩
theorem cmdSetTpgMode (inst : Nat) (enable : Bool) (pkt2pkt : Nat) : Statement (.cmdSetTpgMode inst enable pkt2pkt) :=
  ⟨rfl, rfl, rfl⟩
theorem cmdSetBypass (inst : Nat) (bypass : Bool) : Statement (.cmdSetBypass inst bypass) :=
  ⟨rfl, rfl, rfl⟩
theorem cmdSetFormat (inst width height format : Nat) : Statement (.cmdSetFormat inst width height format) :=
  ⟨rfl, rfl, rfl⟩
theorem cmdSetState (inst : Nat) (start : Bool) : Statement (.cmdSetState inst start) :=
  ⟨rfl, rfl, rfl⟩
theorem cmdResetControl (inst : Nat) : Statement (.cmdResetControl inst) :=
  ⟨rfl, rfl, rfl⟩
theorem regRead (offset : Nat) : Statement (.regRead offset) :=
  ⟨rfl, rfl, rfl⟩
theorem regWrite (offset : Nat) (value : Word) : Statement (.regWrite offset value) :=
  ⟨rfl, rfl, rfl⟩
theorem regReadExt (offset : Nat) : Statement (.regReadExt offset) :=
  ⟨rfl, rfl, rfl⟩
theorem regWriteExt (offset : Nat) (value : Word) : Statement (.regWriteExt offset value) :=
  ⟨rfl, rfl, rfl⟩
theorem wrapEnableClock (id : Nat) : Statement (.wrapEnableClock id) :=
  ⟨rfl, rfl, rfl⟩
theorem wrapForceRxMode (id lanes : Nat) (force : Bool) : Statement (.wrapForceRxMode id lanes force) :=
  ⟨rfl, rfl, rfl⟩
theorem wrapGetLaneMode (id : Nat) : Statement (.wrapGetLaneMode id) :=
  ⟨rfl, rfl, rfl⟩
theorem wrapSetLaneMode (id : Nat) (merged : Bool) : Statement (.wrapSetLaneMode id merged) :=
  ⟨rfl, rfl, rfl⟩
theorem wrapSetHsfreqrange (id rate : Nat) : Statement (.wrapSetHsfreqrange id rate) :=
  ⟨rfl, rfl, rfl⟩
theorem wrapEnablePpipgClk (enable : Bool) : Statement (.wrapEnablePpipgClk enable) :=
  ⟨rfl, rfl, rfl⟩
theorem wrapSetTestcode (id code : Nat) : Statement (.wrapSetTestcode id code) :=
  ⟨rfl, rfl, rfl⟩
theorem wrapTestcodeSelOtherPhy (id : Nat) (select : Bool) : Statement (.wrapTestcodeSelOtherPhy id select) :=
  ⟨rfl, rfl, rfl⟩
theorem dphyReset : Statement (.dphyReset) :=
  ⟨rfl, rfl, rfl⟩
theorem dphyPowerup : Statement (.dphyPowerup) :=
  ⟨rfl, rfl, rfl⟩
theorem dphyPowerupStd (id lanes rate : Nat) : Statement (.dphyPowerupStd id lanes rate) :=
  ⟨rfl, rfl, rfl⟩
theorem dphyPowerupMerged (id lanes rate : Nat) : Statement (.dphyPowerupMerged id lanes rate) :=
  ⟨rfl, rfl, rfl⟩
theorem dphyTestWrite (id : Nat) (other : Bool) (code data : Nat) : Statement (.dphyTestWrite id other code data) :=
  ⟨rfl, rfl, rfl⟩
theorem dphyWaitStopstate (n : Nat) : Statement (.dphyWaitStopstate n) :=
  ⟨rfl, rfl, rfl⟩
theorem timClassify (fmt : Nat) : Statement (.timClassify fmt) :=
  ⟨rfl, rfl, rfl⟩
theorem timHsdLegacy (fmt width hsa hbp : Nat) : Statement (.timHsdLegacy fmt width hsa hbp) :=
  ⟨rfl, rfl, rfl⟩
theorem timCutThrough : Statement (.timCutThrough) :=
  ⟨rfl, rfl, rfl⟩
theorem timPkt2pkt : Statement (.timPkt2pkt) :=
  ⟨rfl, rfl, rfl⟩
theorem ipiSetVcCfg (ch vcId : Nat) (embEn : Bool) (vcMode : Nat) : Statement (.ipiSetVcCfg ch vcId embEn vcMode) :=
  ⟨rfl, rfl, rfl⟩
theorem ipiInit (ch width height format : Nat) (cutThrough : Bool) (adv : Word) : Statement (.ipiInit ch width height format cutThrough adv) :=
  ⟨rfl, rfl, rfl⟩
theorem ipiStart (ch : Nat) : Statement (.ipiStart ch) :=
  ⟨rfl, rfl, rfl⟩
theorem ipiStop (ch : Nat) : Statement (.ipiStop ch) :=
  ⟨rfl, rfl, rfl⟩
theorem ipiResetAndDown (ch : Nat) (enable : Bool) : Statement (.ipiResetAndDown ch enable) :=
  ⟨rfl, rfl, rfl⟩
theorem ipiOverflowReset (ch : Nat) : Statement (.ipiOverflowReset ch) :=
  ⟨rfl, rfl, rfl⟩
theorem ipiRegDump (ch : Nat) (mask : BitVec 8) : Statement (.ipiRegDump ch mask) :=
  ⟨rfl, rfl, rfl⟩
theorem ipiRegSet (ch : Nat) (mask : BitVec 8) (v0 v1 v2 v3 v4 v5 v6 v7 : Word) : Statement (.ipiRegSet ch mask v0 v1 v2 v3 v4 v5 v6 v7) :=
  ⟨rfl, rfl, rfl⟩
theorem irqEnable : Statement (.irqEnable) :=
  ⟨rfl, rfl, rfl⟩
theorem irqDisable : Statement (.irqDisable) :=
  ⟨rfl, rfl, rfl⟩
theorem irqDisableByMask (bitmask : Nat) : Statement (.irqDisableByMask bitmask) :=
  ⟨rfl, rfl, rfl⟩
theorem irqHandle : Statement (.irqHandle) :=
  ⟨rfl, rfl, rfl⟩
theorem pwrResume : Statement (.pwrResume) :=
  ⟨rfl, rfl, rfl⟩
theorem pwrSuspend : Statement (.pwrSuspend) :=
  ⟨rfl, rfl, rfl⟩

end Sys2Proof.Laws.Opcode
end

