-- ==== Sys2Proof/Laws/Sequences.lean ====
section
/-! SUPPORT. The long sequences, undisturbed: the standard and the merged power-up up to their waits (42_dphy_sequencer.md
R143, R147), a list of test-interface writes (R148, R150), and the programming of a channel (44_ipi.md R203). Each evaluates
to one named state, built of the states after single field updates. -/

namespace Sys2Proof.Machine

/-! ## The standard power-up -/

/-- The state at the start of the wait of the standard path (R143 steps 1 to 10). -/
def stdReleased (s : State) (id rate : Nat) : State :=
  (updState (updState (updState (updState (updState (updState (s.setDphy .powerSequence) (.p .rstz) 0) (.p .shutdownz) 0)
    (.w (.hsfreqrange id)) (Config.hsfreqCode (rangeIndex rate)).toNat) (.w (.enableclk id)) 1) (.p .rstz) 1)
    (.p .shutdownz) 1).setDphy .waitStopState

/-- The standard path with a rate in the table is its released state followed by the wait. -/
theorem dphyPowerupStd_open {s : State} (ho : Open s) (hc : s.ctx = .config) {id lanes rate : Nat} (hid : id < Config.numPhy)
    (h1 : 1 ≤ lanes) (h4 : lanes ≤ 4) (hr : 160 ≤ rate) :
    dphyPowerupStd id lanes rate s
      = (waitOrTimeout lanes (stdReleased s id rate)).andThen fun _ s => .ok () (s.setDphy .ready) := by
  simp only [dphyPowerupStd, blocking_config hc, withPhy_ok hid, withLanes_ok h1 h4, wrapSetHsfreqrange, hsfreqIndex_eq hr,
    wrapEnableClock]
  simp [ho, stdReleased]

/-! ## Test-interface writes -/

/-- The state after one undisturbed test-interface write (R150). -/
def testWritten (id : Nat) (m : TestWrite) (s : State) : State :=
  storeTest (if m.other then id ^^^ 1 else id) m.code m.data
    (updState (updState s (.w (.selOther id)) (bit m.other)) (.w (.testcode id)) m.code)

@[simp] theorem open_testWritten (id : Nat) (m : TestWrite) (s : State) : Open (testWritten id m s) ↔ Open s := by
  simp [testWritten]

/-- An undisturbed list of test-interface writes (R147 step 9, R148). -/
theorem testWrites_open {id : Nat} (hid : id < Config.numPhy) (l : List TestWrite) {s : State} (ho : Open s) :
    forEach l (fun m s => dphyTestWrite id m.other m.code m.data.toNat s) s
      = .ok () (l.foldl (fun s m => testWritten id m s) s) ∧
    Open (l.foldl (fun s m => testWritten id m s) s) := by
  induction l generalizing s with
  | nil => exact ⟨rfl, ho⟩
  | cons m l ih =>
    have e : dphyTestWrite id m.other m.code m.data.toNat s = .ok () (testWritten id m s) := by
      simp [dphyTestWrite, wrapTestcodeSelOtherPhy, wrapSetTestcode, withPhy_ok hid, ho, testWritten, mateOf]
    rw [forEach_cons, e, Res.andThen_ok, List.foldl_cons]
    exact ih (s := testWritten id m s) ((open_testWritten _ _ _).mpr ho)

/-- What a list of test-interface writes does: the wrapper's steering fields, the bytes of T, the test trace, the register
trace, and nothing else. -/
structure TestWritesDone (id : Nat) (s u : State) (l : List TestWrite) : Prop where
  rest : u = { s with w := u.w, t := u.t, testTrace := u.testTrace, trace := u.trace }
  w : u.w = l.foldl
    (fun w m => wSet s.cfg (wSet s.cfg w (.selOther id) (if m.other then 1 else 0)) (.testcode id) m.code) s.w
  testTrace : u.testTrace = s.testTrace ++
    l.map fun m => ⟨if m.other then id ^^^ 1 else id, m.code % 2 ^ testcodeWidth s.cfg, m.data⟩
  memory : u.t = l.foldl
    (fun mem m => Memory.write s.draw mem (testAddress s.cfg (if m.other then id ^^^ 1 else id) m.code) m.data) s.t
  trace : ∃ acc, u.trace = s.trace ++ acc ∧ acc.filterMap Access.written
    = l.flatMap fun _ => [.w (wrapperPos s.cfg (.selOther id)).word, .w (wrapperPos s.cfg (.testcode id)).word]

theorem testWrites_done (id : Nat) (l : List TestWrite) (s : State) :
    TestWritesDone id s (l.foldl (fun s m => testWritten id m s) s) l := by
  induction l generalizing s with
  | nil => exact ⟨rfl, rfl, by simp, rfl, [], by simp, rfl⟩
  | cons m l ih =>
    have h := ih (testWritten id m s)
    have hcfg : (testWritten id m s).cfg = s.cfg := by simp [testWritten, storeTest]
    have hdraw : (testWritten id m s).draw = s.draw := by simp [testWritten, storeTest]
    rw [List.foldl_cons]
    refine ⟨?_, ?_, ?_, ?_, ?_⟩
    · rw [h.rest]
      apply State.eq_of_fields <;> simp [testWritten, storeTest]
    · rw [h.w, hcfg, List.foldl_cons]
      simp [testWritten, storeTest, updState_w, bit]
    · rw [h.testTrace, hcfg]
      simp [testWritten, storeTest]
    · rw [h.memory, hcfg, hdraw, List.foldl_cons]
      simp [testWritten, storeTest]
    · obtain ⟨acc, h1, h2⟩ := h.trace
      refine ⟨_, by rw [h1]; simp [testWritten, storeTest]; rfl, ?_⟩
      rw [hcfg] at h2
      simp only [List.filterMap_cons, written_rd, written_wr, fieldLoc, h2, List.flatMap_cons]
      rfl

/-- Bytes at other addresses than a list of writes stores to read as before. -/
theorem read_foldl_write {α : Type} {n : Nat} (l : List α) (addr : α → Nat) (byte : α → Byte) (mem : Memory) (a : Nat)
    (h : ∀ m ∈ l, addr m ≠ a) :
    Memory.read n (l.foldl (fun mem m => Memory.write n mem (addr m) (byte m)) mem) a = Memory.read n mem a := by
  induction l generalizing mem with
  | nil => rfl
  | cons m l ih =>
    rw [List.foldl_cons, ih _ fun k hk => h k (List.mem_cons_of_mem _ hk)]
    exact Memory.read_write_ne _ _ _ _ fun e => h m (List.mem_cons_self ..) e.symm

/-! ## The merged power-up -/

/-- The state before the test writes of the merged path (R147 steps 2 to 8). -/
def mergedProgrammed (s : State) (id rate : Nat) : State :=
  updState (updState (updState (updState (updState (updState (updState (s.setDphy .powerSequence)
    (.w (.ctrlSel (id / 2))) 1) (.p .rstz) 0) (.x .rstz) 0) (.p .shutdownz) 0) (.x .shutdownz) 0)
    (.w (.hsfreqrange (id - id % 2))) (Config.hsfreqCode (rangeIndex rate)).toNat)
    (.w (.hsfreqrange (id - id % 2 + 1))) (Config.hsfreqCode (rangeIndex rate)).toNat

/-- The state at the start of the waits of the merged path (R147 steps 10 to 12). -/
def mergedReleased (s : State) : State :=
  (updState (updState (updState (updState s (.p .rstz) 1) (.x .rstz) 1) (.p .shutdownz) 1) (.x .shutdownz) 1).setDphy
    .waitStopState

/-- The guard lets an even index pass with no access, and an odd one whose pair does not read merged with one read (R147
step 1). -/
theorem mergeGuard_pass {s : State} (ho : Open s) {id : Nat} (hid : id < Config.numPhy)
    (h : id % 2 = 1 → wField s (.ctrlSel (id / 2)) ≠ 1) :
    ∃ l, (l = [] ∨ ∃ v, l = [Access.rd (.w (wrapperPos s.cfg (.ctrlSel (id / 2))).word) v]) ∧
      mergeGuard id s = .ok () (s.setTrace (s.trace ++ l)) := by
  unfold mergeGuard
  by_cases hi : id % 2 = 1
  · rw [if_pos hi]
    refine ⟨_, .inr ⟨tblGet 0 s.w (wrapperPos s.cfg (.ctrlSel (id / 2))).word, rfl⟩, ?_⟩
    have h' := h hi
    unfold wField at h'
    simp only [wrapGetLaneMode, withPhy_ok hid, rd_open ho, Res.andThen_ok, pairOf, fieldLoc]
    have hb : (getField (valueAt s (Loc.w (wrapperPos s.cfg (WField.ctrlSel (id / 2))).word))
        (placeOf s.cfg (Field.w (WField.ctrlSel (id / 2)))) == 1) = false := by
      simpa [valueAt] using h'
    rw [show (readState s _).cfg = s.cfg from by simp, hb]
    rfl
  · rw [if_neg hi]
    exact ⟨[], .inl rfl, by simp⟩

/-- The merged path with a rate in the table and a guard that passes is its released state followed by the two waits. -/
theorem dphyPowerupMerged_open {s : State} (ho : Open s) (hc : s.ctx = .config) {id lanes rate : Nat}
    (hid : id < Config.numPhy) (h1 : 1 ≤ lanes) (h4 : lanes ≤ 4) (hr : 160 ≤ rate)
    (hg : id % 2 = 1 → wField s (.ctrlSel (id / 2)) ≠ 1) :
    ∃ l, (l = [] ∨ ∃ v, l = [Access.rd (.w (wrapperPos s.cfg (.ctrlSel (id / 2))).word) v]) ∧
      dphyPowerupMerged id lanes rate s
        = (waitOrTimeout 2 (mergedReleased (s.cfg.mergeSeq.foldl (fun s m => testWritten id m s)
            (mergedProgrammed (s.setTrace (s.trace ++ l)) id rate)))).andThen fun _ s =>
          (waitOrTimeout 4 s).andThen fun _ s => .ok () (s.setDphy .ready) := by
  obtain ⟨l, hl, hp⟩ := mergeGuard_pass ho hid hg
  refine ⟨l, hl, ?_⟩
  have hmaj : id - id % 2 < Config.numPhy := by omega
  have hmaj1 : id - id % 2 + 1 < Config.numPhy := by simp [Config.numPhy] at *; omega
  have ho1 : Open (s.setTrace (s.trace ++ l)) := ho
  have ho2 : Open (mergedProgrammed (s.setTrace (s.trace ++ l)) id rate) := by simpa [mergedProgrammed] using ho
  obtain ⟨e, ho3⟩ := testWrites_open hid s.cfg.mergeSeq ho2
  simp only [dphyPowerupMerged, blocking_config hc, withPhy_ok hid, withLanes_ok h1 h4, hp, Res.andThen_ok, wrapSetLaneMode,
    updBoth, wrapSetHsfreqrange, hsfreqIndex_eq hr, majorOf, withPhy_ok hmaj, withPhy_ok hmaj1, pairOf, bit, if_true]
  simp [ho]
  rw [show updState _ _ _ = mergedProgrammed (s.setTrace (s.trace ++ l)) id rate from rfl, e]
  simp [ho3]
  rfl

/-! ## Programming a channel -/

theorem open_setInst {s : State} (v : Instance) (hp : v.baseP = s.inst.baseP) (hx : v.baseX = s.inst.baseX)
    (hw : v.baseW = s.inst.baseW) : Open (s.setInst v) ↔ Open s :=
  Open.congr rfl hp hx hw rfl

/-- The state after the test-pattern registers (R203 steps 8 and 9). -/
def tpgProgrammed (ch : Nat) (dt : BitVec 6) (pkt2pkt : Nat) (s : State) : State :=
  let vc := getField (s.p.get (.ipi ch .vcid)) (fieldPos s.cfg (.vcid ch))
  updState (updState (updState (updState
    ((readState s (.p (.ipi ch .vcid))).setInst { s.inst with tpgVc := vc, tpgDt := dt.toNat })
    (.p .tpgHorizontal) (bit s.inst.tpgHorizontal)) (.p .tpgVc) vc) (.p .tpgDt) dt.toNat) (.p .pkt2pkt) pkt2pkt

theorem programTpg_open {s : State} (ho : Open s) (ch : Nat) (dt : BitVec 6)
    (hi : (∃ lanes rate, TimingInputs s lanes rate) ∨ s.inst.tpgPkt2pkt ≠ 0) :
    ∃ v, programTpg ch dt s = .ok () (tpgProgrammed ch dt v s) ∧ (s.inst.tpgPkt2pkt ≠ 0 → v = s.inst.tpgPkt2pkt) ∧
      (∀ rate, s.inst.tpgPkt2pkt = 0 → s.inst.laneRate = some rate → v = Config.pkt2pkt rate s.inst.pixclk 2) := by
  let vc := getField (s.p.get (.ipi ch .vcid)) (fieldPos s.cfg (.vcid ch))
  let s1 := (readState s (.p (.ipi ch .vcid))).setInst { s.inst with tpgVc := vc, tpgDt := dt.toNat }
  have ho1 : Open s1 := (open_setInst (s := readState s (.p (.ipi ch .vcid))) _ (by simp) (by simp) (by simp)).mpr
    (by simpa using ho)
  have hinst : s1.inst = { s.inst with tpgVc := vc, tpgDt := dt.toNat } := rfl
  let s4 := updState (updState (updState s1 (.p .tpgHorizontal) (bit s.inst.tpgHorizontal)) (.p .tpgVc) vc)
    (.p .tpgDt) dt.toNat
  have ho4 : Open s4 := by simpa [s4] using ho1
  have hi4 : s4.inst = s1.inst := by simp [s4]
  have key : ∃ v, pkt2pktTime s4 = .ok v s4 ∧ (s.inst.tpgPkt2pkt ≠ 0 → v = s.inst.tpgPkt2pkt) ∧
      (∀ rate, s.inst.tpgPkt2pkt = 0 → s.inst.laneRate = some rate → v = Config.pkt2pkt rate s.inst.pixclk 2) := by
    unfold pkt2pktTime
    rw [hi4, hinst]
    by_cases h0 : s.inst.tpgPkt2pkt ≠ 0
    · rw [if_pos h0]
      exact ⟨_, rfl, fun _ => rfl, fun _ h => absurd h h0⟩
    · rw [if_neg h0]
      obtain ⟨lanes, rate, h1, h2, h3, h4, h5, h6⟩ := hi.resolve_right h0
      refine ⟨Config.pkt2pkt rate s.inst.pixclk 2, ?_, fun h => absurd h h0, fun r _ hr => ?_⟩
      · simp [timPkt2pkt, withTimingInputs, hi4, hinst, h1, h2, h3, h4, h5, h6, Config.fsyncType]
      · rw [h2] at hr
        cases hr
        rfl
  obtain ⟨v, e, k1, k2⟩ := key
  refine ⟨v, ?_, k1, k2⟩
  have hoa : Open (updState s1 (Field.p PField.tpgHorizontal) (bit s.inst.tpgHorizontal)) := by simpa using ho1
  unfold programTpg
  rw [rd_open ho, Res.andThen_ok]
  show (upd (.p .tpgHorizontal) (bit s.inst.tpgHorizontal) s1).andThen _ = _
  rw [upd_open ho1, Res.andThen_ok]
  simp only [updState_inst]
  rw [upd_open hoa, Res.andThen_ok]
  simp only [updState_inst]
  rw [upd_open (by simpa using ho1), Res.andThen_ok]
  show (pkt2pktTime s4).andThen _ = _
  rw [e, Res.andThen_ok, upd_open ho4]
  rfl

/-- The triple IPI_INIT writes (R203 step 6). -/
theorem initTiming_ok {s : State} (eff : Format) (width : Nat) (cut : Bool) (hi : InitInputs s) :
    ∃ tm, initTiming eff width cut s = .ok tm s ∧
      (s.inst.isNative = true → tm = ⟨4, 4, s.cfg.hsdDefault⟩) ∧
      (∀ lanes rate, s.inst.isNative = false → TimingInputs s lanes rate →
        tm = if cut then cutThroughTiming s.cfg lanes rate s.inst.pixclk
             else legacyTiming s.cfg eff width 4 4 lanes rate s.inst.pixclk) := by
  unfold initTiming
  cases hn : s.inst.isNative
  · rcases hi with ⟨lanes, rate, h1, h2, h3, h4, h5, h6⟩ | ⟨h, -⟩
    · refine ⟨if cut then cutThroughTiming s.cfg lanes rate s.inst.pixclk
             else legacyTiming s.cfg eff width 4 4 lanes rate s.inst.pixclk, ?_, by simp, ?_⟩
      · cases cut <;> simp [timCutThrough, timHsdLegacyOf, withTimingInputs, h1, h2, h3, h4, h5, h6, Config.hsaDefault,
          Config.hbpDefault]
      · rintro l r - ⟨a, b, -⟩
        rw [h1] at a
        rw [h2] at b
        cases a
        cases b
        rfl
    · rw [hn] at h
      cases h
  · exact ⟨_, rfl, fun _ => rfl, fun _ _ h => by cases h⟩

/-- The state after the mode fields (R203 steps 3 to 5). -/
def formatWritten (ch : Nat) (eff : Format) (cut : Bool) (s : State) : State :=
  updState (updState (updState (updState s (.p (.dt ch)) (classOf s.cfg eff).dt.toNat) (.p (.autoFlush ch)) 1)
    (.p (.color16 ch)) (bit (color16Of eff))) (.p (.cutThrough ch)) (bit cut)

/-- The state after the timing registers (R203 step 7). -/
def timingWritten (ch : Nat) (tm : Timing) (s : State) : State :=
  updState (updState (updState s (.p (.hsa ch)) tm.hsa) (.p (.hbp ch)) tm.hbp) (.p (.hsd ch)) tm.hsd

/-- The state after the advanced features, the pulse and the phase (R203 steps 10 to 12). -/
def initFinished (ch : Nat) (adv : Word) (s : State) : State :=
  setPhase ch .configured (updState (updState (wroteState s (.p (.ipi ch .advFeatures)) adv) (.p (.softrstn ch)) 0)
    (.p (.softrstn ch)) 1)

/-- The undisturbed `init` on a pixel channel with a recognized format and the attributes it computes with. -/
theorem ipiInit_open {s : State} (ho : Open s) {ch width height fmt : Nat} {f eff : Format} {cut : Bool} {adv : Word}
    (hch : ch < s.cfg.numInst - 1) (hi : InitInputs s) (hfmt : formatOfCode fmt = some f)
    (heff : eff = if s.inst.tpgEnabled then .rgb888 else f) :
    ∃ tm v, ipiInit ch width height fmt cut adv s
        = .ok () (initFinished ch adv (if s.inst.tpgEnabled
            then tpgProgrammed ch (classOf s.cfg eff).dt v (timingWritten ch tm (formatWritten ch eff cut s))
            else timingWritten ch tm (formatWritten ch eff cut s))) ∧
      (s.inst.isNative = true → tm = ⟨4, 4, s.cfg.hsdDefault⟩) ∧
      (∀ lanes rate, s.inst.isNative = false → TimingInputs s lanes rate →
        tm = if cut then cutThroughTiming s.cfg lanes rate s.inst.pixclk
             else legacyTiming s.cfg eff width 4 4 lanes rate s.inst.pixclk) ∧
      (s.inst.tpgEnabled = true → s.inst.tpgPkt2pkt ≠ 0 → v = s.inst.tpgPkt2pkt) ∧
      (s.inst.tpgEnabled = true → ∀ rate, s.inst.tpgPkt2pkt = 0 → s.inst.laneRate = some rate →
        v = Config.pkt2pkt rate s.inst.pixclk 2) := by
  have ho1 : Open (formatWritten ch eff cut s) := by simpa [formatWritten] using ho
  have hi1 : InitInputs (formatWritten ch eff cut s) := by simpa [InitInputs, TimingInputs, formatWritten] using hi
  obtain ⟨tm, e1, t1, t2⟩ := initTiming_ok eff width cut hi1
  let w := timingWritten ch tm (formatWritten ch eff cut s)
  have ho2 : Open w := by simpa [w, timingWritten] using ho1
  have i2 : w.inst = s.inst := by simp [w, timingWritten, formatWritten]
  have e2 : ∃ v, (if w.inst.tpgEnabled then programTpg ch (classOf s.cfg eff).dt w else .ok () w)
        = .ok () (if s.inst.tpgEnabled then tpgProgrammed ch (classOf s.cfg eff).dt v w else w) ∧
      (s.inst.tpgEnabled = true → s.inst.tpgPkt2pkt ≠ 0 → v = s.inst.tpgPkt2pkt) ∧
      (s.inst.tpgEnabled = true → ∀ rate, s.inst.tpgPkt2pkt = 0 → s.inst.laneRate = some rate →
        v = Config.pkt2pkt rate s.inst.pixclk 2) := by
    rw [i2]
    by_cases h : s.inst.tpgEnabled = true
    · simp only [h, if_true]
      have hin : (∃ lanes rate, TimingInputs w lanes rate) ∨ w.inst.tpgPkt2pkt ≠ 0 := by
        unfold TimingInputs
        rw [i2]
        rcases hi with hi | ⟨-, hi⟩
        · exact .inl hi
        · rw [h] at hi
          exact .inr (by simpa using hi)
      obtain ⟨v, e, k1, k2⟩ := programTpg_open ho2 ch (classOf s.cfg eff).dt hin
      rw [i2] at k1 k2
      exact ⟨v, e, fun _ => k1, fun _ => k2⟩
    · simp only [h]
      exact ⟨0, rfl, by simp, by simp⟩
  obtain ⟨v, e2, k1, k2⟩ := e2
  refine ⟨tm, v, ?_, by simpa [formatWritten] using t1, by simpa [formatWritten, TimingInputs] using t2, k1, k2⟩
  have hW : Open (if s.inst.tpgEnabled then tpgProgrammed ch (classOf s.cfg eff).dt v w else w) := by
    split
    · unfold tpgProgrammed
      simp only [open_updState]
      exact (open_setInst _ (by simp) (by simp) (by simp)).mpr (by simpa using ho2)
    · exact ho2
  show _ = Res.ok () (initFinished ch adv (if s.inst.tpgEnabled then tpgProgrammed ch (classOf s.cfg eff).dt v w else w))
  generalize (if s.inst.tpgEnabled then tpgProgrammed ch (classOf s.cfg eff).dt v w else w) = u at e2 hW
  have e3 : writeTiming ch tm (formatWritten ch eff cut s) = .ok () w := by
    simp [writeTiming, ho1]
    rfl
  unfold ipiInit
  rw [withChannel_ok hch]
  simp only [withFormat, hfmt, effectiveFormat, ← heff]
  rw [upd_open ho, Res.andThen_ok, upd_open (by simpa using ho), Res.andThen_ok, upd_open (by simpa using ho),
    Res.andThen_ok, upd_open (by simpa using ho), Res.andThen_ok]
  show (initTiming eff width cut (formatWritten ch eff cut s)).andThen _ = _
  rw [e1, Res.andThen_ok, e3, Res.andThen_ok]
  show ((if w.inst.tpgEnabled then programTpg ch (classOf s.cfg eff).dt w else .ok () w).andThen _) = _
  rw [e2, Res.andThen_ok, wr_open hW, Res.andThen_ok]
  simp [softResetPulse, hW]
  rfl

/-! ## The mode word of IPI_SET_VC_CFG -/

/-- With a word of the enum the operation is `set_vc_cfg` with that mode (R94, R201). -/
theorem ipiSetVcCfgWord_mode {s : State} {ch vcId vcMode : Nat} {embEn : Bool} {m : VcMode}
    (hch : ch < s.cfg.numInst - 1) (hm : vcModeOfCode vcMode = some m) :
    ipiSetVcCfgWord ch vcId embEn vcMode s = ipiSetVcCfg ch vcId embEn m s := by
  rw [ipiSetVcCfgWord, withChannel_ok hch]
  simp only [hm]

/-- With any other word it is `set_vc_cfg` with the free mode, one choice later (notes/assumptions/36.md). -/
theorem ipiSetVcCfgWord_free {s : State} {ch vcId vcMode : Nat} {embEn : Bool} (hch : ch < s.cfg.numInst - 1)
    (hm : vcModeOfCode vcMode = none) :
    ipiSetVcCfgWord ch vcId embEn vcMode s
      = ipiSetVcCfg ch vcId embEn (if chooseFree s then .ctrl else .camera) (s.setChoice (s.choice + 1)) := by
  rw [ipiSetVcCfgWord, withChannel_ok hch]
  simp only [hm]

/-! ## Programming a channel without the attributes -/

/-- An outcome of accesses alone: `Ok` with attributes, schedule and configuration kept, or the fault of a window that is
not open. -/
def AccessOnly (s : State) (r : Res Unit) : Prop :=
  match r with
  | .ok _ u => u.inst = s.inst ∧ u.env = s.env ∧ u.cfg = s.cfg
  | .err _ _ => False
  | .stop f => f = .preconditionViolated

theorem upd_accessOnly {s : State} (he : s.env = []) (f : Field) (n : Nat) : AccessOnly s (upd f n s) := by
  unfold upd updateVia readVia writeVia
  split
  · simp only [configTick, he, Res.andThen_ok]
    split
    · simp [AccessOnly, logAccess, he, Res.andThen]
    · rfl
  · rfl

theorem AccessOnly.seq {s : State} {r : Res Unit} {f : Unit → State → Res Unit} (h : AccessOnly s r)
    (hf : ∀ u, u.env = s.env → AccessOnly u (f () u)) : AccessOnly s (r.andThen f) := by
  cases r with
  | ok a u =>
    have hu := hf u h.2.1
    rw [Res.andThen_ok]
    cases hr : f () u with
    | ok a v =>
      rw [hr] at hu
      exact ⟨hu.1.trans h.1, hu.2.1.trans h.2.1, hu.2.2.trans h.2.2⟩
    | err e v =>
      rw [hr] at hu
      exact hu.elim
    | stop g =>
      rw [hr] at hu
      exact hu
  | err e u => exact h.elim
  | stop g => exact h

/-- What faults after accesses faults. -/
theorem AccessOnly.fault {s : State} {r : Res Unit} {f : Unit → State → Res Unit} (h : AccessOnly s r)
    (hf : ∀ u, u.inst = s.inst → u.env = s.env → f () u = .stop .preconditionViolated) :
    r.andThen f = .stop .preconditionViolated := by
  cases r with
  | ok a u => exact hf u h.1 h.2.1
  | err e u => exact h.elim
  | stop g =>
    cases h
    rfl

/-- The calculator without a lane count or a lane rate (R170). -/
theorem withTimingInputs_unset {α : Type} {s : State} (hl : s.inst.lanes = none ∨ s.inst.laneRate = none)
    (body : Nat → Nat → State → Res α) : withTimingInputs body s = .stop .preconditionViolated := by
  unfold withTimingInputs
  rcases hl with h | h
  · rw [h]
  · rw [h]
    simp

/-- The test-pattern registers when the packet time is neither supplied nor computable (R203 step 9). -/
theorem programTpg_unset {s : State} (he : s.env = []) (hl : s.inst.lanes = none ∨ s.inst.laneRate = none)
    (hp : s.inst.tpgPkt2pkt = 0) (ch : Nat) (dt : BitVec 6) : programTpg ch dt s = .stop .preconditionViolated := by
  unfold programTpg rd readVia
  split
  · simp only [configTick, he, Res.andThen_ok]
    refine (upd_accessOnly (by simp [logAccess, he]) _ _).fault fun v1 i1 e1 => ?_
    refine (upd_accessOnly (by rw [e1]; simp [logAccess, he]) _ _).fault fun v2 i2 e2 => ?_
    refine (upd_accessOnly (by rw [e2, e1]; simp [logAccess, he]) _ _).fault fun v3 i3 e3 => ?_
    have hi : v3.inst.lanes = s.inst.lanes ∧ v3.inst.laneRate = s.inst.laneRate ∧
        v3.inst.tpgPkt2pkt = s.inst.tpgPkt2pkt := by
      rw [i3, i2, i1]
      simp [logAccess]
    rw [pkt2pktTime, hi.2.2, hp, if_neg (by simp), timPkt2pkt,
      withTimingInputs_unset (by rw [hi.1, hi.2.1]; exact hl)]
    rfl
  · rfl

/-- The undisturbed `init` of a bridged instance without a lane count or rate, or with a generator whose packet time would
have to be computed without them (R170, R203, R314). -/
theorem ipiInit_unset {s : State} (he : s.env = []) (hl : s.inst.lanes = none ∨ s.inst.laneRate = none)
    {ch width height fmt : Nat} {f : Format} {cut : Bool} {adv : Word} (hch : ch < s.cfg.numInst - 1)
    (hf : formatOfCode fmt = some f)
    (h : s.inst.isNative = false ∨ (s.inst.tpgEnabled = true ∧ s.inst.tpgPkt2pkt = 0)) :
    ipiInit ch width height fmt cut adv s = .stop .preconditionViolated := by
  unfold ipiInit
  rw [withChannel_ok hch]
  simp only [withFormat, hf]
  refine (upd_accessOnly he _ _).fault fun u1 i1 e1 => ?_
  refine (upd_accessOnly (e1.trans he) _ _).fault fun u2 i2 e2 => ?_
  refine (upd_accessOnly (e2.trans (e1.trans he)) _ _).fault fun u3 i3 e3 => ?_
  refine (upd_accessOnly (e3.trans (e2.trans (e1.trans he))) _ _).fault fun u4 i4 e4 => ?_
  have hi : u4.inst = s.inst := i4.trans (i3.trans (i2.trans i1))
  have hv : u4.env = [] := e4.trans (e3.trans (e2.trans (e1.trans he)))
  unfold initTiming
  rw [hi]
  cases hn : s.inst.isNative with
  | false =>
    simp only [Bool.false_eq_true, if_false]
    split
    · rw [timCutThrough, withTimingInputs_unset (hi ▸ hl)]
      rfl
    · rw [timHsdLegacyOf, withTimingInputs_unset (hi ▸ hl)]
      rfl
  | true =>
    obtain ⟨ht, hp⟩ := h.resolve_left (by simp [hn])
    simp only [if_true, Res.andThen_ok]
    have hw : AccessOnly u4 (writeTiming ch ⟨Config.hsaDefault, Config.hbpDefault, u4.cfg.hsdDefault⟩ u4) :=
      (upd_accessOnly hv _ _).seq fun v e => (upd_accessOnly (e.trans hv) _ _).seq fun w e' =>
        upd_accessOnly (e'.trans (e.trans hv)) _ _
    refine hw.fault fun u5 i5 e5 => ?_
    rw [if_pos (by rw [i5, hi]; exact ht),
      programTpg_unset (e5.trans hv) (by rw [i5, hi]; exact hl) (by rw [i5, hi]; exact hp)]
    rfl

end Sys2Proof.Machine
end

