-- ==== Sys2Proof/Tests/Slice0.lean ====
section
/-! SUPPORT. The model's own tests: ill-formed instructions are refused, every row's delivery decodes to its instruction, the
vectors of 95_test_vectors.md hold (named in each docstring, with the expected values of that file), and every obligation
with hypotheses has a witness that meets them. -/

namespace Sys2Proof.Tests
open Sys2Proof Sys2Proof.Machine

/-! ## Well-formedness: an operand that does not fit its word is refused, operand by operand -/

theorem test_wellFormed_refuses_msg : ([
    .cmdSetVcCfg (2 ^ 32) 1 true 1, .cmdSetVcCfg 1 (2 ^ 32) true 1, .cmdSetVcCfg 1 1 true (2 ^ 32),
    .cmdSetLanes (2 ^ 32) 1, .cmdSetLanes 1 (2 ^ 32), .cmdSetLaneRate (2 ^ 32) 1, .cmdSetLaneRate 1 (2 ^ 32),
    .cmdSetTpgMode (2 ^ 32) true 1, .cmdSetTpgMode 1 true (2 ^ 32), .cmdSetBypass (2 ^ 32) true,
    .cmdSetFormat (2 ^ 32) 1 1 1, .cmdSetFormat 1 (2 ^ 32) 1 1, .cmdSetFormat 1 1 (2 ^ 32) 1,
    .cmdSetFormat 1 1 1 (2 ^ 32), .cmdSetState (2 ^ 32) true, .cmdResetControl (2 ^ 32)] : List Instr).all (fun i => !i.wellFormed) = true := by
  decide

theorem test_wellFormed_refuses_op : ([
    .regRead (2 ^ 32), .regWrite (2 ^ 32) 0, .regReadExt (2 ^ 32), .regWriteExt (2 ^ 32) 0,
    .wrapEnableClock (2 ^ 32), .wrapForceRxMode (2 ^ 32) 1 true, .wrapForceRxMode 1 (2 ^ 32) true,
    .wrapGetLaneMode (2 ^ 32), .wrapSetLaneMode (2 ^ 32) true, .wrapSetHsfreqrange (2 ^ 32) 1,
    .wrapSetHsfreqrange 1 (2 ^ 32), .wrapSetTestcode (2 ^ 32) 1, .wrapSetTestcode 1 (2 ^ 32),
    .wrapTestcodeSelOtherPhy (2 ^ 32) true, .dphyPowerupStd (2 ^ 32) 1 1, .dphyPowerupStd 1 (2 ^ 32) 1,
    .dphyPowerupStd 1 1 (2 ^ 32), .dphyPowerupMerged (2 ^ 32) 1 1, .dphyPowerupMerged 1 (2 ^ 32) 1,
    .dphyPowerupMerged 1 1 (2 ^ 32), .dphyTestWrite (2 ^ 32) true 1 1, .dphyTestWrite 1 true (2 ^ 32) 1,
    .dphyTestWrite 1 true 1 (2 ^ 32), .dphyWaitStopstate (2 ^ 32), .timClassify (2 ^ 32),
    .timHsdLegacy (2 ^ 32) 1 1 1, .timHsdLegacy 1 (2 ^ 32) 1 1, .timHsdLegacy 1 1 (2 ^ 32) 1,
    .timHsdLegacy 1 1 1 (2 ^ 32), .ipiSetVcCfg (2 ^ 32) 1 true 0, .ipiSetVcCfg 1 (2 ^ 32) true 0,
    .ipiSetVcCfg 1 1 true (2 ^ 32),
    .ipiInit (2 ^ 32) 1 1 1 true 0, .ipiInit 1 (2 ^ 32) 1 1 true 0, .ipiInit 1 1 (2 ^ 32) 1 true 0,
    .ipiInit 1 1 1 (2 ^ 32) true 0, .ipiStart (2 ^ 32), .ipiStop (2 ^ 32), .ipiResetAndDown (2 ^ 32) true,
    .ipiOverflowReset (2 ^ 32), .ipiRegDump (2 ^ 32) 0, .ipiRegSet (2 ^ 32) 0 0 0 0 0 0 0 0 0,
    .irqDisableByMask (2 ^ 32)] : List Instr).all (fun i => !i.wellFormed) = true := by
  decide

/-- The largest number that fits. -/
theorem test_wellFormed_boundary : (Instr.cmdSetLanes 0xffffffff 0xffffffff).wellFormed = true := by decide

/-! ## Decoding: one delivery for every row, written out from 30_encoding.md R91 to R95, the first byte at the lowest
address -/

theorem test_decode_cmdSetVcCfg : decode ⟨.msg, [
      0x00, 0x00, 0x00, 0x00, 0x81, 0x10, 0x20, 0xf0, 0x82, 0x11, 0x21, 0xf1, 0x00, 0x01, 0x00, 0x00, 0x84,
      0x13, 0x23, 0xf3]⟩
    = .instr (.cmdSetVcCfg 0xf0201081 0xf1211182 true 0xf3231384) := by decide
theorem test_decode_cmdSetLanes : decode ⟨.msg, [0x01, 0x00, 0x00, 0x00, 0x81, 0x10, 0x20, 0xf0, 0x82, 0x11, 0x21, 0xf1]⟩
    = .instr (.cmdSetLanes 0xf0201081 0xf1211182) := by decide
theorem test_decode_cmdSetLaneRate : decode ⟨.msg, [
      0x02, 0x00, 0x00, 0x00, 0x81, 0x10, 0x20, 0xf0, 0x82, 0x11, 0x21, 0xf1]⟩
    = .instr (.cmdSetLaneRate 0xf0201081 0xf1211182) := by decide
theorem test_decode_cmdSetTpgMode : decode ⟨.msg, [
      0x03, 0x00, 0x00, 0x00, 0x81, 0x10, 0x20, 0xf0, 0x00, 0x00, 0x00, 0x00, 0x83, 0x12, 0x22, 0xf2]⟩
    = .instr (.cmdSetTpgMode 0xf0201081 false 0xf2221283) := by decide
theorem test_decode_cmdSetBypass : decode ⟨.msg, [0x04, 0x00, 0x00, 0x00, 0x81, 0x10, 0x20, 0xf0, 0x00, 0x00, 0x00, 0x80]⟩
    = .instr (.cmdSetBypass 0xf0201081 true) := by decide
theorem test_decode_cmdSetFormat : decode ⟨.msg, [
      0x05, 0x00, 0x00, 0x00, 0x81, 0x10, 0x20, 0xf0, 0x82, 0x11, 0x21, 0xf1, 0x83, 0x12, 0x22, 0xf2, 0x84,
      0x13, 0x23, 0xf3]⟩
    = .instr (.cmdSetFormat 0xf0201081 0xf1211182 0xf2221283 0xf3231384) := by decide
theorem test_decode_cmdSetState : decode ⟨.msg, [0x06, 0x00, 0x00, 0x00, 0x81, 0x10, 0x20, 0xf0, 0x00, 0x00, 0x00, 0x00]⟩
    = .instr (.cmdSetState 0xf0201081 false) := by decide
theorem test_decode_cmdResetControl : decode ⟨.msg, [0x07, 0x00, 0x00, 0x00, 0x81, 0x10, 0x20, 0xf0]⟩
    = .instr (.cmdResetControl 0xf0201081) := by decide
theorem test_decode_regRead : decode ⟨.op, [0x10, 0x00, 0x00, 0x00, 0x81, 0x10, 0x20, 0xf0]⟩
    = .instr (.regRead 0xf0201081) := by decide
theorem test_decode_regWrite : decode ⟨.op, [0x11, 0x00, 0x00, 0x00, 0x81, 0x10, 0x20, 0xf0, 0x82, 0x11, 0x21, 0xf1]⟩
    = .instr (.regWrite 0xf0201081 0xf1211182) := by decide
theorem test_decode_regReadExt : decode ⟨.op, [0x12, 0x00, 0x00, 0x00, 0x81, 0x10, 0x20, 0xf0]⟩
    = .instr (.regReadExt 0xf0201081) := by decide
theorem test_decode_regWriteExt : decode ⟨.op, [0x13, 0x00, 0x00, 0x00, 0x81, 0x10, 0x20, 0xf0, 0x82, 0x11, 0x21, 0xf1]⟩
    = .instr (.regWriteExt 0xf0201081 0xf1211182) := by decide
theorem test_decode_wrapEnableClock : decode ⟨.op, [0x20, 0x00, 0x00, 0x00, 0x81, 0x10, 0x20, 0xf0]⟩
    = .instr (.wrapEnableClock 0xf0201081) := by decide
theorem test_decode_wrapForceRxMode : decode ⟨.op, [
      0x21, 0x00, 0x00, 0x00, 0x81, 0x10, 0x20, 0xf0, 0x82, 0x11, 0x21, 0xf1, 0x00, 0x01, 0x00, 0x00]⟩
    = .instr (.wrapForceRxMode 0xf0201081 0xf1211182 true) := by decide
theorem test_decode_wrapGetLaneMode : decode ⟨.op, [0x22, 0x00, 0x00, 0x00, 0x81, 0x10, 0x20, 0xf0]⟩
    = .instr (.wrapGetLaneMode 0xf0201081) := by decide
theorem test_decode_wrapSetLaneMode : decode ⟨.op, [
      0x23, 0x00, 0x00, 0x00, 0x81, 0x10, 0x20, 0xf0, 0x00, 0x00, 0x00, 0x00]⟩
    = .instr (.wrapSetLaneMode 0xf0201081 false) := by decide
theorem test_decode_wrapSetHsfreqrange : decode ⟨.op, [
      0x24, 0x00, 0x00, 0x00, 0x81, 0x10, 0x20, 0xf0, 0x82, 0x11, 0x21, 0xf1]⟩
    = .instr (.wrapSetHsfreqrange 0xf0201081 0xf1211182) := by decide
theorem test_decode_wrapEnablePpipgClk : decode ⟨.op, [0x25, 0x00, 0x00, 0x00, 0x00, 0x01, 0x00, 0x00]⟩
    = .instr (.wrapEnablePpipgClk true) := by decide
theorem test_decode_wrapSetTestcode : decode ⟨.op, [
      0x26, 0x00, 0x00, 0x00, 0x81, 0x10, 0x20, 0xf0, 0x82, 0x11, 0x21, 0xf1]⟩
    = .instr (.wrapSetTestcode 0xf0201081 0xf1211182) := by decide
theorem test_decode_wrapTestcodeSelOtherPhy : decode ⟨.op, [
      0x27, 0x00, 0x00, 0x00, 0x81, 0x10, 0x20, 0xf0, 0x00, 0x00, 0x00, 0x80]⟩
    = .instr (.wrapTestcodeSelOtherPhy 0xf0201081 true) := by decide
theorem test_decode_dphyReset : decode ⟨.op, [0x30, 0x00, 0x00, 0x00]⟩
    = .instr .dphyReset := by decide
theorem test_decode_dphyPowerup : decode ⟨.op, [0x31, 0x00, 0x00, 0x00]⟩
    = .instr .dphyPowerup := by decide
theorem test_decode_dphyPowerupStd : decode ⟨.op, [
      0x32, 0x00, 0x00, 0x00, 0x81, 0x10, 0x20, 0xf0, 0x82, 0x11, 0x21, 0xf1, 0x83, 0x12, 0x22, 0xf2]⟩
    = .instr (.dphyPowerupStd 0xf0201081 0xf1211182 0xf2221283) := by decide
theorem test_decode_dphyPowerupMerged : decode ⟨.op, [
      0x33, 0x00, 0x00, 0x00, 0x81, 0x10, 0x20, 0xf0, 0x82, 0x11, 0x21, 0xf1, 0x83, 0x12, 0x22, 0xf2]⟩
    = .instr (.dphyPowerupMerged 0xf0201081 0xf1211182 0xf2221283) := by decide
theorem test_decode_dphyTestWrite : decode ⟨.op, [
      0x34, 0x00, 0x00, 0x00, 0x81, 0x10, 0x20, 0xf0, 0x00, 0x00, 0x00, 0x80, 0x83, 0x12, 0x22, 0xf2, 0x84,
      0x13, 0x23, 0xf3]⟩
    = .instr (.dphyTestWrite 0xf0201081 true 0xf2221283 0xf3231384) := by decide
theorem test_decode_dphyWaitStopstate : decode ⟨.op, [0x35, 0x00, 0x00, 0x00, 0x81, 0x10, 0x20, 0xf0]⟩
    = .instr (.dphyWaitStopstate 0xf0201081) := by decide
theorem test_decode_timClassify : decode ⟨.op, [0x40, 0x00, 0x00, 0x00, 0x81, 0x10, 0x20, 0xf0]⟩
    = .instr (.timClassify 0xf0201081) := by decide
theorem test_decode_timHsdLegacy : decode ⟨.op, [
      0x41, 0x00, 0x00, 0x00, 0x81, 0x10, 0x20, 0xf0, 0x82, 0x11, 0x21, 0xf1, 0x83, 0x12, 0x22, 0xf2, 0x84,
      0x13, 0x23, 0xf3]⟩
    = .instr (.timHsdLegacy 0xf0201081 0xf1211182 0xf2221283 0xf3231384) := by decide
theorem test_decode_timCutThrough : decode ⟨.op, [0x42, 0x00, 0x00, 0x00]⟩
    = .instr .timCutThrough := by decide
theorem test_decode_timPkt2pkt : decode ⟨.op, [0x43, 0x00, 0x00, 0x00]⟩
    = .instr .timPkt2pkt := by decide
theorem test_decode_ipiSetVcCfg : decode ⟨.op, [
      0x50, 0x00, 0x00, 0x00, 0x81, 0x10, 0x20, 0xf0, 0x82, 0x11, 0x21, 0xf1, 0x00, 0x01, 0x00, 0x00, 0x01,
      0x00, 0x00, 0x00]⟩
    = .instr (.ipiSetVcCfg 0xf0201081 0xf1211182 true 1) := by decide
theorem test_decode_ipiInit : decode ⟨.op, [
      0x51, 0x00, 0x00, 0x00, 0x81, 0x10, 0x20, 0xf0, 0x82, 0x11, 0x21, 0xf1, 0x83, 0x12, 0x22, 0xf2, 0x84,
      0x13, 0x23, 0xf3, 0x00, 0x01, 0x00, 0x00, 0x86, 0x15, 0x25, 0xf5]⟩
    = .instr (.ipiInit 0xf0201081 0xf1211182 0xf2221283 0xf3231384 true 0xf5251586) := by decide
theorem test_decode_ipiStart : decode ⟨.op, [0x52, 0x00, 0x00, 0x00, 0x81, 0x10, 0x20, 0xf0]⟩
    = .instr (.ipiStart 0xf0201081) := by decide
theorem test_decode_ipiStop : decode ⟨.op, [0x53, 0x00, 0x00, 0x00, 0x81, 0x10, 0x20, 0xf0]⟩
    = .instr (.ipiStop 0xf0201081) := by decide
theorem test_decode_ipiResetAndDown : decode ⟨.op, [
      0x54, 0x00, 0x00, 0x00, 0x81, 0x10, 0x20, 0xf0, 0x00, 0x00, 0x00, 0x80]⟩
    = .instr (.ipiResetAndDown 0xf0201081 true) := by decide
theorem test_decode_ipiOverflowReset : decode ⟨.op, [0x55, 0x00, 0x00, 0x00, 0x81, 0x10, 0x20, 0xf0]⟩
    = .instr (.ipiOverflowReset 0xf0201081) := by decide
theorem test_decode_ipiRegDump : decode ⟨.op, [0x56, 0x00, 0x00, 0x00, 0x81, 0x10, 0x20, 0xf0, 0x82, 0x11, 0x21, 0xf1]⟩
    = .instr (.ipiRegDump 0xf0201081 0x82) := by decide
theorem test_decode_ipiRegSet : decode ⟨.op, [
      0x57, 0x00, 0x00, 0x00, 0x81, 0x10, 0x20, 0xf0, 0x82, 0x11, 0x21, 0xf1, 0x83, 0x12, 0x22, 0xf2, 0x84,
      0x13, 0x23, 0xf3, 0x85, 0x14, 0x24, 0xf4, 0x86, 0x15, 0x25, 0xf5, 0x87, 0x16, 0x26, 0xf6, 0x88, 0x17,
      0x27, 0xf7, 0x89, 0x18, 0x28, 0xf8, 0x8a, 0x19, 0x29, 0xf9]⟩
    = .instr (.ipiRegSet 0xf0201081 0x82 0xf2221283 0xf3231384 0xf4241485 0xf5251586 0xf6261687 0xf7271788 0xf8281889 0xf929198a) := by decide
theorem test_decode_irqEnable : decode ⟨.op, [0x60, 0x00, 0x00, 0x00]⟩
    = .instr .irqEnable := by decide
theorem test_decode_irqDisable : decode ⟨.op, [0x61, 0x00, 0x00, 0x00]⟩
    = .instr .irqDisable := by decide
theorem test_decode_irqDisableByMask : decode ⟨.op, [0x62, 0x00, 0x00, 0x00, 0x81, 0x10, 0x20, 0xf0]⟩
    = .instr (.irqDisableByMask 0xf0201081) := by decide
theorem test_decode_irqHandle : decode ⟨.op, [0x63, 0x00, 0x00, 0x00]⟩
    = .instr .irqHandle := by decide
theorem test_decode_pwrResume : decode ⟨.op, [0x70, 0x00, 0x00, 0x00]⟩
    = .instr .pwrResume := by decide
theorem test_decode_pwrSuspend : decode ⟨.op, [0x71, 0x00, 0x00, 0x00]⟩
    = .instr .pwrSuspend := by decide

/-- The opcode table's numbering: bit 0 is bit 0 of word 0. -/
theorem test_table_word_msg : decodeTableWord 96 0x000000040000000500000001 = some (.cmdSetLanes 5 4) := by decide
/-- A word without its operands: every further bit is 0. -/
theorem test_table_word_op : decodeTableWord 32 0x24 = some (.wrapSetHsfreqrange 0 0) := by decide
/-- 30_encoding.md R97. -/
theorem test_table_word_reserved : decodeTableWord 32 0x28 = none := by decide
/-- 30_encoding.md R91: a command shorter than its row is no instruction. -/
theorem test_decode_truncated : decode ⟨.msg, [1, 0, 0, 0, 0, 0, 0, 0, 4, 0, 0]⟩ = .truncated := by decide
/-- 43_timing.md R174: `hsa` and `hbp` have defaults, 4 each; `width` has none. -/
theorem test_decode_default_operands : decode ⟨.op, bytesOfWords [0x41, 1, 1920]⟩ = .instr (.timHsdLegacy 1 1920 4 4) ∧
    decode ⟨.op, bytesOfWords [0x41, 1]⟩ = .truncated := by decide

/-! ## A running machine -/

/-- A bank whose registers hold 0. -/
def zeroBank : Bank where
  nLanes := 0
  csi2Resetn := 0
  dataIds := [0, 0]
  phyCfg := 0
  phyMode := 0
  dphyRstz := 0
  phyShutdownz := 0
  phyShut := 0
  phyStopstate := 0
  tpgConfig := 0
  tpgPkt2pkt := 0
  tpgEnable := 0
  idiBypass := 0
  ipiSoftrstn := 0
  ipi := List.replicate 8 ⟨0, 0, 0, 0, 0, 0, 0, 0⟩
  intSt := List.replicate 14 0
  intMsk := List.replicate 14 0
  intForce := List.replicate 14 0

/-- Clocks on, registers 0, two lanes at 800 Mbps, pixel clock 100 MHz (the start of vector V-I5). -/
def demo : State :=
  { State.reset with
    inst := { Instance.atBind with lanes := some 2, laneRate := some 800 }
    p := zeroBank
    x := zeroBank
    w := List.replicate 9 0
    clk := ⟨.on, .on, .on⟩ }

/-- The masks that IRQ_ENABLE leaves. -/
def unmasked : List Word := (List.range 14).map fun k => (catEntry Config.default k).ebits

/-- What a function sees of the next state. -/
def after {α : Type} (i : Instr) (s : State) (f : State → α) : Option α :=
  match exec i s with
  | .next t => some (f t)
  | _ => none

/-- The fault an instruction ends in. -/
def faultOf (i : Instr) (s : State) : Option Fault :=
  match exec i s with
  | .fault f => some f
  | _ => none

/-! ## Register access -/

/-- V-R3: the read returns the status and clears it. -/
theorem test_regRead_clears : after (.regRead 0x0e0) (demo.setP (zeroBank.put (.intSt 0) 5))
    (fun t => (t.result, t.p.get (.intSt 0))) = some (some (.ok (.word 5)), 0) := by decide
/-- V-R2. -/
theorem test_regRead_misaligned : faultOf (.regRead 6) demo = some .unmappedOffset := by decide
/-- V-R1. -/
theorem test_regWrite : after (.regWrite 4 3) demo (fun t => (t.result, t.p.nLanes)) = some (some (.ok .unit), 3) := by
  decide
/-- V-R4: the write to VERSION is ignored. -/
theorem test_regWrite_version : after (.regWrite 0 0xffffffff) demo (fun t => t.p) = some zeroBank := by decide
/-- V-R5. -/
theorem test_regWriteExt : after (.regWriteExt 0x040 7) demo (fun t => (t.x.phyShutdownz, t.p.phyShutdownz))
    = some (7, 0) := by decide
theorem test_regReadExt : after (.regReadExt 0x040) (demo.setX (zeroBank.put .phyShutdownz 7)) (fun t => t.result)
    = some (some (.ok (.word 7))) := by decide
/-- V-R6. -/
theorem test_regReadExt_clocks_off : faultOf (.regReadExt 4) (demo.setClk ⟨.on, .off, .on⟩)
    = some .preconditionViolated := by decide

/-! ## Wrapper -/

/-- V-W1: WRAP_CTRL[1] is word 4 of the default map. -/
theorem test_wrapEnableClock : after (.wrapEnableClock 3) (demo.setW [0, 0, 0, 0, 0xa5a40f00, 0, 0, 0, 0]) (fun t => t.w)
    = some [0, 0, 0, 0, 0xa5a50f00, 0, 0, 0, 0] := by decide
/-- V-W12. -/
theorem test_wrapEnableClock_fault : faultOf (.wrapEnableClock 4) demo = some .preconditionViolated := by decide
/-- V-W6. -/
theorem test_wrapForceRxMode_four : after (.wrapForceRxMode 0 4 true) demo (fun t => t.w)
    = some [0x00060006, 0, 0, 0, 0, 0, 0, 0, 0] := by decide
/-- V-W7: the mate's half is not touched. -/
theorem test_wrapForceRxMode_two : after (.wrapForceRxMode 0 2 false) (demo.setW [0x00060006, 0, 0, 0, 0, 0, 0, 0, 0])
    (fun t => t.w) = some [0x00060000, 0, 0, 0, 0, 0, 0, 0, 0] := by decide
/-- V-W8: the shared bit of pair 1, set for index 2 and read for index 3. -/
theorem test_wrapSetLaneMode : after (.wrapSetLaneMode 2 true) demo (fun t => t.w)
    = some [0, 0, 0, 0, 0x80000000, 0, 0, 0, 0] := by decide
theorem test_wrapGetLaneMode : after (.wrapGetLaneMode 3) (demo.setW [0, 0, 0, 0, 0x80000000, 0, 0, 0, 0])
    (fun t => t.result) = some (some (.ok (.bool true))) := by decide
/-- V-W3. -/
theorem test_hsfreqIndex : [3000, 2500, 1999, 1000, 999, 205, 204, 189, 160, 159, 0].map hsfreqIndex
    = [some 0, some 0, some 2, some 3, some 4, some 9, some 10, some 11, some 11, none, none] := by decide
/-- V-W4: no access is made. -/
theorem test_wrapSetHsfreqrange_low : after (.wrapSetHsfreqrange 1 159) demo (fun t => (t.result, t.trace))
    = some (some (.err .invalidArgument), []) := by decide
/-- V-W11. -/
theorem test_wrapEnablePpipgClk : after (.wrapEnablePpipgClk true) demo (fun t => t.w)
    = some [0, 0, 0, 0, 0, 0, 0, 0, 1] := by decide
/-- V-W10: truncated to 12 bits. -/
theorem test_wrapSetTestcode : after (.wrapSetTestcode 0 0x11ac) demo (fun t => t.w)
    = some [0, 0x1ac, 0, 0, 0, 0, 0, 0, 0] := by decide
theorem test_wrapTestcodeSelOtherPhy : after (.wrapTestcodeSelOtherPhy 3 true) demo (fun t => t.w)
    = some [0, 0, 0, 0, 0, 0x10000000, 0, 0, 0] := by decide

/-! ## D-PHY sequencer -/

/-- V-D1. -/
theorem test_dphyReset : after .dphyReset
    ((demo.setDphy .ready).setP (((zeroBank.put .dphyRstz 3).put .phyShutdownz 1).put .phyShut 1))
    (fun t => (t.dphy, t.p.dphyRstz, t.p.phyShutdownz, t.p.phyShut)) = some (.reset, 2, 0, 0) := by decide
/-- V-D11: the standard path for two lanes; a fault without a lane count (V-D12). -/
theorem test_dphyPowerup : after .dphyPowerup (demo.setP (zeroBank.put .phyStopstate 3)) (fun t => (t.result, t.dphy))
    = some (some (.ok .unit), .ready) := by decide +kernel
theorem test_dphyPowerup_fault : faultOf .dphyPowerup (demo.setInst Instance.atBind)
    = some .preconditionViolated := by decide
/-- V-D2: stop-state answers 0, 1, 3: three reads after the twelve accesses of the six field updates. -/
theorem test_dphyPowerupStd : after (.dphyPowerupStd 2 2 800)
    (demo.setEnv (List.replicate 12 [] ++ [[.stopstate .p 0], [.stopstate .p 1], [.stopstate .p 3]]))
    (fun t => (t.result, t.dphy, t.trace.length, t.p.dphyRstz, t.p.phyShutdownz))
    = some (some (.ok .unit), .ready, 15, 1, 1) := by decide +kernel
/-- V-D3. -/
theorem test_dphyPowerupStd_rate : after (.dphyPowerupStd 0 1 100)
    (demo.setP ((zeroBank.put .dphyRstz 1).put .phyShutdownz 1))
    (fun t => (t.result, t.dphy, t.p.dphyRstz, t.p.phyShutdownz, t.w))
    = some (some (.err .invalidArgument), .reset, 0, 0, List.replicate 9 0) := by decide
/-- V-D6: Busy after exactly one read of W. -/
theorem test_dphyPowerupMerged_busy : after (.dphyPowerupMerged 1 4 1500)
    ((demo.setW [0x80000000, 0, 0, 0, 0, 0, 0, 0, 0]).setDphy .ready) (fun t => (t.result, t.trace, t.dphy))
    = some (some (.err .busy), [.rd (.w 0) 0x80000000], .ready) := by decide
/-- V-D9. -/
theorem test_dphyPowerupMerged_rate : after (.dphyPowerupMerged 0 4 150)
    ((demo.setP (zeroBank.put .dphyRstz 1)).setX (zeroBank.put .phyShutdownz 1))
    (fun t => (t.result, t.dphy, t.w, t.p.dphyRstz, t.x.phyShutdownz))
    = some (some (.err .invalidArgument), .reset, [0x80000000, 0, 0, 0, 0, 0, 0, 0, 0], 0, 0) := by decide
/-- V-D13: `T[3][0x10]` is at address 0x3010. -/
theorem test_dphyTestWrite : after (.dphyTestWrite 2 true 0x10 0x120) demo (fun t => (t.w, t.testTrace))
    = some ([0, 0, 0, 0, 0, 0x1010, 0, 0, 0], [⟨3, 0x10, 0x20⟩]) := by decide
theorem test_dphyTestWrite_byte : after (.dphyTestWrite 2 true 0x10 0x120) demo (fun t => Memory.read t.draw t.t 0x3010)
    = some 0x20 := congrArg some (Memory.read_write_same (n := 0) [] 0x3010 0x20 rfl)
/-- V-D5: the first answer lacks bit 1, the second shows bits 0 to 2. -/
theorem test_dphyWaitStopstate : after (.dphyWaitStopstate 3)
    (demo.setEnv [[.stopstate .p 0xfff5], [.stopstate .p 0x17]]) (fun t => (t.result, t.trace.length))
    = some (some (.ok .unit), 2) := by decide +kernel

/-! ## Timing calculator -/

/-- V-T18, V-T9. -/
theorem test_timClassify : after (.timClassify 1) demo (fun t => t.result)
    = some (some (.ok (.format ⟨0x2b, true, 10⟩))) := by decide
theorem test_timClassify_unknown : after (.timClassify 7) demo (fun t => t.result)
    = some (some (.err .unsupported)) := by decide
/-- V-T2. -/
theorem test_timHsdLegacy : after (.timHsdLegacy 1 1920 4 4) demo (fun t => t.result)
    = some (some (.ok (.timing ⟨4, 4, 1752⟩))) := by decide +kernel
/-- V-T5: a difference of 1 is clamped, not replaced by the default. -/
theorem test_timHsdLegacy_clamped : after (.timHsdLegacy 1 1920 4 4)
    ((demo.setInst { demo.inst with pixclk := 27050000 })) (fun t => t.result)
    = some (some (.ok (.timing ⟨4, 4, 4⟩))) := by decide +kernel
/-- V-I8's call. -/
theorem test_timCutThrough : after .timCutThrough demo (fun t => t.result)
    = some (some (.ok (.timing ⟨1, 1, 16⟩))) := by decide +kernel
/-- V-T14. -/
theorem test_timCutThrough_overflow : after .timCutThrough
    (demo.setInst { demo.inst with lanes := some 1, laneRate := some 160, pixclk := 6250000000 }) (fun t => t.result)
    = some (some (.ok (.timing ⟨1, 914, 4095⟩))) := by decide +kernel
/-- V-T19. -/
theorem test_timPkt2pkt : after .timPkt2pkt demo (fun t => t.result)
    = some (some (.ok (.nat (Config.pkt2pkt 800 100000000 2)))) := rfl

/-! ## IPI and protocol configurator -/

/-- V-I2. -/
theorem test_ipiSetVcCfg_ctrl : after (.ipiSetVcCfg 0 2 false 1) demo (fun t => t.p.ipi[0]?)
    = some (some ⟨1, 2, 0, 0, 0, 0, 0, 0⟩) := by decide
/-- V-I4: the channel id is truncated to 5 bits. -/
theorem test_ipiSetVcCfg_camera : after (.ipiSetVcCfg 1 0x23 true 0) demo (fun t => t.p.ipi[1]?)
    = some (some ⟨0, 3, 0x100, 0, 0, 0, 0, 0⟩) := by decide
/-- V-I5. -/
theorem test_ipiInit : after (.ipiInit 1 1920 1080 1 false 0) demo
    (fun t => (t.p.ipi[1]?, t.p.ipiSoftrstn, phaseOf t 1))
    = some (some ⟨0x100, 0, 0x2b, 0x100, 4, 4, 1752, 0⟩, 0x10, .configured) := by decide
/-- V-I7: native, with cut-through mode. -/
theorem test_ipiInit_native : after (.ipiInit 0 1920 1080 2 true 5) (demo.setInst { Instance.atBind with isNative := true })
    (fun t => t.p.ipi[0]?) = some (some ⟨0x10100, 0, 0x2c, 0x100, 4, 4, 4, 5⟩) := by decide
/-- V-I10. -/
theorem test_ipiStart : after (.ipiStart 0) (demo.setInst { demo.inst with bypass := true })
    (fun t => (t.p.get (.ipi 0 .mode), t.p.idiBypass, t.p.tpgEnable, phaseOf t 0)) = some (0x1000000, 1, 0, .enabled) := by
  decide
/-- V-I11. -/
theorem test_ipiStop : after (.ipiStop 0)
    ((demo.setInst { demo.inst with bypass := true }).setP
      (((zeroBank.put (.ipi 0 .mode) 0x1000100).put .idiBypass 1).put .csi2Resetn 1))
    (fun t => (t.p.get (.ipi 0 .mode), t.p.idiBypass, t.p.csi2Resetn, phaseOf t 0)) = some (0x100, 0, 0, .disabled) := by
  decide
/-- V-I12, V-I13. -/
theorem test_ipiResetAndDown_down : after (.ipiResetAndDown 0 false)
    (demo.setP ((zeroBank.put (.ipi 0 .mode) 0x1000000).put .ipiSoftrstn 0x11))
    (fun t => (t.p.get (.ipi 0 .mode), t.p.ipiSoftrstn, phaseOf t 0)) = some (0, 0x10, .disabled) := by decide
theorem test_ipiResetAndDown_up : after (.ipiResetAndDown 0 true) (demo.setP (zeroBank.put .ipiSoftrstn 0x10))
    (fun t => (t.p.get (.ipi 0 .mode), t.p.ipiSoftrstn, phaseOf t 0)) = some (0x1000000, 0x11, .enabled) := by decide
/-- V-I14. -/
theorem test_ipiOverflowReset : after (.ipiOverflowReset 2)
    ((demo.setP (zeroBank.put .ipiSoftrstn 0x100)).setChs (List.replicate 8 .enabled))
    (fun t => (t.p.get (.ipi 2 .memFlush), writtenSince demo t, t.p.ipiSoftrstn, phaseOf t 2, phaseOf t 0))
    = some (1, [.p (.ipi 2 .memFlush), .p .ipiSoftrstn, .p .ipiSoftrstn, .p .ipiSoftrstn], 0x11111111, .configured,
      .enabled) := by decide
/-- V-I15. -/
theorem test_ipiRegDump : after (.ipiRegDump 1 0x38)
    (demo.setP (((zeroBank.put (.ipi 1 .hsaTime) 4).put (.ipi 1 .hbpTime) 5).put (.ipi 1 .hsdTime) 1752))
    (fun t => t.result)
    = some (some (.ok (.dump [none, none, none, some 4, some 5, some 1752, none, none]))) := by decide
/-- V-I16: entry 7, whose read clears the status. -/
theorem test_ipiRegDump_status : after (.ipiRegDump 1 0x80) (demo.setP (zeroBank.put (.intSt 11) 2))
    (fun t => (t.result, t.p.get (.intSt 11)))
    = some (some (.ok (.dump [none, none, none, none, none, none, none, some 2])), 0) := by decide
/-- V-I17: one whole-word write, entry 7 ignored. -/
theorem test_ipiRegSet : after (.ipiRegSet 0 0xa0 0 0 0 0 0 0x5000 0 1) demo (fun t => (t.p.ipi[0]?, t.trace))
    = some (some ⟨0, 0, 0, 0, 0, 0, 0x5000, 0⟩, [.wr (.p (.ipi 0 .hsdTime)) 0x5000]) := by decide

/-! ## Interrupt dispatcher -/

/-- V-Q1. -/
theorem test_irqEnable : after .irqEnable demo (fun t => t.p.intMsk)
    = some [0xf, 3, 0xffff, 0xffff, 0xffff, 0xffff, 0xffff, 0xffff, 0xf000f, 0xff00ff, 0x3f, 0x3f, 0x3f, 0x3f] := by decide
/-- V-Q2. -/
theorem test_irqDisable : after .irqDisable
    (demo.setP { zeroBank with intMsk := unmasked, intSt := [0, 0, 0, 0, 1, 0, 0, 0, 0, 0, 0, 0, 0, 0] })
    (fun t => (t.p.intMsk, irqLine t, t.p.get (.intSt 4))) = some (List.replicate 14 0, false, 1) := by decide
/-- V-Q5, V-Q3. -/
theorem test_irqDisableByMask : after (.irqDisableByMask 5) (demo.setP { zeroBank with intMsk := unmasked })
    (fun t => (t.result, t.p.intMsk))
    = some (some (.ok (.bool true)), [0, 3, 0, 0xffff, 0xffff, 0xffff, 0xffff, 0xffff, 0xf000f, 0xff00ff, 0x3f, 0x3f, 0x3f,
      0x3f]) := by decide
theorem test_irqDisableByMask_all : after (.irqDisableByMask 0x3fff) (demo.setP { zeroBank with intMsk := unmasked })
    (fun t => (t.result, t.p.intMsk)) = some (some (.ok (.bool false)), List.replicate 14 0) := by decide
/-- V-Q8. -/
theorem test_irqHandle : after .irqHandle
    (((demo.setOnFault .registered).setOnDone .registered).setP
      { zeroBank with intMsk := unmasked, intSt := [4, 0, 0, 0, 0, 0, 0, 0, 0, 0, 0, 0, 2, 0] })
    (fun t => (t.events, t.p.ipiSoftrstn, t.p.intSt, t.ctx))
    = some ([.faultNotify 0 4 0 false true, .faultNotify 0 2 12 true true, .doneNotify 0 0x00100001], 0x11111111,
      List.replicate 14 0, .config) := by decide
/-- 45_irq.md R246, 70_reset_and_hazards.md R352: two status reads, and a recovery of 6 accesses. -/
theorem test_irqHandle_accesses : after .irqHandle
    (demo.setP { zeroBank with intMsk := unmasked, intSt := [0, 0, 0, 0, 0, 0, 0, 0, 0, 0, 0, 0, 2, 0] })
    (fun t => ((t.trace.filter isStatusRead).length, t.trace.length)) = some (2, 8) := by decide
/-- V-Q9, V-Q11, V-Q12: no overflow bit, a masked category, no done callback. -/
theorem test_irqHandle_masked : after .irqHandle
    (demo.setP { zeroBank with intMsk := [0, 0, 0, 0, 0, 0, 0, 0, 0, 0, 0x3f, 0, 0, 0],
                               intSt := [0, 0, 0, 0, 0, 1, 0, 0, 0, 0, 1, 0, 0, 0] })
    (fun t => (t.events, t.p.ipiSoftrstn, t.p.intSt))
    = some ([.faultNotify 0 1 10 false false], 0, [0, 0, 0, 0, 0, 1, 0, 0, 0, 0, 0, 0, 0, 0]) := by decide

/-! ## Power hooks -/

/-- V-P1: the two clocks that came up go down again. -/
theorem test_pwrResume_rollback : after .pwrResume ((demo.setClk ⟨.off, .off, .off⟩).setClkOk ⟨true, true, false⟩)
    (fun t => (t.result, t.clk, t.draw)) = some (some (.err .invalidArgument), ⟨.off, .off, .off⟩, 0) := by decide
/-- V-P2. -/
theorem test_pwrResume : after .pwrResume ((demo.setClk ⟨.off, .absent, .off⟩).setDphy .ready)
    (fun t => (t.result, t.clk, t.draw, t.dphy, t.ch))
    = some (some (.ok .unit), ⟨.on, .absent, .on⟩, 1, .reset, List.replicate 8 .disabled) := by decide
/-- V-P3. -/
theorem test_pwrSuspend : after .pwrSuspend demo (fun t => (t.result, t.clk, t.inst.lanes, t.draw))
    = some (some (.ok .unit), ⟨.off, .off, .off⟩, some 2, 1) := by decide

/-! ## Commands -/

/-- V-I2 as a command; V-C9. -/
theorem test_cmdSetVcCfg_ctrl : after (.cmdSetVcCfg 0 2 false 1) demo (fun t => t.p.ipi[0]?)
    = some (some ⟨1, 2, 0, 0, 0, 0, 0, 0⟩) := by decide
theorem test_cmdSetVcCfg_mode : after (.cmdSetVcCfg 0 2 false 2) demo (fun t => (t.result, t.trace))
    = some (some (.err .invalidArgument), []) := by decide
/-- V-C1, V-C2. -/
theorem test_cmdSetLanes : after (.cmdSetLanes 0 4) demo (fun t => (t.result, t.inst.lanes, t.p.nLanes))
    = some (some (.ok .unit), some 4, 3) := by decide
theorem test_cmdSetLanes_range : after (.cmdSetLanes 0 5) demo (fun t => (t.result, t.inst.lanes, t.trace))
    = some (some (.err .invalidArgument), some 2, []) := by decide
/-- V-C3, V-C5. -/
theorem test_cmdSetLaneRate_order : after (.cmdSetLaneRate 0 800) (demo.setInst Instance.atBind)
    (fun t => (t.result, t.inst.laneRate)) = some (some (.err .invalidArgument), none) := by decide
theorem test_cmdSetLaneRate_low : after (.cmdSetLaneRate 0 100) (demo.setDphy .ready)
    (fun t => (t.result, t.inst.laneRate, t.dphy)) = some (some (.err .invalidArgument), some 100, .reset) := by decide
/-- V-C6. -/
theorem test_cmdSetTpgMode : after (.cmdSetTpgMode 0 true 7) demo
    (fun t => (t.result, t.inst.tpgEnabled, t.inst.tpgPkt2pkt, t.trace)) = some (some (.ok .unit), true, 7, []) := by decide
/-- V-C7. -/
theorem test_cmdSetBypass : after (.cmdSetBypass 0 true) demo (fun t => (t.result, t.inst.bypass, t.trace))
    = some (some (.ok .unit), true, []) := by decide
/-- Line 9 of program P1. -/
theorem test_cmdSetFormat : after (.cmdSetFormat 0 1920 1080 1) demo (fun t => (t.p.ipi[0]?, phaseOf t 0))
    = some (some ⟨0x100, 0, 0x2b, 0x100, 4, 4, 1752, 0⟩, .configured) := by decide
/-- V-C13 and line 11 of program P1. -/
theorem test_cmdSetState_channel : after (.cmdSetState 4 true) demo (fun t => (t.result, t.trace))
    = some (some (.err .invalidArgument), []) := by decide
theorem test_cmdSetState : after (.cmdSetState 0 true) demo (fun t => (t.p.get (.ipi 0 .mode), phaseOf t 0))
    = some (0x1000000, .enabled) := by decide
/-- V-C10. -/
theorem test_cmdResetControl : after (.cmdResetControl 0) demo (fun t => t.trace)
    = some [.rd (.p .csi2Resetn) 0, .wr (.p .csi2Resetn) 0, .rd (.p .csi2Resetn) 0, .wr (.p .csi2Resetn) 1] := by decide
/-- V-C11 and V-C12: an unknown id, delivered to a bridged and to a native instance. -/
theorem test_unknown_command : (match step (demo.setInbox [⟨.msg, bytesOfWords [9, 0]⟩]) with
    | .next t => some (t.result, t.trace) | _ => none) = some (some (.err .invalidArgument), []) := by decide
theorem test_unknown_command_native : (match step ((demo.setInst { demo.inst with isNative := true }).setInbox
    [⟨.msg, bytesOfWords [9, 0]⟩]) with | .next t => some (t.result, t.trace) | _ => none)
    = some (some (.ok .unit), []) := by decide
/-- 30_encoding.md R97. -/
theorem test_unknown_selector : (match step (demo.setInbox [⟨.op, bytesOfWords [0x28, 0]⟩]) with
    | .refused r => some r | _ => none) = some (.unknownSelector 0x28) := by decide
/-- The step takes the instruction at the head of the queue. -/
theorem test_withFetchWord : (match step (demo.withFetchWord 96 0x000000040000000500000001) with
    | .next t => some (t.inst.lanes, t.inbox) | _ => none) = some (some 4, []) := by decide

/-! ## Other agents -/

/-- 10_state.md R21: the caller registers both callbacks at bind; after an operation, 46_commands.md R286 lets nobody. -/
theorem test_caller_registers : (match step (demo.setEnv [[.onFault .registered, .onDone .registered]]) with
    | .next t => some (t.onFault, t.onDone) | _ => none) = some (.registered, .registered) := by decide
theorem test_caller_registers_late :
    (match step ((demo.setEnv [[.onFault .registered]]).setResult (some (.ok .unit))) with
    | .next t => some t.onFault | _ => none) = some .empty := by decide

/-- 70_reset_and_hazards.md R344: the handler between the read and the write of a field update; its release of the other
channels is undone. -/
theorem test_handler_inside_update : after (.ipiResetAndDown 0 true)
    ((demo.setEnv [[], [.fault .p 12 2, .irq]]).setP { zeroBank with intMsk := unmasked })
    (fun t => (t.p.ipiSoftrstn, t.events)) = some (1, [.faultNotify 0 2 12 true false]) := by decide

/-! ## Witnesses: for every obligation with hypotheses, states and operands that meet them together -/

/-- A state of the default configuration with clocks on, nothing running and no other agent is ready. -/
theorem ready_mk {s : State} (hc : s.cfg = Config.default) (he : s.env = []) (hf : s.opInFlight = false)
    (hx : s.ctx = .config) (hk : s.clk = ⟨.on, .on, .on⟩) (hp : s.inst.baseP.isSome = true)
    (hbx : s.inst.baseX.isSome = true) (hw : s.inst.baseW.isSome = true) : Ready s :=
  ⟨hc ▸ legalCfg_default, he, ⟨hf, hx⟩, by rw [hk]; rfl, hp, hbx, hw⟩

theorem ready_demo : Ready demo := ready_mk rfl rfl rfl rfl rfl rfl rfl rfl

theorem good_demo : Good demo where
  legal := legalCfg_default
  idle := ⟨rfl, rfl⟩
  id := by decide
  lanes := by intro n h; cases h; decide
  laneRate := by intro r h; cases h; decide
  pixclk := by decide
  tpgDt := by decide
  memory := rfl
  memorySpace := by intro a h; cases h
  bankP := ⟨rfl, rfl, rfl, rfl, rfl⟩
  bankX := ⟨rfl, rfl, rfl, rfl, rfl⟩
  wrapper := rfl
  phases := rfl

/-- The demo machine with another primary bank, other attributes, other wrapper words. -/
def demoP (b : Bank) : State := demo.setP b
def demoI (i : Instance) : State := demo.setInst i

theorem ready_demoP (b : Bank) : Ready (demoP b) := ready_mk rfl rfl rfl rfl rfl rfl rfl rfl
theorem ready_demoW (w : List Word) : Ready (demo.setW w) := ready_mk rfl rfl rfl rfl rfl rfl rfl rfl

/-- Attributes with given lanes, rate and pixel clock. -/
def attrs (lanes rate pixclk : Nat) : Instance :=
  { Instance.atBind with lanes := some lanes, laneRate := some rate, pixclk := pixclk }

theorem ready_attrs (lanes rate pixclk : Nat) : Ready (demoI (attrs lanes rate pixclk)) :=
  ready_mk rfl rfl rfl rfl rfl rfl rfl rfl

/-- The demo machine as a native instance, with the test-pattern generator on or off. -/
def native (tpg : Bool) : State := demoI { Instance.atBind with isNative := true, tpgEnabled := tpg, tpgPkt2pkt := 9 }
theorem ready_native (tpg : Bool) : Ready (native tpg) := ready_mk rfl rfl rfl rfl rfl rfl rfl rfl

/-- A ready state with nine instances, the largest number (00_scope.md R6). -/
def nine : State := { demo with cfg := { Config.default with numInst := 9 } }
theorem ready_nine : Ready nine := ⟨legalCfg_default.withNumInst 9 (by decide), rfl, ⟨rfl, rfl⟩, rfl, rfl, rfl, rfl⟩

/-- A ready state whose `manual_flush` clears itself (U9). -/
def selfClearing : State := { demo with cfg := { Config.default with manualFlushSelfClears := true } }
theorem ready_selfClearing : Ready selfClearing :=
  ⟨legalCfg_default.withSelfClear true, rfl, ⟨rfl, rfl⟩, rfl, rfl, rfl, rfl⟩

theorem pixelChannel_demo : PixelChannel demo 0 ∧ PixelChannel demo 3 ∧ ¬ PixelChannel demo 4 := by
  unfold PixelChannel; decide

theorem witness_DecodeInvertsEncode : (Instr.ipiRegSet 0xffffffff 0xff 0 1 2 3 4 5 6 7).wellFormed = true ∧
    (Instr.ipiSetVcCfg 0 0xffffffff true 0xffffffff).wellFormed = true := by decide
theorem witness_DecodedInstructionsAreWellFormed :
    decode ⟨.msg, bytesOfWords [1, 0, 4, 0xffffffff]⟩ = .instr (.cmdSetLanes 0 4) := by decide
theorem witness_StepRunsTheDecodedInstruction :
    ((demo.setInbox [⟨.op, bytesOfWords [0x30]⟩]).inbox = [⟨.op, bytesOfWords [0x30]⟩] ∧
      decode ⟨.op, bytesOfWords [0x30]⟩ = .instr .dphyReset) ∧ demo.inbox = [] ∧ Quiet demo :=
  ⟨⟨rfl, by decide⟩, rfl, rfl⟩
theorem witness_UnknownCommandIdIsRejected :
    let s := demo.setInbox [⟨.msg, bytesOfWords [8, 0]⟩]
    8 ≤ (8 : Word).toNat ∧ s.opInFlight = false ∧ s.inbox = ⟨.msg, bytesOfWords (8 :: [0])⟩ :: [] := ⟨by decide, rfl, rfl⟩
theorem witness_UnknownSelectorIsRefused :
    (0x14 : Word).toNat ∉ [0x10, 0x11, 0x12, 0x13, 0x20, 0x21, 0x22, 0x23, 0x24, 0x25, 0x26, 0x27, 0x30, 0x31, 0x32, 0x33,
      0x34, 0x35, 0x40, 0x41, 0x42, 0x43, 0x50, 0x51, 0x52, 0x53, 0x54, 0x55, 0x56, 0x57, 0x60, 0x61, 0x62, 0x63, 0x70,
      0x71] ∧
    (demo.setInbox [⟨.op, bytesOfWords [0x14]⟩]).inbox = ⟨.op, bytesOfWords ((0x14 : Word) :: [])⟩ :: [] :=
  ⟨by decide, rfl⟩
theorem witness_NativeInstanceIgnoresCommands :
    (Instr.cmdSetLanes 0 9).port = .msg ∧ (native false).inst.isNative = true ∧ (native false).opInFlight = false := by
  decide
theorem witness_EveryStepKeepsGood : Good demo ∧ step demo = .next demo := ⟨good_demo, rfl⟩
theorem witness_AttributesHaveOnlyTheListedWriters :
    after (.cmdSetLanes 0 4) demo (fun t => decide (t.inst.lanes ≠ demo.inst.lanes)) = some true ∧
    after (.cmdSetLaneRate 0 100) demo (fun t => decide (t.inst.laneRate ≠ demo.inst.laneRate)) = some true ∧
    after (.cmdSetTpgMode 0 true 0) demo (fun t => decide (t.inst.tpgEnabled ≠ demo.inst.tpgEnabled)) = some true ∧
    after (.cmdSetBypass 0 true) demo (fun t => decide (t.inst.bypass ≠ demo.inst.bypass)) = some true ∧
    after (.ipiInit 0 0 0 1 false 0) (demoI { attrs 2 800 100000000 with tpgEnabled := true, tpgPkt2pkt := 9 })
      (fun t => decide (t.inst.tpgDt ≠ demo.inst.tpgDt)) = some true ∧
    after .pwrSuspend demo (fun t => decide (t.clk ≠ demo.clk)) = some true ∧
    after .dphyReset (demo.setDphy .ready) (fun t => decide (t.dphy ≠ .ready)) = some true ∧
    (let s := demo.setEnv [[.onFault .registered, .onDone .empty]]
     bindOpen s = true ∧ s.inbox = [] ∧ s.env = [[.onFault .registered, .onDone .empty]]) ∧
    (let s := (demo.setEnv [[.onFault .registered]]).setResult (some (.ok .unit))
     bindOpen s = false ∧ step s = .next (s.setEnv [])) := by
  refine ⟨?_, ?_, ?_, ?_, ?_, ?_, ?_, ⟨rfl, rfl, rfl⟩, rfl, rfl⟩ <;> decide +kernel
theorem witness_ListedOperationsNeverEndInErr :
    neverErrs .dphyReset = true ∧ after .dphyReset demo (fun _ => ()) = some () := by decide
theorem witness_NoErrorAndNoFaultStopsTheBlock : Good demo ∧ Powered demo ∧ LawfulEnv demo ∧
    InDomain demo (.dphyPowerupMerged 3 4 159) ∧ InDomain demo .dphyPowerup ∧ InDomain demo (.ipiInit 0 0 0 9 true 0) ∧
    InDomain demo (.regRead 0) :=
  ⟨good_demo, ready_demo.powered, (by intro m h; cases h), (by unfold InDomain; decide), ⟨⟨2, rfl⟩, 800, rfl⟩,
   .inl ⟨2, 800, rfl, rfl, by decide, by decide, by decide, by decide⟩, ⟨.version, by decide⟩⟩
theorem witness_RegisterReadsReturnTheContent : Ready demo ∧ .version ∈ bankRegs demo.cfg ∧
    .intStMain ∈ bankRegs demo.cfg ∧ .intSt 13 ∈ bankRegs demo.cfg ∧ .ipi 7 .advFeatures ∈ bankRegs demo.cfg ∧
    demo.cfg.stReadClears = true := ⟨ready_demo, by decide, by decide, by decide, by decide, rfl⟩
theorem witness_RegisterWritesStoreTheValue : Ready demo ∧ .phyStopstate ∈ bankRegs demo.cfg ∧
    (.intForce 13 ∈ bankRegs demo.cfg ∧ PReg.intForce 13 ≠ .version ∧ PReg.intForce 13 ≠ .intStMain ∧
      PReg.intForce 13 ≠ .phyStopstate ∧ ∀ c, PReg.intForce 13 ≠ .intSt c) ∧
    (Ready selfClearing ∧ .ipi 7 .memFlush ∈ bankRegs selfClearing.cfg ∧
      selfClearing.cfg.manualFlushSelfClears = true) :=
  ⟨ready_demo, by decide, ⟨by decide, by decide, by decide, by decide, fun _ h => by cases h⟩,
   ready_selfClearing, by decide, rfl⟩
theorem witness_WrittenRegisterReadsBack : Ready demo ∧ .ipi 7 .memFlush ∈ bankRegs demo.cfg ∧
    readOnlyReg (.ipi 7 .memFlush) = false ∧ demo.cfg.manualFlushSelfClears = false := ⟨ready_demo, by decide, rfl, rfl⟩
theorem witness_OffsetsOutsideTheMapFault : Ready demo ∧ 6 % 4 ≠ 0 ∧ ∀ r ∈ bankRegs demo.cfg, offsetOf demo.cfg r ≠ 0x1000 :=
  ⟨ready_demo, by decide, by decide +kernel⟩
theorem witness_OperandPreconditionsFault : Idle demo ∧ Config.numPhy ≤ 4 ∧ (0 < 1 ∨ 4 < 0) ∧ (5 < 1 ∨ 4 < 5) ∧
    Idle (demoI Instance.atBind) ∧ (demoI Instance.atBind).inst.lanes = none ∧
    (demoI { Instance.atBind with lanes := some 4 }).inst.laneRate = none ∧
    (Quiet (demoI Instance.atBind) ∧ PixelChannel (demoI Instance.atBind) 3 ∧ 5 < 6 ∧
      (demoI Instance.atBind).inst.isNative = false) ∧
    (let s := demoI { Instance.atBind with isNative := true, tpgEnabled := true }
     Idle s ∧ Quiet s ∧ s.inst.lanes = none ∧ PixelChannel s 3 ∧ s.inst.tpgEnabled = true ∧ s.inst.tpgPkt2pkt = 0) :=
  ⟨⟨rfl, rfl⟩, by decide, by decide, by decide, ⟨rfl, rfl⟩, rfl, rfl, ⟨rfl, pixelChannel_demo.2.1, by decide, rfl⟩,
   ⟨rfl, rfl⟩, rfl, rfl, pixelChannel_demo.2.1, rfl, rfl⟩
theorem witness_StatePreconditionsFault :
    (demo.opInFlight = false ∧ clocksOn (demo.setClk ⟨.on, .on, .off⟩).clk = false) ∧
    (demoI { Instance.atBind with baseP := none }).inst.baseP = none ∧
    (demoI { Instance.atBind with baseX := none }).inst.baseX = none ∧
    ((demoI { Instance.atBind with baseW := none }).inst.baseW = none ∧ 160 ≤ 160) ∧
    (demo.setCtx .interrupt).ctx = .interrupt ∧ (Instr.pwrResume ≠ .irqHandle ∧ (demo.setInFlight true).opInFlight = true) := by
  decide
theorem witness_WrapperOperationsWriteOneField : Ready demo ∧ 0 < Config.numPhy ∧ 3 < Config.numPhy :=
  ⟨ready_demo, by decide, by decide⟩
theorem witness_ForceRxModeWritesOneOrTwoHalves : Ready demo ∧ 3 < Config.numPhy ∧ 1 ≤ 2 ∧ 2 ≤ 2 ∧ 2 < 3 ∧ 3 ≤ 4 :=
  ⟨ready_demo, by decide⟩
theorem witness_LaneModeReadsThePairBit : Ready (demo.setW [0, 0, 0, 0, 0x80000000, 0, 0, 0, 0]) ∧ 3 < Config.numPhy :=
  ⟨ready_demoW _, by decide⟩
theorem witness_HsfreqrangeSelectsTheTableEntry : Ready demo ∧ 3 < Config.numPhy ∧ 159 < 160 ∧ 160 ≤ 160 ∧
    [160, 189, 190, 204, 205, 299, 300, 499, 500, 2499, 2500].map rangeIndex = [11, 11, 10, 10, 9, 9, 8, 7, 6, 1, 0] :=
  ⟨ready_demo, by decide⟩
theorem witness_DphyResetDrivesTheLinesLow : Ready (demo.setDphy .errorTimeout) := ready_mk rfl rfl rfl rfl rfl rfl rfl rfl
theorem witness_PowerupSelectsItsPath : (demoI Instance.atBind).inst.lanes = none ∧
    ((demoI (attrs 2 800 1)).inst.lanes = some 2 ∧ (demoI (attrs 2 800 1)).inst.laneRate = some 800) ∧
    (demoI (attrs 3 800 1)).inst.lanes = some 3 ∧ (demoI (attrs 3 800 1)).inst.laneRate = some 800 := by decide
theorem witness_StandardPowerupReachesReady : Ready (demoP (zeroBank.put .phyStopstate 3)) ∧ 0 < Config.numPhy ∧
    (1 ≤ 2 ∧ 2 ≤ 4 ∧ 160 ≤ 160) ∧ (∀ b < 2, (demoP (zeroBank.put .phyStopstate 3)).p.phyStopstate.getLsbD b = true) ∧
    (demo.inst.id = 0 ∧ demo.inst.lanes = some 2 ∧ demo.inst.laneRate = some 800 ∧ 160 ≤ 800) :=
  ⟨ready_demoP _, by decide, by decide, by decide, by decide⟩
theorem witness_StandardPowerupFailures : Ready demo ∧ 3 < Config.numPhy ∧ (1 ≤ 1 ∧ 1 ≤ 4) ∧ 159 < 160 ∧ 160 ≤ 160 ∧
    ∃ b < 1, demo.p.phyStopstate.getLsbD b = false := ⟨ready_demo, by decide, by decide, by decide, by decide, 0, by decide⟩
theorem witness_MergedPowerupReachesReady : Ready (demoP (zeroBank.put .phyStopstate 0xf)) ∧ 3 < Config.numPhy ∧
    (3 ≤ 3 ∧ 3 ≤ 4 ∧ 160 ≤ 160) ∧ (3 % 2 = 1 ∧ wField (demoP (zeroBank.put .phyStopstate 0xf)) (.ctrlSel (3 / 2)) ≠ 1) ∧
    (∀ b < 4, (demoP (zeroBank.put .phyStopstate 0xf)).p.phyStopstate.getLsbD b = true) ∧
    ((demoI (attrs 4 160 1)).inst.id = 0 ∧ (demoI (attrs 4 160 1)).inst.lanes = some 4 ∧
      (demoI (attrs 4 160 1)).inst.laneRate = some 160 ∧ (demoI (attrs 4 160 1)).inst.tpgEnabled = false) :=
  ⟨ready_demoP _, by decide, by decide, by decide, by decide, by decide⟩
theorem witness_MergedPowerupRefusals :
    (Ready (demo.setW [0x80000000, 0, 0, 0, 0, 0, 0, 0, 0]) ∧ 1 < Config.numPhy ∧ 1 % 2 = 1 ∧
      wField (demo.setW [0x80000000, 0, 0, 0, 0, 0, 0, 0, 0]) (.ctrlSel (1 / 2)) = 1) ∧
    (Ready demo ∧ wField demo (.ctrlSel (1 / 2)) ≠ 1 ∧ 159 < 160) ∧
    (Ready (demoP (zeroBank.put .phyStopstate 7)) ∧ 160 ≤ 160 ∧
      ∃ b < 4, (demoP (zeroBank.put .phyStopstate 7)).p.phyStopstate.getLsbD b = false) :=
  ⟨⟨ready_demoW _, by decide, by decide, by decide⟩, ⟨ready_demo, by decide, by decide⟩, ready_demoP _, by decide, 3, by decide⟩
theorem witness_TestWriteStoresOneByte : Ready demo ∧ 3 < Config.numPhy ∧ Memory.wf demo.draw demo.t = true ∧
    0 ≠ testAddress demo.cfg (3 ^^^ 1) 0xfff := ⟨ready_demo, by decide, rfl, by decide⟩
theorem witness_WaitStopstateOutcomes : (1 ≤ 4 ∧ 4 ≤ 4) ∧ Ready (demoP (zeroBank.put .phyStopstate 0xf)) ∧
    (∀ b < 4, (demoP (zeroBank.put .phyStopstate 0xf)).p.phyStopstate.getLsbD b = true) ∧
    Ready (demoP (zeroBank.put .phyStopstate 7)) ∧
    (∃ b < 4, (demoP (zeroBank.put .phyStopstate 7)).p.phyStopstate.getLsbD b = false) :=
  ⟨by decide, ready_demoP _, by decide, ready_demoP _, 3, by decide⟩
theorem witness_WaitAdmitsEveryPollCount : Idle demo ∧ Powered demo ∧ (1 ≤ 1 ∧ 4 ≤ 4) ∧ 0 < 3000 ∧ 2999 < 3000 :=
  ⟨⟨rfl, rfl⟩, ready_demo.powered, by decide⟩
theorem witness_ClassifyGivesTheFormatRow : Idle demo ∧ 6 ≤ 6 := ⟨⟨rfl, rfl⟩, by decide⟩
theorem timingInputs_attrs {lanes rate pixclk : Nat} (h1 : 1 ≤ lanes) (h4 : lanes ≤ 4) (hr : 0 < rate) (hp : 0 < pixclk) :
    TimingInputs (demoI (attrs lanes rate pixclk)) lanes rate := ⟨rfl, rfl, h1, h4, hr, hp⟩
theorem witness_LegacyTimingFormula : Idle demo ∧ TimingInputs (demoI (attrs 2 800 27050000)) 2 800 ∧
    formatOfCode 1 = some .raw10 ∧ 10 * 1920 * 27000000 / (800 * 1000000 * 2 / 2) - (4 + 4 + cycOf .raw10 1920) = 0 ∧
    10 * 1920 * 27050000 / (800 * 1000000 * 2 / 2) - (4 + 4 + cycOf .raw10 1920) = 1 ∧ 6 ≤ 6 :=
  ⟨⟨rfl, rfl⟩, timingInputs_attrs (by decide) (by decide) (by decide) (by decide), rfl, by decide +kernel⟩
theorem witness_CutThroughTimingFormula : Idle demo ∧ TimingInputs (demoI (attrs 1 160 5108750000)) 1 160 ∧
    [5108750000, 5110000000, 10226250000, 10227500000, 15343750000, 15345000000].map
      (fun p => 8 * p / (160 * 1000000 * 1 / 2 / 8) + demo.cfg.calMin) = [4091, 4092, 8185, 8186, 12279, 12280] :=
  ⟨⟨rfl, rfl⟩, timingInputs_attrs (by decide) (by decide) (by decide) (by decide), by decide +kernel⟩
theorem witness_TimingTriplesAreInRange : Idle demo ∧ TimingInputs (demoI (attrs 4 1 1)) 4 1 ∧ 5 < 6 :=
  ⟨⟨rfl, rfl⟩, timingInputs_attrs (by decide) (by decide) (by decide) (by decide), by decide⟩
theorem witness_Pkt2pktIsTheOpenFunction : Idle demo ∧ TimingInputs (demoI (attrs 1 1 1)) 1 1 :=
  ⟨⟨rfl, rfl⟩, timingInputs_attrs (by decide) (by decide) (by decide) (by decide)⟩
theorem witness_ReceiveBitClockBounds : rxBitClk 1 1 = 500000 ∧ rxBitClk 1 4 = 2000000 ∧ 2500 ≤ 2500 := by decide +kernel
theorem witness_TimingWorkedExamples : Idle demo ∧ Config.hsdMin ≤ demo.cfg.hsdDefault ∧
    demo.cfg.hsdDefault ≤ Config.hsdMax ∧ TimingInputs (demoI (attrs 4 2500 40000000)) 4 2500 ∧
    TimingInputs (demoI (attrs 2 800 100000000)) 2 800 ∧ TimingInputs (demoI (attrs 1 160 100000000)) 1 160 ∧
    TimingInputs (demoI (attrs 1 160 600000000)) 1 160 ∧ demo.cfg.calMin = 4 :=
  ⟨⟨rfl, rfl⟩, by decide, by decide, timingInputs_attrs (by decide) (by decide) (by decide) (by decide),
   timingInputs_attrs (by decide) (by decide) (by decide) (by decide),
   timingInputs_attrs (by decide) (by decide) (by decide) (by decide),
   timingInputs_attrs (by decide) (by decide) (by decide) (by decide), rfl⟩
theorem witness_SetVcCfgWritesTheChannel : Ready demo ∧ PixelChannel demo 0 ∧ PixelChannel demo 3 ∧
    demo.inst.isNative = false := ⟨ready_demo, pixelChannel_demo.1, pixelChannel_demo.2.1, rfl⟩
theorem witness_CtrlModeOnlyOnChannelZero : Ready demo ∧ PixelChannel demo 3 ∧ 3 ≠ 0 ∧ demo.inst.isNative = false ∧ 2 ≤ 2 :=
  ⟨ready_demo, pixelChannel_demo.2.1, by decide, rfl, by decide⟩
theorem witness_InitProgramsTheChannel :
    (Ready demo ∧ PixelChannel demo 3 ∧ InitInputs demo ∧ formatOfCode 5 = some .rgb888 ∧ demo.inst.isNative = false) ∧
    (Ready (native false) ∧ InitInputs (native false) ∧ (native false).inst.isNative = true) ∧
    (Ready (native true) ∧ InitInputs (native true) ∧ (native true).inst.tpgEnabled = true ∧
      (native true).inst.tpgPkt2pkt ≠ 0) ∧
    (let s := demoI { attrs 2 800 1 with tpgEnabled := true }
     Ready s ∧ InitInputs s ∧ s.inst.tpgPkt2pkt = 0 ∧ s.inst.laneRate = some 800) :=
  ⟨⟨ready_demo, pixelChannel_demo.2.1, .inl ⟨2, 800, rfl, rfl, by decide, by decide, by decide, by decide⟩, rfl, rfl⟩,
   ⟨ready_native _, .inr ⟨rfl, .inl rfl⟩, rfl⟩, ⟨ready_native _, .inr ⟨rfl, .inr (by decide)⟩, rfl, by decide⟩,
   ready_mk rfl rfl rfl rfl rfl rfl rfl rfl, .inl ⟨2, 800, rfl, rfl, by decide, by decide, by decide, by decide⟩, rfl, rfl⟩
theorem witness_StartAndStopSwitchTheChannel : Ready (demoI { demo.inst with bypass := true, tpgEnabled := true }) ∧
    PixelChannel demo 0 ∧ PixelChannel demo 3 ∧ demo.inst.isNative = false :=
  ⟨ready_mk rfl rfl rfl rfl rfl rfl rfl rfl, pixelChannel_demo.1, pixelChannel_demo.2.1, rfl⟩
theorem witness_ResetAndDownIsSymmetric : Ready demo ∧ PixelChannel demo 3 := ⟨ready_demo, pixelChannel_demo.2.1⟩
theorem witness_OverflowResetReleasesAllChannels : Ready (demo.setChs (List.replicate 8 .enabled)) ∧ PixelChannel demo 3 ∧
    (7 < Config.maxPixCh ∧ 31 < 32 ∧ ∀ k < Config.maxPixCh, 31 ≠ (fieldPos demo.cfg (.softrstn k)).lo) :=
  ⟨ready_mk rfl rfl rfl rfl rfl rfl rfl rfl, pixelChannel_demo.2.1, by decide⟩
theorem witness_BadChannelIsRejectedBeforeAnyAccess : demo.opInFlight = false ∧ demo.cfg.numInst - 1 ≤ 4 ∧
    demo.inst.isNative = false ∧ 3 < demo.cfg.numInst - 1 ∧ 6 ≤ 6 := by decide
theorem witness_RegDumpReturnsTheMaskedEntries : (Ready demo ∧ PixelChannel demo 3 ∧ demo.cfg.ipiFatalCat[3]? = some 13 ∧
      (0x80 : BitVec 8).getLsbD 7 = true ∧ demo.cfg.stReadClears = true) ∧ Ready nine ∧ PixelChannel nine 4 ∧ 4 ≤ 4 :=
  ⟨⟨ready_demo, pixelChannel_demo.2.1, rfl, rfl, rfl⟩, ready_nine, by unfold PixelChannel; decide, by decide⟩
theorem witness_RegSetWritesTheMaskedEntries : Ready nine ∧ PixelChannel nine 7 :=
  ⟨ready_nine, by unfold PixelChannel; decide⟩
theorem witness_ChannelPhaseTable : Quiet demo ∧
    after (.ipiStart 4) demo (fun t => t.result) = some (some (.err .invalidArgument)) ∧
    after (.ipiStart 3) demo (fun t => t.result) = some (some (.ok .unit)) ∧
    (Instr.ipiStart 3 ≠ .irqHandle ∧ Instr.ipiStart 3 ≠ .pwrSuspend ∧ Instr.ipiStart 3 ≠ .pwrResume) := by
  refine ⟨rfl, ?_⟩
  decide
theorem witness_EnableAndDisableWriteEveryMask : Ready demo ∧ 13 < 14 := ⟨ready_demo, by decide⟩
theorem witness_DisableByMaskReportsTheRest : Ready demo ∧ (0x3fff : Nat).testBit 13 = true := ⟨ready_demo, by decide⟩
/-- All masks open, categories 0 and 13 pending, the second with the overflow bit. -/
def pending : Bank := { zeroBank with intMsk := unmasked, intSt := [4, 0, 0, 0, 0, 0, 0, 0, 0, 0, 0, 0, 0, 2] }
theorem witness_HandlerReportsEveryPendingCategory : Ready (demoP pending) ∧
    (3 < (demoP pending).cfg.numInst - 1 ∧ (demoP pending).cfg.ipiFatalCat[3]? = some 13 ∧
      (pending.get (.intSt 13) &&& (catEntry Config.default 13).ebits) &&& pending.get (.intMsk 13) ≠ 0 ∧
      (pending.get (.intSt 13) &&& (catEntry Config.default 13).ebits).getLsbD Config.default.ipiOvfBit = true) ∧
    ¬ (2 < (demoP pending).cfg.numInst - 1 ∧ (pending.get (.intSt 12) &&& (catEntry Config.default 12).ebits) ≠ 0) ∧
    Ready demo :=
  ⟨ready_demoP _, by decide, by decide, ready_demo⟩
theorem witness_HandlerLowersTheLine : Ready (demoP pending) ∧ (demoP pending).cfg.stReadClears = true ∧
    irqLine (demoP pending) = true := ⟨ready_demoP _, rfl, by decide⟩
theorem witness_AttributeAndResetCommands : Ready demo ∧ demo.inst.isNative = false ∧ (1 ≤ 1 ∧ 4 ≤ 4) ∧
    (0 < 1 ∨ 4 < 0) ∧ (5 < 1 ∨ 4 < 5) := ⟨ready_demo, rfl, by decide, by decide, by decide⟩
theorem witness_LaneRateCommandRunsThePowerup :
    (Ready (demoI Instance.atBind) ∧ (demoI Instance.atBind).inst.lanes = none) ∧
    (Ready demo ∧ demo.inst.isNative = false ∧ 0 < 1 ∧ demo.inst.lanes = some 2) ∧
    (Ready (demoP (zeroBank.put .phyStopstate 3)) ∧ 160 ≤ 160 ∧ (1 ≤ 2 ∧ 2 ≤ 4) ∧ demo.inst.id < Config.numPhy ∧
      ∀ b < 2, (demoP (zeroBank.put .phyStopstate 3)).p.phyStopstate.getLsbD b = true) :=
  ⟨⟨ready_mk rfl rfl rfl rfl rfl rfl rfl rfl, rfl⟩, ⟨ready_demo, rfl, by decide, rfl⟩, ready_demoP _, by decide, by decide,
   by decide, by decide⟩
theorem witness_ResumeEnablesTheClocksOrRollsBack : (Idle demo ∧ clocksOn demo.clk = true) ∧
    (clocksOn (⟨.off, .absent, .on⟩ : Clocks) = false ∧
      ∀ c, Clocks.get ⟨.off, .absent, .on⟩ c = .off → ClkAnswers.get ⟨true, false, false⟩ c = true) ∧
    (Clocks.get ⟨.off, .off, .off⟩ .cfg = .off ∧ ClkAnswers.get ⟨true, true, false⟩ .cfg = false) :=
  ⟨⟨⟨rfl, rfl⟩, rfl⟩, ⟨rfl, by intro c h; cases c <;> first | rfl | cases h⟩, rfl, rfl⟩
theorem witness_SuspendStopsTheClocks : Idle demo ∧ (∃ c, demo.clk.get c = .on) ∧
    (∀ c, Clocks.get ⟨.absent, .off, .absent⟩ c ≠ .on) ∧ Clocks.get ⟨.absent, .off, .absent⟩ .pclk ≠ .absent :=
  ⟨⟨rfl, rfl⟩, ⟨.cfg, rfl⟩, (by intro c; cases c <;> decide), by decide⟩
theorem witness_UpdateOfSharedWrapperWordCanBeLost : Idle demo ∧ Powered demo ∧ 3 < Config.numPhy ∧
    (wrapperPos demo.cfg (.enableclk 3)).word < demo.w.length := ⟨⟨rfl, rfl⟩, ready_demo.powered, by decide, by decide⟩
theorem witness_HandlerBetweenReadAndWriteIsUndone : Good (demoP pending) ∧ Powered (demoP pending) ∧
    PixelChannel demo 0 ∧ PixelChannel demo 3 ∧ (demoP pending).cfg.ipiFatalCat[3]? = some 13 ∧
    (pending.get (.intSt 13) &&& pending.get (.intMsk 13) &&& (catEntry Config.default 13).ebits).getLsbD
      Config.default.ipiOvfBit = true :=
  ⟨{ good_demo with bankP := ⟨rfl, rfl, rfl, rfl, rfl⟩ }, ready_demo.powered, pixelChannel_demo.1, pixelChannel_demo.2.1, rfl,
   by decide⟩
theorem witness_StatusReadsConsumeFaults : Ready (demoP pending) ∧ (demoP pending).cfg.stReadClears = true ∧
    PixelChannel (demoP pending) 3 ∧ (demoP pending).cfg.ipiFatalCat[3]? = some 13 ∧
    (0x80 : BitVec 8).getLsbD 7 = true ∧ 13 < 14 := ⟨ready_demoP _, rfl, pixelChannel_demo.2.1, rfl, rfl, by decide⟩

end Sys2Proof.Tests
end

section
/-! SUPPORT. The invariant of O9: what of `Good` holds at every point of an operation (`Intact`), kept by every access, by every
move of the other agents and by the updates of each instruction. -/

namespace Sys2Proof.Machine

/-! ## Sizes of the register tables -/

theorem RegIn.channel {c : Cfg} (hc : LegalCfg c) {ch : Nat} {r : IpiReg} (h : RegIn c (.ipi ch r)) :
    ch < Config.maxPixCh := by
  have hn := hc.numInst.2
  rcases h with h | h
  · exact h
  · unfold Config.maxPixCh
    omega

theorem RegIn.category {c : Cfg} (hc : LegalCfg c) {k : Nat} (h : RegIn c (.intSt k)) : k < Config.numCat :=
  h.elim id (hc.fatalCats.2.2 k)

/-- Storing into a register that exists keeps the sizes of the tables. -/
theorem Bank.Sized.put {c : Cfg} (hc : LegalCfg c) {b : Bank} (h : b.Sized c) {r : PReg} (hr : RegIn c r) (v : Word) :
    (b.put r v).Sized c := by
  obtain ⟨hids, hipi, hst, hmsk, hforce⟩ := h
  cases r with
  | dataIds k => exact ⟨(length_tblPut _ _ _ _ (hids ▸ hr)).trans hids, hipi, hst, hmsk, hforce⟩
  | ipi ch r => exact ⟨hids, (length_tblPut _ _ _ _ (hipi ▸ hr.channel hc)).trans hipi, hst, hmsk, hforce⟩
  | intSt k => exact ⟨hids, hipi, (length_tblPut _ _ _ _ (hst ▸ hr.category hc)).trans hst, hmsk, hforce⟩
  | intMsk k => exact ⟨hids, hipi, hst, (length_tblPut _ _ _ _ (hmsk ▸ hr)).trans hmsk, hforce⟩
  | intForce k => exact ⟨hids, hipi, hst, hmsk, (length_tblPut _ _ _ _ (hforce ▸ hr)).trans hforce⟩
  | _ => exact ⟨hids, hipi, hst, hmsk, hforce⟩

theorem Bank.Sized.afterRead {c : Cfg} (hc : LegalCfg c) {b : Bank} (h : b.Sized c) {r : PReg} (hr : RegIn c r) :
    (bankAfterRead c b r).Sized c := by
  unfold bankAfterRead
  split
  · split
    · exact h.put hc hr 0
    · exact h
  · exact h

theorem Bank.Sized.afterWrite {c : Cfg} (hc : LegalCfg c) {b : Bank} (h : b.Sized c) {r : PReg} (hr : RegIn c r)
    (v : Word) : (bankAfterWrite c b r v).Sized c := by
  unfold bankAfterWrite
  split
  · exact h
  · exact h.put hc hr _

theorem Bank.sized_drawn (c : Cfg) (n : Nat) (loc : PReg → Loc) : (Bank.drawn c n loc).Sized c := by
  simp [Bank.Sized, Bank.drawn]

theorem Bank.Sized.setStatus {c : Cfg} (hc : LegalCfg c) {b : Bank} (h : b.Sized c) (k : Nat) (bits : Word) :
    (setStatus c b k bits).Sized c := by
  unfold Machine.setStatus
  split
  · next hk => exact h.put hc (r := .intSt k) (Or.inl hk) _
  · exact h

theorem Bank.Sized.dropStatus {c : Cfg} (hc : LegalCfg c) {b : Bank} (h : b.Sized c) (k : Nat) (bits : Word) :
    (dropStatus c b k bits).Sized c := by
  unfold Machine.dropStatus
  split
  · next hk => exact h.put hc (r := .intSt k) (Or.inl hk) _
  · exact h

/-! ## The test registers -/

/-- The byte memory is canonical and inside space T (R57). -/
structure TestMemory (c : Cfg) (draw : Nat) (m : Memory) : Prop where
  wf : Memory.wf draw m = true
  space : ∀ a ∈ m, a.1 < Config.numPhy * 2 ^ testcodeWidth c

theorem testMemory_nil (c : Cfg) (draw : Nat) : TestMemory c draw [] := ⟨rfl, fun _ h => absurd h List.not_mem_nil⟩

theorem testAddress_lt (c : Cfg) {phy : Nat} (h : phy < Config.numPhy) (code : Nat) :
    testAddress c phy code < Config.numPhy * 2 ^ testcodeWidth c :=
  calc testAddress c phy code < phy * 2 ^ testcodeWidth c + 2 ^ testcodeWidth c :=
        Nat.add_lt_add_left (Nat.mod_lt _ (Nat.two_pow_pos _)) _
    _ = (phy + 1) * 2 ^ testcodeWidth c := (Nat.succ_mul ..).symm
    _ ≤ Config.numPhy * 2 ^ testcodeWidth c := Nat.mul_le_mul_right _ h

theorem TestMemory.write {c : Cfg} {draw : Nat} {m : Memory} (h : TestMemory c draw m) {phy : Nat}
    (hphy : phy < Config.numPhy) (code : Nat) (data : Byte) :
    TestMemory c draw (Memory.write draw m (testAddress c phy code) data) where
  wf := Memory.wf_write _ _ _ h.wf
  space := fun a ha => by
    rcases Memory.mem_write _ _ _ _ ha with rfl | ha
    · exact testAddress_lt c hphy code
    · exact h.space a ha

/-! ## The invariant -/

/-- The ranges of the attributes (R21, R22). -/
structure AttrsInRange (i : Instance) : Prop where
  id : i.id < Config.numPhy
  lanes : ∀ n, i.lanes = some n → 1 ≤ n ∧ n ≤ 4
  laneRate : ∀ r, i.laneRate = some r → 0 < r
  pixclk : 0 < i.pixclk
  tpgDt : i.tpgDt < 2 ^ 6

/-- What of `Good` holds from access to access, under the configuration `c`. -/
structure Intact (c : Cfg) (s : State) : Prop where
  cfg : s.cfg = c
  attrs : AttrsInRange s.inst
  memory : TestMemory c s.draw s.t
  bankP : s.p.Sized c
  bankX : s.x.Sized c
  wrapper : s.w.length = c.map.wWords
  phases : s.ch.length = Config.maxPixCh

/-- `Good` is a legal configuration, an idle block and the invariant. -/
theorem good_iff (s : State) : Good s ↔ LegalCfg s.cfg ∧ Idle s ∧ Intact s.cfg s where
  mp h := ⟨h.legal, h.idle, rfl, ⟨h.id, h.lanes, h.laneRate, h.pixclk, h.tpgDt⟩, ⟨h.memory, h.memorySpace⟩, h.bankP,
    h.bankX, h.wrapper, h.phases⟩
  mpr h := by
    obtain ⟨legal, idle, -, attrs, memory, bankP, bankX, wrapper, phases⟩ := h
    exact ⟨legal, idle, attrs.id, attrs.lanes, attrs.laneRate, attrs.pixclk, attrs.tpgDt, memory.wf, memory.space, bankP,
      bankX, wrapper, phases⟩

section
variable {c : Cfg} {s : State} (h : Intact c s)
include h

theorem Intact.setBank {b : Bank} (hb : b.Sized c) (i : BankId) : Intact c (setBank s i b) := by
  cases i with
  | p => exact { h with bankP := hb }
  | x => exact { h with bankX := hb }

theorem Intact.bankOf (i : BankId) : (bankOf s i).Sized c := by
  cases i with
  | p => exact h.bankP
  | x => exact h.bankX

theorem Intact.setW {n : Nat} (hn : n < c.map.wWords) (v : Word) : Intact c (s.setW (tblPut 0 s.w n v)) :=
  { h with wrapper := (length_tblPut _ _ _ _ (h.wrapper ▸ hn)).trans h.wrapper }

theorem Intact.storeTest {phy : Nat} (hphy : phy < Config.numPhy) (code : Nat) (data : Byte) :
    Intact c (storeTest phy code data s) :=
  { h with memory := h.cfg ▸ TestMemory.write (h.cfg.symm ▸ h.memory) hphy code data }

theorem Intact.setPhase {ch : Nat} (hch : ch < Config.maxPixCh) (v : ChState) : Intact c (setPhase ch v s) :=
  { h with phases := (length_tblPut _ _ _ _ (h.phases ▸ hch)).trans h.phases }

theorem Intact.powerOn : Intact c (powerOn s) :=
  ⟨h.cfg, h.attrs, testMemory_nil _ _, h.cfg ▸ Bank.sized_drawn _ _ _, h.cfg ▸ Bank.sized_drawn _ _ _,
   by simp [Machine.powerOn, redraw, wrapperDrawn, h.cfg], by simp [Machine.powerOn]⟩

theorem Intact.powerLost : Intact c (powerLost s) :=
  ⟨h.cfg, h.attrs, testMemory_nil _ _, h.cfg ▸ Bank.sized_drawn _ _ _, h.cfg ▸ Bank.sized_drawn _ _ _,
   by simp [Machine.powerLost, redraw, wrapperDrawn, h.cfg], by simp [Machine.powerLost]⟩

variable (hc : LegalCfg c)
include hc

theorem Intact.afterRead {l : Loc} (hl : LocIn c l) : Intact c (afterRead s l) := by
  cases l with
  | p r => exact { h with bankP := h.cfg.symm ▸ h.bankP.afterRead hc hl }
  | x r => exact { h with bankX := h.cfg.symm ▸ h.bankX.afterRead hc hl }
  | w n => exact h

theorem Intact.afterWrite {l : Loc} (hl : LocIn c l) (v : Word) : Intact c (afterWrite s l v) := by
  cases l with
  | p r => exact { h with bankP := h.cfg.symm ▸ h.bankP.afterWrite hc hl v }
  | x r => exact { h with bankX := h.cfg.symm ▸ h.bankX.afterWrite hc hl v }
  | w n =>
    refine h.setW ?_ v
    rcases hl with hn | ⟨f, hf, rfl⟩
    · exact hn
    · exact hc.wrapperWords f hf

theorem Intact.agentMove (m : EnvMove) : Intact c (agentMove m s) := by
  have mem : ∀ {r}, (bankRegs s.cfg).contains r = true → RegIn c r := fun hr =>
    regIn_of_mem (h.cfg ▸ List.contains_iff_mem.mp hr)
  cases m with
  | fault i k bits => exact h.setBank (h.cfg.symm ▸ (h.bankOf i).setStatus hc k bits) i
  | unfault i k bits =>
    simp only [Machine.agentMove]
    split
    · exact h
    · exact h.setBank (h.cfg.symm ▸ (h.bankOf i).dropStatus hc k bits) i
  | stopstate i v => exact h.setBank ((h.bankOf i).put hc (r := .phyStopstate) trivial v) i
  | mateWriteX r v =>
    simp only [Machine.agentMove]
    split
    · next hr => exact h.afterWrite hc (l := .x r) (mem hr) v
    · exact h
  | mateReadX r =>
    simp only [Machine.agentMove]
    split
    · next hr => exact h.afterRead hc (l := .x r) (mem hr)
    · exact h
  | mateLine r v =>
    simp only [Machine.agentMove]
    split
    · next hr => exact h.afterWrite hc (l := .p r) (by cases r <;> trivial) v
    · exact h
  | mateWriteW n v =>
    simp only [Machine.agentMove]
    split
    · next hn => exact h.setW (h.wrapper ▸ hn) v
    · exact h
  | mateTest phy code data =>
    simp only [Machine.agentMove]
    split
    · next hphy => exact h.storeTest hphy code data
    · exact h
  | onFault v => simp only [Machine.agentMove]; split <;> exact { h with }
  | onDone v => simp only [Machine.agentMove]; split <;> exact { h with }
  | clkOk k b => exact { h with }
  | irq => exact h
  | secondOp => exact h

end

/-- No access and no move of another agent breaks the invariant. -/
theorem busInv_intact {c : Cfg} (hc : LegalCfg c) : BusInv c (fun _ => True) True (Intact c) where
  cfg := fun _ h => h.cfg
  access := fun _ _ _ => .inl trivial
  second := .inl trivial
  moves := fun _ _ _ _ _ _ _ => trivial
  env := fun _ _ _ _ h => { h with }
  agent := fun _ m _ h => h.agentMove hc m
  log := fun _ _ h => { h with }
  read := fun _ _ hl h => h.afterRead hc hl
  write := fun _ _ v hl h => h.afterWrite hc hl v
  phase := fun _ _ v hch h => h.setPhase (RegIn.channel hc (r := .mode) (.inr hch)) v
  emit := fun _ _ h => { h with }
  ctx := fun _ _ h => { h with }

/-- No instruction breaks the invariant, whatever context runs it. -/
theorem updates_intact {c : Cfg} (hc : LegalCfg c) (k : Context) (i : Instr) :
    Updates i c (fun _ => True) True True fun s => Intact c s ∧ s.ctx = k where
  toOpInv := (busInv_intact hc).opInvCtx k
  take := fun s _ h => (takeInterrupt_spec (busInv_intact hc) h.1).and
    (((takeInterrupt_ctx s).mono fun _ hu => hu.trans h.2).weaken False.elim id)
  ctx := fun _ _ => .inl trivial
  err := fun _ => trivial
  dom := fun _ _ => .inl trivial
  attrs := fun _ _ => .inl trivial
  generator := fun _ => ⟨true, fun _ _ => .inl trivial⟩
  choice := fun _ _ h => ⟨{ h.1 with }, h.2⟩
  test := fun _ _ _ _ hphy h => ⟨h.1.storeTest hphy _ _, h.2⟩
  dphy := fun _ _ _ h => ⟨{ h.1 with }, h.2⟩
  format := fun _ _ _ dt h => ⟨{ h.1 with attrs := { h.1.attrs with tpgDt := dt.isLt } }, h.2⟩
  lanes := fun _ _ _ h1 h4 _ h =>
    ⟨{ h.1 with attrs := { h.1.attrs with lanes := fun _ e => Option.some.inj e ▸ ⟨h1, h4⟩ } }, h.2⟩
  laneRate := fun _ _ _ hr _ h =>
    ⟨{ h.1 with attrs := { h.1.attrs with laneRate := fun _ e => Option.some.inj e ▸ hr } }, h.2⟩
  tpgMode := fun _ _ _ _ _ h => ⟨{ h.1 with attrs := { h.1.attrs with } }, h.2⟩
  bypass := fun _ _ _ _ h => ⟨{ h.1 with attrs := { h.1.attrs with } }, h.2⟩
  clocks := fun _ _ _ h => ⟨{ h.1 with }, h.2⟩
  powerOn := fun _ _ h => ⟨h.1.powerOn, h.2⟩
  powerLost := fun _ _ h => ⟨h.1.powerLost, h.2⟩

/-! ## The steps -/

section
variable {s t : State} (h : Good s)
include h

theorem Good.of_intact (hi : Intact s.cfg t) (hidle : Idle t) : Good t :=
  (good_iff t).mpr ⟨hi.cfg ▸ h.legal, hidle, hi.cfg ▸ hi⟩

/-- A configuration operation whose accesses keep the invariant leads from a good state to a good state. -/
theorem runConfig_keeps_good {body : State → Res Value} {E F : Prop}
    (hb : (body (s.setInFlight true)).Spec (fun u => Intact s.cfg u ∧ u.ctx = .config) E F)
    (hn : runConfig body s = .next t) : Good t := by
  obtain ⟨u, ⟨hi, hctx⟩, x, rfl, -⟩ := runConfig_next hb hn
  exact h.of_intact { hi with } ⟨rfl, hctx⟩

theorem Good.intact : Intact s.cfg s := ((good_iff s).mp h).2.2

theorem Good.intact_inFlight : Intact s.cfg (s.setInFlight true) ∧ (s.setInFlight true).ctx = .config :=
  ⟨{ h.intact with }, h.idle.2⟩

/-- The handler ends idle where it started idle. -/
theorem takeInterrupt_good : (takeInterrupt s).Spec Good False True := by
  have hi := takeInterrupt_spec (busInv_intact h.legal) h.intact
  have hk := (takeInterrupt_spec (busInv_kept s) (Kept.refl s)).weaken False.elim id (E' := True)
  have hx := (takeInterrupt_ctx s).weaken False.elim id (E' := True)
  exact ((hi.and hk).and hx).mono fun u hu =>
    h.of_intact hu.1.1 ⟨hu.1.2.opInFlight.trans h.idle.1, hu.2.trans h.idle.2⟩

theorem exec_keeps_good {i : Instr} (hn : exec i s = .next t) : Good t := by
  rw [exec_eq_body] at hn
  split at hn
  · next hi =>
    subst hi
    split at hn
    · cases hn
    · obtain ⟨u, hu, x, rfl, -⟩ := finish_next (takeInterrupt_good h).okUnit hn
      exact { hu with }
  · exact runConfig_keeps_good h (exec_spec (updates_intact h.legal .config i) h.intact_inFlight) hn

theorem unknownCommand_keeps_good (hn : unknownCommand s = .next t) : Good t := by
  unfold unknownCommand command at hn
  refine runConfig_keeps_good h (E := True) (F := True) ?_ hn
  exact native_spec h.intact_inFlight (show Res.Spec _ _ _ (Res.err _ _) from ⟨trivial, h.intact_inFlight⟩)

theorem idleStep_keeps_good (hn : idleStep s = .next t) : Good t := by
  have hi := (configTick_spec (busInv_intact h.legal) s h.intact).weaken False.elim id (E' := True)
  have hk := configTick_spec (busInv_kept s) s (Kept.refl s)
  have hx := configTick_ctx .config h.idle.2
  have hg := ((hi.and (hk.weaken False.elim id)).and hx).mono fun u hu =>
    h.of_intact hu.1.1 ⟨hu.1.2.opInFlight.trans h.idle.1, hu.2⟩
  unfold idleStep at hn
  split at hn
  · next he => cases hn; rw [he] at hg; exact hg
  · next he => cases hn; rw [he] at hg; exact { hg.2 with }
  · cases hn

end

/-- Settles O9: an idle step keeps the invariant by its agents' moves, a delivery by what its instruction can do. -/
theorem everyStepKeepsGood : Obligations.EveryStepKeepsGood := by
  unfold Obligations.EveryStepKeepsGood
  intro s t h hn
  unfold step at hn
  split at hn
  · exact idleStep_keeps_good h hn
  · next d later _ =>
    have h' : Good (s.setInbox later) := { h with }
    unfold runDecoded at hn
    split at hn
    · exact exec_keeps_good h' hn
    · exact unknownCommand_keeps_good h' hn
    · cases hn
    · cases hn

/-! ## Reset -/

/-- Settles O8. -/
theorem resetStateIsGood : Obligations.ResetStateIsGood := by
  unfold Obligations.ResetStateIsGood
  refine (good_iff _).mpr ⟨legalCfg_default, ⟨rfl, rfl⟩, rfl, ?_, testMemory_nil _ _, Bank.sized_drawn _ _ _,
    Bank.sized_drawn _ _ _, ?_, ?_⟩
  · exact ⟨by decide, (fun _ e => nomatch e), (fun _ e => nomatch e), by decide, by decide⟩
  · simp [State.reset, wrapperDrawn]
  · simp [State.reset]

/-- Settles O10. -/
theorem resetHoldsBindValuesAndUnknownRegisters : Obligations.ResetHoldsBindValuesAndUnknownRegisters := by
  unfold Obligations.ResetHoldsBindValuesAndUnknownRegisters
  refine ⟨⟨rfl, rfl, rfl, rfl, rfl, rfl, rfl, rfl, rfl⟩, rfl, fun ch => ?_, rfl, rfl, rfl, rfl, fun _ => rfl,
    fun r hr hv hm => ⟨Bank.get_drawn hr hv hm, Bank.get_drawn hr hv hm⟩, fun k hk => tblGet_map_range _ _ hk⟩
  simp [phaseOf, State.reset, tblGet]

end Sys2Proof.Machine
end

section
/-! SUPPORT. The writers of the attributes, the clocks, `dphy_state` and the callback slots (O11; 46_commands.md R286): accesses
and the other agents write none of them (`Kept`, `SlotsKept`), so only an instruction's own updates can. -/

namespace Sys2Proof.Machine

/-! ## Invariants of accesses -/

/-- What depends only on the parts that no access and no agent changes is kept by every access. -/
theorem busInv_of_kept {c : Cfg} {Q : State → Prop} (hcfg : ∀ s, Q s → s.cfg = c)
    (hQ : ∀ s s', Kept s s' → Q s → Q s') : BusInv c (fun _ => True) True Q where
  cfg := hcfg
  access := fun _ _ _ => .inl trivial
  second := .inl trivial
  moves := fun _ _ _ _ _ _ _ => trivial
  env := fun s _ _ _ h => hQ s _ { Kept.refl s with } h
  agent := fun s m _ h => hQ s _ (agentMove_kept m s) h
  log := fun s _ h => hQ s _ { Kept.refl s with } h
  read := fun s l _ h => hQ s _ ((Kept.refl s).afterRead l) h
  write := fun s l v _ h => hQ s _ ((Kept.refl s).afterWrite l v) h
  phase := fun s _ _ _ h => hQ s _ { Kept.refl s with } h
  emit := fun s _ h => hQ s _ { Kept.refl s with } h
  ctx := fun s _ h => hQ s _ { Kept.refl s with } h

theorem BusInv.and {c : Cfg} {M : EnvMove → Prop} {F : Prop} {P Q : State → Prop} (hP : BusInv c M F P)
    (hQ : BusInv c M F Q) : BusInv c M F fun s => P s ∧ Q s where
  cfg := fun s h => hP.cfg s h.1
  access := fun s l h => hP.access s l h.1
  second := hP.second
  moves := fun s moves later he h => hP.moves s moves later he h.1
  env := fun s moves later he h => ⟨hP.env s moves later he h.1, hQ.env s moves later he h.2⟩
  agent := fun s m hm h => ⟨hP.agent s m hm h.1, hQ.agent s m hm h.2⟩
  log := fun s a h => ⟨hP.log s a h.1, hQ.log s a h.2⟩
  read := fun s l hl h => ⟨hP.read s l hl h.1, hQ.read s l hl h.2⟩
  write := fun s l v hl h => ⟨hP.write s l v hl h.1, hQ.write s l v hl h.2⟩
  phase := fun s ch v hch h => ⟨hP.phase s ch v hch h.1, hQ.phase s ch v hch h.2⟩
  emit := fun s e h => ⟨hP.emit s e h.1, hQ.emit s e h.2⟩
  ctx := fun s k h => ⟨hP.ctx s k h.1, hQ.ctx s k h.2⟩

/-! ## The listed writers -/

/-- The attributes fixed at bind are the same. -/
def SameBinding (a b : Instance) : Prop :=
  b.id = a.id ∧ b.pixclk = a.pixclk ∧ b.isNative = a.isNative ∧ b.tpgHorizontal = a.tpgHorizontal ∧ b.baseP = a.baseP ∧
    b.baseX = a.baseX ∧ b.baseW = a.baseW

/-- Of what R286 lists, `s` differs from `s₀` only where instruction `i` is a listed writer. -/
structure WritersListed (i : Instr) (s₀ s : State) : Prop where
  cfg : s.cfg = s₀.cfg
  binding : SameBinding s₀.inst s.inst
  lanes : s.inst.lanes ≠ s₀.inst.lanes → ∃ a n, i = .cmdSetLanes a n
  laneRate : s.inst.laneRate ≠ s₀.inst.laneRate → ∃ a r, i = .cmdSetLaneRate a r
  tpgMode : (s.inst.tpgEnabled ≠ s₀.inst.tpgEnabled ∨ s.inst.tpgPkt2pkt ≠ s₀.inst.tpgPkt2pkt) →
    ∃ a e p, i = .cmdSetTpgMode a e p
  bypass : s.inst.bypass ≠ s₀.inst.bypass → ∃ a b, i = .cmdSetBypass a b
  format : (s.inst.tpgVc ≠ s₀.inst.tpgVc ∨ s.inst.tpgDt ≠ s₀.inst.tpgDt) →
    (∃ ch w h f c a, i = .ipiInit ch w h f c a) ∨ ∃ a w h f, i = .cmdSetFormat a w h f
  clk : s.clk ≠ s₀.clk → i = .pwrResume ∨ i = .pwrSuspend
  dphy : s.dphy ≠ s₀.dphy → i = .dphyReset ∨ i = .dphyPowerup ∨ (∃ id l r, i = .dphyPowerupStd id l r) ∨
    (∃ id l r, i = .dphyPowerupMerged id l r) ∨ (∃ a r, i = .cmdSetLaneRate a r) ∨ i = .pwrResume ∨ i = .pwrSuspend

theorem WritersListed.refl (i : Instr) (s : State) : WritersListed i s s :=
  ⟨rfl, ⟨rfl, rfl, rfl, rfl, rfl, rfl, rfl⟩, (absurd rfl ·), (absurd rfl ·), (·.elim (absurd rfl ·) (absurd rfl ·)),
   (absurd rfl ·), (·.elim (absurd rfl ·) (absurd rfl ·)), (absurd rfl ·), (absurd rfl ·)⟩

theorem WritersListed.of_kept {i : Instr} {s₀ s s' : State} (h : WritersListed i s₀ s) (hk : Kept s s') :
    WritersListed i s₀ s' where
  cfg := hk.cfg.trans h.cfg
  binding := hk.inst.symm ▸ h.binding
  lanes := hk.inst.symm ▸ h.lanes
  laneRate := hk.inst.symm ▸ h.laneRate
  tpgMode := hk.inst.symm ▸ h.tpgMode
  bypass := hk.inst.symm ▸ h.bypass
  format := hk.inst.symm ▸ h.format
  clk := hk.clk.symm ▸ h.clk
  dphy := hk.dphy.symm ▸ h.dphy

theorem busInv_writersListed (i : Instr) (s₀ : State) :
    BusInv s₀.cfg (fun _ => True) True (WritersListed i s₀) :=
  busInv_of_kept (fun _ h => h.cfg) fun _ _ hk h => h.of_kept hk

theorem writesDphy_cases {i : Instr} (h : writesDphy i) : i = .dphyReset ∨ i = .dphyPowerup ∨
    (∃ id l r, i = .dphyPowerupStd id l r) ∨ (∃ id l r, i = .dphyPowerupMerged id l r) ∨
    (∃ a r, i = .cmdSetLaneRate a r) ∨ i = .pwrResume ∨ i = .pwrSuspend := by
  revert h
  cases i <;> simp [writesDphy]

theorem setsFormat_cases {i : Instr} (h : setsFormat i) :
    (∃ ch w h f c a, i = .ipiInit ch w h f c a) ∨ ∃ a w h f, i = .cmdSetFormat a w h f := by
  revert h
  cases i <;> simp [setsFormat]

/-- Each update of an instruction is one of its listed writes, and none is of a callback slot. -/
theorem updates_writersListed (i : Instr) (s₀ : State) (hi : i ≠ .irqHandle) : Updates i s₀.cfg (fun _ => True) True True
    fun s => (SlotsKept s₀ s ∧ Started s) ∧ WritersListed i s₀ s where
  toOpInv := ((busInv_slots s₀).and (busInv_writersListed i s₀)).opInv
  take := fun _ e _ => absurd e hi
  ctx := fun _ _ => .inl trivial
  err := fun _ => trivial
  dom := fun _ _ => .inl trivial
  attrs := fun _ _ => .inl trivial
  generator := fun _ => ⟨true, fun _ _ => .inl trivial⟩
  choice := fun _ _ h => ⟨⟨{ h.1.1 with }, h.1.2⟩, { h.2 with }⟩
  test := fun _ _ _ _ _ h => ⟨⟨{ h.1.1 with }, h.1.2⟩, { h.2 with }⟩
  dphy := fun hw _ _ h => ⟨⟨{ h.1.1 with }, h.1.2⟩, { h.2 with dphy := fun _ => writesDphy_cases hw }⟩
  format := fun hf _ _ _ h => ⟨⟨{ h.1.1 with }, h.1.2⟩, { h.2 with format := fun _ => setsFormat_cases hf }⟩
  lanes := fun a n e _ _ _ h => ⟨⟨{ h.1.1 with }, h.1.2⟩, { h.2 with lanes := fun _ => ⟨a, n, e⟩ }⟩
  laneRate := fun a r e _ _ h => ⟨⟨{ h.1.1 with }, h.1.2⟩, { h.2 with laneRate := fun _ => ⟨a, r, e⟩ }⟩
  tpgMode := fun a b p e _ h => ⟨⟨{ h.1.1 with }, h.1.2⟩, { h.2 with tpgMode := fun _ => ⟨a, b, p, e⟩ }⟩
  bypass := fun a b e _ h => ⟨⟨{ h.1.1 with }, h.1.2⟩, { h.2 with bypass := fun _ => ⟨a, b, e⟩ }⟩
  clocks := fun hp _ _ h => ⟨⟨{ h.1.1 with }, h.1.2⟩, { h.2 with clk := fun _ => hp }⟩
  powerOn := fun e _ h => ⟨⟨{ h.1.1 with }, h.1.2⟩, { h.2 with dphy := fun _ => by simp [e] }⟩
  powerLost := fun e _ h => ⟨⟨{ h.1.1 with }, h.1.2⟩, { h.2 with dphy := fun _ => by simp [e] }⟩

/-- An instruction changes no callback slot, and of the rest only what it is a listed writer of. -/
theorem exec_writersListed {i : Instr} {s t : State} (hn : exec i s = .next t) :
    SlotsKept s t ∧ WritersListed i s t := by
  rw [exec_eq_body] at hn
  split at hn
  · next hi =>
    subst hi
    split at hn
    · cases hn
    · have hw := takeInterrupt_spec (busInv_writersListed .irqHandle s) (WritersListed.refl _ s)
      have hs := (takeInterrupt_slots s).weaken (E' := True) False.elim id
      obtain ⟨u, ⟨hw, hs⟩, x, rfl, -⟩ := finish_next (hw.and hs).okUnit hn
      exact ⟨{ hs with }, { hw with }⟩
  · next hi =>
    obtain ⟨u, ⟨⟨hs, -⟩, hw⟩, x, rfl, -⟩ := runConfig_next (exec_spec (updates_writersListed i s hi)
      ⟨⟨⟨rfl, rfl, rfl⟩, .inl rfl⟩, { WritersListed.refl i s with }⟩) hn
    exact ⟨{ hs with }, { hw with }⟩

/-! ## The callback slots over a step -/

/-- A move before an access is the agent's own, the handler outside the interrupt context, or a fault. -/
theorem configMove_cases (m : EnvMove) (s : State) :
    configMove m s = .ok () (agentMove m s) ∨ (s.ctx ≠ .interrupt ∧ configMove m s = takeInterrupt s) ∨
      configMove m s = .stop .preconditionViolated := by
  cases m with
  | irq =>
    by_cases h : s.ctx = .interrupt
    · exact .inl (if_pos h)
    · exact .inr (.inl ⟨h, if_neg h⟩)
  | secondOp =>
    by_cases h : s.opInFlight = true
    · exact .inr (.inr (if_pos h))
    · exact .inl (if_neg h)
  | _ => exact .inl rfl

/-- Once the bind is over the moves of an idle step change no callback slot. -/
theorem configTick_slots {s : State} (h : bindOpen s = false) : (configTick s).Spec (SlotsKept s) False True := by
  rcases (bindOpen_false_iff s).mp h with hctx | hst
  · unfold configTick
    split
    · exact ⟨rfl, rfl, rfl⟩
    · next moves later _ =>
      refine (forEach_spec (P := fun u => SlotsKept s u ∧ u.ctx = .interrupt) (s := s.setEnv later)
        ⟨⟨rfl, rfl, rfl⟩, hctx⟩ fun m _ u hu => ?_).mono fun _ hu => hu.1
      rcases configMove_cases m u with e | ⟨hc, -⟩ | e
      · rw [e]
        exact ⟨hu.1.trans (agentMove_slots (bindOpen_interrupt hu.2) m), (agentMove_ctx m u).trans hu.2⟩
      · exact absurd hu.2 hc
      · rw [e]
        trivial
  · exact (configTick_spec (busInv_slots s) s ⟨⟨rfl, rfl, rfl⟩, hst⟩).mono fun _ hu => hu.1

theorem step_slots {s t : State} (h : bindOpen s = false) (hn : step s = .next t) : SlotsKept s t := by
  unfold step at hn
  split at hn
  · have hs := configTick_slots h
    unfold idleStep at hn
    split at hn
    · next he => cases hn; rw [he] at hs; exact hs
    · next he => rw [he] at hs; exact hs.1.elim
    · cases hn
  · unfold runDecoded at hn
    split at hn
    · exact { (exec_writersListed hn).1 with }
    · unfold unknownCommand command at hn
      obtain ⟨u, hu, x, rfl, -⟩ := runConfig_next (P := SlotsKept s) (E := True) (F := True)
        (native_spec ⟨rfl, rfl, rfl⟩ (show Res.Spec _ _ _ (Res.err _ _) from ⟨trivial, rfl, rfl, rfl⟩)) hn
      exact { hu with }
    · cases hn
    · cases hn

/-- At bind an idle step fills both slots with what the caller registers. -/
theorem step_bind {s : State} {v w : Slot} (hb : bindOpen s = true) (hi : s.inbox = [])
    (he : s.env = [[.onFault v, .onDone w]]) : step s = .next { s with env := [], onFault := v, onDone := w } := by
  have h1 : bindOpen (s.setEnv []) = true := hb
  have h2 : bindOpen ((s.setEnv []).setOnFault v) = true := hb
  have h0 : step s = idleStep s := by simp only [step, hi]
  rw [h0]
  simp only [idleStep, configTick, he, forEach_cons, forEach_nil, configMove, agentMove, h1, h2, if_true, Res.andThen_ok]
  rfl

/-- Settles O11. -/
theorem attributesHaveOnlyTheListedWriters : Obligations.AttributesHaveOnlyTheListedWriters := by
  unfold Obligations.AttributesHaveOnlyTheListedWriters
  refine ⟨fun s t hb hn => ?_, fun s v w => step_bind, fun i s t hn => ?_⟩
  · exact ⟨(step_slots hb hn).onFault, (step_slots hb hn).onDone⟩
  · obtain ⟨hs, hw⟩ := exec_writersListed hn
    exact ⟨hw.cfg, hw.binding, ⟨hs.onFault, hs.onDone⟩, hw.lanes, hw.laneRate, hw.tpgMode, hw.bypass, hw.format, hw.clk,
      hw.dphy⟩

end Sys2Proof.Machine
end

section
/-! SUPPORT. Register access (O14, O15, O16; 40_regaccess.md R111 to R114): an undisturbed access of a configuration operation, and
what a bank's register returns and stores. -/

namespace Sys2Proof.Machine

/-! ## The frame of an undisturbed configuration operation -/

theorem setInFlight_of_eq {s : State} {b : Bool} (h : s.opInFlight = b) : s.setInFlight b = s := h ▸ s.setInFlight_self

/-- The mark of an operation in flight does not outlast it: if the body leaves `u`, so marked, the operation leaves `u`. -/
theorem runConfig_ran {s u : State} {body : State → Res Value} {v : Value} (hs : s.opInFlight = false)
    (hu : u.opInFlight = false) (hb : body (s.setInFlight true) = .ok v (u.setInFlight true)) :
    runConfig body s = .next (completeOk v u) := by
  rw [runConfig_idle hs, hb, Res.mapState_ok, State.setInFlight_setInFlight, setInFlight_of_eq hu, finish_ok]

/-- A configuration operation whose body fails in `u`, marked in flight, leaves `u` with the error. -/
theorem runConfig_failed {s u : State} {body : State → Res Value} {e : Err} (hs : s.opInFlight = false)
    (hu : u.opInFlight = false) (hb : body (s.setInFlight true) = .err e (u.setInFlight true)) :
    runConfig body s = .next (takeError e u) := by
  rw [runConfig_idle hs, hb, Res.mapState_err, State.setInFlight_setInFlight, setInFlight_of_eq hu, finish_err]

theorem Open.inFlight {s : State} (h : Open s) (b : Bool) : Open (s.setInFlight b) := h

theorem valueAt_setInFlight (s : State) (b : Bool) (l : Loc) : valueAt (s.setInFlight b) l = valueAt s l := by
  cases l <;> rfl

theorem readState_setInFlight (s : State) (b : Bool) (l : Loc) :
    readState (s.setInFlight b) l = (readState s l).setInFlight b := by
  cases l <;> rfl

theorem wroteState_setInFlight (s : State) (b : Bool) (l : Loc) (v : Word) :
    wroteState (s.setInFlight b) l v = (wroteState s l v).setInFlight b := by
  cases l <;> rfl

/-! ## The operations -/

section
variable {s : State} (h : Ready s) {r : PReg} (hr : r ∈ bankRegs s.cfg) (space : PReg → Loc)
include h hr

theorem atOffset_open {α : Type} (body : PReg → State → Res α) :
    atOffset space (offsetOf s.cfg r) body (s.setInFlight true) = body r (s.setInFlight true) := by
  unfold atOffset
  rw [if_pos ((h.isOpen.inFlight true).access _), State.setInFlight_cfg, regAt_offsetOf h.legal hr]

/-- An undisturbed read at the offset of a register. -/
theorem runConfig_memRead : runConfig (memRead space (offsetOf s.cfg r)) s
    = .next (completeOk (.word (valueAt s (space r))) (readState s (space r))) := by
  refine runConfig_ran h.idle.1 (by simpa using h.idle.1) ?_
  unfold memRead
  rw [atOffset_open h hr, rd_open (h.isOpen.inFlight true), Res.mapValue_ok, valueAt_setInFlight, readState_setInFlight]

/-- An undisturbed write at the offset of a register. -/
theorem runConfig_memWrite (v : Word) : runConfig (memWrite space (offsetOf s.cfg r) v) s
    = .next (completeOk .unit (wroteState s (space r) v)) := by
  refine runConfig_ran h.idle.1 (by simpa using h.idle.1) ?_
  unfold memWrite
  rw [atOffset_open h hr, wr_open (h.isOpen.inFlight true), okUnit_ok, wroteState_setInFlight]

end

/-! ## What a bank returns and stores -/

theorem bankValue_stored (c : Cfg) (b : Bank) {r : PReg} (hv : r ≠ .version) (hm : r ≠ .intStMain) :
    bankValue c b r = b.get r := by
  unfold bankValue
  split
  · exact absurd rfl hv
  · exact absurd rfl hm
  · rfl

/-- A status register after its own clearing read (R77, R249). -/
theorem bankAfterRead_status_clears {c : Cfg} (hclr : c.stReadClears = true) (b : Bank) (k : Nat) :
    (bankAfterRead c b (.intSt k)).get (.intSt k) = 0 := by
  simp only [bankAfterRead, hclr, if_true]
  exact Bank.get_put_same _ _ _ rfl

/-- A read changes no other register, and nothing at all where it does not clear (R77). -/
theorem bankAfterRead_get_other {c : Cfg} {b : Bank} {r q : PReg}
    (h : q ≠ r ∨ (∀ k, r ≠ .intSt k) ∨ c.stReadClears = false) : (bankAfterRead c b r).get q = b.get q := by
  unfold bankAfterRead
  split
  · next k =>
    split
    · next hclr =>
      rcases h with h | h | h
      · exact Bank.get_put_ne _ _ _ _ h
      · exact absurd rfl (h k)
      · rw [hclr] at h
        cases h
    · rfl
  · rfl

theorem readOnlyReg_iff (r : PReg) :
    readOnlyReg r = true ↔ r = .version ∨ r = .intStMain ∨ r = .phyStopstate ∨ ∃ k, r = .intSt k := by
  cases r <;> simp [readOnlyReg]

theorem bankAfterWrite_readOnly {c : Cfg} {b : Bank} {r : PReg} (h : readOnlyReg r = true) (v : Word) :
    bankAfterWrite c b r v = b := if_pos h

theorem bankAfterWrite_get_same {c : Cfg} {b : Bank} {r : PReg} (h : readOnlyReg r = false) (v : Word) :
    (bankAfterWrite c b r v).get r = storedValue c r v := by
  rw [bankAfterWrite_get, if_pos ⟨rfl, h⟩]

theorem bankAfterWrite_get_ne {c : Cfg} {b : Bank} {r q : PReg} (h : q ≠ r) (v : Word) :
    (bankAfterWrite c b r v).get q = b.get q := by
  rw [bankAfterWrite_get, if_neg fun hq => h hq.1]

/-- A register stores the word written unless it is a memory-flush register that clears itself (R48, U9). -/
theorem storedValue_plain {c : Cfg} {r : PReg}
    (h : ¬ ((∃ ch, r = .ipi ch .memFlush) ∧ c.manualFlushSelfClears = true)) (v : Word) : storedValue c r v = v := by
  unfold storedValue
  split
  · next ch => exact if_neg fun hs => h ⟨⟨ch, rfl⟩, hs⟩
  · rfl

theorem storedValue_selfClears {c : Cfg} {r : PReg} (hr : ∃ ch, r = .ipi ch .memFlush)
    (hs : c.manualFlushSelfClears = true) (v : Word) : storedValue c r v = setField v c.map.fManualFlush 0 := by
  obtain ⟨ch, rfl⟩ := hr
  exact if_pos hs

/-! ## The statements -/

/-- Settles O14: the value of the bank's register, and the bank after its read. -/
theorem registerReadsReturnTheContent : Obligations.RegisterReadsReturnTheContent := by
  unfold Obligations.RegisterReadsReturnTheContent
  intro s r h hr
  have main : ∀ b : Bank, r = .intStMain → ∀ i, (bankValue s.cfg b r).getLsbD i = true ↔ ∃ k < 14,
      (catEntry s.cfg k).mainbit.getLsbD i = true ∧
        b.get (.intSt k) &&& (catEntry s.cfg k).ebits &&& b.get (.intMsk k) ≠ 0 := by
    rintro b rfl i
    exact mainStatus_getLsbD s.cfg b i
  have clears : ∀ (b : Bank) (c : Nat), r = .intSt c → s.cfg.stReadClears = true →
      (bankAfterRead s.cfg b r).get r = 0 := by
    rintro b c rfl hclr
    exact bankAfterRead_status_clears hclr b c
  refine ⟨⟨_, bankValue s.cfg s.p r, runConfig_memRead h hr .p, rfl, ?_, ?_, main s.p, bankValue_stored _ _, rfl,
    clears s.p, fun q => bankAfterRead_get_other, fun _ => rfl⟩,
    ⟨_, bankValue s.cfg s.x r, runConfig_memRead h hr .x, rfl, ?_, ?_, main s.x, bankValue_stored _ _, rfl,
    clears s.x, fun q => bankAfterRead_get_other, fun _ => rfl⟩⟩ <;> (rintro rfl; rfl)

/-- Settles O15: the bank after the write of one register. -/
theorem registerWritesStoreTheValue : Obligations.RegisterWritesStoreTheValue := by
  unfold Obligations.RegisterWritesStoreTheValue
  intro s r v h hr readOnly selfClears
  have writable : ¬ readOnly → readOnlyReg r = false := fun hn =>
    Bool.eq_false_iff.mpr fun hro => hn ((readOnlyReg_iff r).mp hro)
  have stores : ∀ b : Bank, ¬ readOnly → ¬ selfClears → (bankAfterWrite s.cfg b r v).get r = v := fun b hn hs => by
    rw [bankAfterWrite_get_same (writable hn), storedValue_plain hs]
  have storesCleared : ∀ b : Bank, selfClears → (bankAfterWrite s.cfg b r v).get r
      = setField v s.cfg.map.fManualFlush 0 := fun b hs => by
    have hro : readOnlyReg r = false := by
      obtain ⟨⟨ch, rfl⟩, -⟩ := hs
      rfl
    rw [bankAfterWrite_get_same hro, storedValue_selfClears hs.1 hs.2]
  have others : ∀ b : Bank, b.SameBut (bankAfterWrite s.cfg b r v) [r] := fun b q hq =>
    bankAfterWrite_get_ne (fun e => hq (List.mem_singleton.mpr e)) v
  exact ⟨⟨_, runConfig_memWrite h hr .p v, rfl, ⟨rfl, others s.p, fun _ => rfl⟩,
      fun hro => bankAfterWrite_readOnly ((readOnlyReg_iff r).mpr hro) v, stores s.p, storesCleared s.p⟩,
    ⟨_, runConfig_memWrite h hr .x v, rfl, ⟨rfl, others s.x, fun _ => rfl⟩,
      fun hro => bankAfterWrite_readOnly ((readOnlyReg_iff r).mpr hro) v, stores s.x, storesCleared s.x⟩⟩

/-- Settles O16: the write leaves a ready state, in which the read returns what the register stores. -/
theorem writtenRegisterReadsBack : Obligations.WrittenRegisterReadsBack := by
  unfold Obligations.WrittenRegisterReadsBack
  intro s r v h hr hro hs
  have ht : Ready (completeOk .unit (wroteState s (.p r) v)) := ⟨h.legal, h.quiet, h.idle, h.powered⟩
  refine ⟨_, _, runConfig_memWrite h hr .p v, runConfig_memRead ht hr .p, ?_⟩
  have hv : bankValue s.cfg (bankAfterWrite s.cfg s.p r v) r = v := by
    have hplain : ¬ ((∃ ch, r = .ipi ch .memFlush) ∧ s.cfg.manualFlushSelfClears = true) := fun hc => by
      rw [hs hc.1] at hc
      cases hc.2
    rw [bankValue_stored _ _ (by rintro rfl; cases hro) (by rintro rfl; cases hro), bankAfterWrite_get_same hro,
      storedValue_plain hplain]
  exact congrArg (fun w => some (Result.ok (.word w))) hv

end Sys2Proof.Machine
end

section
/-! SUPPORT. The masks (O50; 45_irq.md R242, R243), the overflow recovery (O45; 44_ipi.md R211) and the wait among answers of the
PHY agent (O32; 42_dphy_sequencer.md R152, R153). -/

namespace Sys2Proof.Machine

/-! ## Writing the masks -/

/-- The state after undisturbed writes of `f k` to the mask of each category of a list, in order. -/
def masksWritten (f : Nat → Word) (l : List Nat) (s : State) : State :=
  l.foldl (fun s k => wroteState s (.p (.intMsk k)) (f k)) s

theorem masksWritten_append (f : Nat → Word) (l : List Nat) (k : Nat) (s : State) :
    masksWritten f (l ++ [k]) s = wroteState (masksWritten f l s) (.p (.intMsk k)) (f k) := by
  simp [masksWritten]

theorem masksWritten_setInFlight (f : Nat → Word) (l : List Nat) (s : State) (b : Bool) :
    masksWritten f l (s.setInFlight b) = (masksWritten f l s).setInFlight b := by
  induction l generalizing s with
  | nil => rfl
  | cons k l ih => exact (congrArg (masksWritten f l) (wroteState_setInFlight s b _ _)).trans (ih _)

/-- A loop whose body writes the mask of its category is `masksWritten`. -/
theorem forEach_masks {c : Cfg} {body : Nat → State → Res Unit} {f : Nat → Word}
    (hb : ∀ k s, s.cfg = c → body k s = wr (.p (.intMsk k)) (f k) s) (l : List Nat) {s : State} (ho : Open s)
    (hc : s.cfg = c) : forEach l body s = .ok () (masksWritten f l s) := by
  induction l generalizing s with
  | nil => rfl
  | cons k l ih =>
    rw [forEach_cons, hb k s hc, wr_open ho, Res.andThen_ok]
    exact ih (by simpa using ho) (by simpa using hc)

theorem masksWritten_rest (f : Nat → Word) (l : List Nat) (s : State) :
    masksWritten f l s = { s with p := (masksWritten f l s).p, trace := (masksWritten f l s).trace } := by
  induction l generalizing s with
  | nil => rfl
  | cons k l ih => exact ih (wroteState s (.p (.intMsk k)) (f k))

theorem masksWritten_trace (f : Nat → Word) (l : List Nat) (s : State) :
    (masksWritten f l s).trace = s.trace ++ l.map fun k => .wr (.p (.intMsk k)) (f k) := by
  induction l generalizing s with
  | nil => simp [masksWritten]
  | cons k l ih => exact (ih _).trans (by simp)

theorem masksWritten_get_other (f : Nat → Word) (l : List Nat) (s : State) {r : PReg} (hr : r ∉ l.map .intMsk) :
    (masksWritten f l s).p.get r = s.p.get r := by
  induction l generalizing s with
  | nil => rfl
  | cons k l ih =>
    rw [List.map_cons, List.mem_cons, not_or] at hr
    exact (ih _ hr.2).trans (bankAfterWrite_get_ne hr.1 _)

theorem masksWritten_get_mask (f : Nat → Word) (n : Nat) (s : State) {k : Nat} (hk : k < n) :
    (masksWritten f (List.range n) s).p.get (.intMsk k) = f k := by
  induction n with
  | zero => cases hk
  | succ n ih =>
    rw [List.range_succ, masksWritten_append, wroteState_p_p, bankAfterWrite_get]
    by_cases h : k = n
    · subst h
      simp [readOnlyReg, storedValue]
    · simp [h, ih (by omega)]

/-- What writing all masks does: the frame, the masks, the accesses. -/
theorem masksWritten_all (f : Nat → Word) (n : Nat) (s : State) :
    let t := completeOk .unit (masksWritten f (List.range n) s)
    t.result = some (.ok .unit) ∧ OnlyP s t ((List.range n).map .intMsk) ∧ (∀ c < n, t.p.get (.intMsk c) = f c) ∧
      t.trace = s.trace ++ (List.range n).map fun c => .wr (.p (.intMsk c)) (f c) := by
  intro t
  have hrest : t = { s with p := t.p, trace := t.trace, result := t.result } :=
    congrArg (completeOk .unit) (masksWritten_rest f (List.range n) s)
  refine ⟨rfl, ⟨hrest, fun r hr => masksWritten_get_other f _ s hr, fun a => ?_⟩,
    fun c hc => masksWritten_get_mask f n s hc, masksWritten_trace f _ s⟩
  rw [hrest]

/-- Settles O50. After disable every category is masked, so the summary is 0. -/
theorem enableAndDisableWriteEveryMask : Obligations.EnableAndDisableWriteEveryMask := by
  unfold Obligations.EnableAndDisableWriteEveryMask
  intro s h
  have runs : ∀ (f : Nat → Word) (body : Nat → State → Res Unit),
      (∀ k u, u.cfg = s.cfg → body k u = wr (.p (.intMsk k)) (f k) u) →
      runConfig (fun s => okUnit (forEach (List.range Config.numCat) body s)) s
        = .next (completeOk .unit (masksWritten f (List.range 14) s)) := fun f body hb => by
    have hf : (masksWritten f (List.range 14) s).opInFlight = false := by
      rw [masksWritten_rest]
      exact h.idle.1
    refine runConfig_ran h.idle.1 hf ?_
    rw [forEach_masks hb _ (h.isOpen.inFlight true) rfl, masksWritten_setInFlight]
    rfl
  constructor
  · have hb : ∀ k u, u.cfg = s.cfg → unmaskCategory k u = wr (.p (.intMsk k)) (catEntry s.cfg k).ebits u :=
      fun k u hu => by rw [unmaskCategory, hu]
    obtain ⟨hres, honly, hmasks, htrace⟩ := masksWritten_all (fun k => (catEntry s.cfg k).ebits) 14 s
    exact ⟨_, runs _ _ hb, hres, honly, hmasks, htrace⟩
  · obtain ⟨hres, honly, hmasks, htrace⟩ := masksWritten_all (fun _ => 0) 14 s
    have hmain : ∀ c, mainStatus c (masksWritten (fun _ => 0) (List.range 14) s).p = 0 := fun c =>
      mainStatus_eq_zero fun k hk => by
        have hz : tblGet 0 (masksWritten (fun _ => 0) (List.range 14) s).p.intMsk k = 0 := hmasks k hk
        rw [unmaskedPending, hz]
        exact BitVec.and_zero
    exact ⟨_, runs _ maskCategory fun _ _ _ => rfl, hres, honly, hmasks, hmain _, irqLine_eq_false (hmain _), htrace⟩

/-! ## The overflow recovery -/

theorem updState_setInFlight (s : State) (b : Bool) (f : Field) (n : Nat) :
    updState (s.setInFlight b) f n = (updState s f n).setInFlight b := by
  cases f <;> rfl

/-- The state after the accesses of a recovery, before the phase of the channel follows. -/
def releasedState (s : State) (ch : Nat) : State :=
  wroteState (updState (updState (updState s (.p (.manualFlush ch)) 1) (.p (.softrstn ch)) 0) (.p (.softrstn ch)) 1)
    (.p .ipiSoftrstn) (allRelease s.cfg)

theorem recoveredState_eq (s : State) (ch : Nat) : recoveredState s ch =
    if phaseOf s ch = .enabled then setPhase ch .configured (releasedState s ch) else releasedState s ch := rfl

theorem recoveredState_setInFlight (s : State) (ch : Nat) (b : Bool) :
    recoveredState (s.setInFlight b) ch = (recoveredState s ch).setInFlight b := by
  have hph : phaseOf (s.setInFlight b) ch = phaseOf s ch := rfl
  have hu : releasedState (s.setInFlight b) ch = (releasedState s ch).setInFlight b := by
    simp only [releasedState, updState_setInFlight, wroteState_setInFlight, State.setInFlight_cfg]
  rw [recoveredState_eq, recoveredState_eq, hph, hu]
  split <;> rfl

theorem recoveredState_rest (s : State) (ch : Nat) : recoveredState s ch = { s with
    p := (recoveredState s ch).p, ch := (recoveredState s ch).ch, trace := (recoveredState s ch).trace } := by
  rw [recoveredState_eq]
  split <;> (apply State.eq_of_fields <;> simp [releasedState, setPhase])

theorem recoveredState_p (s : State) (ch : Nat) : (recoveredState s ch).p = (releasedState s ch).p := by
  rw [recoveredState_eq]
  split <;> rfl

/-- The bank after a recovery: the flush written, every channel released (R211). -/
theorem recoveredState_get (s : State) (ch : Nat) (r : PReg) : (recoveredState s ch).p.get r =
    if r = .ipiSoftrstn then allRelease s.cfg
    else if r = .ipi ch .memFlush then storedValue s.cfg (.ipi ch .memFlush)
      (setField (s.p.get (.ipi ch .memFlush)) s.cfg.map.fManualFlush 1)
    else s.p.get r := by
  rw [recoveredState_p, releasedState, wroteState_p_p, bankAfterWrite_get]
  by_cases hr : r = .ipiSoftrstn
  · simp [hr, readOnlyReg, storedValue]
  · simp [hr, PField.reg, fieldPos]
    rfl

theorem recoveredState_phase (s : State) (ch k : Nat) : phaseOf (recoveredState s ch) k =
    if k = ch ∧ phaseOf s ch = .enabled then .configured else phaseOf s k := by
  have hu : ∀ k, phaseOf (releasedState s ch) k = phaseOf s k := fun k => by simp [phaseOf, releasedState]
  rw [recoveredState_eq]
  by_cases h : phaseOf s ch = .enabled
  · rw [if_pos h, phaseOf_setPhase, hu]
    simp only [h, and_true]
  · rw [if_neg h, if_neg fun hk => h hk.2, hu]

/-- The seven accesses of IPI_OVERFLOW_RESET (R211, R78). -/
theorem recoveredState_trace (s : State) (ch : Nat) : (recoveredState s ch).trace = s.trace ++
    ([.rd (.p (.ipi ch .memFlush)) (s.p.get (.ipi ch .memFlush)),
      .wr (.p (.ipi ch .memFlush)) (setField (s.p.get (.ipi ch .memFlush)) s.cfg.map.fManualFlush 1),
      .rd (.p .ipiSoftrstn) s.p.ipiSoftrstn,
      .wr (.p .ipiSoftrstn) (setField s.p.ipiSoftrstn (fieldPos s.cfg (.softrstn ch)) 0),
      .rd (.p .ipiSoftrstn) (setField s.p.ipiSoftrstn (fieldPos s.cfg (.softrstn ch)) 0),
      .wr (.p .ipiSoftrstn) (setField s.p.ipiSoftrstn (fieldPos s.cfg (.softrstn ch)) 1),
      .wr (.p .ipiSoftrstn) (allRelease s.cfg)] : List Access) := by
  have htr : (recoveredState s ch).trace = (releasedState s ch).trace := by
    rw [recoveredState_eq]
    split <;> rfl
  have hread : ∀ u : State, valueAt u (.p .ipiSoftrstn) = u.p.get .ipiSoftrstn := fun _ => rfl
  have hflush : ∀ u : State, valueAt u (.p (.ipi ch .memFlush)) = u.p.get (.ipi ch .memFlush) := fun _ => rfl
  rw [htr, releasedState]
  simp [updValue, fieldLoc, placeOf, PField.reg, hread, hflush, storedValue, fieldPos]
  simp [Bank.get]

/-- In the release-all constant every channel's bit is 1 (R51). -/
theorem getField_allRelease {c : Cfg} (hc : LegalCfg c) {k : Nat} (hk : k < Config.maxPixCh) :
    getField (allRelease c) (fieldPos c (.softrstn k)) = 1 := by
  have hw : (fieldPos c (.softrstn k)).width = 1 := hc.fieldWidths (.softrstn k) 1 (if_pos hk)
  have hfit : (fieldPos c (.softrstn k)).lo + (fieldPos c (.softrstn k)).width ≤ 32 := hc.fieldsFit (.p (.softrstn k))
  apply Nat.eq_of_testBit_eq
  intro i
  rw [getField_testBit, hw]
  by_cases hi : i = 0
  · subst hi
    have hbit : (allRelease c).getLsbD (fieldPos c (.softrstn k)).lo = true := by
      rw [allRelease_getLsbD hc (by omega)]
      exact decide_eq_true ⟨k, hk, rfl⟩
    simp [hbit]
  · have hone : Nat.testBit 1 i = false :=
      Bool.eq_false_iff.mpr fun e => hi (Nat.testBit_one_eq_true_iff_self_eq_zero.mp e)
    simp [hi, hone]

/-- Settles O45. -/
theorem overflowResetReleasesAllChannels : Obligations.OverflowResetReleasesAllChannels := by
  unfold Obligations.OverflowResetReleasesAllChannels
  intro s ch h hch
  have hf : (recoveredState s ch).opInFlight = false := by
    rw [recoveredState_rest]
    exact h.idle.1
  have hbody : okUnit (overflowReset ch (s.setInFlight true)) = .ok .unit ((recoveredState s ch).setInFlight true) := by
    rw [overflowReset_open (h.isOpen.inFlight true) hch, recoveredState_setInFlight, okUnit_ok]
  have hsoft : (recoveredState s ch).p.ipiSoftrstn = allRelease s.cfg :=
    (recoveredState_get s ch .ipiSoftrstn).trans (if_pos rfl)
  have hrest : completeOk .unit (recoveredState s ch) = { s with
      p := (recoveredState s ch).p, ch := (recoveredState s ch).ch, trace := (recoveredState s ch).trace,
      result := some (.ok .unit) } := congrArg (completeOk .unit) (recoveredState_rest s ch)
  have hother : ∀ r, r ∉ [PReg.ipi ch .memFlush, .ipiSoftrstn] → (recoveredState s ch).p.get r = s.p.get r :=
    fun r hr => by
      simp only [List.mem_cons, List.not_mem_nil, or_false, not_or] at hr
      rw [recoveredState_get, if_neg hr.2, if_neg hr.1]
  refine ⟨_, runConfig_ran (body := fun s => okUnit (overflowReset ch s)) h.idle.1 hf hbody, rfl,
    ⟨hrest, hother, fun k hk => ?_, fun a => ?_⟩, ?_, ?_, fun k hk => ?_, fun b hb hno => ?_, ?_⟩
  · exact (recoveredState_phase s ch k).trans (if_neg fun e => hk e.1)
  · rw [hrest]
  · refine (recoveredState_phase s ch ch).trans ?_
    simp
  · refine (recoveredState_get s ch _).trans ?_
    simp
  · show getField (recoveredState s ch).p.ipiSoftrstn (fieldPos (recoveredState s ch).cfg (.softrstn k)) = 1
    rw [hsoft, recoveredState_cfg]
    exact getField_allRelease h.legal hk
  · show (recoveredState s ch).p.ipiSoftrstn.getLsbD b = false
    rw [hsoft, allRelease_getLsbD h.legal hb]
    exact decide_eq_false fun ⟨k, hk, e⟩ => hno k hk e
  · show (recoveredState s ch).trace = s.trace ++ [_, _, _, _, _, _, .wr (.p .ipiSoftrstn) (recoveredState s ch).p.ipiSoftrstn]
    rw [hsoft]
    exact recoveredState_trace s ch

/-! ## The wait -/

/-- A schedule in which the PHY agent answers the reads of PHY_STOPSTATE with the given words. -/
def answers (vs : List Word) : List (List EnvMove) := vs.map fun v => [.stopstate .p v]

theorem answers_phyOnly (vs : List Word) : ∀ moves ∈ answers vs, ∀ m ∈ moves, ∃ a, m = .stopstate .p a := by
  intro moves hm m hmm
  obtain ⟨v, -, rfl⟩ := List.mem_map.mp hm
  exact ⟨v, List.mem_singleton.mp hmm⟩

/-- The state after a read that the agent answered with `v`. -/
def answered (s : State) (v : Word) (later : List (List EnvMove)) : State :=
  readState ((s.setEnv later).setP (s.p.put .phyStopstate v)) (.p .phyStopstate)

theorem rd_answered {s : State} (hp : Powered s) {v : Word} {later : List (List EnvMove)}
    (he : s.env = [.stopstate .p v] :: later) : rd (.p .phyStopstate) s = .ok v (answered s v later) := by
  simp only [rd, readVia, hp.access, if_true, configTick, he, forEach_cons, forEach_nil, configMove, Res.andThen_ok]
  rfl

/-- Polls that the agent answers with words that lack a bit use up the budget one by one. -/
theorem pollStop_failed {n : Nat} {failed : List Word} (hf : ∀ u ∈ failed, lanesStopped n u = false) (fuel : Nat)
    {s : State} (hp : Powered s) {later : List (List EnvMove)} (he : s.env = answers failed ++ later) :
    ∃ u, pollStop (failed.length + fuel) n s = pollStop fuel n u ∧ Powered u ∧ u.env = later ∧
      u.trace = s.trace ++ failed.map fun v => .rd (.p .phyStopstate) v := by
  induction failed generalizing s with
  | nil => exact ⟨s, by simp, hp, he, by simp⟩
  | cons v failed ih =>
    obtain ⟨u, hu, hpu, heu, htu⟩ := ih (fun u hu => hf u (List.mem_cons_of_mem _ hu))
      (s := answered s v (answers failed ++ later)) hp rfl
    refine ⟨u, ?_, hpu, heu, ?_⟩
    · have hv : lanesStopped n v = false := hf v (List.mem_cons_self ..)
      rw [List.length_cons, Nat.add_right_comm, pollStop, rd_answered hp he, Res.andThen_ok, hv, if_neg Bool.false_ne_true]
      exact hu
    · rw [htu]
      simp [answered, valueAt, bankValue, Bank.get, Bank.put]

/-- Settles O32: `k` answers without a bit and then one with all of them, or 3000 answers without. -/
theorem waitAdmitsEveryPollCount : Obligations.WaitAdmitsEveryPollCount := by
  unfold Obligations.WaitAdmitsEveryPollCount
  intro s n hidle hpow h1 h4 phyOnly fails poll
  have hzero : lanesStopped n 0 = false := by
    rw [Bool.eq_false_iff, Ne, lanesStopped_iff h4]
    intro hall
    exact absurd (hall 0 h1) (by simp)
  have hfails : ∀ k, ∀ u ∈ List.replicate k (0 : Word), fails u := fun k u hu =>
    ⟨0, h1, by rw [List.eq_of_mem_replicate hu]; simp⟩
  have hstops : ∀ k, ∀ u ∈ List.replicate k (0 : Word), lanesStopped n u = false := fun k u hu => by
    rw [List.eq_of_mem_replicate hu]
    exact hzero
  have hrun : ∀ env, exec (.dphyWaitStopstate n) { s with env := env } = finish ((okUnit
      (pollStop 3000 n ((s.setEnv env).setInFlight true))).mapState fun s => s.setInFlight false) := fun env => by
    have hc : ((s.setEnv env).setInFlight true).ctx = .config := hidle.2
    show runConfig (fun s => okUnit (dphyWaitStopstate n s)) (s.setEnv env) = _
    rw [runConfig_idle (s := s.setEnv env) hidle.1, dphyWaitStopstate, blocking_config hc, withLanes_ok h1 h4]
    rfl
  constructor
  · intro k hk
    have hall : ∀ b < n, (BitVec.allOnes 32).getLsbD b = true := fun b hb => by
      rw [BitVec.getLsbD_allOnes]
      exact decide_eq_true (by omega)
    obtain ⟨u, hu, hpu, heu, htu⟩ := pollStop_failed (hstops k) (3000 - k)
      (s := (s.setEnv (answers (List.replicate k 0 ++ [BitVec.allOnes 32]))).setInFlight true) hpow
      (later := answers [BitVec.allOnes 32]) (by simp [answers])
    rw [List.length_replicate, Nat.add_sub_cancel' (Nat.le_of_lt hk)] at hu
    have hlast : pollStop (3000 - k) n u = .ok () (answered u (BitVec.allOnes 32) []) := by
      obtain ⟨m, hm⟩ : ∃ m, 3000 - k = m + 1 := ⟨3000 - k - 1, by omega⟩
      rw [hm, pollStop, rd_answered hpu heu, Res.andThen_ok, if_pos ((lanesStopped_iff h4 _).mpr hall)]
      rfl
    refine ⟨answers (List.replicate k 0 ++ [BitVec.allOnes 32]), List.replicate k 0, BitVec.allOnes 32,
      completeOk .unit ((answered u (BitVec.allOnes 32) []).setInFlight false),
      answers_phyOnly _, List.length_replicate, hfails k, hall, ?_, rfl, ?_⟩
    · rw [hrun, hu, hlast, okUnit_ok, Res.mapState_ok, finish_ok]
    · show (answered u (BitVec.allOnes 32) []).trace = _
      simp [answered, htu, valueAt, bankValue, Bank.get, Bank.put, poll]
  · obtain ⟨u, hu, -, -, htu⟩ := pollStop_failed (hstops 3000) 0
      (s := (s.setEnv (answers (List.replicate 3000 0))).setInFlight true) hpow (later := []) (List.append_nil _).symm
    rw [List.length_replicate, pollStop, raise_eq] at hu
    refine ⟨answers (List.replicate 3000 0), List.replicate 3000 0, takeError .timeout (u.setInFlight false),
      answers_phyOnly _, List.length_replicate, hfails 3000, ?_, rfl, htu⟩
    rw [hrun, hu, okUnit_err, Res.mapState_err, finish_err]

end Sys2Proof.Machine
end

section
/-! SUPPORT. The power hooks (O56, O57; 46_commands.md R282 to R285): which clocks the loops leave on, and what a lost or a fresh
register space holds. -/

namespace Sys2Proof.Machine

/-! ## Clocks -/

theorem Clocks.get_put (k : Clocks) (c d : Clk) (v : ClkState) : (k.put c v).get d = if d = c then v else k.get d := by
  cases c <;> cases d <;> rfl

theorem Clocks.ext_get {k k' : Clocks} (h : ∀ c, k.get c = k'.get c) : k = k' := by
  obtain ⟨ipi, pclk, cfg⟩ := k
  obtain ⟨ipi', pclk', cfg'⟩ := k'
  obtain rfl : ipi = ipi' := h .ipi
  obtain rfl : pclk = pclk' := h .pclk
  obtain rfl : cfg = cfg' := h .cfg
  rfl

theorem clocksOn_iff (k : Clocks) : clocksOn k = true ↔ ∀ c, k.get c ≠ .off := by
  simp only [clocksOn, Bool.and_eq_true, bne_iff_ne]
  exact ⟨fun ⟨⟨h1, h2⟩, h3⟩ c => by cases c <;> assumption, fun h => ⟨⟨h .ipi, h .pclk⟩, h .cfg⟩⟩

theorem mem_enableOrder (c : Clk) : c ∈ enableOrder := by cases c <;> decide

theorem mem_disableOrder (c : Clk) : c ∈ disableOrder := by cases c <;> decide

theorem someClock_iff (k : Clocks) (v : ClkState) : someClock k v = true ↔ ∃ c, k.get c = v := by
  simp [someClock, mem_enableOrder]

/-! ## The enable loop -/

/-- A loop over clocks none of which is off does nothing. -/
theorem enableClocks_noneOff {l done : List Clk} {s : State} (h : ∀ c ∈ l, s.clk.get c ≠ .off) :
    enableClocks l done s = .ok () s := by
  induction l generalizing done with
  | nil => rfl
  | cons c l ih =>
    have ih := fun done => ih (done := done) fun d hd => h d (List.mem_cons_of_mem _ hd)
    rw [enableClocks]
    split
    · exact ih _
    · exact ih _
    · next hoff => exact absurd hoff (h c (List.mem_cons_self ..))

/-- With every enable answered, the clocks that are off are turned on. -/
theorem enableClocks_answered {l done : List Clk} {s : State}
    (h : ∀ c ∈ l, s.clk.get c = .off → s.clkOk.get c = true) :
    ∃ k : Clocks, enableClocks l done s = .ok () (s.setClk k) ∧
      ∀ c, k.get c = if c ∈ l ∧ s.clk.get c = .off then .on else s.clk.get c := by
  induction l generalizing done s with
  | nil => exact ⟨s.clk, rfl, fun c => by simp⟩
  | cons c l ih =>
    have skip : s.clk.get c ≠ .off → ∃ k : Clocks, enableClocks l done s = .ok () (s.setClk k) ∧
        ∀ d, k.get d = if d ∈ c :: l ∧ s.clk.get d = .off then .on else s.clk.get d := fun hc => by
      obtain ⟨k, hk, hget⟩ := ih (done := done) fun d hd => h d (List.mem_cons_of_mem _ hd)
      refine ⟨k, hk, fun d => ?_⟩
      rw [hget]
      by_cases hd : d = c
      · simp [hd, hc]
      · simp [hd]
    rw [enableClocks]
    split
    · next hc => exact skip (by rw [hc]; decide)
    · next hc => exact skip (by rw [hc]; decide)
    · next hc =>
      rw [if_pos (h c (List.mem_cons_self ..) hc)]
      obtain ⟨k, hk, hget⟩ := ih (done := c :: done) (s := setClock c .on s) fun d hd hoff => by
        rw [setClock, State.setClk_clk, Clocks.get_put] at hoff
        split at hoff
        · cases hoff
        · exact h d (List.mem_cons_of_mem _ hd) hoff
      refine ⟨k, hk, fun d => ?_⟩
      rw [hget, setClock, State.setClk_clk, Clocks.get_put]
      by_cases hd : d = c
      · simp [hd, hc]
      · simp [hd]

theorem foldl_setClock (l : List Clk) (v : ClkState) (s : State) :
    ∃ k : Clocks, l.foldl (fun s d => setClock d v s) s = s.setClk k ∧
      ∀ c, k.get c = if c ∈ l then v else s.clk.get c := by
  induction l generalizing s with
  | nil => exact ⟨s.clk, rfl, fun c => by simp⟩
  | cons d l ih =>
    obtain ⟨k, hk, hget⟩ := ih (setClock d v s)
    refine ⟨k, hk, fun c => ?_⟩
    rw [hget, setClock, State.setClk_clk, Clocks.get_put]
    by_cases hc : c = d <;> simp [hc]

/-- A refused enable: the clocks in `done`, which this call turned on since `s₀`, go off again. -/
theorem enableClocks_refused {s₀ : State} {l done : List Clk} {k : Clocks}
    (hk : ∀ c, k.get c = if c ∈ done then .on else s₀.clk.get c) (hdone : ∀ c ∈ done, s₀.clk.get c = .off)
    (hx : ∃ c ∈ l, k.get c = .off ∧ s₀.clkOk.get c = false) :
    enableClocks l done (s₀.setClk k) = .err .invalidArgument s₀ := by
  induction l generalizing done k with
  | nil =>
    obtain ⟨c, hc, -⟩ := hx
    cases hc
  | cons c l ih =>
    obtain ⟨x, hxl, hxoff, hxno⟩ := hx
    have skip : k.get c ≠ .off → enableClocks l done (s₀.setClk k) = .err .invalidArgument s₀ := fun hc =>
      ih hk hdone ⟨x, (List.mem_cons.mp hxl).resolve_left fun e => hc (e ▸ hxoff), hxoff, hxno⟩
    rw [enableClocks, State.setClk_clk]
    split
    · next hc => exact skip (by rw [hc]; decide)
    · next hc => exact skip (by rw [hc]; decide)
    · next hc =>
      have hnd : c ∉ done := fun hd => by
        rw [hk, if_pos hd] at hc
        cases hc
      have hc₀ : s₀.clk.get c = .off := by rwa [hk, if_neg hnd] at hc
      rw [State.setClk_clkOk]
      split
      · next hok =>
        have hne : x ≠ c := fun e => by
          rw [e, hok] at hxno
          cases hxno
        refine ih (k := k.put c .on) (done := c :: done) (fun d => ?_) (fun d hd => ?_)
          ⟨x, (List.mem_cons.mp hxl).resolve_left hne, ?_, hxno⟩
        · rw [Clocks.get_put, hk]
          by_cases hd : d = c <;> simp [hd]
        · rcases List.mem_cons.mp hd with rfl | hd
          · exact hc₀
          · exact hdone d hd
        · rw [Clocks.get_put, if_neg hne, hxoff]
      · obtain ⟨k', hk', hget⟩ := foldl_setClock done .off (s₀.setClk k)
        have hback : k' = s₀.clk := Clocks.ext_get fun d => by
          rw [hget, State.setClk_clk, hk]
          by_cases hd : d ∈ done
          · rw [if_pos hd, hdone d hd]
          · rw [if_neg hd, if_neg hd]
        rw [raise_eq, hk', hback, State.setClk_setClk, State.setClk_self]

/-! ## Resume -/

theorem pwrResume_on {s : State} (h : clocksOn s.clk = true) : pwrResume s = .ok () s := by
  have hoff := (clocksOn_iff _).mp h
  have hsome : someClock s.clk .off = false := Bool.eq_false_iff.mpr fun e => by
    obtain ⟨c, hc⟩ := (someClock_iff _ _).mp e
    exact hoff c hc
  rw [pwrResume, enableClocks_noneOff fun c _ => hoff c, Res.andThen_ok, hsome, if_neg Bool.false_ne_true]

theorem pwrResume_answered {s : State} (hoff : clocksOn s.clk = false)
    (h : ∀ c, s.clk.get c = .off → s.clkOk.get c = true) :
    ∃ k : Clocks, pwrResume s = .ok () (powerOn (s.setClk k)) ∧
      ∀ c, k.get c = if s.clk.get c = .absent then .absent else .on := by
  obtain ⟨k, hk, hget⟩ := enableClocks_answered (l := enableOrder) (done := []) fun c _ => h c
  have hsome : someClock s.clk .off = true := (someClock_iff _ _).mpr (by
    by_contra hno
    exact Bool.eq_false_iff.mp hoff ((clocksOn_iff _).mpr fun c hc => hno ⟨c, hc⟩))
  refine ⟨k, by rw [pwrResume, hk, Res.andThen_ok, if_pos hsome], fun c => ?_⟩
  rw [hget]
  cases s.clk.get c <;> simp [mem_enableOrder]

theorem pwrResume_refused {s : State} {c : Clk} (hc : s.clk.get c = .off) (hno : s.clkOk.get c = false) :
    pwrResume s = .err .invalidArgument s := by
  have he : enableClocks enableOrder [] (s.setClk s.clk) = .err .invalidArgument s :=
    enableClocks_refused (fun _ => (if_neg List.not_mem_nil).symm) (fun _ h => absurd h List.not_mem_nil)
      ⟨c, mem_enableOrder c, hc, hno⟩
  rw [State.setClk_self] at he
  rw [pwrResume, he, Res.andThen_err]

/-- Settles O56. -/
theorem resumeEnablesTheClocksOrRollsBack : Obligations.ResumeEnablesTheClocksOrRollsBack := by
  unfold Obligations.ResumeEnablesTheClocksOrRollsBack
  intro s hidle
  have hf := hidle.1
  refine ⟨fun hon => ?_, fun hoff hok => ?_, fun c hc hno => ?_⟩
  · exact runConfig_ran (body := fun s => okUnit (pwrResume s)) hf hf
      (congrArg okUnit (pwrResume_on (s := s.setInFlight true) hon))
  · obtain ⟨k, hk, hget⟩ := pwrResume_answered (s := s.setInFlight true) hoff hok
    refine ⟨completeOk .unit (powerOn (s.setClk k)),
      runConfig_ran (body := fun s => okUnit (pwrResume s)) hf hf (congrArg okUnit hk), rfl, hget, rfl, ?_, ?_, fun _ => rfl⟩
    · exact fun r hr hv hm => ⟨Bank.get_drawn hr hv hm, Bank.get_drawn hr hv hm⟩
    · exact fun j hj => tblGet_map_range _ _ hj
  · exact runConfig_failed (body := fun s => okUnit (pwrResume s)) hf hf
      (congrArg okUnit (pwrResume_refused (s := s.setInFlight true) hc hno))

/-! ## Suspend -/

/-- The disable loop turns every present clock off and changes nothing else. -/
theorem disableClocks_eq (s : State) : ∃ k : Clocks, disableClocks s = s.setClk k ∧
    ∀ c, k.get c = if s.clk.get c = .absent then .absent else .off := by
  have key : ∀ (l : List Clk) (s : State), ∃ k : Clocks,
      l.foldl (fun s c => if s.clk.get c = .absent then s else setClock c .off s) s = s.setClk k ∧
      ∀ c, k.get c = if c ∈ l ∧ s.clk.get c ≠ .absent then .off else s.clk.get c := by
    intro l
    induction l with
    | nil => exact fun s => ⟨s.clk, rfl, fun c => by simp⟩
    | cons d l ih =>
      intro s
      rw [List.foldl_cons]
      by_cases hd : s.clk.get d = .absent
      · obtain ⟨k, hk, hget⟩ := ih s
        refine ⟨k, by rw [if_pos hd, hk], fun c => ?_⟩
        rw [hget]
        by_cases hc : c = d
        · simp [hc, hd]
        · simp [hc]
      · obtain ⟨k, hk, hget⟩ := ih (setClock d .off s)
        refine ⟨k, by rw [if_neg hd, hk]; rfl, fun c => ?_⟩
        rw [hget, setClock, State.setClk_clk, Clocks.get_put]
        by_cases hc : c = d
        · simp [hc, hd]
        · simp [hc]
  obtain ⟨k, hk, hget⟩ := key disableOrder s
  refine ⟨k, hk, fun c => ?_⟩
  rw [hget]
  cases s.clk.get c <;> simp [mem_disableOrder]

/-- Register access with a present clock off (R285, R314). -/
theorem regAccess_off {t : State} (hf : t.opInFlight = false) (hoff : clocksOn t.clk = false) (offset : Nat) (v : Word) :
    exec (.regRead offset) t = .fault .preconditionViolated ∧ exec (.regWrite offset v) t = .fault .preconditionViolated ∧
    exec (.regReadExt offset) t = .fault .preconditionViolated ∧
    exec (.regWriteExt offset v) t = .fault .preconditionViolated := by
  have hp : ∀ r, accessible (t.setInFlight true) (.p r) = false := fun _ => by simp [accessible, hoff]
  have hx : ∀ r, accessible (t.setInFlight true) (.x r) = false := fun _ => by simp [accessible, hoff]
  refine ⟨?_, ?_, ?_, ?_⟩ <;>
    simp [exec, execRegRead, execRegWrite, execRegReadExt, execRegWriteExt, runConfig_idle hf, memRead, memWrite, atOffset,
      hp, hx]

/-- Settles O57: the clocks the disable loop leaves, and the draw if one of them was on. -/
theorem suspendStopsTheClocks : Obligations.SuspendStopsTheClocks := by
  unfold Obligations.SuspendStopsTheClocks
  intro s hidle
  have hf := hidle.1
  obtain ⟨k, hk, hget⟩ := disableClocks_eq (s.setInFlight true)
  have hget : ∀ c, k.get c = if s.clk.get c = .absent then .absent else .off := hget
  have faults : ∀ t : State, t.opInFlight = false → t.clk = k → (∃ c, s.clk.get c ≠ .absent) → ∀ offset v,
      exec (.regRead offset) t = .fault .preconditionViolated ∧
      exec (.regWrite offset v) t = .fault .preconditionViolated ∧
      exec (.regReadExt offset) t = .fault .preconditionViolated ∧
      exec (.regWriteExt offset v) t = .fault .preconditionViolated := fun t ht htk ⟨c, hc⟩ =>
    regAccess_off ht (Bool.eq_false_iff.mpr fun hon => (clocksOn_iff _).mp hon c (by rw [htk, hget, if_neg hc]))
  by_cases hon : ∃ c, s.clk.get c = .on
  · have hsome : someClock (s.setInFlight true).clk .on = true := (someClock_iff _ _).mpr hon
    have hbody : pwrSuspend (s.setInFlight true) = .ok () ((powerLost (s.setClk k)).setInFlight true) := by
      rw [pwrSuspend, if_pos hsome, hk]
      rfl
    refine ⟨completeOk .unit (powerLost (s.setClk k)),
      runConfig_ran (body := fun s => okUnit (pwrSuspend s)) hf hf (congrArg okUnit hbody), rfl, hget, rfl, ?_, fun _ => ?_,
      faults _ hf rfl⟩
    · obtain ⟨c, hc⟩ := hon
      exact fun hno => absurd hc (hno c)
    · exact ⟨rfl, fun _ => rfl, fun j hj => tblGet_map_range _ _ hj,
        fun r hr hv hm => ⟨Bank.get_drawn hr hv hm, Bank.get_drawn hr hv hm⟩⟩
  · have hsome : ¬ someClock (s.setInFlight true).clk .on = true := fun e => hon ((someClock_iff _ _).mp e)
    have hbody : pwrSuspend (s.setInFlight true) = .ok () ((s.setClk k).setInFlight true) := by
      rw [pwrSuspend, if_neg hsome, hk]
      rfl
    have hkeep : k = s.clk := Clocks.ext_get fun c => by
      rw [hget]
      cases hc : s.clk.get c with
      | absent => rfl
      | off => rfl
      | on => exact absurd ⟨c, hc⟩ hon
    refine ⟨completeOk .unit (s.setClk k),
      runConfig_ran (body := fun s => okUnit (pwrSuspend s)) hf hf (congrArg okUnit hbody), rfl, hget, rfl, fun _ => ?_,
      fun h => absurd h hon, faults _ hf rfl⟩
    rw [hkeep]
    rfl

end Sys2Proof.Machine
end

section
/-! SUPPORT. The undisturbed handler (O52, O53; 45_irq.md R247 to R249): what it has done when the events, the
status reads and the recoveries of the first categories are made (`Handled`), part by part of a category's turn. -/

namespace Sys2Proof.Machine

/-! ## What a category's turn depends on -/

/-- The pending, defined error bits of a category. -/
def pendingStatus (s : State) (k : Nat) : Word := s.p.get (.intSt k) &&& (catEntry s.cfg k).ebits

/-- The handler visits a category with a pending unmasked bit. -/
def visited (s : State) (k : Nat) : Bool := decide (pendingStatus s k &&& s.p.get (.intMsk k) ≠ 0)

/-- The category shows the overflow of a pixel interface (R247 step 6). -/
def overflowing (s : State) (k : Nat) : Bool :=
  decide (k ∈ s.cfg.ipiFatalCat) && (pendingStatus s k).getLsbD s.cfg.ipiOvfBit

/-- One of the first `n` categories calls for the recovery of an existing channel. -/
def RecoveredBelow (s : State) (n ch : Nat) : Prop :=
  ch < s.cfg.numInst - 1 ∧ ∃ k, k < n ∧ s.cfg.ipiFatalCat[ch]? = some k ∧ visited s k = true ∧ overflowing s k = true

/-- The event of a category's turn. -/
def faultEvent (s : State) (k : Nat) : Event :=
  .faultNotify s.inst.id (pendingStatus s k) k (overflowing s k) (decide (s.onFault = .registered))

/-- The word a recovery stores in the channel's memory-flush register. -/
def flushedValue (s : State) (ch : Nat) : Word :=
  storedValue s.cfg (.ipi ch .memFlush) (setField (s.p.get (.ipi ch .memFlush)) s.cfg.map.fManualFlush 1)

/-- One category more calls for the recovery of its own channel only. -/
theorem recoveredBelow_succ (s : State) (n ch : Nat) : RecoveredBelow s (n + 1) ch ↔ RecoveredBelow s n ch ∨
    (ch < s.cfg.numInst - 1 ∧ s.cfg.ipiFatalCat[ch]? = some n ∧ visited s n = true ∧ overflowing s n = true) := by
  constructor
  · rintro ⟨hch, k, hk, hcat, hv, ho⟩
    rcases Nat.lt_succ_iff_lt_or_eq.mp hk with hk | rfl
    · exact .inl ⟨hch, k, hk, hcat, hv, ho⟩
    · exact .inr ⟨hch, hcat, hv, ho⟩
  · rintro (⟨hch, k, hk, hcat, hv, ho⟩ | ⟨hch, hcat, hv, ho⟩)
    · exact ⟨hch, k, Nat.lt_succ_of_lt hk, hcat, hv, ho⟩
    · exact ⟨hch, n, Nat.lt_succ_self n, hcat, hv, ho⟩

theorem not_recoveredBelow_zero (s : State) (ch : Nat) : ¬ RecoveredBelow s 0 ch :=
  fun ⟨_, _, hk, _⟩ => absurd hk (Nat.not_lt_zero _)

/-- A channel that category `n` calls for was not recovered before. -/
theorem not_recoveredBelow_of_cat {s : State} {n ch : Nat} (h : s.cfg.ipiFatalCat[ch]? = some n) :
    ¬ RecoveredBelow s n ch := by
  rintro ⟨-, k, hk, hcat, -⟩
  rw [h] at hcat
  cases hcat
  exact Nat.lt_irrefl _ hk

/-! ## What the handler has done so far -/

/-- `u` is a state of the handler started in `s`: nothing but P, the phases, the events and the trace differs. -/
def InHandler (s u : State) : Prop :=
  u = { s with p := u.p, ch := u.ch, events := u.events, trace := u.trace, ctx := .interrupt }

theorem InHandler.step {s u v : State} (hu : InHandler s u)
    (hv : v = { u with p := v.p, ch := v.ch, events := v.events, trace := v.trace }) : InHandler s v := by
  unfold InHandler at hu
  refine hv.trans ?_
  rw [hu]

theorem readState_inHandler (u : State) (r : PReg) : readState u (.p r) = { u with
    p := (readState u (.p r)).p, ch := (readState u (.p r)).ch, events := (readState u (.p r)).events,
    trace := (readState u (.p r)).trace } := rfl

theorem handlerRecoveredState_inHandler (u : State) (ch : Nat) : handlerRecoveredState u ch = { u with
    p := (handlerRecoveredState u ch).p, ch := (handlerRecoveredState u ch).ch,
    events := (handlerRecoveredState u ch).events, trace := (handlerRecoveredState u ch).trace } := by
  have he : (handlerRecoveredState u ch).events = u.events :=
    (congrArg State.events (recoveredState_rest u ch) : (recoveredState u ch).events = _)
  rw [he]
  exact congrArg (State.setTrace · (handlerRecoveredState u ch).trace) (recoveredState_rest u ch)

theorem notifyDone_inHandler (main : Word) (u : State) : notifyDone main u = { u with
    p := (notifyDone main u).p, ch := (notifyDone main u).ch, events := (notifyDone main u).events,
    trace := (notifyDone main u).trace } := by
  unfold notifyDone
  split <;> rfl

section
variable (main : Word) (u : State)

theorem notifyDone_p : (notifyDone main u).p = u.p := by
  unfold notifyDone
  split <;> rfl

theorem notifyDone_ch : (notifyDone main u).ch = u.ch := by
  unfold notifyDone
  split <;> rfl

theorem notifyDone_trace : (notifyDone main u).trace = u.trace := by
  unfold notifyDone
  split <;> rfl

theorem notifyDone_events : (notifyDone main u).events = u.events ++
    if u.onDone = .registered then [.doneNotify u.inst.id main] else [] := by
  unfold notifyDone
  split
  · rfl
  · exact (List.append_nil _).symm

end

/-- What the handler, started in `s`, has done to `u`: the events of the categories below `e`, the status reads of those
below `r`, the recoveries of those below `n`. -/
structure Handled (s u : State) (e r n : Nat) : Prop where
  rest : InHandler s u
  events : u.events = s.events ++ ((List.range e).filter (visited s)).map (faultEvent s)
  status : ∀ k, u.p.get (.intSt k)
    = if k < r ∧ visited s k = true ∧ s.cfg.stReadClears = true then 0 else s.p.get (.intSt k)
  released : ∀ ch, RecoveredBelow s n ch → u.p.get .ipiSoftrstn = allRelease s.cfg
  unreleased : (∀ ch, ¬ RecoveredBelow s n ch) → u.p.get .ipiSoftrstn = s.p.get .ipiSoftrstn
  flushed : ∀ ch, RecoveredBelow s n ch → u.p.get (.ipi ch .memFlush) = flushedValue s ch ∧
    phaseOf u ch = if phaseOf s ch = .enabled then .configured else phaseOf s ch
  unflushed : ∀ ch, ¬ RecoveredBelow s n ch →
    u.p.get (.ipi ch .memFlush) = s.p.get (.ipi ch .memFlush) ∧ phaseOf u ch = phaseOf s ch
  others : ∀ q, (∀ k, q ≠ .intSt k) → (∀ ch, q ≠ .ipi ch .memFlush) → q ≠ .ipiSoftrstn → u.p.get q = s.p.get q

theorem handled_start (s : State) : Handled s (readState (enterInterrupt s) (.p .intStMain)) 0 0 0 where
  rest := rfl
  events := (List.append_nil _).symm
  status := fun k => (if_neg fun h => absurd h.1 (Nat.not_lt_zero k)).symm
  released := fun ch h => absurd h (not_recoveredBelow_zero s ch)
  unreleased := fun _ => rfl
  flushed := fun ch h => absurd h (not_recoveredBelow_zero s ch)
  unflushed := fun _ _ => ⟨rfl, rfl⟩
  others := fun _ _ _ _ => rfl

section
variable {s u : State} {e r n : Nat} (h : Handled s u e r n)
include h

theorem Handled.cfg : u.cfg = s.cfg := by rw [h.rest]
theorem Handled.inst : u.inst = s.inst := by rw [h.rest]
theorem Handled.onFault : u.onFault = s.onFault := by rw [h.rest]

/-- A category that was not read yet shows the status it had at the start. -/
theorem Handled.pending : valueAt u (.p (.intSt r)) &&& (catEntry s.cfg r).ebits = pendingStatus s r := by
  have hst : valueAt u (.p (.intSt r)) = s.p.get (.intSt r) :=
    (h.status r).trans (if_neg fun hn => Nat.lt_irrefl r hn.1)
  rw [hst, pendingStatus]

/-! ## The parts of a category's turn -/

theorem Handled.noEvent (hv : visited s e = false) : Handled s u (e + 1) r n :=
  { h with events := by rw [h.events, List.range_succ, List.filter_append]; simp [hv] }

theorem Handled.event (hv : visited s e = true) : Handled s (emit (faultEvent s e) u) (e + 1) r n :=
  { h with
    rest := h.rest.step rfl
    events := by
      show u.events ++ [faultEvent s e] = _
      rw [h.events, List.range_succ, List.filter_append]
      simp [hv] }

theorem Handled.noRead (hv : visited s r = false) : Handled s u e (r + 1) n :=
  { h with
    status := fun k => by
      rw [h.status]
      by_cases hk : k = r
      · simp [hk, hv]
      · have hlt : k < r + 1 ↔ k < r := by omega
        simp only [hlt] }

/-- The read of the status clears it exactly when reads clear (R249). -/
theorem Handled.read (hv : visited s r = true) : Handled s (readState u (.p (.intSt r))) e (r + 1) n := by
  have other : ∀ q, q ≠ .intSt r → (readState u (.p (.intSt r))).p.get q = u.p.get q := fun q hq =>
    bankAfterRead_get_other (.inl hq)
  refine { h with
    rest := h.rest.step (readState_inHandler u _)
    events := by rw [readState_events]; exact h.events
    status := fun k => ?_
    released := fun ch hr => (other _ (by simp)).trans (h.released ch hr)
    unreleased := fun hr => (other _ (by simp)).trans (h.unreleased hr)
    flushed := fun ch hr => ⟨(other _ (by simp)).trans (h.flushed ch hr).1, (h.flushed ch hr).2⟩
    unflushed := fun ch hr => ⟨(other _ (by simp)).trans (h.unflushed ch hr).1, (h.unflushed ch hr).2⟩
    others := fun q h1 h2 h3 => (other q (h1 r)).trans (h.others q h1 h2 h3) }
  by_cases hk : k = r
  · subst hk
    cases hclr : s.cfg.stReadClears with
    | true => simpa [hv] using bankAfterRead_status_clears (h.cfg ▸ hclr) u.p k
    | false =>
      have hkeep : (bankAfterRead u.cfg u.p (.intSt k)).get (.intSt k) = u.p.get (.intSt k) :=
        bankAfterRead_get_other (.inr (.inr (h.cfg ▸ hclr)))
      rw [readState_p_p, hkeep, h.status]
      simp [hclr]
  · rw [other _ (by simpa using hk), h.status]
    have hlt : k < r + 1 ↔ k < r := by omega
    simp only [hlt]

theorem Handled.noRecovery (hno : ∀ ch, s.cfg.ipiFatalCat[ch]? = some n → ch < s.cfg.numInst - 1 →
    visited s n = true → overflowing s n = false) : Handled s u e r (n + 1) := by
  have hrec : ∀ ch, RecoveredBelow s (n + 1) ch ↔ RecoveredBelow s n ch := fun ch => by
    rw [recoveredBelow_succ, or_iff_left]
    rintro ⟨hch, hcat, hv, ho⟩
    rw [hno ch hcat hch hv] at ho
    cases ho
  exact { h with
    released := fun ch hr => h.released ch ((hrec ch).mp hr)
    unreleased := fun hr => h.unreleased fun ch hn => hr ch ((hrec ch).mpr hn)
    flushed := fun ch hr => h.flushed ch ((hrec ch).mp hr)
    unflushed := fun ch hr => h.unflushed ch fun hn => hr ((hrec ch).mpr hn) }

/-- The recovery of the channel whose category is `n` (R247 step 8). -/
theorem Handled.recovery {ch : Nat} (hcat : s.cfg.ipiFatalCat[ch]? = some n) (hch : ch < s.cfg.numInst - 1)
    (hv : visited s n = true) (ho : overflowing s n = true) (hc : LegalCfg s.cfg) :
    Handled s (handlerRecoveredState u ch) e r (n + 1) := by
  have get : ∀ q, (handlerRecoveredState u ch).p.get q = if q = .ipiSoftrstn then allRelease s.cfg
      else if q = .ipi ch .memFlush then flushedValue s ch else u.p.get q := fun q => by
    refine (recoveredState_get u ch q).trans ?_
    rw [h.cfg, (h.unflushed ch (not_recoveredBelow_of_cat hcat)).1]
    rfl
  have phase : ∀ k, phaseOf (handlerRecoveredState u ch) k =
      if k = ch ∧ phaseOf s ch = .enabled then .configured else phaseOf u k := fun k => by
    refine (recoveredState_phase u ch k).trans ?_
    rw [(h.unflushed ch (not_recoveredBelow_of_cat hcat)).2]
  have hthis : RecoveredBelow s (n + 1) ch := (recoveredBelow_succ s n ch).mpr (.inr ⟨hch, hcat, hv, ho⟩)
  have hrec : ∀ j, j ≠ ch → (RecoveredBelow s (n + 1) j ↔ RecoveredBelow s n j) := fun j hj => by
    rw [recoveredBelow_succ, or_iff_left]
    rintro ⟨-, hcat', -⟩
    have h1 := (fatalChannel_some hc n j).mpr hcat'
    rw [(fatalChannel_some hc n ch).mpr hcat] at h1
    exact hj (Option.some.inj h1).symm
  have frame : ∀ j, j ≠ ch → (handlerRecoveredState u ch).p.get (.ipi j .memFlush) = u.p.get (.ipi j .memFlush) ∧
      phaseOf (handlerRecoveredState u ch) j = phaseOf u j := fun j hj => by
    rw [get, phase, if_neg (by simp), if_neg (by simp [hj]), if_neg fun hjc => hj hjc.1]
    exact ⟨rfl, rfl⟩
  refine {
    rest := h.rest.step (handlerRecoveredState_inHandler u ch)
    events := ?_
    status := fun k => by rw [get, if_neg (by simp), if_neg (by simp)]; exact h.status k
    released := fun _ _ => (get _).trans (if_pos rfl)
    unreleased := fun hr => absurd hthis (hr ch)
    flushed := fun j hr => ?_
    unflushed := fun j hr => ?_
    others := fun q h1 h2 h3 => by rw [get, if_neg h3, if_neg (h2 ch)]; exact h.others q h1 h2 h3 }
  · have hev : (handlerRecoveredState u ch).events = u.events :=
      (congrArg State.events (recoveredState_rest u ch) : (recoveredState u ch).events = _)
    rw [hev, h.events]
  · by_cases hj : j = ch
    · subst hj
      rw [get, phase, if_neg (by simp), if_pos rfl, (h.unflushed j (not_recoveredBelow_of_cat hcat)).2]
      simp only [true_and]
    · rw [(frame j hj).1, (frame j hj).2]
      exact h.flushed j ((hrec j hj).mp hr)
  · have hj : j ≠ ch := fun hj => hr (hj ▸ hthis)
    rw [(frame j hj).1, (frame j hj).2]
    exact h.unflushed j fun hn => hr ((hrec j hj).mpr hn)

end

/-! ## A category's turn, and all of them -/

theorem overflowBit_pending (s : State) (k : Nat) : overflowBit s.cfg k (pendingStatus s k) = overflowing s k := by
  rw [overflowBit, fatalChannel_isSome, overflowing]

theorem handled_turn {s u : State} {n : Nat} (hc : LegalCfg s.cfg) (hn : n < Config.numCat) (h : Handled s u n n n) :
    Handled s (handledState (mainStatus s.cfg s.p) u n) (n + 1) (n + 1) (n + 1) := by
  have hmain : mainStatus s.cfg s.p &&& (catEntry u.cfg n).mainbit = 0 ↔ visited s n = false := by
    rw [h.cfg, mainStatus_and hc s.p hn, visited, decide_eq_false_iff_not, not_ne_iff]
    rfl
  unfold handledState
  by_cases hv : visited s n = true
  · have hne : pendingStatus s n ≠ 0 := fun hz => by
      rw [visited, hz] at hv
      simp at hv
    rw [if_neg fun hm => by rw [hmain.mp hm] at hv; cases hv]
    simp only [h.pending, h.cfg, h.inst, h.onFault, if_neg hne, overflowBit_pending]
    refine Handled.event ?_ hv
    have hr := h.read hv
    split
    · next ch hf =>
      have hcat := (fatalChannel_some hc n ch).mp hf
      split
      · next hb =>
        rw [Bool.and_eq_true, decide_eq_true_eq] at hb
        exact hr.recovery hcat hb.2 hv hb.1 hc
      · next hb =>
        refine hr.noRecovery fun j hj hlt _ => ?_
        obtain rfl : ch = j := Option.some.inj (hf.symm.trans ((fatalChannel_some hc n j).mpr hj))
        simpa [hlt] using hb
    · next hf =>
      refine hr.noRecovery fun j hj _ _ => ?_
      rw [(fatalChannel_some hc n j).mpr hj] at hf
      cases hf
  · rw [Bool.not_eq_true] at hv
    rw [if_pos (hmain.mpr hv)]
    refine ((h.noEvent hv).noRead hv).noRecovery fun _ _ _ hv' => ?_
    rw [hv] at hv'
    cases hv'

/-- The state after the turns of the first `n` categories. -/
def turnsState (s : State) (n : Nat) : State :=
  (List.range n).foldl (handledState (mainStatus s.cfg s.p)) (readState (enterInterrupt s) (.p .intStMain))

theorem handled_turns {s : State} (hc : LegalCfg s.cfg) {n : Nat} (hn : n ≤ Config.numCat) :
    Handled s (turnsState s n) n n n := by
  induction n with
  | zero => exact handled_start s
  | succ n ih =>
    rw [turnsState, List.range_succ, List.foldl_append]
    exact handled_turn hc hn (ih (Nat.le_of_succ_le hn))

/-- At most four of the categories are those of a pixel interface (R27). -/
theorem fatalCats_below {c : Cfg} (hc : LegalCfg c) (n : Nat) :
    ((List.range n).filter fun k => decide (k ∈ c.ipiFatalCat)).length ≤ 4 := by
  rw [← hc.fatalCats.1]
  refine ((List.nodup_range.filter _).subperm fun k hk => ?_).length_le
  exact of_decide_eq_true (List.mem_filter.mp hk).2

theorem turnsState_traceWithin {s : State} (hc : LegalCfg s.cfg) (n : Nat) :
    TraceWithin s (turnsState s n) (1 + n) (4 * 6) := by
  have hmain : TraceWithin s (readState (enterInterrupt s) (.p .intStMain)) 1 0 :=
    readState_traceWithin (enterInterrupt s) _ rfl rfl
  have hturns := handledStates_traceWithin (mainStatus s.cfg s.p) (List.range n)
    (readState (enterInterrupt s) (.p .intStMain))
  rw [List.length_range] at hturns
  have hfour := fatalCats_below hc n
  refine (hmain.trans hturns).mono (Nat.le_refl _) ?_
  rw [readState_cfg]
  show 0 + 6 * ((List.range n).filter fun k => decide (k ∈ s.cfg.ipiFatalCat)).length ≤ 4 * 6
  omega

/-! ## The handler as an operation -/

/-- The state the undisturbed IRQ_HANDLE leaves. -/
def irqHandled (s : State) : State :=
  completeOk .unit (leaveInterrupt s.ctx (notifyDone (mainStatus s.cfg s.p) (turnsState s Config.numCat)))

theorem exec_irqHandle_ready {s : State} (h : Ready s) : exec .irqHandle s = .next (irqHandled s) := by
  show (if s.ctx = .interrupt then _ else finish (okUnit (takeInterrupt s))) = _
  rw [if_neg (by rw [h.idle.2]; decide), takeInterrupt_open h.isOpen, okUnit_ok, finish_ok]
  rfl

theorem irqHandled_p (s : State) : (irqHandled s).p = (turnsState s Config.numCat).p := by
  rw [irqHandled, completeOk, State.setResult_p, leaveInterrupt, State.setCtx_p, notifyDone_p]

theorem irqHandled_phase (s : State) (ch : Nat) : phaseOf (irqHandled s) ch = phaseOf (turnsState s Config.numCat) ch := by
  rw [phaseOf, irqHandled, completeOk, State.setResult_ch, leaveInterrupt, State.setCtx_ch, notifyDone_ch, phaseOf]

theorem irqHandled_trace (s : State) : (irqHandled s).trace = (turnsState s Config.numCat).trace := by
  rw [irqHandled, completeOk, State.setResult_trace, leaveInterrupt, State.setCtx_trace, notifyDone_trace]

section
variable {s : State} (hc : LegalCfg s.cfg)
include hc

theorem irqHandled_rest : irqHandled s = { s with
    p := (irqHandled s).p, ch := (irqHandled s).ch, events := (irqHandled s).events, trace := (irqHandled s).trace,
    result := some (.ok .unit) } := by
  have hin := (handled_turns hc (Nat.le_refl Config.numCat)).rest.step
    (notifyDone_inHandler (mainStatus s.cfg s.p) (turnsState s Config.numCat))
  unfold irqHandled
  generalize notifyDone (mainStatus s.cfg s.p) (turnsState s Config.numCat) = u at hin ⊢
  exact congrArg (fun u => completeOk .unit (leaveInterrupt s.ctx u)) hin

theorem irqHandled_events : (irqHandled s).events = s.events ++
    ((List.range 14).filter (visited s)).map (faultEvent s) ++
    (if s.onDone = .registered then [Event.doneNotify s.inst.id (mainStatus s.cfg s.p)] else []) := by
  have h := handled_turns hc (Nat.le_refl Config.numCat)
  have hdone : (turnsState s Config.numCat).onDone = s.onDone := by rw [h.rest]
  rw [irqHandled, completeOk, State.setResult_events, leaveInterrupt, State.setCtx_events, notifyDone_events, hdone, h.inst,
    h.events]
  rfl

end

theorem recoveredBelow_all {s : State} (hc : LegalCfg s.cfg) (ch : Nat) : RecoveredBelow s Config.numCat ch ↔
    ch < s.cfg.numInst - 1 ∧ ∃ k, s.cfg.ipiFatalCat[ch]? = some k ∧ visited s k = true ∧ overflowing s k = true :=
  and_congr_right fun _ => exists_congr fun k =>
    ⟨And.right, fun h => ⟨hc.fatalCats.2.2 k (List.mem_of_getElem? h.1), h⟩⟩

/-- Settles O52: the handler's state after all turns, and the accesses it made. -/
theorem handlerReportsEveryPendingCategory : Obligations.HandlerReportsEveryPendingCategory := by
  unfold Obligations.HandlerReportsEveryPendingCategory
  intro s hs c status visits overflow recovered
  have hc := hs.legal
  have h := handled_turns hc (Nat.le_refl Config.numCat)
  have hrest := irqHandled_rest hc
  have hall := fun ch => recoveredBelow_all hc ch
  obtain ⟨accesses, htrace, hreads, hothers⟩ := turnsState_traceWithin hc Config.numCat
  refine ⟨irqHandled s, exec_irqHandle_ready hs, rfl, hrest, irqHandled_events hc, fun k hk => ?_, fun ch hr => ?_,
    fun ch hr => ?_, fun hr => ?_, fun q h1 h2 h3 => ?_, ⟨accesses, (irqHandled_trace s).trans htrace, hreads, hothers⟩,
    fun a => by rw [hrest]⟩
  · rw [irqHandled_p, h.status k]
    have hlt : k < Config.numCat := hk
    simp only [hlt, true_and]
    rfl
  · have hb := (hall ch).mpr hr
    rw [irqHandled_p, irqHandled_phase]
    exact ⟨h.released ch hb, (h.flushed ch hb).1, (h.flushed ch hb).2⟩
  · rw [irqHandled_p, irqHandled_phase]
    exact h.unflushed ch fun hb => hr ((hall ch).mp hb)
  · rw [irqHandled_p]
    exact h.unreleased fun ch hb => hr ch ((hall ch).mp hb)
  · rw [irqHandled_p]
    by_cases hq : ∃ k, q = .intSt k
    · obtain ⟨k, rfl⟩ := hq
      rw [h.status, if_neg fun hk => h1 k hk.1 rfl]
    · exact h.others q (fun k hk => hq ⟨k, hk⟩) h2 h3

/-- Settles O53: a visited category was cleared by its read, any other has no unmasked bit. -/
theorem handlerLowersTheLine : Obligations.HandlerLowersTheLine := by
  unfold Obligations.HandlerLowersTheLine
  intro s hs hclr
  have h := handled_turns hs.legal (Nat.le_refl Config.numCat)
  have hcfg : (irqHandled s).cfg = s.cfg := by rw [irqHandled_rest hs.legal]
  have hmain : mainStatus (irqHandled s).cfg (irqHandled s).p = 0 := by
    refine mainStatus_eq_zero fun k hk => ?_
    show (irqHandled s).p.get (.intSt k) &&& (catEntry (irqHandled s).cfg k).ebits &&&
      (irqHandled s).p.get (.intMsk k) = 0
    rw [irqHandled_p, hcfg, h.status, h.others (.intMsk k) (by simp) (by simp) (by simp)]
    by_cases hv : visited s k = true
    · rw [if_pos ⟨hk, hv, hclr⟩]
      simp
    · rw [if_neg fun hn => hv hn.2.1]
      rwa [visited, decide_eq_true_eq, not_ne_iff] at hv
  exact ⟨_, exec_irqHandle_ready hs, hmain, irqLine_eq_false hmain⟩

end Sys2Proof.Machine
end

section
/-! SUPPORT. The memory-mapped windows (O17, O20, O58; 20_memory.md R73, R75, R78, R84): an offset at which no register lies, the
one field a wrapper update writes, and an update with moves of the other agents before each of its two accesses. -/

namespace Sys2Proof.Machine

/-! ## Offsets outside the map -/

/-- No register lies at an offset exactly where R73 forbids the access. -/
theorem regAt_eq_none_iff (c : Cfg) (offset : Nat) :
    regAt c offset = none ↔ offset % 4 ≠ 0 ∨ ∀ r ∈ bankRegs c, offsetOf c r ≠ offset := by
  unfold regAt
  split
  · next h => simp [h]
  · next h => simp [h]

theorem atOffset_unmapped {α : Type} {space : PReg → Loc} {offset : Nat} {s : State}
    (ha : accessible s (space .version) = true) (hno : regAt s.cfg offset = none) (body : PReg → State → Res α) :
    atOffset space offset body s = .stop .unmappedOffset := by
  simp [atOffset, ha, hno]

theorem runConfig_stopped {s : State} {body : State → Res Value} {f : Fault} (hs : s.opInFlight = false)
    (hb : body (s.setInFlight true) = .stop f) : runConfig body s = .fault f := by
  rw [runConfig_idle hs, hb, Res.mapState_stop, finish_stop]

section
variable {s : State} (h : Ready s) {offset : Nat} (hno : regAt s.cfg offset = none) (space : PReg → Loc)
include h hno

theorem runConfig_memRead_unmapped : runConfig (memRead space offset) s = .fault .unmappedOffset :=
  runConfig_stopped h.idle.1 (atOffset_unmapped ((h.isOpen.inFlight true).access _) hno _)

theorem runConfig_memWrite_unmapped (v : Word) : runConfig (memWrite space offset v) s = .fault .unmappedOffset := by
  refine runConfig_stopped h.idle.1 ?_
  rw [memWrite, atOffset_unmapped ((h.isOpen.inFlight true).access _) hno, okUnit_stop]

end

/-- Settles O17: the bases and the clocks of a ready state let the access through to its offset, where no register is found. -/
theorem offsetsOutsideTheMapFault : Obligations.OffsetsOutsideTheMapFault := by
  unfold Obligations.OffsetsOutsideTheMapFault
  intro s offset v h hout
  have hno := (regAt_eq_none_iff s.cfg offset).mpr hout
  exact ⟨runConfig_memRead_unmapped h hno .p, runConfig_memWrite_unmapped h hno .p v,
    runConfig_memRead_unmapped h hno .x, runConfig_memWrite_unmapped h hno .x v⟩

/-! ## One wrapper field -/

section
variable {s t : State} {f : WField} {n : Nat} (hc : LegalCfg s.cfg) (hcfg : t.cfg = s.cfg) (hw : t.w = wSet s.cfg s.w f n)
include hc hcfg hw

/-- A field set in the wrapper's words holds the value, truncated to its width (R8). -/
theorem wField_wSet_same : wField t f = n % 2 ^ (wrapperPos s.cfg f).width := by
  rw [wField, hcfg, hw, wSet, tblGet_tblPut_same]
  exact getField_setField_same _ _ n (hc.fieldsFit (.w f))

/-- Every other field keeps its value: it lies in another word, or apart from the field in the same one. -/
theorem wField_wSet_other {g : WField} (hg : g ≠ f) : wField t g = wField s g := by
  rw [wField, wField, hcfg, hw, wSet]
  by_cases hword : (wrapperPos s.cfg g).word = (wrapperPos s.cfg f).word
  · rw [hword, tblGet_tblPut_same]
    exact getField_setField_apart _ _ _ n (hc.wrapperApart f g hg.symm hword.symm)
  · rw [tblGet_tblPut_ne _ _ _ _ _ hword]

end

/-- An undisturbed update of a wrapper field writes that field and nothing else. -/
theorem updState_wroteWrapper {s : State} (hc : LegalCfg s.cfg) (f : WField) (n : Nat) (v : Value) :
    WroteWrapper s (completeOk v (updState s (.w f) n)) f n where
  rest := rfl
  words := updState_w s f n
  value := wField_wSet_same hc rfl (updState_w s f n)
  others := fun _ hg => wField_wSet_other (t := completeOk v (updState s (.w f) n)) hc rfl (updState_w s f n) hg
  memory := fun _ => rfl

/-- A wrapper operation that is one field update, in a ready state. -/
theorem runConfig_wroteWrapper {s : State} (h : Ready s) {body : State → Res Unit} (f : WField) (n : Nat)
    (hb : body (s.setInFlight true) = upd (.w f) n (s.setInFlight true)) :
    ∃ t, runConfig (fun s => okUnit (body s)) s = .next t ∧ t.result = some (.ok .unit) ∧ WroteWrapper s t f n := by
  refine ⟨_, runConfig_ran h.idle.1 (u := updState s (.w f) n) (by simpa using h.idle.1) ?_, rfl,
    updState_wroteWrapper h.legal f n .unit⟩
  rw [hb, upd_open (h.isOpen.inFlight true), okUnit_ok, updState_setInFlight]

/-- Settles O20: with an index in range each of the five operations is one field update. -/
theorem wrapperOperationsWriteOneField : Obligations.WrapperOperationsWriteOneField := by
  unfold Obligations.WrapperOperationsWriteOneField
  intro s h
  refine ⟨fun id hid => ?enableClock, fun id hid merged => ?laneMode, fun enable => ?ppipgClk,
    fun id hid code => ?testcode, fun id hid select => ?selOther⟩
  case enableClock => exact runConfig_wroteWrapper h (.enableclk id) 1 (withPhy_ok hid _ _)
  case laneMode => exact runConfig_wroteWrapper h (.ctrlSel (id / 2)) (bit merged) (withPhy_ok hid _ _)
  case ppipgClk => exact runConfig_wroteWrapper h .ppipgClkEn (bit enable) rfl
  case testcode => exact runConfig_wroteWrapper h (.testcode id) code (withPhy_ok hid _ _)
  case selOther => exact runConfig_wroteWrapper h (.selOther id) (bit select) (withPhy_ok hid _ _)

/-! ## An update among moves of the other agents -/

theorem configTick_silent {s : State} {later : List (List EnvMove)} (h : s.env = [] :: later) :
    configTick s = .ok () (s.setEnv later) := by
  simp [configTick, h]

/-- The mate's write of a word of the wrapper (R317). -/
theorem configTick_mateWriteW {s : State} {n : Nat} {v : Word} {later : List (List EnvMove)}
    (h : s.env = [.mateWriteW n v] :: later) (hn : n < s.w.length) :
    configTick s = .ok () ((s.setEnv later).setW (tblPut 0 s.w n v)) := by
  simp [configTick, h, configMove, agentMove, hn]

section
variable {s u : State} {l : Loc} (ha : accessible s l = true) (ht : configTick s = .ok () u)
include ha ht

theorem rd_after_moves : rd l s = .ok (valueAt u l) (readState u l) := by
  rw [rd, readVia, if_pos ha, ht]
  rfl

theorem wr_after_moves (v : Word) : wr l v s = .ok () (wroteState u l v) := by
  rw [wr, writeVia, if_pos ha, ht]
  rfl

end

/-- A field update whose read finds the state `u` and whose write finds the state `u'` writes what `u` held, with the field
set, whatever `u'` holds there (R75, R78). -/
theorem upd_after_moves {s u u' : State} {f : Field} (hp : Powered s) (hread : configTick s = .ok () u)
    (hcfg : u.cfg = s.cfg) (hpu : Powered u) (hwrite : configTick (readState u (fieldLoc s.cfg f)) = .ok () u') (n : Nat) :
    upd f n s = .ok () (wroteState u' (fieldLoc s.cfg f)
      (setField (valueAt u (fieldLoc s.cfg f)) (placeOf s.cfg f) n)) := by
  have hpr : Powered (readState u (fieldLoc s.cfg f)) := hpu.congr (readState_inst ..) (readState_clk ..)
  have hupd : upd f n s = (rd (fieldLoc s.cfg f) s).andThen fun v s' =>
      wr (fieldLoc s'.cfg f) (setField v (placeOf s'.cfg f) n) s' := rfl
  rw [hupd, rd_after_moves (hp.access _) hread, Res.andThen_ok, readState_cfg, hcfg, wr_after_moves (hpr.access _) hwrite]

/-- WRAP_ENABLE_CLOCK, as its read finds `u` and its write finds `u'`: its word is the word `w` of `u`, with the field set. -/
theorem exec_wrapEnableClock_after_moves {s u u' : State} {id : Nat} {w : Word} (hidle : Idle s) (hp : Powered s)
    (hid : id < Config.numPhy) (hread : configTick (s.setInFlight true) = .ok () u) (hcfg : u.cfg = s.cfg) (hpu : Powered u)
    (hwrite : configTick (readState u (.w (wrapperPos s.cfg (.enableclk id)).word)) = .ok () u')
    (hw : tblGet 0 u.w (wrapperPos s.cfg (.enableclk id)).word = w) :
    ∃ t, exec (.wrapEnableClock id) s = .next t ∧ t.result = some (.ok .unit) ∧
      tblGet 0 t.w (wrapperPos s.cfg (.enableclk id)).word = setField w (placeOf s.cfg (.w (.enableclk id))) 1 := by
  subst hw
  have hupd := (withPhy_ok hid _ _).trans
    (upd_after_moves (s := s.setInFlight true) (f := .w (.enableclk id)) hp hread hcfg hpu hwrite 1)
  exact runConfig_ok (body := fun s => okUnit (wrapEnableClock id s))
    (P := fun t => t.result = some (.ok .unit) ∧ tblGet 0 t.w (wrapperPos s.cfg (.enableclk id)).word = _) hidle.1
    (congrArg okUnit hupd) ⟨rfl, tblGet_tblPut_same ..⟩

/-- Settles O58: the write puts back the word the read returned, which holds the mate's write only if that came before the
read. -/
theorem updateOfSharedWrapperWordCanBeLost : Obligations.UpdateOfSharedWrapperWordCanBeLost := by
  unfold Obligations.UpdateOfSharedWrapperWordCanBeLost
  intro s id v hidle hp hid f hlen
  refine ⟨?between, ?before⟩
  case between =>
    have hread : configTick ((s.setEnv [[], [.mateWriteW f.word v]]).setInFlight true) = .ok () _ := configTick_silent rfl
    exact exec_wrapEnableClock_after_moves (s := s.setEnv [[], [.mateWriteW f.word v]]) hidle hp hid hread rfl hp
      (configTick_mateWriteW (readState_env ..) hlen) rfl
  case before =>
    have hread : configTick ((s.setEnv [[.mateWriteW f.word v]]).setInFlight true) = .ok () _ :=
      configTick_mateWriteW rfl hlen
    exact exec_wrapEnableClock_after_moves (s := s.setEnv [[.mateWriteW f.word v]]) hidle hp hid hread rfl hp
      (configTick_quiet (readState_env ..)) (tblGet_tblPut_same ..)

end Sys2Proof.Machine
end

section
/-! SUPPORT. Decoding against encoding, and the step that takes a delivery (O1 to O4, O6; 30_encoding.md R90 to R97): the words
come back from a delivery's bytes, so each statement is about one port's decoder on words, read arm by arm. -/

namespace Sys2Proof

/-! ## A number operand and its word -/

@[simp] theorem fitsWord_toNat (w : Word) : fitsWord w.toNat = true := decide_eq_true w.isLt

/-! ## Delivered words -/

@[simp] theorem decode_msg_bytesOfWords (ws : List Word) : decode ⟨.msg, bytesOfWords ws⟩ = decodeMsg ws := by
  simp [decode]

@[simp] theorem decode_op_bytesOfWords (ws : List Word) : decode ⟨.op, bytesOfWords ws⟩ = decodeOp ws := by
  simp [decode]

/-! ## Decoding inverts encoding -/

section
variable {i : Instr} (h : i.wellFormed = true)
include h

/-- Format MSG: the id in word 0 selects the command's own arm, and each payload word gives its operand back (R93, R94). -/
theorem decodeMsg_words (hport : i.port = .msg) : decodeMsg i.words = .instr i := by
  cases i with
  | cmdSetVcCfg | cmdSetLanes | cmdSetLaneRate | cmdSetTpgMode | cmdSetBypass | cmdSetFormat | cmdSetState
  | cmdResetControl =>
    simp only [Instr.wellFormed, Instr.numbers, List.all_cons, Bool.and_eq_true] at h
    simp [Instr.words, decodeMsg, toNat_ofNat_of_fits, h, -BitVec.toNat_ofNat]
  | _ => cases hport

/-- Format OP: the selector in word 0 selects the operation's own arm, and each operand word gives its operand back (R94,
R95). -/
theorem decodeOp_words (hport : i.port = .op) : decodeOp i.words = .instr i := by
  cases i with
  | cmdSetVcCfg | cmdSetLanes | cmdSetLaneRate | cmdSetTpgMode | cmdSetBypass | cmdSetFormat | cmdSetState
  | cmdResetControl => cases hport
  | _ =>
    simp only [Instr.wellFormed, Instr.numbers, List.all_cons, Bool.and_eq_true] at h
    simp [Instr.words, decodeOp, toNat_ofNat_of_fits, h, -BitVec.toNat_ofNat]

end

/-- Settles O1: the words come back from their bytes, and each port's decoder reads its own instructions from their words. -/
theorem decodeInvertsEncode : Obligations.DecodeInvertsEncode := by
  unfold Obligations.DecodeInvertsEncode
  intro i h
  rw [encode]
  cases hport : i.port with
  | msg => rw [decode_msg_bytesOfWords, decodeMsg_words h hport]
  | op => rw [decode_op_bytesOfWords, decodeOp_words h hport]

/-! ## What decodes is well formed -/

/-- The operands that a short TIM_HSD_LEGACY record leaves out fit a word too (R174). -/
theorem fitsWord_porchDefaults : fitsWord Config.hsaDefault = true ∧ fitsWord Config.hbpDefault = true := by decide

/-- Every arm of format MSG reads its numbers from words. -/
theorem wellFormed_of_decodeMsg {ws : List Word} {i : Instr} (h : decodeMsg ws = .instr i) : i.wellFormed = true := by
  unfold decodeMsg at h
  repeat' split at h
  all_goals cases h
  all_goals simp [Instr.wellFormed, Instr.numbers]

/-- Every arm of format OP reads its numbers from words, but for the two defaults. -/
theorem wellFormed_of_decodeOp {ws : List Word} {i : Instr} (h : decodeOp ws = .instr i) : i.wellFormed = true := by
  unfold decodeOp at h
  repeat' split at h
  all_goals cases h
  all_goals simp [Instr.wellFormed, Instr.numbers, fitsWord_porchDefaults]

/-- Settles O2: whichever port's decoder answered, it read the operands from words. -/
theorem decodedInstructionsAreWellFormed : Obligations.DecodedInstructionsAreWellFormed := by
  unfold Obligations.DecodedInstructionsAreWellFormed
  intro d i h
  unfold decode at h
  split at h
  · exact wellFormed_of_decodeMsg h
  · exact wellFormed_of_decodeOp h

/-- Settles O4: the decoder evaluated on nine written-out records. -/
theorem sampleWordsDecode : Obligations.SampleWordsDecode := by
  unfold Obligations.SampleWordsDecode
  decide

/-! ## Selectors -/

/-- The selectors of R95. -/
def opSelectors : List Nat :=
  [0x10, 0x11, 0x12, 0x13, 0x20, 0x21, 0x22, 0x23, 0x24, 0x25, 0x26, 0x27, 0x30, 0x31, 0x32, 0x33, 0x34, 0x35, 0x40, 0x41,
    0x42, 0x43, 0x50, 0x51, 0x52, 0x53, 0x54, 0x55, 0x56, 0x57, 0x60, 0x61, 0x62, 0x63, 0x70, 0x71]

/-- Each arm but the last is one selector of the list. -/
theorem decodeOp_of_not_mem_opSelectors {sel : Word} (operands : List Word) (h : sel.toNat ∉ opSelectors) :
    decodeOp (sel :: operands) = .unknownSelector sel.toNat := by
  simp only [decodeOp]
  generalize sel.toNat = n at h ⊢
  split
  case h_37 => rfl
  all_goals exact absurd (by decide) h

end Sys2Proof

namespace Sys2Proof.Machine

/-! ## The step -/

theorem step_of_inbox_cons {s : State} {d : Delivery} {later : List Delivery} (h : s.inbox = d :: later) :
    step s = runDecoded (decode d) (s.setInbox later) := by
  rw [step, h]

theorem step_of_inbox_nil {s : State} (h : s.inbox = []) : step s = idleStep s := by
  rw [step, h]

theorem idleStep_quiet {s : State} (h : Quiet s) : idleStep s = .next s := by
  rw [idleStep, configTick_quiet h]

/-- Settles O3. An idle step's tick finds an empty schedule. -/
theorem stepRunsTheDecodedInstruction : Obligations.StepRunsTheDecodedInstruction := by
  unfold Obligations.StepRunsTheDecodedInstruction
  refine ⟨fun s d later i hinbox hd => ?delivered, fun s hinbox hquiet => ?idle⟩
  case delivered => rw [step_of_inbox_cons hinbox, hd, runDecoded]
  case idle => rw [step_of_inbox_nil hinbox, idleStep_quiet hquiet]

/-- Settles O6: the record decodes to its unlisted selector, which no run gives a meaning (R97). -/
theorem unknownSelectorIsRefused : Obligations.UnknownSelectorIsRefused := by
  unfold Obligations.UnknownSelectorIsRefused
  intro s later sel operands hsel hinbox
  rw [step_of_inbox_cons hinbox, decode_op_bytesOfWords, decodeOp_of_not_mem_opSelectors operands hsel, runDecoded]

end Sys2Proof.Machine
end

section
/-! SUPPORT. States in which an operation cannot run (O19; 60_exceptions.md R314, 40_regaccess.md R110, R113): the first access to
a window that is closed stops an operation, whatever the other agents do, since it is refused before they move. -/

namespace Sys2Proof.Machine

/-! ## Operations that stop -/

/-- One configuration operation at a time (R314, R316); the handler is no configuration operation. -/
theorem exec_busy {i : Instr} {s : State} (hi : i ≠ .irqHandle) (h : s.opInFlight = true) :
    exec i s = .fault .preconditionViolated := by
  rw [exec_eq_body, if_neg hi, runConfig_busy h]

/-- The body's fault is the one an operation in flight gives, so nothing needs to be known of `opInFlight`. -/
theorem exec_stopped {i : Instr} {s : State} (hi : i ≠ .irqHandle)
    (hb : bodyOf i (s.setInFlight true) = .stop .preconditionViolated) : exec i s = .fault .preconditionViolated := by
  cases hs : s.opInFlight with
  | true => exact exec_busy hi hs
  | false => rw [exec_eq_body, if_neg hi, runConfig_stopped hs hb]

theorem exec_irqHandle_stopped {s : State} (h : takeInterrupt s = .stop .preconditionViolated) :
    exec .irqHandle s = .fault .preconditionViolated := by
  have hb : bodyOf .irqHandle s = .stop .preconditionViolated := congrArg okUnit h
  rw [exec_eq_body, if_pos rfl, hb, finish_stop, ite_self]

/-! ## Closed windows -/

section
variable {s : State} {l : Loc}

theorem readVia_closed {t : Tick} (h : accessible s l = false) : readVia t l s = .stop .preconditionViolated := by
  simp [readVia, h]

theorem wr_closed (h : accessible s l = false) (v : Word) : wr l v s = .stop .preconditionViolated := by
  simp [wr, writeVia, h]

theorem upd_closed {f : Field} (h : accessible s (fieldLoc s.cfg f) = false) (n : Nat) :
    upd f n s = .stop .preconditionViolated := by
  rw [upd, updateVia, readVia_closed h, Res.andThen_stop]

/-- The window is checked before the offset (notes/assumptions/29.md). -/
theorem atOffset_closed {α : Type} {space : PReg → Loc} (h : accessible s (space .version) = false) (offset : Nat)
    (body : PReg → State → Res α) : atOffset space offset body s = .stop .preconditionViolated := by
  simp [atOffset, h]

theorem memRead_closed {space : PReg → Loc} (h : accessible s (space .version) = false) (offset : Nat) :
    memRead space offset s = .stop .preconditionViolated :=
  atOffset_closed h _ _

theorem memWrite_closed {space : PReg → Loc} (h : accessible s (space .version) = false) (offset : Nat) (v : Word) :
    memWrite space offset v s = .stop .preconditionViolated := by
  rw [memWrite, atOffset_closed h, okUnit_stop]

end

theorem accessible_p_clocksOff {s : State} (h : clocksOn s.clk = false) (r : PReg) : accessible s (.p r) = false := by
  simp [accessible, h]

theorem accessible_x_clocksOff {s : State} (h : clocksOn s.clk = false) (r : PReg) : accessible s (.x r) = false := by
  simp [accessible, h]

theorem accessible_p_noBase {s : State} (h : s.inst.baseP = none) (r : PReg) : accessible s (.p r) = false := by
  simp [accessible, h]

theorem accessible_x_noBase {s : State} (h : s.inst.baseX = none) (r : PReg) : accessible s (.x r) = false := by
  simp [accessible, h]

theorem accessible_w_noBase {s : State} (h : s.inst.baseW = none) (n : Nat) : accessible s (.w n) = false := by
  simp [accessible, h]

/-! ## The windows P and X -/

section
variable {s : State} (hp : ∀ r, accessible s (.p r) = false)
include hp

theorem dphyReset_closed : dphyReset s = .stop .preconditionViolated := by
  rw [dphyReset, upd_closed (hp _), Res.andThen_stop]

/-- The mask of the first category is already out of reach. -/
theorem irqEnable_closed : irqEnable s = .stop .preconditionViolated := by
  rw [irqEnable, Config.numCat, List.range_succ_eq_map, forEach_cons, unmaskCategory, wr_closed (hp _), Res.andThen_stop]

theorem takeInterrupt_closed : takeInterrupt s = .stop .preconditionViolated := by
  have he : accessible (enterInterrupt s) (.p .intStMain) = false := hp .intStMain
  rw [takeInterrupt, readVia_closed he, Res.andThen_stop]

theorem exec_p_closed (offset : Nat) (v : Word) :
    exec (.regRead offset) s = .fault .preconditionViolated ∧
    exec (.regWrite offset v) s = .fault .preconditionViolated ∧
    exec .dphyReset s = .fault .preconditionViolated ∧
    exec .irqEnable s = .fault .preconditionViolated ∧
    exec .irqHandle s = .fault .preconditionViolated := by
  have hp' : ∀ r, accessible (s.setInFlight true) (.p r) = false := hp
  exact ⟨exec_stopped nofun (memRead_closed (hp' .version) _),
    exec_stopped nofun (memWrite_closed (hp' .version) _ _),
    exec_stopped nofun (congrArg okUnit (dphyReset_closed hp')),
    exec_stopped nofun (congrArg okUnit (irqEnable_closed hp')),
    exec_irqHandle_stopped (takeInterrupt_closed hp)⟩

end

theorem exec_x_closed {s : State} (hx : ∀ r, accessible s (.x r) = false) (offset : Nat) (v : Word) :
    exec (.regReadExt offset) s = .fault .preconditionViolated ∧
    exec (.regWriteExt offset v) s = .fault .preconditionViolated := by
  have hx' : ∀ r, accessible (s.setInFlight true) (.x r) = false := hx
  exact ⟨exec_stopped nofun (memRead_closed (hx' .version) _),
    exec_stopped nofun (memWrite_closed (hx' .version) _ _)⟩

/-! ## The window W -/

/-- With the index in range the body stops, with any other the index check does. -/
theorem withPhy_stopped {α : Type} {id : Nat} {body : State → Res α} {s : State}
    (h : body s = .stop .preconditionViolated) : withPhy id body s = .stop .preconditionViolated := by
  rw [withPhy, h, ite_self]

theorem withLanes_stopped {α : Type} {n : Nat} {body : State → Res α} {s : State}
    (h : body s = .stop .preconditionViolated) : withLanes n body s = .stop .preconditionViolated := by
  rw [withLanes, h, ite_self]

section
variable {s : State} (hw : s.inst.baseW = none)
include hw

theorem updW_noBase (f : WField) (n : Nat) : upd (.w f) n s = .stop .preconditionViolated :=
  upd_closed (accessible_w_noBase hw _) n

theorem wrapForceRxMode_noBase (id lanes : Nat) (force : Bool) :
    wrapForceRxMode id lanes force s = .stop .preconditionViolated :=
  withPhy_stopped (withLanes_stopped (by rw [updW_noBase hw, Res.andThen_stop]))

theorem wrapGetLaneMode_noBase (id : Nat) : wrapGetLaneMode id s = .stop .preconditionViolated :=
  withPhy_stopped (by rw [rd, fieldLoc, readVia_closed (accessible_w_noBase hw _), Res.andThen_stop])

/-- From 160 Mbit/s on there is a range to write; below, the operation ends before any access (R125). -/
theorem wrapSetHsfreqrange_noBase (id : Nat) {rate : Nat} (hr : 160 ≤ rate) :
    wrapSetHsfreqrange id rate s = .stop .preconditionViolated :=
  withPhy_stopped (by simp only [hsfreqIndex_eq hr, updW_noBase hw])

theorem wrapTestcodeSelOtherPhy_noBase (id : Nat) (select : Bool) :
    wrapTestcodeSelOtherPhy id select s = .stop .preconditionViolated :=
  withPhy_stopped (updW_noBase hw _ _)

theorem dphyTestWrite_noBase (id : Nat) (other : Bool) (code data : Nat) :
    dphyTestWrite id other code data s = .stop .preconditionViolated := by
  rw [dphyTestWrite, wrapTestcodeSelOtherPhy_noBase hw, Res.andThen_stop]

end

/-- Settles O19: the first access finds its window closed, a blocking operation its context, and a second operation the first
one in flight. -/
theorem statePreconditionsFault : Obligations.StatePreconditionsFault := by
  unfold Obligations.StatePreconditionsFault
  refine ⟨fun s _ hoff offset v => ?clocksOff, fun s _ hp => exec_p_closed (accessible_p_noBase hp),
    fun s _ hx => exec_x_closed (accessible_x_noBase hx), fun s _ hw id lanes rate code data b => ?noWrapper,
    fun s hctx id lanes rate n => ?interrupt, fun i s => exec_busy⟩
  case clocksOff =>
    obtain ⟨hread, hwrite, hreset, henable, hhandle⟩ := exec_p_closed (accessible_p_clocksOff hoff) offset v
    obtain ⟨hreadExt, hwriteExt⟩ := exec_x_closed (accessible_x_clocksOff hoff) offset v
    exact ⟨hread, hwrite, hreadExt, hwriteExt, hreset, henable, hhandle⟩
  case noWrapper =>
    have hw' : (s.setInFlight true).inst.baseW = none := hw
    exact ⟨exec_stopped nofun (congrArg okUnit (withPhy_stopped (updW_noBase hw' _ _))),
      exec_stopped nofun (congrArg okUnit (wrapForceRxMode_noBase hw' _ _ _)),
      exec_stopped nofun (congrArg (Res.mapValue · Value.bool) (wrapGetLaneMode_noBase hw' _)),
      exec_stopped nofun (congrArg okUnit (withPhy_stopped (updW_noBase hw' _ _))),
      fun hr => exec_stopped nofun (congrArg okUnit (wrapSetHsfreqrange_noBase hw' _ hr)),
      exec_stopped nofun (congrArg okUnit (updW_noBase hw' _ _)),
      exec_stopped nofun (congrArg okUnit (withPhy_stopped (updW_noBase hw' _ _))),
      exec_stopped nofun (congrArg okUnit (wrapTestcodeSelOtherPhy_noBase hw' _ _)),
      exec_stopped nofun (congrArg okUnit (dphyTestWrite_noBase hw' _ _ _ _))⟩
  case interrupt =>
    have hctx' : (s.setInFlight true).ctx = .interrupt := hctx
    exact ⟨exec_stopped nofun (congrArg okUnit (blocking_interrupt hctx' _)),
      exec_stopped nofun (congrArg okUnit (blocking_interrupt hctx' _)),
      exec_stopped nofun (congrArg okUnit (blocking_interrupt hctx' _)),
      exec_stopped nofun (congrArg okUnit (blocking_interrupt hctx' _))⟩

end Sys2Proof.Machine
end

section
/-! SUPPORT. The wrapper's operations of one or two accesses (O21 to O23; 41_wrapper.md R120 to R126). -/

namespace Sys2Proof.Machine

/-! ## The halves of WRAP_FORCE_RX_MODE -/

section
variable {s : State} {id lanes : Nat} (hid : id < Config.numPhy) (h1 : 1 ≤ lanes)
include hid h1

/-- With at most 2 lanes the operation is the update of the own half. -/
theorem wrapForceRxMode_ownHalf (ho : Open s) (h2 : lanes ≤ 2) (force : Bool) :
    wrapForceRxMode id lanes force s = upd (.w (.forcerxmode id)) (if force then frxOwn s.cfg lanes else 0) s := by
  rw [wrapForceRxMode, withPhy_ok hid, withLanes_ok h1 (by omega), upd_open ho, Res.andThen_ok, if_neg (by omega)]

/-- With more than 2 lanes the update of the mate's half follows. -/
theorem wrapForceRxMode_bothHalves (ho : Open s) (h2 : 2 < lanes) (h4 : lanes ≤ 4) (force : Bool) :
    wrapForceRxMode id lanes force s =
      .ok () (updState (updState s (.w (.forcerxmode id)) (if force then frxOwn s.cfg lanes else 0))
        (.w (.forcerxmode (mateOf id))) (if force then frxMate s.cfg lanes else 0)) := by
  rw [wrapForceRxMode, withPhy_ok hid, withLanes_ok h1 h4, upd_open ho, Res.andThen_ok, if_pos h2,
    upd_open ((open_updState ..).mpr ho), updState_cfg]

end

/-- A wrapper operation that is two field updates, in a ready state. -/
theorem runConfig_wroteWrapper_twice {s : State} (h : Ready s) {body : State → Res Unit} (f g : WField) (m n : Nat)
    (hb : body (s.setInFlight true) = .ok () (updState (updState (s.setInFlight true) (.w f) m) (.w g) n)) :
    ∃ t, runConfig (fun s => okUnit (body s)) s = .next t ∧ t.result = some (.ok .unit) ∧
      ∃ u, WroteWrapper s u f m ∧ WroteWrapper u t g n := by
  refine ⟨_, runConfig_ran h.idle.1 (u := updState (updState s (.w f) m) (.w g) n) (by simpa using h.idle.1) ?_, rfl,
    completeOk .unit (updState s (.w f) m), updState_wroteWrapper h.legal f m .unit,
    updState_wroteWrapper (s := completeOk .unit (updState s (.w f) m)) h.legal g n .unit⟩
  rw [hb, okUnit_ok, updState_setInFlight, updState_setInFlight]

/-- Settles O21: the lane count decides between one field update and two. -/
theorem forceRxModeWritesOneOrTwoHalves : Obligations.ForceRxModeWritesOneOrTwoHalves := by
  unfold Obligations.ForceRxModeWritesOneOrTwoHalves
  intro s id lanes force h hid h1 h4
  have ho : Open (s.setInFlight true) := h.isOpen.inFlight true
  rcases Nat.lt_or_ge 2 lanes with h2 | h2
  · obtain ⟨t, hrun, hres, hwrote⟩ := runConfig_wroteWrapper_twice h _ _ _ _
      (wrapForceRxMode_bothHalves hid h1 ho h2 h4 force)
    exact ⟨t, hrun, hres, fun hle => absurd h2 (by omega), fun _ => hwrote⟩
  · obtain ⟨t, hrun, hres, hwrote⟩ := runConfig_wroteWrapper h _ _ (wrapForceRxMode_ownHalf hid h1 ho h2 force)
    exact ⟨t, hrun, hres, fun _ => hwrote, fun hlt => absurd h2 (by omega)⟩

/-! ## The frequency range -/

theorem wrapSetHsfreqrange_inRange {id rate : Nat} (hid : id < Config.numPhy) (hr : 160 ≤ rate) (s : State) :
    wrapSetHsfreqrange id rate s = upd (.w (.hsfreqrange id)) (Config.hsfreqCode (rangeIndex rate)).toNat s := by
  simp only [wrapSetHsfreqrange, withPhy_ok hid, hsfreqIndex_eq hr]

theorem wrapSetHsfreqrange_tooLow {id rate : Nat} (hid : id < Config.numPhy) (hr : rate < 160) (s : State) :
    wrapSetHsfreqrange id rate s = .err .invalidArgument s := by
  simp only [wrapSetHsfreqrange, withPhy_ok hid, hsfreqIndex_none hr, raise_eq]

/-- Settles O23: the table search finds the interval's entry from 160 Mbit/s on, and none below. -/
theorem hsfreqrangeSelectsTheTableEntry : Obligations.HsfreqrangeSelectsTheTableEntry := by
  unfold Obligations.HsfreqrangeSelectsTheTableEntry
  intro s id rate h hid
  refine ⟨fun hr => ?tooLow, fun hr => ?inRange⟩
  case tooLow =>
    exact runConfig_failed (body := bodyOf (.wrapSetHsfreqrange id rate)) h.idle.1 h.idle.1
      (congrArg okUnit (wrapSetHsfreqrange_tooLow hid hr _))
  case inRange => exact runConfig_wroteWrapper h _ _ (wrapSetHsfreqrange_inRange hid hr _)

/-! ## The lane mode -/

theorem wrapGetLaneMode_open {s : State} (ho : Open s) {id : Nat} (hid : id < Config.numPhy) :
    wrapGetLaneMode id s = .ok (decide (wField s (.ctrlSel (id / 2)) = 1))
      (readState s (.w (wrapperPos s.cfg (.ctrlSel (id / 2))).word)) := by
  rw [wrapGetLaneMode, withPhy_ok hid, rd_open ho, Res.andThen_ok, readState_cfg]
  rfl

/-- Settles O22: one read of the pair's word, which leaves its mark in the trace alone. -/
theorem laneModeReadsThePairBit : Obligations.LaneModeReadsThePairBit := by
  unfold Obligations.LaneModeReadsThePairBit
  intro s id h hid
  have hread := wrapGetLaneMode_open (h.isOpen.inFlight true) hid
  rw [readState_setInFlight] at hread
  exact ⟨_, runConfig_ran (body := bodyOf (.wrapGetLaneMode id)) h.idle.1 (by simpa using h.idle.1)
    (congrArg (Res.mapValue · Value.bool) hread), rfl, rfl, fun _ => rfl⟩

end Sys2Proof.Machine
end

section
/-! SUPPORT. Operands outside their domain (O18; 60_exceptions.md R314): an index or a lane count is checked before the
operation does anything, an unset attribute when the timing or the power-up path is computed from it. -/

namespace Sys2Proof.Machine

/-! ## The checks -/

theorem withPhy_bad {α : Type} {id : Nat} (h : Config.numPhy ≤ id) (body : State → Res α) (s : State) :
    withPhy id body s = .stop .preconditionViolated := by
  rw [withPhy, if_neg (by omega)]

theorem withLanes_bad {α : Type} {n : Nat} (h : n < 1 ∨ 4 < n) (body : State → Res α) (s : State) :
    withLanes n body s = .stop .preconditionViolated := by
  rw [withLanes, if_neg (by omega)]

/-- A blocking operation that would stop stops in either context. -/
theorem blocking_stopped {α : Type} {body : State → Res α} {s : State} (h : body s = .stop .preconditionViolated) :
    blocking body s = .stop .preconditionViolated := by
  rw [blocking, h, ite_self]

theorem dphyPowerup_unset {s : State} (h : s.inst.lanes = none ∨ s.inst.laneRate = none) :
    dphyPowerup s = .stop .preconditionViolated := by
  refine blocking_stopped ?_
  split
  · next hl hr => simp [hl, hr] at h
  · rfl

/-- A test-interface write stops at its steering, the first step (R150). -/
theorem dphyTestWrite_badPhy {id : Nat} (h : Config.numPhy ≤ id) (other : Bool) (code data : Nat) (s : State) :
    dphyTestWrite id other code data s = .stop .preconditionViolated := by
  rw [dphyTestWrite, wrapTestcodeSelOtherPhy, withPhy_bad h, Res.andThen_stop]

/-- The six formats have the codes below 6 (R94). -/
theorem formatOfCode_of_lt {fmt : Nat} (h : fmt < 6) : ∃ f, formatOfCode fmt = some f := by
  match fmt, h with
  | 0, _ | 1, _ | 2, _ | 3, _ | 4, _ | 5, _ => exact ⟨_, rfl⟩

/-! ## The operations -/

theorem exec_badPhy {id : Nat} (h : Config.numPhy ≤ id) (s : State) (lanes rate code data : Nat) (b : Bool) :
    exec (.wrapEnableClock id) s = .fault .preconditionViolated ∧
    exec (.wrapForceRxMode id lanes b) s = .fault .preconditionViolated ∧
    exec (.wrapGetLaneMode id) s = .fault .preconditionViolated ∧
    exec (.wrapSetLaneMode id b) s = .fault .preconditionViolated ∧
    exec (.wrapSetHsfreqrange id rate) s = .fault .preconditionViolated ∧
    exec (.wrapSetTestcode id code) s = .fault .preconditionViolated ∧
    exec (.wrapTestcodeSelOtherPhy id b) s = .fault .preconditionViolated ∧
    exec (.dphyPowerupStd id lanes rate) s = .fault .preconditionViolated ∧
    exec (.dphyPowerupMerged id lanes rate) s = .fault .preconditionViolated ∧
    exec (.dphyTestWrite id b code data) s = .fault .preconditionViolated :=
  ⟨exec_stopped nofun (congrArg okUnit (withPhy_bad h _ _)), exec_stopped nofun (congrArg okUnit (withPhy_bad h _ _)),
    exec_stopped nofun (congrArg (Res.mapValue · Value.bool) (withPhy_bad h _ _)),
    exec_stopped nofun (congrArg okUnit (withPhy_bad h _ _)), exec_stopped nofun (congrArg okUnit (withPhy_bad h _ _)),
    exec_stopped nofun (congrArg okUnit (withPhy_bad h _ _)), exec_stopped nofun (congrArg okUnit (withPhy_bad h _ _)),
    exec_stopped nofun (congrArg okUnit (blocking_stopped (withPhy_bad h _ _))),
    exec_stopped nofun (congrArg okUnit (blocking_stopped (withPhy_bad h _ _))),
    exec_stopped nofun (congrArg okUnit (dphyTestWrite_badPhy h ..))⟩

theorem exec_badLanes {lanes : Nat} (h : lanes < 1 ∨ 4 < lanes) (s : State) (id rate : Nat) (b : Bool) :
    exec (.wrapForceRxMode id lanes b) s = .fault .preconditionViolated ∧
    exec (.dphyPowerupStd id lanes rate) s = .fault .preconditionViolated ∧
    exec (.dphyPowerupMerged id lanes rate) s = .fault .preconditionViolated ∧
    exec (.dphyWaitStopstate lanes) s = .fault .preconditionViolated :=
  ⟨exec_stopped nofun (congrArg okUnit (withPhy_stopped (withLanes_bad h _ _))),
    exec_stopped nofun (congrArg okUnit (blocking_stopped (withPhy_stopped (withLanes_bad h _ _)))),
    exec_stopped nofun (congrArg okUnit (blocking_stopped (withPhy_stopped (withLanes_bad h _ _)))),
    exec_stopped nofun (congrArg okUnit (blocking_stopped (withLanes_bad h _ _)))⟩

section
variable {s : State} (hunset : s.inst.lanes = none ∨ s.inst.laneRate = none)
include hunset

theorem exec_unset :
    exec .dphyPowerup s = .fault .preconditionViolated ∧ exec .timCutThrough s = .fault .preconditionViolated ∧
    exec .timPkt2pkt s = .fault .preconditionViolated ∧
    ∀ fmt width hsa hbp, exec (.timHsdLegacy fmt width hsa hbp) s = .fault .preconditionViolated :=
  have hunset' : (s.setInFlight true).inst.lanes = none ∨ (s.setInFlight true).inst.laneRate = none := hunset
  ⟨exec_stopped nofun (congrArg okUnit (dphyPowerup_unset hunset')),
    exec_stopped nofun (congrArg (Res.mapValue · Value.timing) (withTimingInputs_unset hunset' _)),
    exec_stopped nofun (congrArg (Res.mapValue · Value.nat) (withTimingInputs_unset hunset' _)),
    fun _ _ _ _ => exec_stopped nofun (congrArg (Res.mapValue · Value.timing) (withTimingInputs_unset hunset' _))⟩

variable (hquiet : Quiet s) {ch width height fmt : Nat} (hch : PixelChannel s ch) (hfmt : fmt < 6)
include hquiet hch hfmt

theorem exec_ipiInit_unset (h : s.inst.isNative = false ∨ (s.inst.tpgEnabled = true ∧ s.inst.tpgPkt2pkt = 0))
    (cut : Bool) (adv : Word) : exec (.ipiInit ch width height fmt cut adv) s = .fault .preconditionViolated := by
  obtain ⟨f, hf⟩ := formatOfCode_of_lt hfmt
  exact exec_stopped nofun (congrArg okUnit (ipiInit_unset (s := s.setInFlight true) hquiet hunset hch hf h))

theorem exec_cmdSetFormat_unset (h : s.inst.isNative = false) :
    exec (.cmdSetFormat ch width height fmt) s = .fault .preconditionViolated := by
  obtain ⟨f, hf⟩ := formatOfCode_of_lt hfmt
  refine exec_stopped nofun ((if_neg (by simp [h])).trans ?_)
  exact congrArg okUnit (ipiInit_unset (s := s.setInFlight true) hquiet hunset hch hf (.inl h))

end

/-- Settles O18: index and lane count are checked at the start; `init` reaches the calculator after accesses
that, with an open window or a closed one, end in no other fault. -/
theorem operandPreconditionsFault : Obligations.OperandPreconditionsFault := by
  unfold Obligations.OperandPreconditionsFault
  intro s _
  refine ⟨fun id hid => exec_badPhy hid s, fun lanes hl => exec_badLanes hl s, fun hunset => ?attributes,
    fun hquiet hunset ch width height fmt hch hfmt => ?format⟩
  case attributes =>
    obtain ⟨hpowerup, hcut, hpkt, hlegacy⟩ := exec_unset hunset
    exact ⟨hpowerup, hcut, hpkt, fun fmt width hsa hbp _ => hlegacy fmt width hsa hbp⟩
  case format =>
    exact ⟨exec_ipiInit_unset hunset hquiet hch hfmt, exec_cmdSetFormat_unset hunset hquiet hch hfmt⟩

end Sys2Proof.Machine
end

section
/-! SUPPORT. The power sequencer undisturbed (O24 to O31, O55; 42_dphy_sequencer.md R141 to R154, 46_commands.md R273): the line
registers of a bank after a power-up, the wait's two ends, and the one state each path leaves, which its statements read off. -/

namespace Sys2Proof.Machine

/-! ## Operations without a value -/

section
variable {s u : State} {body : State → Res Unit} (hs : s.opInFlight = false) (hu : u.opInFlight = false)
include hs hu

theorem runConfig_okUnit_ran (hb : body (s.setInFlight true) = .ok () (u.setInFlight true)) :
    runConfig (fun s => okUnit (body s)) s = .next (completeOk .unit u) :=
  runConfig_ran hs hu (congrArg okUnit hb)

theorem runConfig_okUnit_failed {e : Err} (hb : body (s.setInFlight true) = .err e (u.setInFlight true)) :
    runConfig (fun s => okUnit (body s)) s = .next (takeError e u) :=
  runConfig_failed hs hu (congrArg okUnit hb)

end

theorem setDphy_setInFlight (s : State) (v : DphyState) (b : Bool) :
    (s.setInFlight b).setDphy v = (s.setDphy v).setInFlight b := rfl

/-- Operations whose bodies do the same in two states are the same run. -/
theorem runConfig_congr {s s' : State} {body body' : State → Res Value} (hf : s.opInFlight = s'.opInFlight)
    (hb : body (s.setInFlight true) = body' (s'.setInFlight true)) : runConfig body s = runConfig body' s' := by
  rw [runConfig, runConfig, hf, hb]

/-! ## The lines of a bank -/

/-- A bank with the reset and the shutdown line at a level (R143, R147). -/
def Bank.withLines (c : Cfg) (n : Nat) (b : Bank) : Bank :=
  { b with dphyRstz := setField b.dphyRstz c.map.fRstz n, phyShutdownz := setField b.phyShutdownz c.map.fShutdownz n }

theorem Bank.withLines_withLines (c : Cfg) (m n : Nat) (b : Bank) : (b.withLines c m).withLines c n = b.withLines c n := by
  simp only [Bank.withLines, setField_setField]

theorem Bank.sameBut_withLines (c : Cfg) (n : Nat) (b : Bank) :
    Bank.SameBut b (b.withLines c n) [.dphyRstz, .phyShutdownz] := by
  intro r hr
  simp only [List.mem_cons, List.not_mem_nil, or_false, not_or] at hr
  calc (b.withLines c n).get r
      = ((b.put .dphyRstz (setField b.dphyRstz c.map.fRstz n)).put .phyShutdownz
          (setField b.phyShutdownz c.map.fShutdownz n)).get r := rfl
    _ = b.get r := by rw [Bank.get_put_ne _ _ _ _ hr.2, Bank.get_put_ne _ _ _ _ hr.1]

section
variable (s : State) (n : Nat)
@[simp] theorem updState_p_rstz : (updState s (.p .rstz) n).p =
    { s.p with dphyRstz := setField s.p.dphyRstz s.cfg.map.fRstz n } := rfl
@[simp] theorem updState_p_shutdownz : (updState s (.p .shutdownz) n).p =
    { s.p with phyShutdownz := setField s.p.phyShutdownz s.cfg.map.fShutdownz n } := rfl
@[simp] theorem updState_p_physhut : (updState s (.p .physhut) n).p =
    { s.p with phyShut := setField s.p.phyShut s.cfg.map.fPhyshut n } := rfl
@[simp] theorem updState_x_rstz : (updState s (.x .rstz) n).x =
    { s.x with dphyRstz := setField s.x.dphyRstz s.cfg.map.fRstz n } := rfl
@[simp] theorem updState_x_shutdownz : (updState s (.x .shutdownz) n).x =
    { s.x with phyShutdownz := setField s.x.phyShutdownz s.cfg.map.fShutdownz n } := rfl
end

/-! ## The registers a run wrote -/

/-- From `s` to `t` the trace grew by accesses that write the registers `ls`, in this order. -/
def Wrote (s t : State) (ls : List Loc) : Prop :=
  ∃ acc, t.trace = s.trace ++ acc ∧ acc.filterMap Access.written = ls

theorem Wrote.writtenSince {s t : State} {ls : List Loc} (h : Wrote s t ls) : writtenSince s t = ls := by
  obtain ⟨acc, htrace, hacc⟩ := h
  rw [writtenSince_append htrace, hacc]

theorem Wrote.refl (s : State) : Wrote s s [] := ⟨[], (List.append_nil _).symm, rfl⟩

theorem Wrote.trans {s t u : State} {k l : List Loc} (h : Wrote s t k) (h' : Wrote t u l) : Wrote s u (k ++ l) := by
  obtain ⟨a, ha, rfl⟩ := h
  obtain ⟨b, hb, rfl⟩ := h'
  exact ⟨a ++ b, by rw [hb, ha, List.append_assoc], List.filterMap_append⟩

theorem Wrote.upd {s t : State} {k : List Loc} (h : Wrote s t k) (f : Field) (n : Nat) :
    Wrote s (updState t f n) (k ++ [fieldLoc t.cfg f]) := h.trans ⟨_, updState_trace t f n, rfl⟩

theorem Wrote.setDphy {s t : State} {k : List Loc} (h : Wrote s t k) (v : DphyState) : Wrote s (t.setDphy v) k := h

theorem Wrote.polled {s t : State} {k : List Loc} (h : Wrote s t k) (n : Nat) : Wrote s (polledState t n) k := by
  have hread : (List.replicate n (Access.rd (.p .phyStopstate) t.p.phyStopstate)).filterMap Access.written = [] := by
    simp [List.filterMap_replicate]
  rw [← List.append_nil k]
  exact h.trans ⟨_, rfl, hread⟩

/-! ## DPHY_RESET -/

/-- The state after an undisturbed reset (R141). -/
def resetState (s : State) : State :=
  (updState (updState (updState s (.p .rstz) 0) (.p .shutdownz) 0) (.p .physhut) 0).setDphy .reset

theorem dphyReset_open {s : State} (ho : Open s) : dphyReset s = .ok () (resetState s) := by
  simp [dphyReset, ho, resetState]

theorem resetState_eq (s : State) : resetState s = { s with
    p := { s.p.withLines s.cfg 0 with phyShut := setField s.p.phyShut s.cfg.map.fPhyshut 0 }
    dphy := .reset, trace := (resetState s).trace } := by
  apply State.eq_of_fields <;> simp [resetState, Bank.withLines]

theorem resetState_sameBut (s : State) : Bank.SameBut s.p (resetState s).p [.dphyRstz, .phyShutdownz, .phyShut] := by
  intro r hr
  simp only [List.mem_cons, List.not_mem_nil, or_false, not_or] at hr
  obtain ⟨hrstz, hshutdownz, hphyshut⟩ := hr
  have hlines := s.p.sameBut_withLines s.cfg 0 r (by simp [hrstz, hshutdownz])
  rw [resetState_eq]
  exact (Bank.get_put_ne (s.p.withLines s.cfg 0) .phyShut r _ hphyshut).trans hlines

theorem resetState_setInFlight (s : State) (b : Bool) : resetState (s.setInFlight b) = (resetState s).setInFlight b := by
  simp only [resetState, updState_setInFlight, setDphy_setInFlight]

theorem resetState_wrote (s : State) : Wrote s (resetState s) [.p .dphyRstz, .p .phyShutdownz, .p .phyShut] := by
  simpa [resetState, fieldLoc, PField.reg] using
    ((((Wrote.refl s).upd (.p .rstz) 0).upd (.p .shutdownz) 0).upd (.p .physhut) 0).setDphy .reset

/-- Settles O24: three field updates, then the phase. -/
theorem dphyResetDrivesTheLinesLow : Obligations.DphyResetDrivesTheLinesLow := by
  unfold Obligations.DphyResetDrivesTheLinesLow
  intro s h
  have hrun : exec .dphyReset s = .next (completeOk .unit (resetState s)) := by
    refine runConfig_okUnit_ran (body := dphyReset) h.idle.1 (by simpa [resetState] using h.idle.1) ?_
    rw [dphyReset_open (h.isOpen.inFlight true), resetState_setInFlight]
  have heq := resetState_eq s
  exact ⟨_, hrun, rfl, congrArg (completeOk .unit) heq, resetState_sameBut s, congrArg (·.p.dphyRstz) heq,
    congrArg (·.p.phyShutdownz) heq, congrArg (·.p.phyShut) heq, (resetState_wrote s).writtenSince,
    fun a => congrArg (fun u => Memory.read u.draw u.t a) heq⟩

/-! ## The path selection -/

/-- With both attributes set the power-up is the path they select, in either context: both paths block as it does. -/
theorem dphyPowerup_eq {s : State} {lanes rate : Nat} (hl : s.inst.lanes = some lanes) (hr : s.inst.laneRate = some rate) :
    dphyPowerup s = if 2 < lanes ∧ s.inst.tpgEnabled = false then dphyPowerupMerged s.inst.id lanes rate s
      else dphyPowerupStd s.inst.id lanes rate s := by
  cases hctx : s.ctx with
  | config => simp only [dphyPowerup, blocking_config hctx, hl, hr]
  | interrupt => simp only [dphyPowerup, dphyPowerupMerged, dphyPowerupStd, blocking_interrupt hctx, ite_self]

/-- Settles O25. -/
theorem powerupSelectsItsPath : Obligations.PowerupSelectsItsPath := by
  unfold Obligations.PowerupSelectsItsPath
  intro s
  refine ⟨fun hunset => (exec_unset hunset).1, fun lanes rate hl hr => ?_⟩
  have hbody := dphyPowerup_eq (s := s.setInFlight true) hl hr
  split
  · next hsel =>
    exact runConfig_congr (body := bodyOf .dphyPowerup) (body' := bodyOf (.dphyPowerupMerged s.inst.id lanes rate)) rfl
      (congrArg okUnit (hbody.trans (if_pos hsel)))
  · next hsel =>
    exact runConfig_congr (body := bodyOf .dphyPowerup) (body' := bodyOf (.dphyPowerupStd s.inst.id lanes rate)) rfl
      (congrArg okUnit (hbody.trans (if_neg hsel)))

/-! ## The ends of the wait -/

theorem polledState_polledState (s : State) (m n : Nat) : polledState (polledState s m) n = polledState s (m + n) := by
  simp [polledState, List.replicate_append_replicate]

section
variable {s : State} (ho : Open s) (hc : s.ctx = .config) {n : Nat} (h1 : 1 ≤ n) (h4 : n ≤ 4)
include ho hc h1 h4

theorem waitOrTimeout_stopped (hs : ∀ b < n, s.p.phyStopstate.getLsbD b = true) :
    waitOrTimeout n s = .ok () (polledState s 1) := by
  rw [waitOrTimeout, wait_stopped ho hc h1 h4 hs, Res.onErr_ok]

theorem waitOrTimeout_missing (hs : ∃ b < n, s.p.phyStopstate.getLsbD b = false) :
    waitOrTimeout n s = .err .timeout ((polledState s Config.pollMax).setDphy .errorTimeout) := by
  rw [waitOrTimeout, wait_timeout ho hc h1 h4 hs, Res.onErr_err, raise_eq]

end

/-- Settles O31. -/
theorem waitStopstateOutcomes : Obligations.WaitStopstateOutcomes := by
  unfold Obligations.WaitStopstateOutcomes
  intro s n h h1 h4
  have ho : Open (s.setInFlight true) := h.isOpen.inFlight true
  refine ⟨fun hs => ?shown, fun hs => ?missing⟩
  case shown =>
    exact runConfig_okUnit_ran (body := dphyWaitStopstate n) (u := polledState s 1) h.idle.1 h.idle.1
      (wait_stopped ho h.idle.2 h1 h4 hs)
  case missing =>
    exact runConfig_okUnit_failed (body := dphyWaitStopstate n) (u := polledState s Config.pollMax) h.idle.1 h.idle.1
      (wait_timeout ho h.idle.2 h1 h4 hs)

/-! ## The standard path -/

/-- The state after `polls` reads of the standard path's wait, with the phase its end gives (R143 steps 10 to 12). -/
def stdEnded (s : State) (id rate polls : Nat) (phase : DphyState) : State :=
  (polledState (stdReleased s id rate) polls).setDphy phase

theorem stdReleased_setInFlight (s : State) (id rate : Nat) (b : Bool) :
    stdReleased (s.setInFlight b) id rate = (stdReleased s id rate).setInFlight b := by
  simp only [stdReleased, setDphy_setInFlight, updState_setInFlight]

@[simp] theorem open_stdReleased (s : State) (id rate : Nat) : Open (stdReleased s id rate) ↔ Open s := by
  simp [stdReleased]

@[simp] theorem stdReleased_ctx (s : State) (id rate : Nat) : (stdReleased s id rate).ctx = s.ctx := by
  simp [stdReleased]

@[simp] theorem stdReleased_stopstate (s : State) (id rate : Nat) :
    (stdReleased s id rate).p.phyStopstate = s.p.phyStopstate := by
  simp [stdReleased]

@[simp] theorem stdEnded_opInFlight (s : State) (id rate polls : Nat) (phase : DphyState) :
    (stdEnded s id rate polls phase).opInFlight = s.opInFlight := by
  simp [stdEnded, stdReleased, polledState]

/-- What the standard path leaves once it has released the lines: nothing but the two lines, range and clock, phase, trace and
result differ (R143, R144). -/
theorem stdEnded_eq (s : State) (id rate polls : Nat) (phase : DphyState) : stdEnded s id rate polls phase = { s with
    p := s.p.withLines s.cfg 1
    w := wSet s.cfg (wSet s.cfg s.w (.hsfreqrange id) (Config.hsfreqCode (rangeIndex rate)).toNat) (.enableclk id) 1
    dphy := phase, trace := (stdEnded s id rate polls phase).trace } := by
  apply State.eq_of_fields <;> simp [stdEnded, stdReleased, polledState, Bank.withLines, updState_w]

theorem stdEnded_wrote (s : State) (id rate polls : Nat) (phase : DphyState) :
    Wrote s (stdEnded s id rate polls phase) [.p .dphyRstz, .p .phyShutdownz,
      .w (wrapperPos s.cfg (.hsfreqrange id)).word, .w (wrapperPos s.cfg (.enableclk id)).word, .p .dphyRstz,
      .p .phyShutdownz] := by
  have hstart : Wrote s (s.setDphy .powerSequence) [] := Wrote.refl s
  have hlow := (hstart.upd (.p .rstz) 0).upd (.p .shutdownz) 0
  have hwrapper := (hlow.upd (.w (.hsfreqrange id)) (Config.hsfreqCode (rangeIndex rate)).toNat).upd (.w (.enableclk id)) 1
  simpa [stdEnded, stdReleased, fieldLoc, PField.reg] using
    ((((hwrapper.upd (.p .rstz) 1).upd (.p .shutdownz) 1).setDphy .waitStopState).polled polls).setDphy phase

/-- What the standard path has done once it released the lines, whatever end its wait has (R143, R144, R302). -/
structure StdProgrammed (id rate : Nat) (s t : State) : Prop where
  rest : t = { s with p := t.p, w := t.w, dphy := t.dphy, trace := t.trace, result := t.result }
  bank : Bank.SameBut s.p t.p [.dphyRstz, .phyShutdownz]
  rstz : t.p.dphyRstz = setField s.p.dphyRstz s.cfg.map.fRstz 1
  shutdownz : t.p.phyShutdownz = setField s.p.phyShutdownz s.cfg.map.fShutdownz 1
  w : t.w = wSet s.cfg (wSet s.cfg s.w (.hsfreqrange id) (Config.hsfreqCode (rangeIndex rate)).toNat) (.enableclk id) 1
  memory : SameMemory s t

theorem stdEnded_programmed (s : State) (id rate polls : Nat) (phase : DphyState) (r : Option Result) :
    StdProgrammed id rate s ((stdEnded s id rate polls phase).setResult r) := by
  rw [stdEnded_eq]
  exact ⟨rfl, s.p.sameBut_withLines s.cfg 1, rfl, rfl, rfl, fun _ => rfl⟩

section
variable {s : State} (h : Ready s) {id lanes rate : Nat} (hid : id < Config.numPhy) (h1 : 1 ≤ lanes) (h4 : lanes ≤ 4)
include h hid h1 h4

theorem exec_dphyPowerupStd_stopped (hr : 160 ≤ rate) (hs : ∀ b < lanes, s.p.phyStopstate.getLsbD b = true) :
    exec (.dphyPowerupStd id lanes rate) s = .next (completeOk .unit (stdEnded s id rate 1 .ready)) := by
  refine runConfig_okUnit_ran (body := dphyPowerupStd id lanes rate) h.idle.1 (by simpa using h.idle.1) ?_
  rw [dphyPowerupStd_open (h.isOpen.inFlight true) h.idle.2 hid h1 h4 hr, stdReleased_setInFlight,
    waitOrTimeout_stopped (by simpa using h.isOpen) (by simpa using h.idle.2) h1 h4 (by simpa using hs)]
  rfl

theorem exec_dphyPowerupStd_missing (hr : 160 ≤ rate) (hs : ∃ b < lanes, s.p.phyStopstate.getLsbD b = false) :
    exec (.dphyPowerupStd id lanes rate) s
      = .next (takeError .timeout (stdEnded s id rate Config.pollMax .errorTimeout)) := by
  refine runConfig_okUnit_failed (body := dphyPowerupStd id lanes rate) h.idle.1 (by simpa using h.idle.1) ?_
  rw [dphyPowerupStd_open (h.isOpen.inFlight true) h.idle.2 hid h1 h4 hr, stdReleased_setInFlight,
    waitOrTimeout_missing (by simpa using h.isOpen) (by simpa using h.idle.2) h1 h4 (by simpa using hs)]
  rfl

end

/-- Settles O26: selected or direct, the run is the standard path's. -/
theorem standardPowerupReachesReady : Obligations.StandardPowerupReachesReady := by
  unfold Obligations.StandardPowerupReachesReady
  intro s i id lanes rate h hid h1 h4 hr hs hi
  have hstd : exec i s = exec (.dphyPowerupStd id lanes rate) s := by
    rcases hi with rfl | ⟨rfl, rfl, hl, hrate, hpath⟩
    · rfl
    · rw [(powerupSelectsItsPath s).2 lanes rate hl hrate, if_neg]
      rintro ⟨h2, htpg⟩
      rcases hpath with hle | htrue
      · omega
      · simp [htpg] at htrue
  have hdone := stdEnded_programmed s id rate 1 .ready (some (.ok .unit))
  exact ⟨_, hstd.trans (exec_dphyPowerupStd_stopped h hid h1 h4 hr hs), rfl, rfl, hdone.rest, hdone.bank, hdone.rstz,
    hdone.shutdownz, hdone.w, (stdEnded_wrote s id rate 1 .ready).writtenSince, hdone.memory⟩

/-- The state in which a rate below the table ends the standard path: both lines low, the phase Reset (R143 steps 1 to 5). -/
def stdRefused (s : State) : State :=
  (updState (updState (s.setDphy .powerSequence) (.p .rstz) 0) (.p .shutdownz) 0).setDphy .reset

theorem stdRefused_eq (s : State) : stdRefused s =
    { s with p := s.p.withLines s.cfg 0, dphy := .reset, trace := (stdRefused s).trace } := by
  apply State.eq_of_fields <;> simp [stdRefused, Bank.withLines]

theorem stdRefused_setInFlight (s : State) (b : Bool) : stdRefused (s.setInFlight b) = (stdRefused s).setInFlight b := by
  simp only [stdRefused, setDphy_setInFlight, updState_setInFlight]

theorem dphyPowerupStd_tooLow {s : State} (ho : Open s) (hc : s.ctx = .config) {id lanes rate : Nat}
    (hid : id < Config.numPhy) (h1 : 1 ≤ lanes) (h4 : lanes ≤ 4) (hr : rate < 160) :
    dphyPowerupStd id lanes rate s = .err .invalidArgument (stdRefused s) := by
  simp [dphyPowerupStd, blocking_config hc, withPhy_ok hid, withLanes_ok h1 h4, wrapSetHsfreqrange_tooLow hid hr, ho,
    stdRefused]

/-- Settles O27: a rate below the table stops the path at its range step, a missing stop bit at its wait. -/
theorem standardPowerupFailures : Obligations.StandardPowerupFailures := by
  unfold Obligations.StandardPowerupFailures
  intro s id lanes rate h hid h1 h4
  refine ⟨fun hr => ?tooLow, fun hr hs => ?missing⟩
  case tooLow =>
    have heq := stdRefused_eq s
    have hrun : exec (.dphyPowerupStd id lanes rate) s = .next (takeError .invalidArgument (stdRefused s)) := by
      refine runConfig_okUnit_failed (body := dphyPowerupStd id lanes rate) h.idle.1 (by rw [heq]; exact h.idle.1) ?_
      rw [dphyPowerupStd_tooLow (h.isOpen.inFlight true) h.idle.2 hid h1 h4 hr, stdRefused_setInFlight]
    refine ⟨_, hrun, rfl, ?_⟩
    rw [heq]
    exact ⟨rfl, rfl, s.p.sameBut_withLines s.cfg 0, rfl, rfl, fun _ => rfl⟩
  case missing =>
    have hdone := stdEnded_programmed s id rate Config.pollMax .errorTimeout (some (.err .timeout))
    exact ⟨_, exec_dphyPowerupStd_missing h hid h1 h4 hr hs, rfl, rfl, hdone.rest, hdone.bank, hdone.rstz,
      hdone.shutdownz, hdone.w, hdone.memory⟩

/-! ## CMD_SET_LANE_RATE -/

/-- Settles O55: past its two checks the command is the power-up at the state with the new rate. -/
theorem laneRateCommandRunsThePowerup : Obligations.LaneRateCommandRunsThePowerup := by
  unfold Obligations.LaneRateCommandRunsThePowerup
  intro s a rate h hbridged
  have hcmd : bodyOf (.cmdSetLaneRate a rate) (s.setInFlight true) = okUnit (cmdSetLaneRate rate (s.setInFlight true)) :=
    if_neg (by simp [hbridged])
  have hpowerup : ∀ lanes, 0 < rate → s.inst.lanes = some lanes →
      exec (.cmdSetLaneRate a rate) s = exec .dphyPowerup (s.setInst { s.inst with laneRate := some rate }) := by
    intro lanes hr hl
    refine runConfig_congr (body := bodyOf (.cmdSetLaneRate a rate)) (body' := bodyOf .dphyPowerup) rfl (hcmd.trans ?_)
    rw [cmdSetLaneRate, if_neg (by omega), if_neg (by simp [hl])]
    rfl
  refine ⟨fun hbad => ?refused, hpowerup, fun lanes hr hl h1 h4 hid hpath hs => ?standard⟩
  case refused =>
    have herr : cmdSetLaneRate rate (s.setInFlight true) = .err .invalidArgument (s.setInFlight true) := by
      rw [cmdSetLaneRate]
      rcases hbad with hrate | hlanes
      · rw [if_pos hrate, raise_eq]
      · rw [if_pos (c := (s.setInFlight true).inst.lanes = none) hlanes, raise_eq, ite_self]
    exact runConfig_failed (body := bodyOf (.cmdSetLaneRate a rate)) h.idle.1 h.idle.1
      (hcmd.trans (congrArg okUnit herr))
  case standard =>
    have h' : Ready (s.setInst { s.inst with laneRate := some rate }) := ⟨h.legal, h.quiet, h.idle, h.powered⟩
    obtain ⟨t, hrun, hres, hphase, hrest, hbank, hrstz, hshutdownz, hw, -, hmem⟩ :=
      standardPowerupReachesReady (s.setInst { s.inst with laneRate := some rate }) .dphyPowerup s.inst.id lanes rate h' hid
        h1 h4 hr hs (.inr ⟨rfl, rfl, hl, rfl, hpath⟩)
    exact ⟨t, (hpowerup lanes (by omega) hl).trans hrun, hres, hphase, hrest, hbank, hrstz, hshutdownz, hw, hmem⟩

/-! ## One test-interface write -/

theorem dphyTestWrite_open {s : State} (ho : Open s) {id : Nat} (hid : id < Config.numPhy) (other : Bool) (code data : Nat) :
    dphyTestWrite id other code data s = .ok () (testWritten id ⟨other, code, BitVec.ofNat 8 data⟩ s) := by
  simp [dphyTestWrite, wrapTestcodeSelOtherPhy, wrapSetTestcode, withPhy_ok hid, ho, testWritten, mateOf]

theorem testWritten_setInFlight (id : Nat) (m : TestWrite) (s : State) (b : Bool) :
    testWritten id m (s.setInFlight b) = (testWritten id m s).setInFlight b := by
  simp only [testWritten, updState_setInFlight]
  rfl

@[simp] theorem testWritten_opInFlight (id : Nat) (m : TestWrite) (s : State) :
    (testWritten id m s).opInFlight = s.opInFlight := by
  simp [testWritten, storeTest]

/-- Settles O30: the one write is a list of one (`testWrites_done`). -/
theorem testWriteStoresOneByte : Obligations.TestWriteStoresOneByte := by
  unfold Obligations.TestWriteStoresOneByte
  intro s id other code data h hid target
  have hdone := testWrites_done id [⟨other, code, BitVec.ofNat 8 data⟩] s
  simp only [List.foldl_cons, List.foldl_nil] at hdone
  have hrun : exec (.dphyTestWrite id other code data) s =
      .next (completeOk .unit (testWritten id ⟨other, code, BitVec.ofNat 8 data⟩ s)) := by
    refine runConfig_okUnit_ran (body := dphyTestWrite id other code data) h.idle.1 (by simpa using h.idle.1) ?_
    rw [dphyTestWrite_open (h.isOpen.inFlight true) hid, testWritten_setInFlight]
  generalize testWritten id ⟨other, code, BitVec.ofNat 8 data⟩ s = u at hdone hrun
  have hmem : u.t = Memory.write s.draw s.t (testAddress s.cfg target code) (BitVec.ofNat 8 data) := hdone.memory
  have hdraw : u.draw = s.draw := by rw [hdone.rest]
  refine ⟨_, hrun, rfl, congrArg (completeOk .unit) hdone.rest, hdone.w, hdone.testTrace, fun hwf => ?written,
    fun a ha => ?others⟩ <;> simp only [completeOk, State.setResult_draw, State.setResult_t, hdraw, hmem]
  case written => exact ⟨Memory.read_write_same _ _ _ hwf, Memory.wf_write _ _ _ hwf⟩
  case others => exact Memory.read_write_ne _ _ _ a ha

/-! ## The merged path -/

/-- The state in which the merged path's waits start (R147 step 13); `guard` is what its guard read. -/
def mergedWaiting (s : State) (id rate : Nat) (guard : List Access) : State :=
  mergedReleased (s.cfg.mergeSeq.foldl (fun s m => testWritten id m s)
    (mergedProgrammed (s.setTrace (s.trace ++ guard)) id rate))

theorem foldl_testWritten_setInFlight (id : Nat) (l : List TestWrite) (s : State) (b : Bool) :
    l.foldl (fun s m => testWritten id m s) (s.setInFlight b) = (l.foldl (fun s m => testWritten id m s) s).setInFlight b := by
  induction l generalizing s with
  | nil => rfl
  | cons m l ih => rw [List.foldl_cons, List.foldl_cons, testWritten_setInFlight, ih]

theorem mergedWaiting_setInFlight (s : State) (id rate : Nat) (guard : List Access) (b : Bool) :
    mergedWaiting (s.setInFlight b) id rate guard = (mergedWaiting s id rate guard).setInFlight b := by
  have hprogrammed : mergedProgrammed ((s.setInFlight b).setTrace ((s.setInFlight b).trace ++ guard)) id rate
      = (mergedProgrammed (s.setTrace (s.trace ++ guard)) id rate).setInFlight b := by
    change mergedProgrammed ((s.setTrace (s.trace ++ guard)).setInFlight b) id rate = _
    simp only [mergedProgrammed, setDphy_setInFlight, updState_setInFlight]
  rw [mergedWaiting, hprogrammed, foldl_testWritten_setInFlight]
  simp only [mergedWaiting, mergedReleased, setDphy_setInFlight, updState_setInFlight, State.setInFlight_cfg]

theorem mergedProgrammed_eq (s : State) (id rate : Nat) : mergedProgrammed s id rate = { s with
    p := s.p.withLines s.cfg 0, x := s.x.withLines s.cfg 0
    w := wSet s.cfg (wSet s.cfg (wSet s.cfg s.w (.ctrlSel (id / 2)) 1)
      (.hsfreqrange (id - id % 2)) (Config.hsfreqCode (rangeIndex rate)).toNat)
      (.hsfreqrange (id - id % 2 + 1)) (Config.hsfreqCode (rangeIndex rate)).toNat
    dphy := .powerSequence, trace := (mergedProgrammed s id rate).trace } := by
  apply State.eq_of_fields <;> simp [mergedProgrammed, Bank.withLines, updState_w]

theorem mergedReleased_eq (s : State) : mergedReleased s = { s with
    p := s.p.withLines s.cfg 1, x := s.x.withLines s.cfg 1, dphy := .waitStopState, trace := (mergedReleased s).trace } := by
  apply State.eq_of_fields <;> simp [mergedReleased, Bank.withLines]

/-- The registers the merged path writes, in the fixed order (R147, R341). -/
def mergedWrites (c : Cfg) (id : Nat) : List Loc :=
  [.w (wrapperPos c (.ctrlSel (id / 2))).word, .p .dphyRstz, .x .dphyRstz, .p .phyShutdownz, .x .phyShutdownz,
    .w (wrapperPos c (.hsfreqrange (id - id % 2))).word, .w (wrapperPos c (.hsfreqrange (id - id % 2 + 1))).word] ++
  c.mergeSeq.flatMap (fun _ => [.w (wrapperPos c (.selOther id)).word, .w (wrapperPos c (.testcode id)).word]) ++
  [.p .dphyRstz, .x .dphyRstz, .p .phyShutdownz, .x .phyShutdownz]

/-- What the merged path has done once it released the lines, whatever end its waits have (R147, R148, R302). -/
structure MergedDone (id rate : Nat) (s t : State) : Prop where
  rest : t = { s with p := t.p, x := t.x, w := t.w, t := t.t, testTrace := t.testTrace, dphy := t.dphy, trace := t.trace,
                      result := t.result }
  p : t.p = s.p.withLines s.cfg 1
  x : t.x = s.x.withLines s.cfg 1
  w : t.w = s.cfg.mergeSeq.foldl
    (fun w m => wSet s.cfg (wSet s.cfg w (.selOther id) (if m.other then 1 else 0)) (.testcode id) m.code)
    (wSet s.cfg (wSet s.cfg (wSet s.cfg s.w (.ctrlSel (id / 2)) 1)
      (.hsfreqrange (id - id % 2)) (Config.hsfreqCode (rangeIndex rate)).toNat)
      (.hsfreqrange (id - id % 2 + 1)) (Config.hsfreqCode (rangeIndex rate)).toNat)
  testTrace : t.testTrace = s.testTrace ++
    s.cfg.mergeSeq.map fun m => ⟨if m.other then id ^^^ 1 else id, m.code % 2 ^ testcodeWidth s.cfg, m.data⟩
  memory : t.t = s.cfg.mergeSeq.foldl
    (fun mem m => Memory.write s.draw mem (testAddress s.cfg (if m.other then id ^^^ 1 else id) m.code) m.data) s.t
  wrote : Wrote s t (mergedWrites s.cfg id)

section
variable {id rate : Nat} {s t : State} (h : MergedDone id rate s t)
include h

theorem MergedDone.sameBut_p : Bank.SameBut s.p t.p [.dphyRstz, .phyShutdownz] := by
  rw [h.p]
  exact s.p.sameBut_withLines s.cfg 1

theorem MergedDone.sameBut_x : Bank.SameBut s.x t.x [.dphyRstz, .phyShutdownz] := by
  rw [h.x]
  exact s.x.sameBut_withLines s.cfg 1

theorem MergedDone.stopstate : t.p.phyStopstate = s.p.phyStopstate := by
  rw [h.p]
  rfl

/-- Bytes at other addresses than those of the test writes read as before. -/
theorem MergedDone.read_other {a : Nat}
    (ha : ∀ m ∈ s.cfg.mergeSeq, testAddress s.cfg (if m.other then id ^^^ 1 else id) m.code ≠ a) :
    Memory.read t.draw t.t a = Memory.read s.draw s.t a := by
  have hdraw : t.draw = s.draw := by rw [h.rest]
  rw [hdraw, h.memory]
  exact read_foldl_write s.cfg.mergeSeq _ _ s.t a ha

/-- The waits write no register and leave the test registers alone. -/
theorem MergedDone.ended (polls : Nat) (phase : DphyState) (r : Option Result) :
    MergedDone id rate s (((polledState t polls).setDphy phase).setResult r) :=
  { h with rest := by rw [h.rest]; rfl, wrote := h.wrote.polled polls }

theorem MergedDone.isOpen (hready : Ready s) : Open t := by
  rw [h.rest]
  exact hready.isOpen

theorem MergedDone.idle (hready : Ready s) : Idle t := by
  rw [h.rest]
  exact hready.idle

end

theorem mergedWaiting_wrote (s : State) (id rate : Nat) {guard : List Access} (hguard : guard.filterMap Access.written = []) :
    Wrote s (mergedWaiting s id rate guard) (mergedWrites s.cfg id) := by
  have hstart : Wrote s ((s.setTrace (s.trace ++ guard)).setDphy .powerSequence) [] := ⟨guard, rfl, hguard⟩
  have hlow := ((((hstart.upd (.w (.ctrlSel (id / 2))) 1).upd (.p .rstz) 0).upd (.x .rstz) 0).upd (.p .shutdownz) 0).upd
    (.x .shutdownz) 0
  have hprogrammed := (hlow.upd (.w (.hsfreqrange (id - id % 2))) (Config.hsfreqCode (rangeIndex rate)).toNat).upd
    (.w (.hsfreqrange (id - id % 2 + 1))) (Config.hsfreqCode (rangeIndex rate)).toNat
  have hwrites : Wrote _ _ _ :=
    (testWrites_done id s.cfg.mergeSeq (mergedProgrammed (s.setTrace (s.trace ++ guard)) id rate)).trace
  have hreleased := ((((hprogrammed.trans hwrites).upd (.p .rstz) 1).upd (.x .rstz) 1).upd (.p .shutdownz) 1).upd
    (.x .shutdownz) 1
  simpa [mergedWaiting, mergedReleased, mergedProgrammed, mergedWrites, fieldLoc, PField.reg] using
    hreleased.setDphy .waitStopState

theorem mergedWaiting_done (s : State) (id rate : Nat) {guard : List Access} (hguard : guard.filterMap Access.written = []) :
    MergedDone id rate s (mergedWaiting s id rate guard) := by
  have hwrites := testWrites_done id s.cfg.mergeSeq (mergedProgrammed (s.setTrace (s.trace ++ guard)) id rate)
  have hwrote := mergedWaiting_wrote s id rate hguard
  rw [mergedWaiting] at hwrote ⊢
  generalize s.cfg.mergeSeq.foldl (fun s m => testWritten id m s)
    (mergedProgrammed (s.setTrace (s.trace ++ guard)) id rate) = u at hwrites hwrote ⊢
  obtain ⟨hrest, hw, htest, hmem, -⟩ := hwrites
  rw [mergedProgrammed_eq] at hrest hw htest hmem
  have hcfg : u.cfg = s.cfg := by rw [hrest]; rfl
  have hp : u.p = s.p.withLines s.cfg 0 := by rw [hrest]; rfl
  have hx : u.x = s.x.withLines s.cfg 0 := by rw [hrest]; rfl
  rw [mergedReleased_eq] at hwrote
  rw [mergedReleased_eq, hp, hx, hcfg, Bank.withLines_withLines, Bank.withLines_withLines]
  refine ⟨?_, rfl, rfl, hw, htest, hmem, hwrote⟩
  rw [hrest]
  rfl

/-- The two waits and the phase of a path that ends well (R147 steps 13 to 17). -/
def mergedWaits (s : State) : Res Unit :=
  (waitOrTimeout 2 s).andThen fun _ s => (waitOrTimeout 4 s).andThen fun _ s => .ok () (s.setDphy .ready)

section
variable {s : State} (ho : Open s) (hc : s.ctx = .config)
include ho hc

theorem mergedWaits_stopped (hs : ∀ b < 4, s.p.phyStopstate.getLsbD b = true) :
    mergedWaits s = .ok () ((polledState s 2).setDphy .ready) := by
  rw [mergedWaits, waitOrTimeout_stopped ho hc (by omega) (by omega) fun b hb => hs b (by omega), Res.andThen_ok,
    waitOrTimeout_stopped (s := polledState s 1) ho hc (by omega) (by omega) hs, Res.andThen_ok, polledState_polledState]

/-- A bit missing among the first two ends the first wait, any other the second. -/
theorem mergedWaits_missing (hs : ∃ b < 4, s.p.phyStopstate.getLsbD b = false) :
    ∃ polls, mergedWaits s = .err .timeout ((polledState s polls).setDphy .errorTimeout) := by
  by_cases htwo : ∀ b < 2, s.p.phyStopstate.getLsbD b = true
  · refine ⟨1 + Config.pollMax, ?_⟩
    rw [mergedWaits, waitOrTimeout_stopped ho hc (by omega) (by omega) htwo, Res.andThen_ok,
      waitOrTimeout_missing (s := polledState s 1) ho hc (by omega) (by omega) hs, Res.andThen_err, polledState_polledState]
  · have hmissing : ∃ b < 2, s.p.phyStopstate.getLsbD b = false := by simpa using htwo
    refine ⟨Config.pollMax, ?_⟩
    rw [mergedWaits, waitOrTimeout_missing ho hc (by omega) (by omega) hmissing, Res.andThen_err]

end

/-- With a guard that passes and a rate in the table, the operation comes to its two waits. -/
theorem dphyPowerupMerged_waits {s : State} (h : Ready s) {id lanes rate : Nat} (hid : id < Config.numPhy) (h1 : 1 ≤ lanes)
    (h4 : lanes ≤ 4) (hr : 160 ≤ rate) (hg : id % 2 = 1 → wField s (.ctrlSel (id / 2)) ≠ 1) :
    ∃ u, MergedDone id rate s u ∧
      dphyPowerupMerged id lanes rate (s.setInFlight true) = mergedWaits (u.setInFlight true) := by
  obtain ⟨guard, hguard, hrun⟩ := dphyPowerupMerged_open (h.isOpen.inFlight true) h.idle.2 hid h1 h4 hr hg
  have hread : guard.filterMap Access.written = [] := by
    rcases hguard with rfl | ⟨v, rfl⟩ <;> rfl
  refine ⟨_, mergedWaiting_done s id rate hread, ?_⟩
  rw [hrun, ← mergedWaiting_setInFlight]
  rfl

/-- Settles O28: selected or direct, the run is the merged path's. -/
theorem mergedPowerupReachesReady : Obligations.MergedPowerupReachesReady := by
  unfold Obligations.MergedPowerupReachesReady
  intro s i id lanes rate h hid h3 h4 hr hg hs hi
  have hmerged : exec i s = exec (.dphyPowerupMerged id lanes rate) s := by
    rcases hi with rfl | ⟨rfl, rfl, hl, hrate, htpg⟩
    · rfl
    · rw [(powerupSelectsItsPath s).2 lanes rate hl hrate, if_pos ⟨by omega, htpg⟩]
  obtain ⟨u, hu, hbody⟩ := dphyPowerupMerged_waits h hid (by omega) h4 hr hg
  have hwaits := mergedWaits_stopped ((hu.isOpen h).inFlight true) (hu.idle h).2 (by rw [← hu.stopstate] at hs; exact hs)
  have hrun := runConfig_okUnit_ran (body := dphyPowerupMerged id lanes rate) (u := (polledState u 2).setDphy .ready)
    h.idle.1 (hu.idle h).1 (hbody.trans hwaits)
  have hdone := hu.ended 2 .ready (some (.ok .unit))
  exact ⟨_, hmerged.trans hrun, rfl, rfl, hdone.rest, hdone.sameBut_p, hdone.sameBut_x, congrArg Bank.dphyRstz hdone.p,
    congrArg Bank.dphyRstz hdone.x, congrArg Bank.phyShutdownz hdone.p, congrArg Bank.phyShutdownz hdone.x, hdone.w,
    hdone.testTrace, hdone.memory, fun _ ha => hdone.read_other ha, hdone.wrote.writtenSince⟩

/-! ## The failures of the merged path -/

theorem mergeGuard_busy {s : State} (ho : Open s) {id : Nat} (hid : id < Config.numPhy) (hodd : id % 2 = 1)
    (hmerged : wField s (.ctrlSel (id / 2)) = 1) :
    mergeGuard id s = .err .busy (readState s (.w (wrapperPos s.cfg (.ctrlSel (id / 2))).word)) := by
  rw [mergeGuard, if_pos hodd, wrapGetLaneMode_open ho hid, Res.andThen_ok, if_pos (decide_eq_true hmerged), raise_eq]

/-- The state in which a rate below the table ends the merged path: the pair merged, the lines of both banks low, the phase
Reset (R147 steps 2 to 7). -/
def mergedRefused (s : State) (id : Nat) : State :=
  (updState (updState (updState (updState (updState (s.setDphy .powerSequence) (.w (.ctrlSel (id / 2))) 1) (.p .rstz) 0)
    (.x .rstz) 0) (.p .shutdownz) 0) (.x .shutdownz) 0).setDphy .reset

theorem mergedRefused_eq (s : State) (id : Nat) : mergedRefused s id = { s with
    p := s.p.withLines s.cfg 0, x := s.x.withLines s.cfg 0, w := wSet s.cfg s.w (.ctrlSel (id / 2)) 1
    dphy := .reset, trace := (mergedRefused s id).trace } := by
  apply State.eq_of_fields <;> simp [mergedRefused, Bank.withLines, updState_w]

theorem mergedRefused_setInFlight (s : State) (id : Nat) (b : Bool) :
    mergedRefused (s.setInFlight b) id = (mergedRefused s id).setInFlight b := by
  simp only [mergedRefused, setDphy_setInFlight, updState_setInFlight]

theorem dphyPowerupMerged_tooLow {s : State} (ho : Open s) (hc : s.ctx = .config) {id lanes rate : Nat}
    (hid : id < Config.numPhy) (h1 : 1 ≤ lanes) (h4 : lanes ≤ 4) (hr : rate < 160)
    (hg : id % 2 = 1 → wField s (.ctrlSel (id / 2)) ≠ 1) :
    ∃ guard, dphyPowerupMerged id lanes rate s
      = .err .invalidArgument (mergedRefused (s.setTrace (s.trace ++ guard)) id) := by
  obtain ⟨guard, -, hpass⟩ := mergeGuard_pass ho hid hg
  have hmajor : majorOf id < Config.numPhy := Nat.lt_of_le_of_lt (Nat.sub_le _ _) hid
  refine ⟨guard, ?_⟩
  simp [dphyPowerupMerged, blocking_config hc, withPhy_ok hid, withLanes_ok h1 h4, hpass, wrapSetLaneMode, updBoth, pairOf, bit,
    wrapSetHsfreqrange_tooLow hmajor hr, ho, mergedRefused]

/-- A line driven low reads 0. -/
theorem getField_line_low {c : Cfg} (hc : LegalCfg c) (f : PField) (v : Word) :
    getField (setField v (fieldPos c f) 0) (fieldPos c f) = 0 :=
  (getField_setField_same v _ 0 (hc.fieldsFit (.p f))).trans (Nat.zero_mod _)

/-- Settles O29: the path stops at its guard, at the range of the first half, or at one of its waits. -/
theorem mergedPowerupRefusals : Obligations.MergedPowerupRefusals := by
  unfold Obligations.MergedPowerupRefusals
  intro s id lanes rate h hid h3 h4
  have h1 : 1 ≤ lanes := by omega
  have ho : Open (s.setInFlight true) := h.isOpen.inFlight true
  refine ⟨fun hodd hmerged => ?busy, fun hg hr => ?tooLow, fun hg hr hs => ?missing⟩
  case busy =>
    have hbody : dphyPowerupMerged id lanes rate (s.setInFlight true)
        = .err .busy ((readState s (.w (wrapperPos s.cfg (.ctrlSel (id / 2))).word)).setInFlight true) := by
      rw [dphyPowerupMerged, blocking_config (s := s.setInFlight true) h.idle.2, withPhy_ok hid, withLanes_ok h1 h4,
        mergeGuard_busy ho hid hodd hmerged, Res.andThen_err, readState_setInFlight, State.setInFlight_cfg]
    exact ⟨_, runConfig_okUnit_failed (body := dphyPowerupMerged id lanes rate)
      (u := readState s (.w (wrapperPos s.cfg (.ctrlSel (id / 2))).word)) h.idle.1 h.idle.1 hbody, rfl, rfl,
      writtenSince_append (readState_trace s _), fun _ => rfl⟩
  case tooLow =>
    obtain ⟨guard, hbody⟩ := dphyPowerupMerged_tooLow ho h.idle.2 hid h1 h4 hr hg
    have heq := mergedRefused_eq (s.setTrace (s.trace ++ guard)) id
    have hrun : exec (.dphyPowerupMerged id lanes rate) s
        = .next (takeError .invalidArgument (mergedRefused (s.setTrace (s.trace ++ guard)) id)) := by
      refine runConfig_okUnit_failed (body := dphyPowerupMerged id lanes rate) h.idle.1 (by rw [heq]; exact h.idle.1) ?_
      rw [hbody, ← mergedRefused_setInFlight]
      rfl
    refine ⟨_, hrun, rfl, ?_⟩
    rw [heq]
    exact ⟨rfl, rfl, rfl, s.p.sameBut_withLines s.cfg 0, s.x.sameBut_withLines s.cfg 0, getField_line_low h.legal .rstz _,
      getField_line_low h.legal .shutdownz _, getField_line_low h.legal .rstz _, getField_line_low h.legal .shutdownz _,
      fun _ => rfl⟩
  case missing =>
    obtain ⟨u, hu, hbody⟩ := dphyPowerupMerged_waits h hid h1 h4 hr hg
    obtain ⟨polls, hwaits⟩ := mergedWaits_missing ((hu.isOpen h).inFlight true) (hu.idle h).2
      (by rw [← hu.stopstate] at hs; exact hs)
    have hrun := runConfig_okUnit_failed (body := dphyPowerupMerged id lanes rate)
      (u := (polledState u polls).setDphy .errorTimeout) h.idle.1 (hu.idle h).1 (hbody.trans hwaits)
    have hdone := hu.ended polls .errorTimeout (some (.err .timeout))
    exact ⟨_, hrun, rfl, rfl, hdone.rest, hdone.sameBut_p, hdone.sameBut_x, congrArg Bank.dphyRstz hdone.p,
      congrArg Bank.dphyRstz hdone.x, congrArg Bank.phyShutdownz hdone.p, congrArg Bank.phyShutdownz hdone.x, hdone.w,
      hdone.testTrace, hdone.memory, fun _ ha => hdone.read_other ha⟩

end Sys2Proof.Machine
end

section
/-! SUPPORT. The timing calculator (O33 to O39; 43_timing.md R171 to R182): the receive bit clock as a multiple of rate and lanes,
the two formulas and their ranges, and each operation as the value it returns, which is all it leaves. -/

namespace Sys2Proof.Machine

/-! ## The receive bit clock -/

/-- Its division is exact (R173), so the clock is linear in `rate * lanes`. -/
theorem rxBitClk_eq (rate lanes : Nat) : rxBitClk rate lanes = 500000 * (rate * lanes) := by
  have heven : rate * 1000000 * lanes = 2 * (500000 * (rate * lanes)) := by ring
  rw [rxBitClk, heven, Nat.mul_div_cancel_left _ (by decide)]

/-- Settles O38: every bound is one on `rate * lanes`. -/
theorem receiveBitClockBounds : Obligations.ReceiveBitClockBounds := by
  unfold Obligations.ReceiveBitClockBounds
  refine ⟨fun rate lanes hrate hlanes _ => ?lower, rxBitClk_eq 2500 4, fun rate lanes hrate hlanes => ?upper⟩
  case lower =>
    have hpos : 0 < rate * lanes := Nat.mul_pos hrate hlanes
    have hcomm : rate * 1000000 * lanes = 1000000 * (rate * lanes) := by ring
    rw [rxBitClk_eq, hcomm]
    omega
  case upper =>
    have hle : rate * lanes ≤ 2500 * 4 := Nat.mul_le_mul hrate hlanes
    rw [rxBitClk_eq]
    omega

/-! ## The formulas -/

theorem clampNat_bounds {lo hi : Nat} (h : lo ≤ hi) (v : Nat) : lo ≤ clampNat v lo hi ∧ clampNat v lo hi ≤ hi :=
  ⟨le_min (le_max_right v lo) h, min_le_right _ _⟩

theorem clampNat_of_mem {v lo hi : Nat} (hlo : lo ≤ v) (hhi : v ≤ hi) : clampNat v lo hi = v := by
  rw [clampNat, max_eq_left hlo, min_eq_left hhi]

/-- The ranges of the register fields HSA, HBP and HSD (R181). -/
def Timing.InRange (v : Timing) : Prop :=
  (1 ≤ v.hsa ∧ v.hsa ≤ 0xfff) ∧ (1 ≤ v.hbp ∧ v.hbp ≤ 0xfff) ∧ 4 ≤ v.hsd ∧ v.hsd ≤ 0xfff

/-- RAW10 is the one format of which the spec gives both tables (R172), so its HSD is a number but for the default. -/
theorem legacyHsd_raw10 (c : Cfg) (width hsa hbp lanes rate pixclk : Nat) :
    legacyHsd c .raw10 width hsa hbp lanes rate pixclk =
      if 10 * width * pixclk / rxBitClk rate lanes - (hsa + hbp + (width + 2) / 3) = 0 then c.hsdDefault
      else 10 * width * pixclk / rxBitClk rate lanes - (hsa + hbp + (width + 2) / 3) := rfl

theorem legacyTiming_inRange (c : Cfg) (f : Format) (width hsa hbp lanes rate pixclk : Nat) :
    (legacyTiming c f width hsa hbp lanes rate pixclk).InRange :=
  ⟨clampNat_bounds (by decide) _, clampNat_bounds (by decide) _, clampNat_bounds (by decide) _⟩

/-- R178 on numbers: the part of `raw` above 4091 goes to HBP, of that the part above 4094 to HSA, up to 4094 again. -/
theorem redistribute_eq (raw : Nat) : redistribute raw =
    if raw ≤ 4091 then ⟨1, 1, raw + 4⟩
    else if raw - 4091 ≤ 4094 then ⟨1, raw - 4091 + 1, 4091 + 4⟩
    else if raw - 4091 - 4094 ≤ 4094 then ⟨raw - 4091 - 4094 + 1, 4094 + 1, 4091 + 4⟩
    else ⟨4094 + 1, 4094 + 1, 4091 + 4⟩ := by
  have hhsa : redistribute raw =
      if raw ≤ 4091 then ⟨1, 1, raw + 4⟩
      else if raw - 4091 ≤ 4094 then ⟨1, raw - 4091 + 1, 4091 + 4⟩
      else ⟨min (raw - 4091 - 4094) 4094 + 1, 4094 + 1, 4091 + 4⟩ := rfl
  rw [hhsa]
  by_cases hfull : raw - 4091 - 4094 ≤ 4094
  · rw [if_pos hfull, min_eq_left hfull]
  · rw [if_neg hfull, min_eq_right (Nat.le_of_not_le hfull)]

theorem redistribute_inRange (raw : Nat) : (redistribute raw).InRange := by
  rw [redistribute_eq, Timing.InRange]
  split_ifs <;> dsimp only <;> omega

/-! ## The operations -/

/-- An operation whose body returns a value without touching the state leaves its result alone. -/
theorem exec_returned {i : Instr} {s : State} {v : Value} (hi : i ≠ .irqHandle) (hs : Idle s)
    (hb : bodyOf i (s.setInFlight true) = .ok v (s.setInFlight true)) : exec i s = .next (completeOk v s) := by
  rw [exec_eq_body, if_neg hi, runConfig_ran hs.1 hs.1 hb]

/-- An operation whose body raises an error without touching the state leaves that error alone. -/
theorem exec_raised {i : Instr} {s : State} {e : Err} (hi : i ≠ .irqHandle) (hs : Idle s)
    (hb : bodyOf i (s.setInFlight true) = .err e (s.setInFlight true)) : exec i s = .next (takeError e s) := by
  rw [exec_eq_body, if_neg hi, runConfig_failed hs.1 hs.1 hb]

theorem formatOfCode_of_ge {fmt : Nat} (h : 6 ≤ fmt) : formatOfCode fmt = none := by
  obtain ⟨k, rfl⟩ := Nat.exists_eq_add_of_le' h
  rfl

section
variable {α : Type} {fmt : Nat} (body : Format → State → Res α) (s : State)

theorem withFormat_ok {f : Format} (h : formatOfCode fmt = some f) : withFormat fmt body s = body f s := by
  rw [withFormat, h]

theorem withFormat_unknown (h : 6 ≤ fmt) : withFormat fmt body s = .err .unsupported s := by
  rw [withFormat, formatOfCode_of_ge h, raise_eq]

end

theorem withTimingInputs_ok {α : Type} {s : State} {lanes rate : Nat} (h : TimingInputs s lanes rate)
    (body : Nat → Nat → State → Res α) : withTimingInputs body s = body lanes rate s := by
  obtain ⟨hlanes, hrate, hvalid⟩ := h
  simp only [withTimingInputs, hlanes, hrate, if_pos hvalid]

section
variable {s : State} {lanes rate : Nat} (ht : TimingInputs s lanes rate) {fmt : Nat}
include ht

theorem timHsdLegacy_ok {f : Format} (hf : formatOfCode fmt = some f) (width hsa hbp : Nat) :
    timHsdLegacy fmt width hsa hbp s = .ok (legacyTiming s.cfg f width hsa hbp lanes rate s.inst.pixclk) s := by
  rw [timHsdLegacy, withTimingInputs_ok ht, withFormat_ok _ _ hf, timHsdLegacyOf, withTimingInputs_ok ht]

theorem timHsdLegacy_unknown (h : 6 ≤ fmt) (width hsa hbp : Nat) :
    timHsdLegacy fmt width hsa hbp s = .err .unsupported s := by
  rw [timHsdLegacy, withTimingInputs_ok ht, withFormat_unknown _ _ h]

end

section
variable {s : State} (hs : Idle s)
include hs

theorem exec_timClassify {fmt : Nat} {f : Format} (hf : formatOfCode fmt = some f) :
    exec (.timClassify fmt) s = .next (completeOk (.format (classOf s.cfg f)) s) :=
  exec_returned nofun hs (congrArg (Res.mapValue · Value.format) (withFormat_ok _ _ hf))

theorem exec_timClassify_unknown {fmt : Nat} (h : 6 ≤ fmt) :
    exec (.timClassify fmt) s = .next (takeError .unsupported s) :=
  exec_raised nofun hs (congrArg (Res.mapValue · Value.format) (withFormat_unknown _ _ h))

variable {lanes rate : Nat} (ht : TimingInputs s lanes rate)
include ht

theorem exec_timHsdLegacy {fmt : Nat} {f : Format} (hf : formatOfCode fmt = some f) (width hsa hbp : Nat) :
    exec (.timHsdLegacy fmt width hsa hbp) s
      = .next (completeOk (.timing (legacyTiming s.cfg f width hsa hbp lanes rate s.inst.pixclk)) s) :=
  have ht' : TimingInputs (s.setInFlight true) lanes rate := ht
  exec_returned nofun hs (congrArg (Res.mapValue · Value.timing) (timHsdLegacy_ok ht' hf width hsa hbp))

theorem exec_timHsdLegacy_unknown {fmt : Nat} (h : 6 ≤ fmt) (width hsa hbp : Nat) :
    exec (.timHsdLegacy fmt width hsa hbp) s = .next (takeError .unsupported s) :=
  have ht' : TimingInputs (s.setInFlight true) lanes rate := ht
  exec_raised nofun hs (congrArg (Res.mapValue · Value.timing) (timHsdLegacy_unknown ht' h width hsa hbp))

theorem exec_timCutThrough :
    exec .timCutThrough s = .next (completeOk (.timing (cutThroughTiming s.cfg lanes rate s.inst.pixclk)) s) :=
  have ht' : TimingInputs (s.setInFlight true) lanes rate := ht
  exec_returned nofun hs (congrArg (Res.mapValue · Value.timing) (withTimingInputs_ok ht' _))

theorem exec_timPkt2pkt :
    exec .timPkt2pkt s = .next (completeOk (.nat (Config.pkt2pkt rate s.inst.pixclk 2)) s) :=
  have ht' : TimingInputs (s.setInFlight true) lanes rate := ht
  exec_returned nofun hs (congrArg (Res.mapValue · Value.nat) (withTimingInputs_ok ht' _))

end

/-! ## The statements -/

/-- Settles O34: the model's formula with its constants in place. -/
theorem legacyTimingFormula : Obligations.LegacyTimingFormula := by
  unfold Obligations.LegacyTimingFormula
  refine ⟨fun c width => ⟨rfl, rfl⟩, fun s fmt width hsa hbp lanes rate hs ht => ⟨fun f hf => ?_, fun h => ?_⟩⟩
  · exact exec_timHsdLegacy hs ht hf width hsa hbp
  · exact exec_timHsdLegacy_unknown hs ht h width hsa hbp

/-- Settles O35: the last two of its four cases are the two sides of the clamp of HSA (`redistribute_eq`). -/
theorem cutThroughTimingFormula : Obligations.CutThroughTimingFormula := by
  unfold Obligations.CutThroughTimingFormula
  intro s lanes rate hs ht
  have hrun := exec_timCutThrough hs ht
  rw [cutThroughTiming, redistribute_eq] at hrun
  exact hrun

/-- Settles O36: the clamps of the legacy formula, and the four cases of the redistribution. -/
theorem timingTriplesAreInRange : Obligations.TimingTriplesAreInRange := by
  unfold Obligations.TimingTriplesAreInRange
  refine fun s fmt width hsa hbp lanes rate hs ht => ⟨fun hfmt => ?legacy, ?cutThrough⟩
  case legacy =>
    obtain ⟨f, hf⟩ := formatOfCode_of_lt hfmt
    obtain ⟨⟨ha, ha'⟩, ⟨hb, hb'⟩, hd⟩ := legacyTiming_inRange s.cfg f width hsa hbp lanes rate s.inst.pixclk
    exact ⟨_, exec_timHsdLegacy hs ht hf width hsa hbp, ha, ha', hb, hb', hd⟩
  case cutThrough =>
    obtain ⟨⟨ha, ha'⟩, ⟨hb, hb'⟩, hd⟩ := redistribute_inRange (cutThroughRaw s.cfg.calMin lanes rate s.inst.pixclk)
    exact ⟨_, exec_timCutThrough hs ht, ha, ha', hb, hb', hd⟩

/-- Settles O33. -/
theorem classifyGivesTheFormatRow : Obligations.ClassifyGivesTheFormatRow := by
  unfold Obligations.ClassifyGivesTheFormatRow
  exact fun s hs => ⟨exec_timClassify (f := .raw8) hs rfl, exec_timClassify (f := .raw10) hs rfl,
    exec_timClassify (f := .raw12) hs rfl, exec_timClassify (f := .yuyv) hs rfl, exec_timClassify (f := .nv12) hs rfl,
    exec_timClassify (f := .rgb888) hs rfl, fun _ h => exec_timClassify_unknown hs h⟩

/-- Settles O37. -/
theorem pkt2pktIsTheOpenFunction : Obligations.Pkt2pktIsTheOpenFunction := by
  unfold Obligations.Pkt2pktIsTheOpenFunction
  exact fun s lanes rate hs ht => exec_timPkt2pkt hs ht

/-- Settles O39: in the first example the difference is 0 and the default stands, inside its range by hypothesis. -/
theorem timingWorkedExamples : Obligations.TimingWorkedExamples := by
  unfold Obligations.TimingWorkedExamples
  intro s hs hmin hmax
  refine ⟨fun ht hp => ?default, fun ht hp => ?difference, fun ht hp => ?clamped, fun ht hp hc => ?small,
    fun ht hp hc => ?large⟩
  case default =>
    rw [exec_timHsdLegacy hs ht (f := .raw10) rfl, hp, legacyTiming, legacyHsd_raw10, if_pos (by decide),
      clampNat_of_mem hmin hmax]
    rfl
  case difference =>
    rw [exec_timHsdLegacy hs ht (f := .raw10) rfl, hp, legacyTiming, legacyHsd_raw10, if_neg (by decide)]
    rfl
  case clamped =>
    rw [exec_timHsdLegacy hs ht (f := .raw10) rfl, hp, legacyTiming, legacyHsd_raw10, if_neg (by decide)]
    rfl
  case small =>
    have hvalue : redistribute (cutThroughRaw 4 4 2500 40000000) = ⟨1, 1, 8⟩ := by decide
    rw [exec_timCutThrough hs ht, cutThroughTiming, hp, hc, hvalue]
    rfl
  case large =>
    have hvalue : redistribute (cutThroughRaw 4 1 160 600000000) = ⟨1, 1, 488⟩ := by decide
    rw [exec_timCutThrough hs ht, cutThroughTiming, hp, hc, hvalue]
    rfl

end Sys2Proof.Machine
end

section
/-! SUPPORT. The channel operations that switch, select and set (O40, O41, O43, O44, O46; 44_ipi.md R200 to R210): a bridged
command is its operation, and each operation leaves one named state, whose registers its statement reads off. -/

namespace Sys2Proof.Machine

/-! ## Commands and refusals -/

/-- A command that is not native runs its operation (46_commands.md R270). -/
theorem command_bridged {s : State} (h : s.inst.isNative = false) (body : State → Res Unit) :
    command body s = runConfig (fun s => okUnit (body s)) s :=
  runConfig_congr rfl (if_neg (by simp [h]))

/-- An operation, or the bridged command that stands for it. -/
theorem exec_operation_or_command {s : State} {i op cmd : Instr} {body : State → Res Unit}
    (hop : exec op s = runConfig (fun s => okUnit (body s)) s) (hcmd : exec cmd s = command body s)
    (hi : i = op ∨ (s.inst.isNative = false ∧ i = cmd)) : exec i s = runConfig (fun s => okUnit (body s)) s := by
  rcases hi with rfl | ⟨hbridged, rfl⟩
  · exact hop
  · rw [hcmd, command_bridged hbridged]

theorem withChannel_withFormat_unknown {α : Type} {ch fmt : Nat} {s : State} (hch : ch < s.cfg.numInst - 1) (h : 6 ≤ fmt)
    (body : Format → State → Res α) : withChannel ch (withFormat fmt body) s = .err .unsupported s := by
  rw [withChannel_ok hch, withFormat_unknown _ _ h]

section
variable {s : State} (hidle : s.opInFlight = false) {ch : Nat}
include hidle

/-- An instruction whose body raises an error without touching the state leaves that error alone. -/
theorem exec_refused {i : Instr} {e : Err} (hi : i ≠ .irqHandle)
    (hb : bodyOf i (s.setInFlight true) = .err e (s.setInFlight true)) : exec i s = .next (takeError e s) := by
  rw [exec_eq_body, if_neg hi, runConfig_failed hidle hidle hb]

theorem exec_operation_badChannel (hbad : s.cfg.numInst - 1 ≤ ch) {i : Instr}
    (h : (∃ v e m, i = .ipiSetVcCfg ch v e m) ∨ (∃ w h f c a, i = .ipiInit ch w h f c a) ∨ i = .ipiStart ch ∨
      i = .ipiStop ch ∨ (∃ e, i = .ipiResetAndDown ch e) ∨ i = .ipiOverflowReset ch ∨ (∃ m, i = .ipiRegDump ch m) ∨
      ∃ m v0 v1 v2 v3 v4 v5 v6 v7, i = .ipiRegSet ch m v0 v1 v2 v3 v4 v5 v6 v7) :
    exec i s = .next (takeError .invalidArgument s) := by
  have refused : ∀ {i : Instr} {body : State → Res Unit}, i ≠ .irqHandle →
      bodyOf i = (fun u => okUnit (withChannel ch body u)) → exec i s = .next (takeError .invalidArgument s) :=
    fun hi hbody => exec_refused hidle hi
      ((congrFun hbody _).trans (congrArg okUnit (withChannel_bad (s := s.setInFlight true) hbad _)))
  rcases h with ⟨_, _, _, rfl⟩ | ⟨_, _, _, _, _, rfl⟩ | rfl | rfl | ⟨_, rfl⟩ | rfl | ⟨_, rfl⟩ |
    ⟨_, _, _, _, _, _, _, _, _, rfl⟩
  · exact refused nofun rfl
  · exact refused nofun rfl
  · exact refused nofun rfl
  · exact refused nofun rfl
  · exact refused nofun rfl
  · exact refused nofun rfl
  · exact exec_refused hidle nofun
      (congrArg (Res.mapValue · Value.dump) (withChannel_bad (s := s.setInFlight true) hbad _))
  · exact refused nofun rfl

theorem exec_command_badChannel (hbad : s.cfg.numInst - 1 ≤ ch) (hbridged : s.inst.isNative = false) {i : Instr}
    (h : (∃ v e m, i = .cmdSetVcCfg ch v e m) ∨ (∃ w h f, i = .cmdSetFormat ch w h f) ∨ ∃ b, i = .cmdSetState ch b) :
    exec i s = .next (takeError .invalidArgument s) := by
  have hop : ∀ body : State → Res Unit,
      withChannel ch body (s.setInFlight true) = .err .invalidArgument (s.setInFlight true) :=
    withChannel_bad (s := s.setInFlight true) hbad
  have refused : ∀ body : State → Res Unit, body (s.setInFlight true) = .err .invalidArgument (s.setInFlight true) →
      command body s = .next (takeError .invalidArgument s) := fun body hb => by
    rw [command_bridged hbridged, runConfig_okUnit_failed hidle hidle hb]
  rcases h with ⟨v, e, m, rfl⟩ | ⟨_, _, _, rfl⟩ | ⟨b, rfl⟩
  · refine refused (cmdSetVcCfg ch v e m) ?_
    unfold cmdSetVcCfg
    split
    · exact hop _
    · rfl
  · exact refused _ (hop _)
  · refine refused (cmdSetState ch b) ?_
    unfold cmdSetState
    split <;> exact hop _

end

/-- Settles O46: the channel is checked first, and then the format, before any access. -/
theorem badChannelIsRejectedBeforeAnyAccess : Obligations.BadChannelIsRejectedBeforeAnyAccess := by
  unfold Obligations.BadChannelIsRejectedBeforeAnyAccess
  refine fun s ch hidle => ⟨fun hbad i hi => ?channel, fun hch width height fmt cut adv hfmt => ⟨?operation, fun hb => ?command⟩⟩
  case channel =>
    simp only [← or_assoc] at hi
    rcases hi with hi | ⟨hbridged, hi⟩
    · exact exec_operation_badChannel hidle hbad (by simpa only [or_assoc] using hi)
    · exact exec_command_badChannel hidle hbad hbridged (by simpa only [or_assoc] using hi)
  case operation =>
    exact exec_refused hidle nofun (congrArg okUnit (withChannel_withFormat_unknown (s := s.setInFlight true) hch hfmt _))
  case command =>
    show command (cmdSetFormat ch width height fmt) s = _
    rw [command_bridged hb]
    exact runConfig_okUnit_failed (body := cmdSetFormat ch width height fmt) hidle hidle
      (withChannel_withFormat_unknown (s := s.setInFlight true) hch hfmt _)

/-! ## What an operation leaves -/

@[simp] theorem completeOk_p (v : Value) (s : State) : (completeOk v s).p = s.p := rfl

section
variable {s u : State} {regs : List PReg}

theorem onlyP_done (hrest : u = { s with p := u.p, trace := u.trace }) (hbank : Bank.SameBut s.p u.p regs) (v : Value) :
    OnlyP s (completeOk v u) regs where
  rest := congrArg (completeOk v) hrest
  bank := hbank
  memory := fun a => congrArg (fun w => Memory.read w.draw w.t a) hrest

/-- An operation that leaves one channel in a phase, beside registers of P. -/
theorem onlyPAndPhase_done {ch : Nat} {phase : ChState}
    (hrest : u = { s with p := u.p, ch := tblPut .disabled s.ch ch phase, trace := u.trace })
    (hbank : Bank.SameBut s.p u.p regs) (v : Value) :
    OnlyPAndPhase s (completeOk v u) ch regs ∧ phaseOf (completeOk v u) ch = phase := by
  have hphase : ∀ k, phaseOf (completeOk v u) k = if k = ch then phase else phaseOf s k := fun k => by
    have hch : u.ch = tblPut .disabled s.ch ch phase := congrArg State.ch hrest
    show tblGet _ u.ch k = _
    rw [hch, tblGet_tblPut]
    rfl
  refine ⟨⟨?rest, hbank, fun k hk => ?others, fun a => ?memory⟩, ?own⟩
  case rest =>
    rw [hrest]
    rfl
  case others => rw [hphase, if_neg hk]
  case memory => exact congrArg (fun w => Memory.read w.draw w.t a) hrest
  case own => rw [hphase, if_pos rfl]

end

theorem setPhase_setInFlight (s : State) (ch : Nat) (v : ChState) (b : Bool) :
    setPhase ch v (s.setInFlight b) = (setPhase ch v s).setInFlight b := rfl

/-! ## IPI_SET_VC_CFG -/

/-- The state after the three fields of IPI_SET_VC_CFG (R201). -/
def vcCfgWritten (ch vcId : Nat) (embEn : Bool) (mode : VcMode) (s : State) : State :=
  updState (updState (updState s (.p (.vcid ch)) vcId) (.p (.embEn ch)) (bit embEn)) (.p (.ctrlMode ch))
    (bit (decide (mode = .ctrl)))

section
variable (ch vcId : Nat) (embEn : Bool) (mode : VcMode) (s : State)

theorem vcCfgWritten_setInFlight (b : Bool) :
    vcCfgWritten ch vcId embEn mode (s.setInFlight b) = (vcCfgWritten ch vcId embEn mode s).setInFlight b := by
  simp only [vcCfgWritten, updState_setInFlight]

theorem vcCfgWritten_rest : vcCfgWritten ch vcId embEn mode s = { s with
    p := (vcCfgWritten ch vcId embEn mode s).p, trace := (vcCfgWritten ch vcId embEn mode s).trace } := by
  apply State.eq_of_fields <;> simp [vcCfgWritten]

theorem vcCfgWritten_get (r : PReg) : (vcCfgWritten ch vcId embEn mode s).p.get r =
    if r = .ipi ch .vcid then setField (s.p.get r) s.cfg.map.fVcid vcId
    else if r = .ipi ch .dataType then setField (s.p.get r) s.cfg.map.fEmbEn (bit embEn)
    else if r = .ipi ch .mode then setField (s.p.get r) s.cfg.map.fCtrlMode (bit (decide (mode = .ctrl)))
    else s.p.get r := by
  simp only [vcCfgWritten, updState_p_get, updState_cfg, PField.reg, fieldPos]
  split_ifs <;> simp_all [storedValue]

end

theorem ipiSetVcCfg_open {s : State} (ho : Open s) {ch vcId : Nat} {embEn : Bool} {mode : VcMode}
    (hch : ch < s.cfg.numInst - 1) (hmode : mode = .ctrl → ch = 0) :
    ipiSetVcCfg ch vcId embEn mode s = .ok () (vcCfgWritten ch vcId embEn mode s) := by
  rw [ipiSetVcCfg, withChannel_ok hch, if_neg fun h => h.2 (hmode h.1)]
  simp [ho, vcCfgWritten]

/-- With a word of the enum the operation, and the bridged command, is `set_vc_cfg` (R94, R201, R271). -/
theorem exec_setVcCfg {s : State} {i : Instr} {ch vcId code : Nat} {embEn : Bool} {mode : VcMode} (hch : PixelChannel s ch)
    (hmode : vcModeOfCode code = some mode)
    (hi : i = .ipiSetVcCfg ch vcId embEn code ∨ (s.inst.isNative = false ∧ i = .cmdSetVcCfg ch vcId embEn code)) :
    exec i s = runConfig (fun s => okUnit (ipiSetVcCfg ch vcId embEn mode s)) s := by
  refine exec_operation_or_command ?_ ?_ hi
  · exact runConfig_congr (body := bodyOf (.ipiSetVcCfg ch vcId embEn code)) rfl
      (congrArg okUnit (ipiSetVcCfgWord_mode (s := s.setInFlight true) hch hmode))
  · have hbody : cmdSetVcCfg ch vcId embEn code = ipiSetVcCfg ch vcId embEn mode := funext fun u => by rw [cmdSetVcCfg, hmode]
    exact congrArg (command · s) hbody

/-- Settles O40: the three fields lie in three registers, so each update is read back as it was written. -/
theorem setVcCfgWritesTheChannel : Obligations.SetVcCfgWritesTheChannel := by
  unfold Obligations.SetVcCfgWritesTheChannel
  intro s i ch vcId embEn ctrl h hch hctrl hi
  let mode : VcMode := if ctrl then .ctrl else .camera
  have hcode : vcModeOfCode (if ctrl then 1 else 0) = some mode := by cases ctrl <;> rfl
  have hmode : mode = .ctrl → ch = 0 := fun hm => hctrl (by cases ctrl <;> simp_all [mode])
  have hbit : bit (decide (mode = .ctrl)) = if ctrl then 1 else 0 := by cases ctrl <;> rfl
  have hrun : exec i s = .next (completeOk .unit (vcCfgWritten ch vcId embEn mode s)) := by
    rw [exec_setVcCfg hch hcode hi]
    refine runConfig_okUnit_ran (body := ipiSetVcCfg ch vcId embEn mode) h.idle.1
      (by rw [vcCfgWritten_rest]; exact h.idle.1) ?_
    rw [ipiSetVcCfg_open (h.isOpen.inFlight true) hch hmode, vcCfgWritten_setInFlight]
  have hget := vcCfgWritten_get ch vcId embEn mode s
  refine ⟨_, hrun, rfl, onlyP_done (vcCfgWritten_rest ..) (fun r hr => ?_) .unit, ?_, ?_, ?_⟩
  · simp only [List.mem_cons, List.not_mem_nil, or_false, not_or] at hr
    rw [hget, if_neg hr.1, if_neg hr.2.1, if_neg hr.2.2]
  · simpa using hget (.ipi ch .vcid)
  · simpa [bit] using hget (.ipi ch .dataType)
  · simpa [hbit] using hget (.ipi ch .mode)

/-- The state after an update that is left free (R202). -/
def maybeUpdState (s : State) (f : PField) (n : Nat) : State :=
  if chooseFree s then updState (s.setChoice (s.choice + 1)) (.p f) n else s.setChoice (s.choice + 1)

section
variable (s : State) (f : PField) (n : Nat)

theorem maybeUpdState_cases : maybeUpdState s f n = updState (s.setChoice (s.choice + 1)) (.p f) n ∨
    maybeUpdState s f n = s.setChoice (s.choice + 1) := by
  unfold maybeUpdState
  split
  · exact .inl rfl
  · exact .inr rfl

theorem maybeUpdState_setInFlight (b : Bool) :
    maybeUpdState (s.setInFlight b) f n = (maybeUpdState s f n).setInFlight b := by
  have hfree : chooseFree (s.setInFlight b) = chooseFree s := rfl
  rw [maybeUpdState, hfree, maybeUpdState]
  split <;> rfl

theorem maybeUpdState_rest : maybeUpdState s f n = { s with
    p := (maybeUpdState s f n).p, choice := s.choice + 1, trace := (maybeUpdState s f n).trace } := by
  rcases maybeUpdState_cases s f n with h | h <;> rw [h] <;> rfl

theorem maybeUpdState_get_other {r : PReg} (hr : r ≠ f.reg) : (maybeUpdState s f n).p.get r = s.p.get r := by
  rcases maybeUpdState_cases s f n with h | h <;> rw [h]
  · rw [updState_p_get, if_neg hr]
    rfl
  · rfl

/-- A field left free holds its old or its new value. -/
theorem maybeUpdState_get_own : (maybeUpdState s f n).p.get f.reg = s.p.get f.reg ∨
    (maybeUpdState s f n).p.get f.reg = storedValue s.cfg f.reg (setField (s.p.get f.reg) (fieldPos s.cfg f) n) := by
  rcases maybeUpdState_cases s f n with h | h <;> rw [h]
  · exact .inr ((updState_p_get ..).trans (if_pos rfl))
  · exact .inl rfl

end

theorem maybeUpd_open {s : State} (ho : Open s) (f : PField) (n : Nat) :
    maybeUpd (.p f) n s = .ok () (maybeUpdState s f n) ∧ Open (maybeUpdState s f n) := by
  unfold maybeUpd maybeUpdState
  split
  · exact ⟨upd_open ((open_setChoice s _).mpr ho) _ _, by simpa using ho⟩
  · exact ⟨rfl, ho⟩

/-- The state CTRL on a channel other than 0 leaves: `vcid` and `emb_en` old or new (R202 (a)). -/
def vcCfgRefused (ch vcId : Nat) (embEn : Bool) (s : State) : State :=
  maybeUpdState (maybeUpdState s (.vcid ch) vcId) (.embEn ch) (bit embEn)

theorem ipiSetVcCfg_refused {s : State} (ho : Open s) {ch vcId : Nat} {embEn : Bool} (hch : ch < s.cfg.numInst - 1)
    (h0 : ch ≠ 0) : ipiSetVcCfg ch vcId embEn .ctrl s = .err .invalidArgument (vcCfgRefused ch vcId embEn s) := by
  obtain ⟨hvcid, ho'⟩ := maybeUpd_open ho (.vcid ch) vcId
  rw [ipiSetVcCfg, withChannel_ok hch, if_pos ⟨rfl, h0⟩, hvcid, Res.andThen_ok, (maybeUpd_open ho' _ _).1, Res.andThen_ok,
    raise_eq]
  rfl

section
variable (ch vcId : Nat) (embEn : Bool) (s : State)

theorem vcCfgRefused_setInFlight (b : Bool) :
    vcCfgRefused ch vcId embEn (s.setInFlight b) = (vcCfgRefused ch vcId embEn s).setInFlight b := by
  simp only [vcCfgRefused, maybeUpdState_setInFlight]

theorem vcCfgRefused_rest : vcCfgRefused ch vcId embEn s = { s with
    p := (vcCfgRefused ch vcId embEn s).p, choice := (vcCfgRefused ch vcId embEn s).choice
    trace := (vcCfgRefused ch vcId embEn s).trace } := by
  unfold vcCfgRefused
  rw [maybeUpdState_rest (maybeUpdState s (.vcid ch) vcId), maybeUpdState_rest s]

theorem vcCfgRefused_get_vcid : (vcCfgRefused ch vcId embEn s).p.get (.ipi ch .vcid) = s.p.get (.ipi ch .vcid) ∨
    (vcCfgRefused ch vcId embEn s).p.get (.ipi ch .vcid) = setField (s.p.get (.ipi ch .vcid)) s.cfg.map.fVcid vcId := by
  have hkept := maybeUpdState_get_other (maybeUpdState s (.vcid ch) vcId) (.embEn ch) (bit embEn) (r := .ipi ch .vcid) nofun
  unfold vcCfgRefused
  rw [hkept]
  exact maybeUpdState_get_own s (.vcid ch) vcId

theorem vcCfgRefused_get_dataType :
    (vcCfgRefused ch vcId embEn s).p.get (.ipi ch .dataType) = s.p.get (.ipi ch .dataType) ∨
    (vcCfgRefused ch vcId embEn s).p.get (.ipi ch .dataType)
      = setField (s.p.get (.ipi ch .dataType)) s.cfg.map.fEmbEn (bit embEn) := by
  have hkept := maybeUpdState_get_other s (.vcid ch) vcId (r := .ipi ch .dataType) nofun
  have hcfg : (maybeUpdState s (.vcid ch) vcId).cfg = s.cfg := by rw [maybeUpdState_rest]
  have hown := maybeUpdState_get_own (maybeUpdState s (.vcid ch) vcId) (.embEn ch) (bit embEn)
  rw [hcfg] at hown
  simp only [PField.reg, hkept] at hown
  exact hown

end

/-- A word of the enum is 0 or 1 (R94). -/
theorem vcModeOfCode_of_ge {code : Nat} (h : 2 ≤ code) : vcModeOfCode code = none := by
  obtain ⟨k, rfl⟩ := Nat.exists_eq_add_of_le' h
  rfl

/-- CTRL on a channel other than 0 (R202). -/
theorem exec_setVcCfg_refused {s : State} {i : Instr} {ch vcId : Nat} {embEn : Bool} (h : Ready s) (hch : PixelChannel s ch)
    (h0 : ch ≠ 0) (hi : i = .ipiSetVcCfg ch vcId embEn 1 ∨ (s.inst.isNative = false ∧ i = .cmdSetVcCfg ch vcId embEn 1)) :
    exec i s = .next (takeError .invalidArgument (vcCfgRefused ch vcId embEn s)) := by
  rw [exec_setVcCfg hch (mode := .ctrl) rfl hi]
  refine runConfig_okUnit_failed (body := ipiSetVcCfg ch vcId embEn .ctrl) h.idle.1
    (by rw [vcCfgRefused_rest]; exact h.idle.1) ?_
  rw [ipiSetVcCfg_refused (h.isOpen.inFlight true) hch h0, vcCfgRefused_setInFlight]

/-- Settles O41. A word outside the enum is the word of the free mode, one choice later, and every mode of the enum ends in a
next state: CTRL off channel 0 in the error, the others as O40 says. -/
theorem ctrlModeOnlyOnChannelZero : Obligations.CtrlModeOnlyOnChannelZero := by
  unfold Obligations.CtrlModeOnlyOnChannelZero
  refine fun s i ch vcId embEn h hch => ⟨fun h0 hi => ?refused, fun code hcode hbridged => ?command, fun code hcode => ?free⟩
  case refused =>
    have hrest := vcCfgRefused_rest ch vcId embEn s
    refine ⟨_, exec_setVcCfg_refused h hch h0 hi, rfl, congrArg (takeError .invalidArgument) hrest, fun r hr => ?_,
      vcCfgRefused_get_vcid ch vcId embEn s, vcCfgRefused_get_dataType ch vcId embEn s,
      fun a => congrArg (fun u => Memory.read u.draw u.t a) hrest⟩
    simp only [List.mem_cons, List.not_mem_nil, or_false, not_or] at hr
    exact (maybeUpdState_get_other _ _ _ hr.2).trans (maybeUpdState_get_other _ _ _ hr.1)
  case command =>
    refine (command_bridged hbridged _).trans (runConfig_okUnit_failed h.idle.1 h.idle.1 ?_)
    rw [cmdSetVcCfg, vcModeOfCode_of_ge hcode, raise_eq]
  case free =>
    let ctrl : Bool := chooseFree s
    have h' : Ready { s with choice := s.choice + 1 } := ⟨h.legal, h.quiet, h.idle, h.powered⟩
    have hsame : exec (.ipiSetVcCfg ch vcId embEn code) s
        = exec (.ipiSetVcCfg ch vcId embEn (if ctrl then 1 else 0)) { s with choice := s.choice + 1 } := by
      have hmode : vcModeOfCode (if ctrl then 1 else 0) = some (if ctrl then .ctrl else .camera) := by cases ctrl <;> rfl
      refine Eq.trans ?_ (exec_setVcCfg (s := s.setChoice (s.choice + 1)) hch hmode (.inl rfl)).symm
      exact runConfig_congr (body := bodyOf (.ipiSetVcCfg ch vcId embEn code)) rfl
        (congrArg okUnit (ipiSetVcCfgWord_free (s := s.setInFlight true) hch (vcModeOfCode_of_ge hcode)))
    obtain ⟨t, ht⟩ : ∃ t, exec (.ipiSetVcCfg ch vcId embEn (if ctrl then 1 else 0)) { s with choice := s.choice + 1 }
        = .next t := by
      by_cases hbad : ctrl = true ∧ ch ≠ 0
      · rw [if_pos hbad.1]
        exact ⟨_, exec_setVcCfg_refused h' hch hbad.2 (.inl rfl)⟩
      · obtain ⟨t, ht, -⟩ := setVcCfgWritesTheChannel { s with choice := s.choice + 1 } _ ch vcId embEn ctrl h' hch
          (fun hctrl => by simpa [hctrl] using hbad) (.inl rfl)
        exact ⟨t, ht⟩
    exact ⟨_, t, by cases ctrl <;> simp, hsame.trans ht, ht⟩

/-! ## IPI_RESET_AND_DOWN -/

/-- The state after IPI_RESET_AND_DOWN: released and enabled, or disabled and held (R210). -/
def resetAndDownState (ch : Nat) (enable : Bool) (s : State) : State :=
  if enable then setPhase ch .enabled (updState (updState s (.p (.softrstn ch)) 1) (.p (.enable ch)) 1)
  else setPhase ch .disabled (updState (updState s (.p (.enable ch)) 0) (.p (.softrstn ch)) 0)

theorem ipiResetAndDown_open {s : State} (ho : Open s) {ch : Nat} (hch : ch < s.cfg.numInst - 1) (enable : Bool) :
    ipiResetAndDown ch enable s = .ok () (resetAndDownState ch enable s) := by
  rw [ipiResetAndDown, withChannel_ok hch]
  cases enable <;> simp [ho, resetAndDownState]

section
variable (ch : Nat) (enable : Bool) (s : State)

theorem resetAndDownState_setInFlight (b : Bool) :
    resetAndDownState ch enable (s.setInFlight b) = (resetAndDownState ch enable s).setInFlight b := by
  cases enable <;> simp only [resetAndDownState, updState_setInFlight, setPhase_setInFlight] <;> rfl

theorem resetAndDownState_rest : resetAndDownState ch enable s = { s with
    p := (resetAndDownState ch enable s).p, ch := tblPut .disabled s.ch ch (if enable then .enabled else .disabled)
    trace := (resetAndDownState ch enable s).trace } := by
  cases enable <;> apply State.eq_of_fields <;> simp [resetAndDownState, setPhase]

theorem resetAndDownState_get (r : PReg) : (resetAndDownState ch enable s).p.get r =
    if r = .ipiSoftrstn then setField (s.p.get r) (fieldPos s.cfg (.softrstn ch)) (bit enable)
    else if r = .ipi ch .mode then setField (s.p.get r) s.cfg.map.fEnable (bit enable)
    else s.p.get r := by
  cases enable <;>
    simp only [resetAndDownState, bit, Bool.false_eq_true, if_false, if_true, setPhase_p, updState_p_get, updState_cfg,
      PField.reg] <;>
    split_ifs <;> simp_all [storedValue, fieldPos]

theorem resetAndDownState_wrote : Wrote s (resetAndDownState ch enable s)
    (if enable then [.p .ipiSoftrstn, .p (.ipi ch .mode)] else [.p (.ipi ch .mode), .p .ipiSoftrstn]) := by
  cases enable
  · exact ((Wrote.refl s).upd (.p (.enable ch)) 0).upd (.p (.softrstn ch)) 0
  · exact ((Wrote.refl s).upd (.p (.softrstn ch)) 1).upd (.p (.enable ch)) 1

end

/-- What the operation leaves, in either direction. -/
theorem exec_ipiResetAndDown {s : State} {ch : Nat} (h : Ready s) (hch : PixelChannel s ch) (enable : Bool) :
    ∃ t, exec (.ipiResetAndDown ch enable) s = .next t ∧ t.result = some (.ok .unit) ∧
      OnlyPAndPhase s t ch [.ipiSoftrstn, .ipi ch .mode] ∧ phaseOf t ch = (if enable then .enabled else .disabled) ∧
      t.p.ipiSoftrstn = setField s.p.ipiSoftrstn (fieldPos s.cfg (.softrstn ch)) (bit enable) ∧
      t.p.get (.ipi ch .mode) = setField (s.p.get (.ipi ch .mode)) s.cfg.map.fEnable (bit enable) ∧
      writtenSince s t = (if enable then [.p .ipiSoftrstn, .p (.ipi ch .mode)] else [.p (.ipi ch .mode), .p .ipiSoftrstn]) := by
  have hrun : exec (.ipiResetAndDown ch enable) s = .next (completeOk .unit (resetAndDownState ch enable s)) := by
    refine runConfig_okUnit_ran (body := ipiResetAndDown ch enable) h.idle.1
      (by rw [resetAndDownState_rest]; exact h.idle.1) ?_
    rw [ipiResetAndDown_open (h.isOpen.inFlight true) hch, resetAndDownState_setInFlight]
  have hget := resetAndDownState_get ch enable s
  obtain ⟨hframe, hphase⟩ := onlyPAndPhase_done (regs := [.ipiSoftrstn, .ipi ch .mode]) (resetAndDownState_rest ch enable s)
    (fun r hr => by
      simp only [List.mem_cons, List.not_mem_nil, or_false, not_or] at hr
      rw [hget, if_neg hr.1, if_neg hr.2]) .unit
  exact ⟨_, hrun, rfl, hframe, hphase, hget .ipiSoftrstn, by simpa using hget (.ipi ch .mode),
    (resetAndDownState_wrote ch enable s).writtenSince⟩

/-- Settles O44. -/
theorem resetAndDownIsSymmetric : Obligations.ResetAndDownIsSymmetric := by
  unfold Obligations.ResetAndDownIsSymmetric
  exact fun s ch h hch => ⟨exec_ipiResetAndDown h hch true, exec_ipiResetAndDown h hch false⟩

/-! ## IPI_START and IPI_STOP -/

/-- The state after the optional steps of start and stop (R207, R208 steps 3 and 4). -/
def optionalSwitched (n : Nat) (s : State) : State :=
  let u := if s.inst.tpgEnabled then updState s (.p .tpgEn) n else s
  if s.inst.bypass then updState u (.p .bypassEn) n else u

theorem switchOptional_open {s : State} (ho : Open s) (n : Nat) : switchOptional n s = .ok () (optionalSwitched n s) := by
  unfold switchOptional optionalSwitched
  cases htpg : s.inst.tpgEnabled <;> cases hbypass : s.inst.bypass <;> simp [ho, hbypass]

section
variable (n : Nat) (s : State)

theorem optionalSwitched_setInFlight (b : Bool) :
    optionalSwitched n (s.setInFlight b) = (optionalSwitched n s).setInFlight b := by
  cases htpg : s.inst.tpgEnabled <;> cases hbypass : s.inst.bypass <;>
    simp [optionalSwitched, htpg, hbypass, updState_setInFlight]

theorem optionalSwitched_rest : optionalSwitched n s =
    { s with p := (optionalSwitched n s).p, trace := (optionalSwitched n s).trace } := by
  unfold optionalSwitched
  split <;> split <;> rfl

theorem optionalSwitched_get (r : PReg) : (optionalSwitched n s).p.get r =
    if r = .tpgEnable ∧ s.inst.tpgEnabled = true then setField (s.p.get r) s.cfg.map.fTpgEn n
    else if r = .idiBypass ∧ s.inst.bypass = true then setField (s.p.get r) s.cfg.map.fBypassEn n
    else s.p.get r := by
  cases htpg : s.inst.tpgEnabled <;> cases hbypass : s.inst.bypass <;>
    simp only [optionalSwitched, htpg, hbypass, Bool.false_eq_true, if_false, if_true, and_true, and_false, updState_p_get,
      updState_cfg, PField.reg] <;>
    split_ifs <;> simp_all [storedValue, fieldPos]

end

/-- The state after IPI_START (R207). -/
def startedState (ch : Nat) (s : State) : State :=
  setPhase ch .enabled (optionalSwitched 1 (updState s (.p (.enable ch)) 1))

/-- The state after IPI_STOP (R208). -/
def stoppedState (ch : Nat) (s : State) : State :=
  setPhase ch .disabled (updState (optionalSwitched 0 (updState s (.p (.enable ch)) 0)) (.p .resetn) 0)

theorem open_optionalSwitched (n : Nat) (s : State) : Open (optionalSwitched n s) ↔ Open s := by
  rw [optionalSwitched_rest]
  exact Iff.rfl

theorem ipiStart_open {s : State} (ho : Open s) {ch : Nat} (hch : ch < s.cfg.numInst - 1) :
    ipiStart ch s = .ok () (startedState ch s) := by
  rw [ipiStart, withChannel_ok hch, upd_open ho, Res.andThen_ok, switchOptional_open ((open_updState ..).mpr ho), Res.andThen_ok]
  rfl

theorem ipiStop_open {s : State} (ho : Open s) {ch : Nat} (hch : ch < s.cfg.numInst - 1) :
    ipiStop ch s = .ok () (stoppedState ch s) := by
  have hu : Open (updState s (.p (.enable ch)) 0) := (open_updState ..).mpr ho
  rw [ipiStop, withChannel_ok hch, upd_open ho, Res.andThen_ok, switchOptional_open hu, Res.andThen_ok,
    upd_open ((open_optionalSwitched ..).mpr hu), Res.andThen_ok]
  rfl

section
variable (ch : Nat) (s : State)

theorem startedState_setInFlight (b : Bool) : startedState ch (s.setInFlight b) = (startedState ch s).setInFlight b := by
  simp only [startedState, updState_setInFlight, optionalSwitched_setInFlight, setPhase_setInFlight]

theorem stoppedState_setInFlight (b : Bool) : stoppedState ch (s.setInFlight b) = (stoppedState ch s).setInFlight b := by
  simp only [stoppedState, updState_setInFlight, optionalSwitched_setInFlight, setPhase_setInFlight]

theorem startedState_rest : startedState ch s =
    { s with p := (startedState ch s).p, ch := tblPut .disabled s.ch ch .enabled, trace := (startedState ch s).trace } := by
  unfold startedState
  rw [optionalSwitched_rest]
  rfl

theorem stoppedState_rest : stoppedState ch s =
    { s with p := (stoppedState ch s).p, ch := tblPut .disabled s.ch ch .disabled, trace := (stoppedState ch s).trace } := by
  unfold stoppedState
  rw [optionalSwitched_rest]
  rfl

theorem startedState_get (r : PReg) : (startedState ch s).p.get r =
    if r = .ipi ch .mode then setField (s.p.get r) s.cfg.map.fEnable 1
    else if r = .tpgEnable ∧ s.inst.tpgEnabled = true then setField (s.p.get r) s.cfg.map.fTpgEn 1
    else if r = .idiBypass ∧ s.inst.bypass = true then setField (s.p.get r) s.cfg.map.fBypassEn 1
    else s.p.get r := by
  simp only [startedState, setPhase_p, optionalSwitched_get, updState_inst, updState_cfg, updState_p_get, PField.reg]
  split_ifs <;> simp_all [storedValue, fieldPos]

theorem stoppedState_get (r : PReg) : (stoppedState ch s).p.get r =
    if r = .csi2Resetn then setField (s.p.get r) s.cfg.map.fResetn 0
    else if r = .ipi ch .mode then setField (s.p.get r) s.cfg.map.fEnable 0
    else if r = .tpgEnable ∧ s.inst.tpgEnabled = true then setField (s.p.get r) s.cfg.map.fTpgEn 0
    else if r = .idiBypass ∧ s.inst.bypass = true then setField (s.p.get r) s.cfg.map.fBypassEn 0
    else s.p.get r := by
  have hcfg : (optionalSwitched 0 (updState s (.p (.enable ch)) 0)).cfg = s.cfg := by
    rw [optionalSwitched_rest]
    exact updState_cfg ..
  simp only [stoppedState, setPhase_p, updState_p_get, hcfg, optionalSwitched_get, updState_inst, updState_cfg, PField.reg]
  split_ifs <;> simp_all [storedValue, fieldPos]

end

section
variable {s : State} {i : Instr} {ch : Nat} (h : Ready s) (hch : PixelChannel s ch)
include h hch

theorem exec_start (hi : i = .ipiStart ch ∨ (s.inst.isNative = false ∧ i = .cmdSetState ch true)) :
    exec i s = .next (completeOk .unit (startedState ch s)) := by
  rw [exec_operation_or_command (body := ipiStart ch) rfl rfl hi]
  refine runConfig_okUnit_ran (body := ipiStart ch) h.idle.1 (by rw [startedState_rest]; exact h.idle.1) ?_
  rw [ipiStart_open (h.isOpen.inFlight true) hch, startedState_setInFlight]

theorem exec_stop (hi : i = .ipiStop ch ∨ (s.inst.isNative = false ∧ i = .cmdSetState ch false)) :
    exec i s = .next (completeOk .unit (stoppedState ch s)) := by
  rw [exec_operation_or_command (body := ipiStop ch) rfl rfl hi]
  refine runConfig_okUnit_ran (body := ipiStop ch) h.idle.1 (by rw [stoppedState_rest]; exact h.idle.1) ?_
  rw [ipiStop_open (h.isOpen.inFlight true) hch, stoppedState_setInFlight]

end

/-- Settles O43. -/
theorem startAndStopSwitchTheChannel : Obligations.StartAndStopSwitchTheChannel := by
  unfold Obligations.StartAndStopSwitchTheChannel
  refine fun s i ch h hch => ⟨fun hi => ?start, fun hi => ?stop⟩
  case start =>
    have hget := startedState_get ch s
    obtain ⟨hframe, hphase⟩ := onlyPAndPhase_done (regs := [.ipi ch .mode, .tpgEnable, .idiBypass]) (startedState_rest ch s)
      (fun r hr => by
        simp only [List.mem_cons, List.not_mem_nil, or_false, not_or] at hr
        simp [hget, hr]) .unit
    exact ⟨_, exec_start h hch hi, rfl, hframe, hphase, by simpa using hget (.ipi ch .mode),
      by simpa [Bank.get] using hget .tpgEnable, by simpa [Bank.get] using hget .idiBypass⟩
  case stop =>
    have hget := stoppedState_get ch s
    obtain ⟨hframe, hphase⟩ := onlyPAndPhase_done (regs := [.ipi ch .mode, .tpgEnable, .idiBypass, .csi2Resetn])
      (stoppedState_rest ch s) (fun r hr => by
        simp only [List.mem_cons, List.not_mem_nil, or_false, not_or] at hr
        simp [hget, hr]) .unit
    exact ⟨_, exec_stop h hch hi, rfl, hframe, hphase, by simpa using hget (.ipi ch .mode),
      by simpa [Bank.get] using hget .tpgEnable, by simpa [Bank.get] using hget .idiBypass,
      by simpa [Bank.get] using hget .csi2Resetn⟩

end Sys2Proof.Machine
end

section
/-! SUPPORT. The register dump and the register set of a channel (O47, O48; 44_ipi.md R213 to R215): what the named entries read,
and what they hold after whole-register writes. -/

namespace Sys2Proof.Machine

/-! ## The entries of a channel's own block -/

theorem dumpReg_eq_ipi (ch i : Nat) : ∃ r, dumpReg ch i = .ipi ch r ∧ r ≠ .memFlush := by
  unfold dumpReg
  split <;> exact ⟨_, rfl, nofun⟩

/-- The entry that is a register of the channel's own block. -/
def dumpIndex : PReg → Nat
  | .ipi _ .mode => 0
  | .ipi _ .vcid => 1
  | .ipi _ .dataType => 2
  | .ipi _ .hsaTime => 3
  | .ipi _ .hbpTime => 4
  | .ipi _ .hsdTime => 5
  | _ => 6

theorem dumpIndex_dumpReg (ch : Nat) {i : Nat} (h : i < 7) : dumpIndex (dumpReg ch i) = i := by
  interval_cases i <;> rfl

theorem dumpReg_injective {ch i j : Nat} (hi : i < 7) (hj : j < 7) (h : dumpReg ch i = dumpReg ch j) : i = j := by
  rw [← dumpIndex_dumpReg ch hi, h, dumpIndex_dumpReg ch hj]

theorem dumpReg_mem (ch : Nat) {i : Nat} (h : i < 7) : dumpReg ch i ∈
    [PReg.ipi ch .mode, .ipi ch .vcid, .ipi ch .dataType, .ipi ch .hsaTime, .ipi ch .hbpTime, .ipi ch .hsdTime,
      .ipi ch .advFeatures] := by
  interval_cases i <;> simp [dumpReg]

theorem dumpReg_of_getElem? {ch i : Nat} {r : PReg} (h : [PReg.ipi ch .mode, .ipi ch .vcid, .ipi ch .dataType,
    .ipi ch .hsaTime, .ipi ch .hbpTime, .ipi ch .hsdTime, .ipi ch .advFeatures][i]? = some r) : i < 7 ∧ r = dumpReg ch i := by
  obtain ⟨hi, rfl⟩ := List.getElem?_eq_some_iff.mp h
  have hi : i < 7 := hi
  refine ⟨hi, ?_⟩
  interval_cases i <;> rfl

/-- Reading an entry returns its content and has no side effect (R77). -/
theorem rd_dumpReg {s : State} (ho : Open s) (ch i : Nat) : rd (.p (dumpReg ch i)) s = .ok (s.p.get (dumpReg ch i))
    (s.setTrace (s.trace ++ [.rd (.p (dumpReg ch i)) (s.p.get (dumpReg ch i))])) := by
  obtain ⟨r, hr, -⟩ := dumpReg_eq_ipi ch i
  rw [rd_open ho, hr]
  rfl

/-! ## IPI_REG_DUMP -/

/-- What a dump gives for an entry of the channel's own block. -/
def dumped (s : State) (ch : Nat) (mask : BitVec 8) (i : Nat) : Option Word :=
  if mask.getLsbD i then some (s.p.get (dumpReg ch i)) else none

/-- The reads of a dump of entries of the channel's own block. -/
def dumpReads (s : State) (ch : Nat) (mask : BitVec 8) (l : List Nat) : List Access :=
  (l.filter fun i => mask.getLsbD i).map fun i => .rd (.p (dumpReg ch i)) (s.p.get (dumpReg ch i))

theorem Res.mapValue_mapValue {α β γ : Type} (r : Res α) (f : α → β) (g : β → γ) :
    (r.mapValue f).mapValue g = r.mapValue fun a => g (f a) := by
  cases r <;> rfl

/-- The entries of the channel's own block in a row, and then the rest of the dump. -/
theorem dumpEntries_own {s : State} (ho : Open s) (ch : Nat) (mask : BitVec 8) {l : List Nat} (hl : ∀ i ∈ l, i < 7)
    (rest : List Nat) : dumpEntries ch mask (l ++ rest) s =
      (dumpEntries ch mask rest (s.setTrace (s.trace ++ dumpReads s ch mask l))).mapValue (l.map (dumped s ch mask) ++ ·) := by
  induction l generalizing s with
  | nil =>
    simp only [dumpReads, List.filter_nil, List.map_nil, List.append_nil, List.nil_append, State.setTrace_self]
    cases dumpEntries ch mask rest s <;> rfl
  | cons i l ih =>
    have hi : i < 7 := hl i (List.mem_cons_self ..)
    have hl' : ∀ j ∈ l, j < 7 := fun j hj => hl j (List.mem_cons_of_mem _ hj)
    rw [List.cons_append, dumpEntries, dumpEntry]
    cases hm : mask.getLsbD i with
    | true =>
      have hnext := ih (s := s.setTrace (s.trace ++ [.rd (.p (dumpReg ch i)) (s.p.get (dumpReg ch i))])) ho hl'
      have htrace : s.trace ++ dumpReads s ch mask (i :: l)
          = s.trace ++ [.rd (.p (dumpReg ch i)) (s.p.get (dumpReg ch i))] ++ dumpReads s ch mask l := by
        simp [dumpReads, hm]
      have hvalue : dumped s ch mask i = some (s.p.get (dumpReg ch i)) := if_pos hm
      rw [if_pos rfl, if_pos hi, rd_dumpReg ho, Res.mapValue_ok, Res.andThen_ok, hnext, Res.mapValue_mapValue, htrace,
        List.map_cons, hvalue]
      rfl
    | false =>
      have hreads : dumpReads s ch mask (i :: l) = dumpReads s ch mask l := by
        simp only [dumpReads, List.filter_cons, hm, Bool.false_eq_true, if_false]
      have hvalue : dumped s ch mask i = none := if_neg (by simp [hm])
      rw [if_neg Bool.false_ne_true, Res.andThen_ok, ih ho hl', Res.mapValue_mapValue, hreads, List.map_cons, hvalue]
      rfl

/-- Entry 7, the channel's fatal status within the defined bits; a channel without a category has none (R213, R215). -/
def fatalDumped (s : State) (ch : Nat) (mask : BitVec 8) : Option Word :=
  if mask.getLsbD 7 then (s.cfg.ipiFatalCat[ch]?).map fun k => s.p.get (.intSt k) &&& (catEntry s.cfg k).ebits else none

/-- The state after entry 7. -/
def fatalRead (ch : Nat) (mask : BitVec 8) (s : State) : State :=
  if mask.getLsbD 7 then
    match s.cfg.ipiFatalCat[ch]? with
    | some k => readState s (.p (.intSt k))
    | none => s
  else s

theorem dumpEntry_fatal {s : State} (ho : Open s) (ch : Nat) (mask : BitVec 8) :
    dumpEntry ch mask 7 s = .ok (fatalDumped s ch mask) (fatalRead ch mask s) := by
  unfold dumpEntry fatalDumped fatalRead
  cases mask.getLsbD 7 with
  | false => rfl
  | true =>
    simp only [if_true]
    rw [if_neg (Nat.lt_irrefl 7)]
    cases s.cfg.ipiFatalCat[ch]? with
    | none => rfl
    | some k =>
      simp only [rd_open ho, Res.mapValue_ok]
      rfl

/-- What a dump reads, in order, before entry 7. -/
def ownDumped (ch : Nat) (mask : BitVec 8) (s : State) : State :=
  s.setTrace (s.trace ++ dumpReads s ch mask (List.range 7))

theorem ipiRegDump_open {s : State} (ho : Open s) {ch : Nat} (hch : ch < s.cfg.numInst - 1) (mask : BitVec 8) :
    ipiRegDump ch mask s = .ok ((List.range 7).map (dumped s ch mask) ++ [fatalDumped s ch mask])
      (fatalRead ch mask (ownDumped ch mask s)) := by
  have hown := dumpEntries_own ho ch mask (l := List.range 7) (fun i hi => List.mem_range.mp hi) [7]
  have hlast : dumpEntries ch mask [7] (ownDumped ch mask s)
      = .ok [fatalDumped s ch mask] (fatalRead ch mask (ownDumped ch mask s)) := by
    rw [dumpEntries, dumpEntry_fatal (s := ownDumped ch mask s) ho]
    rfl
  rw [ipiRegDump, withChannel_ok hch]
  exact hown.trans (congrArg (Res.mapValue · _) hlast)

section
variable (ch : Nat) (mask : BitVec 8) (s : State)

theorem fatalRead_ownDumped_setInFlight (b : Bool) : fatalRead ch mask (ownDumped ch mask (s.setInFlight b))
    = (fatalRead ch mask (ownDumped ch mask s)).setInFlight b := by
  have hown : ownDumped ch mask (s.setInFlight b) = (ownDumped ch mask s).setInFlight b := rfl
  rw [hown]
  unfold fatalRead
  simp only [State.setInFlight_cfg]
  split
  · split
    · exact readState_setInFlight ..
    · rfl
  · rfl

theorem fatalRead_rest : fatalRead ch mask s =
    { s with p := (fatalRead ch mask s).p, trace := (fatalRead ch mask s).trace } := by
  unfold fatalRead
  split
  · split <;> rfl
  · rfl

/-- Entry 7 clears the status exactly when it is named, the channel has a category and reads clear (R249). -/
theorem fatalRead_get_status {k : Nat} (hk : s.cfg.ipiFatalCat[ch]? = some k) (hm : mask.getLsbD 7 = true)
    (hclr : s.cfg.stReadClears = true) : (fatalRead ch mask s).p.get (.intSt k) = 0 := by
  rw [fatalRead, if_pos hm, hk]
  exact bankAfterRead_status_clears hclr s.p k

theorem fatalRead_get_other {q : PReg} (h : (∀ k, s.cfg.ipiFatalCat[ch]? = some k → q ≠ .intSt k) ∨ mask.getLsbD 7 = false ∨
    s.cfg.stReadClears = false) : (fatalRead ch mask s).p.get q = s.p.get q := by
  unfold fatalRead
  split
  · next hm =>
    split
    · next k hk =>
      refine bankAfterRead_get_other (c := s.cfg) ?_
      rcases h with h | h | h
      · exact .inl (h k hk)
      · rw [hm] at h
        cases h
      · exact .inr (.inr h)
    · rfl
  · rfl

end

/-- Settles O47. -/
theorem regDumpReturnsTheMaskedEntries : Obligations.RegDumpReturnsTheMaskedEntries := by
  unfold Obligations.RegDumpReturnsTheMaskedEntries
  intro s ch mask h hch
  let u := fatalRead ch mask (ownDumped ch mask s)
  let out := (List.range 7).map (dumped s ch mask) ++ [fatalDumped s ch mask]
  have hrest : u = { s with p := u.p, trace := u.trace } := fatalRead_rest ch mask (ownDumped ch mask s)
  have hrun : exec (.ipiRegDump ch mask) s = .next (completeOk (.dump out) u) := by
    refine runConfig_ran (body := bodyOf (.ipiRegDump ch mask)) h.idle.1 (by rw [hrest]; exact h.idle.1) ?_
    refine (congrArg (Res.mapValue · Value.dump) (ipiRegDump_open (h.isOpen.inFlight true) hch mask)).trans ?_
    rw [fatalRead_ownDumped_setInFlight]
    rfl
  have hlast : out[7]? = some (fatalDumped s ch mask) := by simp [out]
  refine ⟨_, out, hrun, rfl, by simp [out], fun i r hr => ?own, fun k hk => ?fatal, fun h4 => ?absent,
    congrArg (completeOk (.dump out)) hrest, fun k hk hm hclr => ?cleared, fun q hq => ?others,
    fun a => congrArg (fun w => Memory.read w.draw w.t a) hrest⟩
  case own =>
    obtain ⟨hi, rfl⟩ := dumpReg_of_getElem? hr
    rw [List.getElem?_append_left (by simpa using hi)]
    simp [hi, dumped]
  case fatal => rw [hlast, fatalDumped, hk, Option.map_some]
  case absent =>
    have hnone : s.cfg.ipiFatalCat[ch]? = none := List.getElem?_eq_none (by rw [h.legal.fatalCats.1]; exact h4)
    rw [hlast, fatalDumped, hnone, Option.map_none, ite_self]
  case cleared => exact fatalRead_get_status ch mask (ownDumped ch mask s) hk hm hclr
  case others => exact fatalRead_get_other ch mask (ownDumped ch mask s) hq

/-! ## IPI_REG_SET -/

/-- The state after undisturbed writes of the named entries of a list, in order. -/
def entriesSet (ch : Nat) (mask : BitVec 8) (vals : List Word) (l : List Nat) (s : State) : State :=
  l.foldl (fun s i => if mask.getLsbD i then wroteState s (.p (dumpReg ch i)) (tblGet 0 vals i) else s) s

section
variable (ch : Nat) (mask : BitVec 8) (vals : List Word)

theorem forEach_entries (l : List Nat) {s : State} (ho : Open s) :
    forEach l (fun i s => if mask.getLsbD i then wr (.p (dumpReg ch i)) (tblGet 0 vals i) s else .ok () s) s
      = .ok () (entriesSet ch mask vals l s) := by
  induction l generalizing s with
  | nil => rfl
  | cons i l ih =>
    rw [forEach_cons, entriesSet, List.foldl_cons]
    split
    · rw [wr_open ho, Res.andThen_ok]
      exact ih ((open_wroteState ..).mpr ho)
    · exact ih ho

theorem ipiRegSet_open {s : State} (ho : Open s) (hch : ch < s.cfg.numInst - 1) :
    ipiRegSet ch mask vals s = .ok () (entriesSet ch mask vals (List.range 7) s) := by
  rw [ipiRegSet, withChannel_ok hch, forEach_entries ch mask vals _ ho]

theorem entriesSet_setInFlight (l : List Nat) (s : State) (b : Bool) :
    entriesSet ch mask vals l (s.setInFlight b) = (entriesSet ch mask vals l s).setInFlight b := by
  induction l generalizing s with
  | nil => rfl
  | cons i l ih =>
    simp only [entriesSet, List.foldl_cons]
    split
    · rw [wroteState_setInFlight]
      exact ih _
    · exact ih _

theorem entriesSet_rest (l : List Nat) (s : State) : entriesSet ch mask vals l s =
    { s with p := (entriesSet ch mask vals l s).p, trace := (entriesSet ch mask vals l s).trace } := by
  induction l generalizing s with
  | nil => rfl
  | cons i l ih =>
    simp only [entriesSet, List.foldl_cons]
    split
    · exact ih (wroteState s (.p (dumpReg ch i)) (tblGet 0 vals i))
    · exact ih s

theorem entriesSet_get_other {r : PReg} (l : List Nat) (s : State) (hr : ∀ i ∈ l, r ≠ dumpReg ch i) :
    (entriesSet ch mask vals l s).p.get r = s.p.get r := by
  induction l generalizing s with
  | nil => rfl
  | cons i l ih =>
    have hl := fun u => ih u fun j hj => hr j (List.mem_cons_of_mem _ hj)
    simp only [entriesSet, List.foldl_cons]
    split
    · exact (hl _).trans (bankAfterWrite_get_ne (hr i (List.mem_cons_self ..)) _)
    · exact hl _

/-- A whole-register write of an entry stores the word written. -/
theorem bankAfterWrite_dumpReg (c : Cfg) (b : Bank) (i : Nat) (v : Word) :
    (bankAfterWrite c b (dumpReg ch i) v).get (dumpReg ch i) = v := by
  obtain ⟨r, hr, hflush⟩ := dumpReg_eq_ipi ch i
  rw [hr, bankAfterWrite_get_same rfl, storedValue_eq _ _ _ fun k e => hflush (by cases e; rfl)]

theorem entriesSet_get_entry {n : Nat} (hn : n ≤ 7) (s : State) {i : Nat} (hi : i < n) :
    (entriesSet ch mask vals (List.range n) s).p.get (dumpReg ch i)
      = if mask.getLsbD i then tblGet 0 vals i else s.p.get (dumpReg ch i) := by
  induction n with
  | zero => cases hi
  | succ n ih =>
    have hsucc : entriesSet ch mask vals (List.range (n + 1)) s
        = if mask.getLsbD n then wroteState (entriesSet ch mask vals (List.range n) s) (.p (dumpReg ch n)) (tblGet 0 vals n)
          else entriesSet ch mask vals (List.range n) s := by
      simp [entriesSet, List.range_succ]
    rw [hsucc]
    rcases Nat.lt_succ_iff_lt_or_eq.mp hi with hlt | rfl
    · have hne : dumpReg ch i ≠ dumpReg ch n := fun e => by
        have := dumpReg_injective (by omega) (by omega) e
        omega
      rw [← ih (by omega) hlt]
      split
      · exact bankAfterWrite_get_ne hne _
      · rfl
    · split
      · exact bankAfterWrite_dumpReg ch _ _ i _
      · refine entriesSet_get_other ch mask vals _ s fun j hj e => ?_
        have hj := List.mem_range.mp hj
        have := dumpReg_injective (by omega) (by omega) e
        omega

end

/-- Settles O48. -/
theorem regSetWritesTheMaskedEntries : Obligations.RegSetWritesTheMaskedEntries := by
  unfold Obligations.RegSetWritesTheMaskedEntries
  intro s ch mask v0 v1 v2 v3 v4 v5 v6 v7 h hch
  let vals := [v0, v1, v2, v3, v4, v5, v6, v7]
  let u := entriesSet ch mask vals (List.range 7) s
  have hrest : u = { s with p := u.p, trace := u.trace } := entriesSet_rest ch mask vals (List.range 7) s
  have hrun : exec (.ipiRegSet ch mask v0 v1 v2 v3 v4 v5 v6 v7) s = .next (completeOk .unit u) := by
    refine runConfig_okUnit_ran (body := ipiRegSet ch mask vals) h.idle.1 (by rw [hrest]; exact h.idle.1) ?_
    rw [ipiRegSet_open ch mask vals (h.isOpen.inFlight true) hch, entriesSet_setInFlight]
  have hbank : Bank.SameBut s.p u.p [.ipi ch .mode, .ipi ch .vcid, .ipi ch .dataType, .ipi ch .hsaTime, .ipi ch .hbpTime,
      .ipi ch .hsdTime, .ipi ch .advFeatures] := fun r hr =>
    entriesSet_get_other ch mask vals _ s fun i hi e => hr (e ▸ dumpReg_mem ch (List.mem_range.mp hi))
  have hentry : ∀ i < 7, u.p.get (dumpReg ch i) = if mask.getLsbD i then tblGet 0 vals i else s.p.get (dumpReg ch i) :=
    fun i hi => entriesSet_get_entry ch mask vals le_rfl s hi
  exact ⟨_, hrun, rfl, onlyP_done hrest hbank .unit, hentry 0 (by decide), hentry 1 (by decide), hentry 2 (by decide),
    hentry 3 (by decide), hentry 4 (by decide), hentry 5 (by decide), hentry 6 (by decide)⟩

end Sys2Proof.Machine
end

section
/-! SUPPORT. IPI_INIT and CMD_SET_FORMAT (O42; 44_ipi.md R203 to R205, 46_commands.md R276): what each stage of the one state that
the undisturbed `init` leaves (`ipiInit_open`) changed, register by register, and what it wrote. -/

namespace Sys2Proof.Machine

theorem Wrote.read {s t : State} {k : List Loc} (h : Wrote s t k) (l : Loc) : Wrote s (readState t l) k := by
  rw [← List.append_nil k]
  exact h.trans ⟨_, readState_trace t l, rfl⟩

theorem Wrote.wr {s t : State} {k : List Loc} (h : Wrote s t k) (l : Loc) (v : Word) : Wrote s (wroteState t l v) (k ++ [l]) :=
  h.trans ⟨_, wroteState_trace t l v, rfl⟩

theorem Wrote.updP {s t : State} {k : List Loc} (h : Wrote s t k) (f : PField) (n : Nat) :
    Wrote s (updState t (.p f) n) (k ++ [.p f.reg]) := h.upd (.p f) n

theorem setInst_setInFlight (s : State) (v : Instance) (b : Bool) :
    (s.setInFlight b).setInst v = (s.setInst v).setInFlight b := rfl

/-! ## The format and the timing -/

section
variable (ch : Nat) (eff : Format) (cut : Bool) (tm : Timing) (s : State)

theorem formatWritten_setInFlight (b : Bool) :
    formatWritten ch eff cut (s.setInFlight b) = (formatWritten ch eff cut s).setInFlight b := by
  simp only [formatWritten, updState_setInFlight, State.setInFlight_cfg]

theorem timingWritten_setInFlight (b : Bool) : timingWritten ch tm (s.setInFlight b) = (timingWritten ch tm s).setInFlight b := by
  simp only [timingWritten, updState_setInFlight]

theorem formatWritten_rest : formatWritten ch eff cut s =
    { s with p := (formatWritten ch eff cut s).p, trace := (formatWritten ch eff cut s).trace } := by
  apply State.eq_of_fields <;> simp [formatWritten]

theorem timingWritten_rest : timingWritten ch tm s =
    { s with p := (timingWritten ch tm s).p, trace := (timingWritten ch tm s).trace } := by
  apply State.eq_of_fields <;> simp [timingWritten]

theorem formatWritten_get (r : PReg) : (formatWritten ch eff cut s).p.get r =
    if r = .ipi ch .dataType then setField (s.p.get r) s.cfg.map.fDt (formatEntry s.cfg.dt eff).toNat
    else if r = .ipi ch .memFlush then storedValue s.cfg r (setField (s.p.get r) s.cfg.map.fAutoFlush 1)
    else if r = .ipi ch .mode then
      setField (setField (s.p.get r) s.cfg.map.fColor16 (bit (color16Of eff))) s.cfg.map.fCutThrough (bit cut)
    else s.p.get r := by
  simp only [formatWritten, updState_p_get, updState_cfg, PField.reg, fieldPos, classOf]
  split_ifs <;> simp_all [storedValue]

theorem timingWritten_get (r : PReg) : (timingWritten ch tm s).p.get r =
    if r = .ipi ch .hsaTime then setField (s.p.get r) s.cfg.map.fHsa tm.hsa
    else if r = .ipi ch .hbpTime then setField (s.p.get r) s.cfg.map.fHbp tm.hbp
    else if r = .ipi ch .hsdTime then setField (s.p.get r) s.cfg.map.fHsd tm.hsd
    else s.p.get r := by
  simp only [timingWritten, updState_p_get, updState_cfg, PField.reg, fieldPos]
  split_ifs <;> simp_all [storedValue]

theorem formatWritten_wrote : Wrote s (formatWritten ch eff cut s)
    [.p (.ipi ch .dataType), .p (.ipi ch .memFlush), .p (.ipi ch .mode), .p (.ipi ch .mode)] :=
  ((((Wrote.refl s).updP (.dt ch) _).updP (.autoFlush ch) 1).updP (.color16 ch) _).updP (.cutThrough ch) _

theorem timingWritten_wrote : Wrote s (timingWritten ch tm s)
    [.p (.ipi ch .hsaTime), .p (.ipi ch .hbpTime), .p (.ipi ch .hsdTime)] :=
  (((Wrote.refl s).updP (.hsa ch) _).updP (.hbp ch) _).updP (.hsd ch) _

end

/-! ## The test-pattern generator -/

section
variable (ch : Nat) (dt : BitVec 6) (pkt2pkt : Nat) (s : State)

theorem tpgProgrammed_setInFlight (b : Bool) :
    tpgProgrammed ch dt pkt2pkt (s.setInFlight b) = (tpgProgrammed ch dt pkt2pkt s).setInFlight b := by
  simp only [tpgProgrammed, readState_setInFlight, setInst_setInFlight, updState_setInFlight, State.setInFlight_p,
    State.setInFlight_cfg, State.setInFlight_inst]

/-- The generator's attributes follow the channel it copies (R203 step 8). -/
theorem tpgProgrammed_rest : tpgProgrammed ch dt pkt2pkt s = { s with
    p := (tpgProgrammed ch dt pkt2pkt s).p
    inst := { s.inst with tpgVc := getField (s.p.get (.ipi ch .vcid)) s.cfg.map.fVcid, tpgDt := dt.toNat }
    trace := (tpgProgrammed ch dt pkt2pkt s).trace } := by
  apply State.eq_of_fields <;> simp [tpgProgrammed, fieldPos]

theorem tpgProgrammed_get (r : PReg) : (tpgProgrammed ch dt pkt2pkt s).p.get r =
    if r = .tpgConfig then setField (setField (setField (s.p.get r) s.cfg.map.fTpgHorizontal (bit s.inst.tpgHorizontal))
      s.cfg.map.fTpgVc (getField (s.p.get (.ipi ch .vcid)) s.cfg.map.fVcid)) s.cfg.map.fTpgDt dt.toNat
    else if r = .tpgPkt2pkt then setField (s.p.get r) s.cfg.map.fPkt2pkt pkt2pkt
    else s.p.get r := by
  simp only [tpgProgrammed, updState_p_get, updState_cfg, PField.reg, fieldPos, State.setInst_p, State.setInst_cfg,
    readState_cfg, readState_p_p, bankAfterRead]
  split_ifs <;> simp_all [storedValue]

theorem tpgProgrammed_wrote : Wrote s (tpgProgrammed ch dt pkt2pkt s)
    [.p .tpgConfig, .p .tpgConfig, .p .tpgConfig, .p .tpgPkt2pkt] := by
  have hinst : Wrote s ((readState s (.p (.ipi ch .vcid))).setInst { s.inst with
      tpgVc := getField (s.p.get (.ipi ch .vcid)) (fieldPos s.cfg (.vcid ch)), tpgDt := dt.toNat }) [] :=
    (Wrote.refl s).read (.p (.ipi ch .vcid))
  exact (((hinst.updP .tpgHorizontal _).updP .tpgVc _).updP .tpgDt _).updP .pkt2pkt _

end

/-! ## The advanced features and the pulse -/

section
variable (ch : Nat) (adv : Word) (s : State)

theorem initFinished_setInFlight (b : Bool) : initFinished ch adv (s.setInFlight b) = (initFinished ch adv s).setInFlight b := by
  simp only [initFinished, wroteState_setInFlight, updState_setInFlight, setPhase_setInFlight]

theorem initFinished_rest : initFinished ch adv s = { s with
    p := (initFinished ch adv s).p, ch := tblPut .disabled s.ch ch .configured, trace := (initFinished ch adv s).trace } := by
  apply State.eq_of_fields <;> simp [initFinished, setPhase]

theorem initFinished_get (r : PReg) : (initFinished ch adv s).p.get r =
    if r = .ipiSoftrstn then setField (s.p.get r) (fieldPos s.cfg (.softrstn ch)) 1
    else if r = .ipi ch .advFeatures then adv
    else s.p.get r := by
  simp only [initFinished, setPhase_p, updState_p_get, updState_cfg, wroteState_cfg, wroteState_p_p, bankAfterWrite_get,
    PField.reg]
  split_ifs <;> simp_all [storedValue, readOnlyReg]

theorem initFinished_wrote : Wrote s (initFinished ch adv s) [.p (.ipi ch .advFeatures), .p .ipiSoftrstn, .p .ipiSoftrstn] :=
  (((Wrote.refl s).wr (.p (.ipi ch .advFeatures)) adv).updP (.softrstn ch) 0).updP (.softrstn ch) 1

/-- The last five accesses: the features, then the pulse, held and released (R203 steps 10 and 11, R205). -/
theorem initFinished_trace : (initFinished ch adv s).trace = s.trace ++
    ([.wr (.p (.ipi ch .advFeatures)) adv,
     .rd (.p .ipiSoftrstn) s.p.ipiSoftrstn,
     .wr (.p .ipiSoftrstn) (setField s.p.ipiSoftrstn (fieldPos s.cfg (.softrstn ch)) 0),
     .rd (.p .ipiSoftrstn) (setField s.p.ipiSoftrstn (fieldPos s.cfg (.softrstn ch)) 0),
     .wr (.p .ipiSoftrstn) (setField s.p.ipiSoftrstn (fieldPos s.cfg (.softrstn ch)) 1)] : List Access) := by
  have hread : ∀ u : State, valueAt u (.p .ipiSoftrstn) = u.p.ipiSoftrstn := fun _ => rfl
  have hheld : ∀ (u : State) (n : Nat), (updState u (.p (.softrstn ch)) n).p.ipiSoftrstn
      = setField u.p.ipiSoftrstn (fieldPos u.cfg (.softrstn ch)) n := fun _ _ => rfl
  have hkept : (bankAfterWrite s.cfg s.p (.ipi ch .advFeatures) adv).ipiSoftrstn = s.p.ipiSoftrstn := rfl
  simp [initFinished, updValue, fieldLoc, placeOf, PField.reg, hread, hheld, hkept]

end

/-! ## The whole of `init` -/

/-- The state before the advanced features (R203 steps 3 to 9). -/
def initProgrammed (ch : Nat) (eff : Format) (cut : Bool) (tm : Timing) (pkt2pkt : Nat) (s : State) : State :=
  let u := timingWritten ch tm (formatWritten ch eff cut s)
  if s.inst.tpgEnabled then tpgProgrammed ch (formatEntry s.cfg.dt eff) pkt2pkt u else u

section
variable (ch : Nat) (eff : Format) (cut : Bool) (tm : Timing) (pkt2pkt : Nat) (s : State)

theorem initProgrammed_setInFlight (b : Bool) :
    initProgrammed ch eff cut tm pkt2pkt (s.setInFlight b) = (initProgrammed ch eff cut tm pkt2pkt s).setInFlight b := by
  simp only [initProgrammed, formatWritten_setInFlight, timingWritten_setInFlight, tpgProgrammed_setInFlight,
    State.setInFlight_inst, State.setInFlight_cfg]
  split <;> rfl

/-- The attributes after `init`: the generator's follow the channel when it is active (R203 step 8). -/
def initAttributes (ch : Nat) (eff : Format) (s : State) : Instance :=
  if s.inst.tpgEnabled then
    { s.inst with tpgVc := getField (s.p.get (.ipi ch .vcid)) s.cfg.map.fVcid, tpgDt := (formatEntry s.cfg.dt eff).toNat }
  else s.inst

theorem timingWritten_formatWritten_rest : timingWritten ch tm (formatWritten ch eff cut s) = { s with
    p := (timingWritten ch tm (formatWritten ch eff cut s)).p
    trace := (timingWritten ch tm (formatWritten ch eff cut s)).trace } := by
  rw [timingWritten_rest, formatWritten_rest]

/-- The bank before the generator and the features: the format and the timing registers. -/
theorem timingWritten_formatWritten_get (r : PReg) : (timingWritten ch tm (formatWritten ch eff cut s)).p.get r =
    if r = .ipi ch .hsaTime then setField (s.p.get r) s.cfg.map.fHsa tm.hsa
    else if r = .ipi ch .hbpTime then setField (s.p.get r) s.cfg.map.fHbp tm.hbp
    else if r = .ipi ch .hsdTime then setField (s.p.get r) s.cfg.map.fHsd tm.hsd
    else if r = .ipi ch .dataType then setField (s.p.get r) s.cfg.map.fDt (formatEntry s.cfg.dt eff).toNat
    else if r = .ipi ch .memFlush then storedValue s.cfg r (setField (s.p.get r) s.cfg.map.fAutoFlush 1)
    else if r = .ipi ch .mode then
      setField (setField (s.p.get r) s.cfg.map.fColor16 (bit (color16Of eff))) s.cfg.map.fCutThrough (bit cut)
    else s.p.get r := by
  have hcfg : (formatWritten ch eff cut s).cfg = s.cfg := by rw [formatWritten_rest]
  rw [timingWritten_get, hcfg, formatWritten_get]
  split_ifs <;> simp_all

theorem initProgrammed_rest : initProgrammed ch eff cut tm pkt2pkt s = { s with
    p := (initProgrammed ch eff cut tm pkt2pkt s).p, inst := initAttributes ch eff s
    trace := (initProgrammed ch eff cut tm pkt2pkt s).trace } := by
  have hvcid : (timingWritten ch tm (formatWritten ch eff cut s)).p.get (.ipi ch .vcid) = s.p.get (.ipi ch .vcid) := by
    simp [timingWritten_formatWritten_get]
  have hrest := timingWritten_formatWritten_rest ch eff cut tm s
  unfold initProgrammed initAttributes
  simp only
  split
  · rw [tpgProgrammed_rest, hvcid, hrest]
  · exact hrest

theorem initProgrammed_get (r : PReg) : (initProgrammed ch eff cut tm pkt2pkt s).p.get r =
    if r = .tpgConfig ∧ s.inst.tpgEnabled = true then
      setField (setField (setField (s.p.get r) s.cfg.map.fTpgHorizontal (bit s.inst.tpgHorizontal))
        s.cfg.map.fTpgVc (getField (s.p.get (.ipi ch .vcid)) s.cfg.map.fVcid)) s.cfg.map.fTpgDt
        (formatEntry s.cfg.dt eff).toNat
    else if r = .tpgPkt2pkt ∧ s.inst.tpgEnabled = true then setField (s.p.get r) s.cfg.map.fPkt2pkt pkt2pkt
    else (timingWritten ch tm (formatWritten ch eff cut s)).p.get r := by
  have hvcid : (timingWritten ch tm (formatWritten ch eff cut s)).p.get (.ipi ch .vcid) = s.p.get (.ipi ch .vcid) := by
    simp [timingWritten_formatWritten_get]
  have hcfg : (timingWritten ch tm (formatWritten ch eff cut s)).cfg = s.cfg := by rw [timingWritten_formatWritten_rest]
  have hinst : (timingWritten ch tm (formatWritten ch eff cut s)).inst = s.inst := by rw [timingWritten_formatWritten_rest]
  unfold initProgrammed
  cases htpg : s.inst.tpgEnabled with
  | false => simp
  | true =>
    have hconfig : (timingWritten ch tm (formatWritten ch eff cut s)).p.get .tpgConfig = s.p.get .tpgConfig := by
      simp [timingWritten_formatWritten_get]
    have hpkt : (timingWritten ch tm (formatWritten ch eff cut s)).p.get .tpgPkt2pkt = s.p.get .tpgPkt2pkt := by
      simp [timingWritten_formatWritten_get]
    simp only [if_true, and_true, tpgProgrammed_get, hcfg, hinst, hvcid]
    split_ifs with h1 h2
    · rw [h1, hconfig]
    · rw [h2, hpkt]
    · rfl

/-- The reset register is not among them: it still holds what the pulse starts from. -/
theorem initProgrammed_softrstn :
    (initProgrammed ch eff cut tm pkt2pkt s).p.get .ipiSoftrstn = s.p.get .ipiSoftrstn := by
  simp [initProgrammed_get, timingWritten_formatWritten_get]

theorem initProgrammed_wrote : Wrote s (initProgrammed ch eff cut tm pkt2pkt s)
    (([.p (.ipi ch .dataType), .p (.ipi ch .memFlush), .p (.ipi ch .mode), .p (.ipi ch .mode), .p (.ipi ch .hsaTime),
      .p (.ipi ch .hbpTime), .p (.ipi ch .hsdTime)] : List Loc) ++
      (if s.inst.tpgEnabled then [.p .tpgConfig, .p .tpgConfig, .p .tpgConfig, .p .tpgPkt2pkt] else [] : List Loc)) := by
  have htiming : Wrote s (timingWritten ch tm (formatWritten ch eff cut s)) [.p (.ipi ch .dataType), .p (.ipi ch .memFlush),
      .p (.ipi ch .mode), .p (.ipi ch .mode), .p (.ipi ch .hsaTime), .p (.ipi ch .hbpTime), .p (.ipi ch .hsdTime)] :=
    (formatWritten_wrote ch eff cut s).trans (timingWritten_wrote ch tm _)
  unfold initProgrammed
  split
  · exact htiming.trans (tpgProgrammed_wrote ch _ pkt2pkt _)
  · rw [List.append_nil]
    exact htiming

end

/-- The state after `init` (R203). -/
def initDone (ch : Nat) (eff : Format) (cut : Bool) (tm : Timing) (pkt2pkt : Nat) (adv : Word) (s : State) : State :=
  initFinished ch adv (initProgrammed ch eff cut tm pkt2pkt s)

section
variable (ch : Nat) (eff : Format) (cut : Bool) (tm : Timing) (pkt2pkt : Nat) (adv : Word) (s : State)

theorem initDone_setInFlight (b : Bool) :
    initDone ch eff cut tm pkt2pkt adv (s.setInFlight b) = (initDone ch eff cut tm pkt2pkt adv s).setInFlight b := by
  simp only [initDone, initProgrammed_setInFlight, initFinished_setInFlight]

theorem initDone_rest : initDone ch eff cut tm pkt2pkt adv s = { s with
    p := (initDone ch eff cut tm pkt2pkt adv s).p, ch := tblPut .disabled s.ch ch .configured
    inst := initAttributes ch eff s, trace := (initDone ch eff cut tm pkt2pkt adv s).trace } := by
  unfold initDone
  rw [initFinished_rest, initProgrammed_rest]

theorem initDone_get (r : PReg) : (initDone ch eff cut tm pkt2pkt adv s).p.get r =
    if r = .ipiSoftrstn then setField (s.p.get r) (fieldPos s.cfg (.softrstn ch)) 1
    else if r = .ipi ch .advFeatures then adv
    else (initProgrammed ch eff cut tm pkt2pkt s).p.get r := by
  have hsoft := initProgrammed_softrstn ch eff cut tm pkt2pkt s
  have hcfg : (initProgrammed ch eff cut tm pkt2pkt s).cfg = s.cfg := by rw [initProgrammed_rest]
  rw [initDone, initFinished_get, hcfg]
  split_ifs with h
  · rw [h, hsoft]
  · rfl
  · rfl

theorem initDone_wrote : Wrote s (initDone ch eff cut tm pkt2pkt adv s)
    (([.p (.ipi ch .dataType), .p (.ipi ch .memFlush), .p (.ipi ch .mode), .p (.ipi ch .mode), .p (.ipi ch .hsaTime),
      .p (.ipi ch .hbpTime), .p (.ipi ch .hsdTime)] : List Loc) ++
      (if s.inst.tpgEnabled then [.p .tpgConfig, .p .tpgConfig, .p .tpgConfig, .p .tpgPkt2pkt] else [] : List Loc) ++
      ([.p (.ipi ch .advFeatures), .p .ipiSoftrstn, .p .ipiSoftrstn] : List Loc)) := by
  unfold initDone
  exact (initProgrammed_wrote ch eff cut tm pkt2pkt s).trans (initFinished_wrote ch adv _)

theorem initDone_trace : (initDone ch eff cut tm pkt2pkt adv s).trace = (initProgrammed ch eff cut tm pkt2pkt s).trace ++
    ([.wr (.p (.ipi ch .advFeatures)) adv,
     .rd (.p .ipiSoftrstn) s.p.ipiSoftrstn,
     .wr (.p .ipiSoftrstn) (setField s.p.ipiSoftrstn (fieldPos s.cfg (.softrstn ch)) 0),
     .rd (.p .ipiSoftrstn) (setField s.p.ipiSoftrstn (fieldPos s.cfg (.softrstn ch)) 0),
     .wr (.p .ipiSoftrstn) (setField s.p.ipiSoftrstn (fieldPos s.cfg (.softrstn ch)) 1)] : List Access) := by
  have hsoft : (initProgrammed ch eff cut tm pkt2pkt s).p.ipiSoftrstn = s.p.ipiSoftrstn :=
    initProgrammed_softrstn ch eff cut tm pkt2pkt s
  have hcfg : (initProgrammed ch eff cut tm pkt2pkt s).cfg = s.cfg := by rw [initProgrammed_rest]
  rw [initDone, initFinished_trace, hsoft, hcfg]

end

/-- The run of the operation or its command: one named state, its timing triple and its packet time (R203 steps 6 and 9). -/
theorem exec_init {s : State} {i : Instr} {ch width height fmt : Nat} {f : Format} {cut : Bool} {adv : Word} (h : Ready s)
    (hch : PixelChannel s ch) (hin : InitInputs s) (hfmt : formatOfCode fmt = some f)
    (hi : i = .ipiInit ch width height fmt cut adv ∨
      (s.inst.isNative = false ∧ cut = s.cfg.cutThrough ∧ adv = s.cfg.advFeatures ∧ i = .cmdSetFormat ch width height fmt)) :
    ∃ tm pkt2pkt, exec i s = .next (completeOk .unit (initDone ch (effectiveFormat s f) cut tm pkt2pkt adv s)) ∧
      (s.inst.isNative = true → tm = ⟨4, 4, s.cfg.hsdDefault⟩) ∧
      (∀ lanes rate, s.inst.isNative = false → TimingInputs s lanes rate →
        tm = if cut then cutThroughTiming s.cfg lanes rate s.inst.pixclk
             else legacyTiming s.cfg (effectiveFormat s f) width 4 4 lanes rate s.inst.pixclk) ∧
      (s.inst.tpgEnabled = true → s.inst.tpgPkt2pkt ≠ 0 → pkt2pkt = s.inst.tpgPkt2pkt) ∧
      (s.inst.tpgEnabled = true → ∀ rate, s.inst.tpgPkt2pkt = 0 → s.inst.laneRate = some rate →
        pkt2pkt = Config.pkt2pkt rate s.inst.pixclk 2) := by
  obtain ⟨tm, pkt2pkt, hbody, hnative, hbridged, hsupplied, hcomputed⟩ :=
    ipiInit_open (width := width) (height := height) (cut := cut) (adv := adv) (h.isOpen.inFlight true) hch hin hfmt rfl
  refine ⟨tm, pkt2pkt, ?_, hnative, hbridged, hsupplied, hcomputed⟩
  have hrun : exec i s = runConfig (fun s => okUnit (ipiInit ch width height fmt cut adv s)) s := by
    rcases hi with rfl | ⟨hb, rfl, rfl, rfl⟩
    · rfl
    · exact (command_bridged hb _).trans (runConfig_congr rfl rfl)
  rw [hrun]
  refine runConfig_okUnit_ran (body := ipiInit ch width height fmt cut adv) h.idle.1
    (by rw [initDone_rest]; exact h.idle.1) ?_
  rw [hbody, ← initDone_setInFlight]
  rfl

/-- Settles O42: each register reads as its stage left it (`initDone_get`, `initProgrammed_get`). -/
theorem initProgramsTheChannel : Obligations.InitProgramsTheChannel := by
  unfold Obligations.InitProgramsTheChannel
  intro s i ch width height fmt f cut adv h hch hin hfmt hi c eff dt vc
  obtain ⟨tm, pkt2pkt, hrun, hnative, hbridged, hsupplied, hcomputed⟩ := exec_init h hch hin hfmt hi
  change exec i s = .next (completeOk .unit (initDone ch eff cut tm pkt2pkt adv s)) at hrun
  have hrest := initDone_rest ch eff cut tm pkt2pkt adv s
  have hget := initDone_get ch eff cut tm pkt2pkt adv s
  simp only [initProgrammed_get, timingWritten_formatWritten_get] at hget
  have hinst : (initDone ch eff cut tm pkt2pkt adv s).inst = initAttributes ch eff s := congrArg State.inst hrest
  have hphase : ∀ k, phaseOf (initDone ch eff cut tm pkt2pkt adv s) k = if k = ch then .configured else phaseOf s k :=
    fun k => by
      rw [hrest]
      exact tblGet_tblPut ..
  refine ⟨_, tm, hrun, rfl, hnative, hbridged, ?rest, (hphase ch).trans (if_pos rfl), fun k hk => (hphase k).trans (if_neg hk),
    ?dataType, ?memFlush, ?mode, ?hsa, ?hbp, ?hsd, ?adv, ?softrstn, (initDone_wrote ch eff cut tm pkt2pkt adv s).writtenSince,
    ⟨_, initDone_trace ch eff cut tm pkt2pkt adv s⟩, fun htpg => ⟨?plainInst, fun r hr => ?plainBank⟩,
    fun htpg => ⟨?tpgInst, ?tpgConfig, fun h0 => ?supplied, fun rate h0 hrate => ?computed, fun r hr => ?tpgBank⟩,
    fun a => congrArg (fun w => Memory.read w.draw w.t a) hrest⟩
  case rest =>
    rw [hrest]
    rfl
  case dataType => simpa using hget (.ipi ch .dataType)
  case memFlush => simpa using hget (.ipi ch .memFlush)
  case mode => simpa [bit] using hget (.ipi ch .mode)
  case hsa => simpa using hget (.ipi ch .hsaTime)
  case hbp => simpa using hget (.ipi ch .hbpTime)
  case hsd => simpa using hget (.ipi ch .hsdTime)
  case adv => simpa using hget (.ipi ch .advFeatures)
  case softrstn => exact hget .ipiSoftrstn
  case plainInst => exact hinst.trans (if_neg (by simp [htpg]))
  case plainBank =>
    simp only [List.mem_cons, List.not_mem_nil, or_false, not_or] at hr
    simp [hget, hr, htpg]
  case tpgInst => exact hinst.trans (if_pos htpg)
  case tpgConfig =>
    exact (hget .tpgConfig).trans ((if_neg nofun).trans ((if_neg nofun).trans (if_pos ⟨rfl, htpg⟩)))
  case supplied => simpa [Bank.get, htpg, hsupplied htpg h0] using hget .tpgPkt2pkt
  case computed => simpa [Bank.get, htpg, hcomputed htpg rate h0 hrate] using hget .tpgPkt2pkt
  case tpgBank =>
    simp only [List.mem_cons, List.not_mem_nil, or_false, not_or] at hr
    simp [hget, hr]

end Sys2Proof.Machine
end

section
/-! SUPPORT. The table of `ch_state` transitions (O49; 44_ipi.md R216): with no other agent acting, accesses keep every phase, so
only the last step of a channel operation moves one, and those steps are the rows of the table. -/

namespace Sys2Proof.Machine

/-! ## What keeps every phase -/

/-- No other agent acts, and every channel is in the phase it was in. -/
structure PhasesKept (s₀ s : State) : Prop where
  quiet : Quiet s
  ch : s.ch = s₀.ch

namespace PhasesKept

variable {s₀ s : State} {E : Prop} (h : PhasesKept s₀ s)
include h

theorem phase (k : Nat) : phaseOf s k = phaseOf s₀ k := by
  rw [phaseOf, h.ch, phaseOf]

theorem setDphy (v : DphyState) : PhasesKept s₀ (s.setDphy v) := ⟨h.quiet, h.ch⟩

theorem setInst (v : Instance) : PhasesKept s₀ (s.setInst v) := ⟨h.quiet, h.ch⟩

/-! ### Accesses -/

theorem rd (l : Loc) : (rd l s).Spec (PhasesKept s₀) E True := by
  unfold Machine.rd readVia
  split
  · rw [configTick_quiet h.quiet, Res.andThen_ok]
    exact ⟨(readState_env s l).trans h.quiet, (readState_ch s l).trans h.ch⟩
  · trivial

theorem wr (l : Loc) (v : Word) : (wr l v s).Spec (PhasesKept s₀) E True := by
  unfold Machine.wr writeVia
  split
  · rw [configTick_quiet h.quiet, Res.andThen_ok]
    exact ⟨(wroteState_env s l v).trans h.quiet, (wroteState_ch s l v).trans h.ch⟩
  · trivial

theorem upd (f : Field) (n : Nat) : (upd f n s).Spec (PhasesKept s₀) E True :=
  (h.rd _).andThen fun _ _ h => h.wr _ _

theorem softResetPulse (ch : Nat) : (softResetPulse configTick ch s).Spec (PhasesKept s₀) E True :=
  (h.upd _ _).andThen fun _ _ h => h.upd _ _

/-! ### Register access and wrapper -/

theorem memRead (space : PReg → Loc) (offset : Nat) : (memRead space offset s).Spec (PhasesKept s₀) E True := by
  unfold Machine.memRead atOffset
  split
  · split
    · exact (h.rd _).mapValue
    · trivial
  · trivial

theorem memWrite (space : PReg → Loc) (offset : Nat) (v : Word) :
    (memWrite space offset v s).Spec (PhasesKept s₀) E True := by
  unfold Machine.memWrite atOffset
  split
  · split
    · exact (h.wr _ _).okUnit
    · trivial
  · trivial

theorem withPhy_upd (id : Nat) (f : Field) (n : Nat) : (withPhy id (Machine.upd f n) s).Spec (PhasesKept s₀) E True :=
  withPhy_spec (.inl trivial) fun _ => h.upd f n

theorem wrapForceRxMode (id lanes : Nat) (force : Bool) :
    (wrapForceRxMode id lanes force s).Spec (PhasesKept s₀) E True := by
  refine withPhy_spec (.inl trivial) fun _ => withLanes_spec (.inl trivial) ((h.upd _ _).andThen fun _ _ h => ?_)
  split
  · exact h.upd _ _
  · exact h

theorem wrapGetLaneMode (id : Nat) : (wrapGetLaneMode id s).Spec (PhasesKept s₀) E True :=
  withPhy_spec (.inl trivial) fun _ => (h.rd _).andThen fun _ _ h => h

theorem wrapSetHsfreqrange (id rate : Nat) : (wrapSetHsfreqrange id rate s).Spec (PhasesKept s₀) True True := by
  refine withPhy_spec (.inl trivial) fun _ => ?_
  split
  · exact h.upd _ _
  · exact ⟨trivial, h⟩

/-- The frequency range inside a power-up, which records a rate out of range (R143, R147). -/
theorem rangeOrReset (id rate : Nat) :
    ((Machine.wrapSetHsfreqrange id rate s).onErr fun e s => raise e (s.setDphy .reset)).Spec (PhasesKept s₀) True True :=
  (h.wrapSetHsfreqrange id rate).onErr fun _ _ _ h => ⟨trivial, h.setDphy _⟩

/-! ### Power sequencer -/

theorem dphyReset : (dphyReset s).Spec (PhasesKept s₀) E True :=
  (h.upd _ _).andThen fun _ _ h => (h.upd _ _).andThen fun _ _ h => (h.upd _ _).andThen fun _ _ h => h.setDphy _

theorem pollStop (fuel n : Nat) : (pollStop fuel n s).Spec (PhasesKept s₀) True True := by
  induction fuel generalizing s with
  | zero => exact ⟨trivial, h⟩
  | succ fuel ih =>
    refine (h.rd _).andThen fun v s h => ?_
    split
    · exact h
    · exact ih h

theorem dphyWaitStopstate (n : Nat) : (dphyWaitStopstate n s).Spec (PhasesKept s₀) True True :=
  blocking_spec (.inl trivial) (withLanes_spec (.inl trivial) (h.pollStop _ n))

theorem waitOrTimeout (n : Nat) : (waitOrTimeout n s).Spec (PhasesKept s₀) True True :=
  (h.dphyWaitStopstate n).onErr fun _ _ _ h => ⟨trivial, h.setDphy _⟩

theorem dphyPowerupStd (id lanes rate : Nat) : (dphyPowerupStd id lanes rate s).Spec (PhasesKept s₀) True True := by
  refine blocking_spec (.inl trivial) (withPhy_spec (.inl trivial) fun _ => withLanes_spec (.inl trivial) ?_)
  refine ((h.setDphy _).upd _ _).andThen fun _ _ h => (h.upd _ _).andThen fun _ _ h => ?_
  refine (h.rangeOrReset id rate).andThen fun _ _ h => (h.withPhy_upd id _ 1).andThen fun _ _ h => ?_
  refine (h.upd _ _).andThen fun _ _ h => (h.upd _ _).andThen fun _ _ h => ?_
  exact ((h.setDphy _).waitOrTimeout lanes).andThen fun _ _ h => h.setDphy _

theorem dphyTestWrite (id code data : Nat) (other : Bool) :
    (dphyTestWrite id other code data s).Spec (PhasesKept s₀) E True := by
  refine (h.withPhy_upd id _ _).andThen fun _ _ h => (h.withPhy_upd id _ _).andThen fun _ s h => ?_
  rw [configTick_quiet h.quiet]
  exact ⟨h.quiet, h.ch⟩

theorem updBoth (f : PField) (n : Nat) : (updBoth f n s).Spec (PhasesKept s₀) E True :=
  (h.upd _ _).andThen fun _ _ h => h.upd _ _

theorem mergeGuard (id : Nat) : (mergeGuard id s).Spec (PhasesKept s₀) True True := by
  unfold Machine.mergeGuard
  split
  · refine (h.wrapGetLaneMode id).andThen fun merged s h => ?_
    cases merged with
    | true => exact ⟨trivial, h⟩
    | false => exact h
  · exact h

theorem dphyPowerupMerged (id lanes rate : Nat) : (dphyPowerupMerged id lanes rate s).Spec (PhasesKept s₀) True True := by
  refine blocking_spec (.inl trivial) (withPhy_spec (.inl trivial) fun _ => withLanes_spec (.inl trivial) ?_)
  refine (h.mergeGuard id).andThen fun _ _ h => ((h.setDphy _).withPhy_upd id _ _).andThen fun _ _ h => ?_
  refine (h.updBoth _ _).andThen fun _ _ h => (h.updBoth _ _).andThen fun _ _ h => ?_
  refine (h.rangeOrReset _ rate).andThen fun _ _ h => (h.wrapSetHsfreqrange _ rate).andThen fun _ _ h => ?_
  refine (forEach_spec h fun m _ _ h => h.dphyTestWrite id _ _ _).andThen fun _ _ h => ?_
  refine (h.updBoth _ _).andThen fun _ _ h => (h.updBoth _ _).andThen fun _ _ h => ?_
  refine ((h.setDphy _).waitOrTimeout 2).andThen fun _ _ h => (h.waitOrTimeout 4).andThen fun _ _ h => ?_
  exact h.setDphy _

theorem dphyPowerup : (dphyPowerup s).Spec (PhasesKept s₀) True True := by
  refine blocking_spec (.inl trivial) ?_
  split
  · split
    · exact h.dphyPowerupMerged ..
    · exact h.dphyPowerupStd ..
  · trivial

/-! ### Channel configuration and masks -/

theorem maybeUpd (f : Field) (n : Nat) : (maybeUpd f n s).Spec (PhasesKept s₀) E True := by
  have h' : PhasesKept s₀ (s.setChoice (s.choice + 1)) := ⟨h.quiet, h.ch⟩
  unfold Machine.maybeUpd
  split
  · exact h'.upd f n
  · exact h'

theorem ipiSetVcCfg (ch vcId : Nat) (embEn : Bool) (mode : VcMode) :
    (ipiSetVcCfg ch vcId embEn mode s).Spec (PhasesKept s₀) True True := by
  refine withChannel_spec rfl trivial h fun _ => ?_
  split
  · refine (h.maybeUpd _ _).andThen fun _ _ h => (h.maybeUpd _ _).andThen fun _ _ h => ?_
    exact ⟨trivial, h⟩
  · exact (h.upd _ _).andThen fun _ _ h => (h.upd _ _).andThen fun _ _ h => h.upd _ _

theorem ipiSetVcCfgWord (ch vcId code : Nat) (embEn : Bool) :
    (ipiSetVcCfgWord ch vcId embEn code s).Spec (PhasesKept s₀) True True := by
  refine withChannel_spec rfl trivial h fun _ => ?_
  split
  · exact h.ipiSetVcCfg ..
  · exact ipiSetVcCfg (s := s.setChoice (s.choice + 1)) ⟨h.quiet, h.ch⟩ ..

theorem dumpEntries (ch : Nat) (mask : BitVec 8) (l : List Nat) :
    (dumpEntries ch mask l s).Spec (PhasesKept s₀) E True := by
  induction l generalizing s with
  | nil => exact h
  | cons i l ih =>
    refine Res.Spec.andThen ?_ fun _ _ h => (ih h).mapValue
    unfold dumpEntry
    split
    · split
      · exact (h.rd _).mapValue
      · split
        · exact (h.rd _).mapValue
        · exact h
    · exact h

theorem ipiRegSet (ch : Nat) (mask : BitVec 8) (vals : List Word) :
    (ipiRegSet ch mask vals s).Spec (PhasesKept s₀) True True := by
  refine withChannel_spec rfl trivial h fun _ => forEach_spec h fun i _ s h => ?_
  split
  · exact h.wr _ _
  · exact h

theorem irqDisableByMask (bitmask : Nat) : (irqDisableByMask bitmask s).Spec (PhasesKept s₀) E True := by
  refine (forEach_spec h fun k _ s h => ?_).mapValue
  split
  · exact h.wr _ _
  · exact h

end PhasesKept

/-! ## The rows of the table -/

/-- An outcome that leaves the phases of a table in case of `Ok`, and those of `s₀` in case of `Err`. -/
def Res.Phases {α : Type} (s₀ : State) (table : Nat → ChState) : Res α → Prop
  | .ok _ u => ∀ k, phaseOf u k = table k
  | .err _ u => u.ch = s₀.ch
  | .stop _ => True

section
variable {α β : Type} {s₀ s : State} {table : Nat → ChState}

theorem Res.Spec.phases {r : Res α} (h : r.Spec (PhasesKept s₀) True True) : r.Phases s₀ (phaseOf s₀) := by
  cases r with
  | ok a u => exact h.phase
  | err e u => exact h.2.ch
  | stop f => trivial

/-- After steps that raise no error and keep the phases. -/
theorem Res.Phases.andThen {r : Res α} {f : α → State → Res β} (h : r.Spec (PhasesKept s₀) False True)
    (hf : ∀ a u, PhasesKept s₀ u → (f a u).Phases s₀ table) : (r.andThen f).Phases s₀ table := by
  cases r with
  | ok a u => exact hf a u h
  | err e u => exact h.1.elim
  | stop f => trivial

theorem Res.Phases.okUnit {r : Res Unit} (h : r.Phases s₀ table) : (okUnit r).Phases s₀ table := by
  cases r <;> exact h

theorem withChannel_phases {ch : Nat} {body : State → Res α} (h : PhasesKept s₀ s) (hb : (body s).Phases s₀ table) :
    (withChannel ch body s).Phases s₀ table := by
  unfold withChannel
  split
  · exact h.ch
  · exact hb

theorem withFormat_phases {fmt : Nat} {body : Format → State → Res α} (h : PhasesKept s₀ s)
    (hb : ∀ f, (body f s).Phases s₀ table) : (withFormat fmt body s).Phases s₀ table := by
  unfold withFormat
  split
  · exact hb _
  · exact h.ch

/-- The last step of a channel operation. -/
theorem setPhase_phases (h : PhasesKept s₀ s) (ch : Nat) (v : ChState) :
    (Res.ok () (setPhase ch v s)).Phases s₀ fun k => if k = ch then v else phaseOf s₀ k := fun k => by
  rw [phaseOf_setPhase, h.phase]

variable (h : PhasesKept s₀ s)
include h

theorem initTiming_keepsPhases (eff : Format) (width : Nat) (cut : Bool) :
    (initTiming eff width cut s).Spec (PhasesKept s₀) False True := by
  unfold initTiming
  split
  · exact h
  · split
    · exact withTimingInputs_spec (.inl trivial) fun _ _ => h
    · exact withTimingInputs_spec (.inl trivial) fun _ _ => h

theorem programTpg_keepsPhases (ch : Nat) (dt : BitVec 6) : (programTpg ch dt s).Spec (PhasesKept s₀) False True := by
  refine (h.rd _).andThen fun v s h => ?_
  refine ((h.setInst _).upd _ _).andThen fun _ _ h => (h.upd _ _).andThen fun _ _ h => (h.upd _ _).andThen fun _ s h => ?_
  refine Res.Spec.andThen ?_ fun _ _ h => h.upd _ _
  unfold pkt2pktTime
  split
  · exact h
  · exact withTimingInputs_spec (.inl trivial) fun _ _ => h

theorem ipiInit_phases (ch width height fmt : Nat) (cut : Bool) (adv : Word) :
    (ipiInit ch width height fmt cut adv s).Phases s₀ fun k => if k = ch then .configured else phaseOf s₀ k := by
  refine withChannel_phases h (withFormat_phases h fun f => ?_)
  refine .andThen (h.upd _ _) fun _ _ h => .andThen (h.upd _ _) fun _ _ h => ?_
  refine .andThen (h.upd _ _) fun _ _ h => .andThen (h.upd _ _) fun _ _ h => ?_
  refine .andThen (initTiming_keepsPhases h _ _ _) fun _ _ h => ?_
  refine .andThen ((h.upd _ _).andThen fun _ _ h => (h.upd _ _).andThen fun _ _ h => h.upd _ _) fun _ _ h => ?_
  refine .andThen ?_ fun _ _ h => ?_
  · split
    · exact programTpg_keepsPhases h _ _
    · exact h
  refine .andThen (h.wr _ _) fun _ _ h => .andThen (h.softResetPulse ch) fun _ _ h => ?_
  exact setPhase_phases h ch .configured

theorem switchOptional_keepsPhases (n : Nat) : (switchOptional n s).Spec (PhasesKept s₀) False True := by
  refine Res.Spec.andThen ?_ fun _ _ h => ?_
  · split
    · exact h.upd _ _
    · exact h
  · split
    · exact h.upd _ _
    · exact h

theorem ipiStart_phases (ch : Nat) :
    (ipiStart ch s).Phases s₀ fun k => if k = ch then .enabled else phaseOf s₀ k :=
  withChannel_phases h <| .andThen (h.upd _ _) fun _ _ h => .andThen (switchOptional_keepsPhases h 1) fun _ _ h =>
    setPhase_phases h ch .enabled

theorem ipiStop_phases (ch : Nat) :
    (ipiStop ch s).Phases s₀ fun k => if k = ch then .disabled else phaseOf s₀ k :=
  withChannel_phases h <| .andThen (h.upd _ _) fun _ _ h => .andThen (switchOptional_keepsPhases h 0) fun _ _ h =>
    .andThen (h.upd _ _) fun _ _ h => setPhase_phases h ch .disabled

theorem ipiResetAndDown_phases (ch : Nat) (enable : Bool) : (ipiResetAndDown ch enable s).Phases s₀ fun k =>
    if k = ch then (if enable then .enabled else .disabled) else phaseOf s₀ k := by
  refine withChannel_phases h ?_
  cases enable with
  | true => exact .andThen (h.upd _ _) fun _ _ h => .andThen (h.upd _ _) fun _ _ h => setPhase_phases h ch .enabled
  | false => exact .andThen (h.upd _ _) fun _ _ h => .andThen (h.upd _ _) fun _ _ h => setPhase_phases h ch .disabled

theorem overflowReset_phases (ch : Nat) : (overflowReset ch s).Phases s₀ fun k =>
    if k = ch ∧ phaseOf s₀ k = .enabled then .configured else phaseOf s₀ k := by
  unfold overflowReset overflowResetWith
  refine withChannel_phases h ?_
  refine .andThen (h.upd (.p (.manualFlush ch)) 1) fun _ _ h => .andThen (h.softResetPulse ch) fun _ _ h => ?_
  refine .andThen (h.wr _ _) fun _ u h k => ?_
  rw [h.phase]
  by_cases he : phaseOf s₀ ch = .enabled
  · rw [if_pos he, phaseOf_setPhase, h.phase]
    by_cases hk : k = ch
    · rw [if_pos hk, if_pos ⟨hk, hk ▸ he⟩]
    · rw [if_neg hk, if_neg fun hc => hk hc.1]
  · have hrow : ¬ (k = ch ∧ phaseOf s₀ k = .enabled) := by
      rintro ⟨rfl, hk⟩
      exact he hk
    rw [if_neg he, h.phase, if_neg hrow]

end

/-! ## The table -/

/-- R216, resume apart: the phase of channel `k` after instruction `i` ended in `Ok`. -/
def nextPhase (s : State) (i : Instr) (k : Nat) : ChState :=
  match i with
  | .ipiInit ch _ _ _ _ _ => if k = ch then .configured else phaseOf s k
  | .ipiStart ch => if k = ch then .enabled else phaseOf s k
  | .ipiStop ch => if k = ch then .disabled else phaseOf s k
  | .ipiResetAndDown ch enable => if k = ch then (if enable then .enabled else .disabled) else phaseOf s k
  | .ipiOverflowReset ch => if k = ch ∧ phaseOf s k = .enabled then .configured else phaseOf s k
  | .cmdSetFormat ch _ _ _ => if k = ch ∧ s.inst.isNative = false then .configured else phaseOf s k
  | .cmdSetState ch start =>
    if k = ch ∧ s.inst.isNative = false then (if start then .enabled else .disabled) else phaseOf s k
  | _ => phaseOf s k

/-- A command whose operation has no row. -/
theorem command_keepsPhases {s₀ s : State} {body : State → Res Unit} (h : PhasesKept s₀ s)
    (hb : (body s).Spec (PhasesKept s₀) True True) :
    (if s.inst.isNative then .ok .unit s else okUnit (body s) : Res Value).Phases s₀ (phaseOf s₀) :=
  (native_spec h hb).phases

/-- A command whose operation has one: a native command is a no-op (R270). -/
theorem command_phases {s : State} {ch : Nat} {v : ChState} {r : Res Unit}
    (hr : r.Phases s fun k => if k = ch then v else phaseOf s k) :
    (if s.inst.isNative then .ok .unit s else okUnit r : Res Value).Phases s
      fun k => if k = ch ∧ s.inst.isNative = false then v else phaseOf s k := by
  cases hn : s.inst.isNative with
  | true =>
    rw [if_pos rfl]
    intro k
    simp
  | false => simpa using hr.okUnit

/-- Every row of the table, instruction by instruction. -/
theorem bodyOf_phases {s : State} (hq : Quiet s) (i : Instr) (hh : i ≠ .irqHandle) (hs : i ≠ .pwrSuspend) (hr : i ≠ .pwrResume) :
    (bodyOf i s).Phases s (nextPhase s i) := by
  have h : PhasesKept s s := ⟨hq, rfl⟩
  cases i with
  | irqHandle => exact absurd rfl hh
  | pwrSuspend => exact absurd rfl hs
  | pwrResume => exact absurd rfl hr
  | ipiInit => exact (ipiInit_phases h ..).okUnit
  | ipiStart => exact (ipiStart_phases h _).okUnit
  | ipiStop => exact (ipiStop_phases h _).okUnit
  | ipiResetAndDown => exact (ipiResetAndDown_phases h _ _).okUnit
  | ipiOverflowReset => exact (overflowReset_phases h _).okUnit
  | cmdSetFormat => exact command_phases (ipiInit_phases h ..)
  | cmdSetState ch start =>
    cases start with
    | true => exact command_phases (ipiStart_phases h ch)
    | false => exact command_phases (ipiStop_phases h ch)
  | cmdSetVcCfg ch vcId embEn code =>
    refine command_keepsPhases (body := cmdSetVcCfg ch vcId embEn code) h ?_
    unfold cmdSetVcCfg
    split
    · exact h.ipiSetVcCfg ..
    · exact ⟨trivial, h⟩
  | cmdSetLanes inst lanes =>
    refine command_keepsPhases (body := cmdSetLanes lanes) h ?_
    unfold cmdSetLanes
    split
    · exact ⟨trivial, h⟩
    · exact (h.setInst _).upd _ _
  | cmdSetLaneRate inst rate =>
    refine command_keepsPhases (body := cmdSetLaneRate rate) h ?_
    unfold cmdSetLaneRate
    split
    · exact ⟨trivial, h⟩
    · split
      · exact ⟨trivial, h⟩
      · exact (h.setInst _).dphyPowerup
  | cmdSetTpgMode inst enable pkt2pkt =>
    exact command_keepsPhases (body := cmdSetTpgMode enable pkt2pkt) h (h.setInst _)
  | cmdSetBypass inst bypass => exact command_keepsPhases (body := cmdSetBypass bypass) h (h.setInst _)
  | cmdResetControl =>
    exact command_keepsPhases (body := cmdResetControl) h ((h.upd _ _).andThen fun _ _ h => h.upd _ _)
  | regRead => exact (h.memRead _ _).phases
  | regWrite => exact (h.memWrite _ _ _).phases
  | regReadExt => exact (h.memRead _ _).phases
  | regWriteExt => exact (h.memWrite _ _ _).phases
  | wrapEnableClock id => exact (h.withPhy_upd id _ _).okUnit.phases
  | wrapForceRxMode => exact (h.wrapForceRxMode ..).okUnit.phases
  | wrapGetLaneMode => exact (h.wrapGetLaneMode _).mapValue.phases
  | wrapSetLaneMode id => exact (h.withPhy_upd id _ _).okUnit.phases
  | wrapSetHsfreqrange => exact (h.wrapSetHsfreqrange ..).okUnit.phases
  | wrapEnablePpipgClk => exact (h.upd _ _).okUnit.phases
  | wrapSetTestcode id => exact (h.withPhy_upd id _ _).okUnit.phases
  | wrapTestcodeSelOtherPhy id => exact (h.withPhy_upd id _ _).okUnit.phases
  | dphyReset => exact h.dphyReset.okUnit.phases
  | dphyPowerup => exact h.dphyPowerup.okUnit.phases
  | dphyPowerupStd => exact (h.dphyPowerupStd ..).okUnit.phases
  | dphyPowerupMerged => exact (h.dphyPowerupMerged ..).okUnit.phases
  | dphyTestWrite => exact (h.dphyTestWrite ..).okUnit.phases
  | dphyWaitStopstate => exact (h.dphyWaitStopstate _).okUnit.phases
  | timClassify => exact (timClassify_spec trivial h).mapValue.phases
  | timHsdLegacy => exact (timHsdLegacy_spec trivial (.inl trivial) h).mapValue.phases
  | timCutThrough => exact (timCutThrough_spec (.inl trivial) h).mapValue.phases
  | timPkt2pkt => exact (timPkt2pkt_spec (.inl trivial) h).mapValue.phases
  | ipiSetVcCfg => exact (h.ipiSetVcCfgWord ..).okUnit.phases
  | ipiRegDump => exact (withChannel_spec rfl trivial h fun _ => h.dumpEntries ..).mapValue.phases
  | ipiRegSet => exact (h.ipiRegSet ..).okUnit.phases
  | irqEnable => exact (forEach_spec h fun _ _ _ h => h.wr _ _).okUnit.phases
  | irqDisable => exact (forEach_spec h fun _ _ _ h => h.wr _ _).okUnit.phases
  | irqDisableByMask => exact (h.irqDisableByMask _).mapValue.phases

/-- A resume that fails has enabled and disabled clocks alone (R283). -/
theorem pwrResume_phases (s : State) : ∃ table, (okUnit (pwrResume s)).Phases s table := by
  have hclocks : (enableClocks enableOrder [] s).Spec (fun u => u.ch = s.ch) True True :=
    enableClocks_spec (fun _ _ h => h) trivial _ _ rfl
  unfold pwrResume
  cases hr : enableClocks enableOrder [] s with
  | ok a u => exact ⟨_, fun _ => rfl⟩
  | err e u =>
    rw [hr] at hclocks
    exact ⟨phaseOf s, hclocks.2⟩
  | stop f => exact ⟨phaseOf s, trivial⟩

/-- From the body's outcome to the instruction's. -/
theorem runConfig_phases {s t : State} {body : State → Res Value} {table : Nat → ChState}
    (hb : (body (s.setInFlight true)).Phases (s.setInFlight true) table) (hn : runConfig body s = .next t) :
    (∀ e, t.result = some (.err e) → t.ch = s.ch) ∧ ∀ v, t.result = some (.ok v) → ∀ k, phaseOf t k = table k := by
  unfold runConfig at hn
  split at hn
  · cases hn
  · cases hr : body (s.setInFlight true) with
    | ok v u =>
      rw [hr] at hb hn
      cases hn
      exact ⟨nofun, fun _ _ => hb⟩
    | err e u =>
      rw [hr] at hb hn
      cases hn
      exact ⟨fun _ _ => hb, nofun⟩
    | stop f =>
      rw [hr] at hn
      cases hn

/-- Settles O49. -/
theorem channelPhaseTable : Obligations.ChannelPhaseTable := by
  unfold Obligations.ChannelPhaseTable
  intro i s t hq hn hh hs
  rw [exec_eq_body, if_neg hh] at hn
  by_cases hr : i = .pwrResume
  · subst hr
    obtain ⟨table, htable⟩ := pwrResume_phases (s.setInFlight true)
    exact ⟨(runConfig_phases htable hn).1, fun _ _ h => absurd rfl h⟩
  · obtain ⟨herr, hok⟩ := runConfig_phases (bodyOf_phases (s := s.setInFlight true) hq i hh hs hr) hn
    refine ⟨herr, fun v hv _ k => ?_⟩
    have hk := hok v hv k
    cases i <;> exact hk

end Sys2Proof.Machine
end

section
/-! SUPPORT. The masks of the named categories (O51; 45_irq.md R244, R245) and the reads that consume a fault (O60; 45_irq.md
R249, 70_reset_and_hazards.md R346): masking by a bitmask is masking the categories it names, and a cleared status leaves its
category no bit in the summary. -/

namespace Sys2Proof.Machine

/-! ## IRQ_DISABLE_BY_MASK -/

/-- The id of a category is its place in the table (R27), so the bits of the bitmask are the places (R244). -/
theorem namedBy_eq_testBit {c : Cfg} (hc : LegalCfg c) {k : Nat} (hk : k < Config.numCat) (bitmask : Nat) :
    namedBy c bitmask k = bitmask.testBit k := by
  rw [namedBy, hc.catIds k hk]

/-- A category whose mask was written, at whatever place of the list. -/
theorem masksWritten_get_mem (f : Nat → Word) (l : List Nat) (s : State) {k : Nat} (hk : k ∈ l) :
    (masksWritten f l s).p.get (.intMsk k) = f k := by
  induction l generalizing s with
  | nil => cases hk
  | cons j l ih =>
    by_cases hl : k ∈ l
    · exact ih _ hl
    · obtain rfl : k = j := (List.mem_cons.mp hk).resolve_right hl
      have hlater : PReg.intMsk k ∉ l.map .intMsk := by simpa using hl
      exact (masksWritten_get_other f l _ hlater).trans (bankAfterWrite_get_same (r := .intMsk k) rfl _)

/-- Going through the categories and masking the named ones is masking the named ones in a row. -/
theorem forEach_maskNamed (bitmask : Nat) {l : List Nat} (hl : ∀ k ∈ l, k < Config.numCat) {s : State}
    (hc : LegalCfg s.cfg) (ho : Open s) :
    forEach l (fun k s => if namedBy s.cfg bitmask k then maskCategory k s else .ok () s) s
      = .ok () (masksWritten (fun _ => 0) (l.filter bitmask.testBit) s) := by
  induction l generalizing s with
  | nil => rfl
  | cons k l ih =>
    have hl' : ∀ j ∈ l, j < Config.numCat := fun j hj => hl j (List.mem_cons_of_mem _ hj)
    rw [forEach_cons, namedBy_eq_testBit hc (hl k (List.mem_cons_self ..))]
    cases hk : bitmask.testBit k with
    | true =>
      rw [List.filter_cons_of_pos hk, if_pos rfl, maskCategory, wr_open ho, Res.andThen_ok]
      exact ih hl' (by simpa using hc) (by simpa using ho)
    | false =>
      rw [List.filter_cons_of_neg (by simp [hk]), if_neg Bool.false_ne_true, Res.andThen_ok]
      exact ih hl' hc ho

/-- The categories that a bitmask names, in table order. -/
def namedCategories (bitmask : Nat) : List Nat := (List.range Config.numCat).filter bitmask.testBit

theorem mem_namedCategories {bitmask k : Nat} :
    k ∈ namedCategories bitmask ↔ k < Config.numCat ∧ bitmask.testBit k = true := by
  simp [namedCategories]

/-- Some category is not named: the result of the operation (R245). -/
def someUnnamed (bitmask : Nat) : Bool := (List.range Config.numCat).any fun k => !bitmask.testBit k

theorem irqDisableByMask_open {s : State} (hc : LegalCfg s.cfg) (ho : Open s) (bitmask : Nat) :
    irqDisableByMask bitmask s
      = .ok (someUnnamed bitmask) (masksWritten (fun _ => 0) (namedCategories bitmask) s) := by
  have hany : ((List.range Config.numCat).any fun k => !namedBy s.cfg bitmask k) = someUnnamed bitmask := by
    rw [someUnnamed, Bool.eq_iff_iff, List.any_eq_true, List.any_eq_true]
    exact exists_congr fun k => and_congr_right fun hk => by rw [namedBy_eq_testBit hc (List.mem_range.mp hk)]
  rw [irqDisableByMask, forEach_maskNamed bitmask (fun k hk => List.mem_range.mp hk) hc ho, Res.mapValue_ok, hany]
  rfl

theorem exec_irqDisableByMask {s : State} (h : Ready s) (bitmask : Nat) :
    exec (.irqDisableByMask bitmask) s = .next
      (completeOk (.bool (someUnnamed bitmask)) (masksWritten (fun _ => 0) (namedCategories bitmask) s)) := by
  have hidle : (masksWritten (fun _ => 0) (namedCategories bitmask) s).opInFlight = false := by
    rw [masksWritten_rest]
    exact h.idle.1
  refine runConfig_ran (body := bodyOf (.irqDisableByMask bitmask)) h.idle.1 hidle ?_
  rw [← masksWritten_setInFlight]
  exact congrArg (Res.mapValue · Value.bool)
    (irqDisableByMask_open (s := s.setInFlight true) h.legal (h.isOpen.inFlight true) bitmask)

/-- Settles O51: the masks written are those of the named categories. -/
theorem disableByMaskReportsTheRest : Obligations.DisableByMaskReportsTheRest := by
  unfold Obligations.DisableByMaskReportsTheRest
  intro s bitmask h
  let u := masksWritten (fun _ => 0) (namedCategories bitmask) s
  have hrest : u = { s with p := u.p, trace := u.trace } := masksWritten_rest ..
  have unnamed : ∀ {r}, (∀ k ∈ namedCategories bitmask, r ≠ .intMsk k) → u.p.get r = s.p.get r := fun hr =>
    masksWritten_get_other _ _ s fun hmem => by
      obtain ⟨k, hk, e⟩ := List.mem_map.mp hmem
      exact hr k hk e.symm
  refine ⟨_, exec_irqDisableByMask h bitmask, rfl,
    ⟨congrArg (completeOk _) hrest, fun r hr => ?frame, fun a => congrArg (fun w => Memory.read w.draw w.t a) hrest⟩,
    fun c hc => ?mask⟩
  case frame =>
    refine unnamed fun k hk e => hr ?_
    exact List.mem_map.mpr ⟨k, List.mem_range.mpr (mem_namedCategories.mp hk).1, e.symm⟩
  case mask =>
    split
    · next hbit => exact masksWritten_get_mem _ _ s (mem_namedCategories.mpr ⟨hc, hbit⟩)
    · next hbit =>
      refine unnamed fun k hk e => hbit ?_
      cases e
      exact (mem_namedCategories.mp hk).2

/-! ## Reads that consume a fault -/

theorem intSt_mem_bankRegs (c : Cfg) {k : Nat} (hk : k < Config.numCat) : .intSt k ∈ bankRegs c := by
  refine List.mem_append_right _ (List.mem_flatMap.mpr ⟨k, List.mem_range.mpr hk, ?_⟩)
  exact List.mem_cons_self ..

/-- A category whose status is 0 has no bit in the summary (R34). -/
theorem mainStatus_and_of_status_zero {c : Cfg} (hc : LegalCfg c) {b : Bank} {k : Nat} (hk : k < Config.numCat)
    (hz : b.get (.intSt k) = 0) : mainStatus c b &&& (catEntry c k).mainbit = 0 := by
  have hst : tblGet 0 b.intSt k = 0 := hz
  refine (mainStatus_and hc b hk).mpr ?_
  rw [unmaskedPending, hst]
  simp

/-- Settles O60: the dump and the register read clear the status (O47, O14), and the summary is made of what is left. -/
theorem statusReadsConsumeFaults : Obligations.StatusReadsConsumeFaults := by
  unfold Obligations.StatusReadsConsumeFaults
  intro s ch k mask h hclr hch hk hm
  have falls : ∀ {t : State} {c : Nat}, t.cfg = s.cfg → c < Config.numCat → t.p.get (.intSt c) = 0 →
      mainStatus t.cfg t.p &&& (catEntry s.cfg c).mainbit = 0 := fun hcfg hc hz => by
    rw [hcfg]
    exact mainStatus_and_of_status_zero h.legal hc hz
  constructor
  · obtain ⟨t, _, hrun, -, -, -, -, -, hrest, hcleared, -⟩ := regDumpReturnsTheMaskedEntries s ch mask h hch
    have hz := hcleared k hk hm hclr
    have hcat : k < Config.numCat := h.legal.fatalCats.2.2 k (List.mem_of_getElem? hk)
    exact ⟨t, hrun, hz, falls (by rw [hrest]) hcat hz⟩
  · intro c hc
    obtain ⟨⟨t, _, hrun, -, -, -, -, -, hrest, hcleared, -⟩, -⟩ :=
      registerReadsReturnTheContent s (.intSt c) h (intSt_mem_bankRegs s.cfg hc)
    have hz := hcleared c rfl hclr
    exact ⟨t, hrun, hz, falls (by rw [hrest]) hc hz⟩

end Sys2Proof.Machine
end

section
/-! SUPPORT. The commands (O5, O7, O54; 46_commands.md R270 to R281): what a native instance, an unknown id and a bridged
instance do with a command record, and the states that CMD_SET_LANES and CMD_RESET_CONTROL leave. -/

namespace Sys2Proof

/-- Each arm of format MSG but the last is one id of 0..7 (R97). -/
theorem decodeMsg_of_ge {id : Word} (payload : List Word) (h : 8 ≤ id.toNat) :
    decodeMsg (id :: payload) = .unknownCommand id.toNat := by
  simp only [decodeMsg]
  generalize id.toNat = n at h ⊢
  split
  case h_9 => rfl
  all_goals exact absurd h (by decide)

end Sys2Proof

namespace Sys2Proof.Machine

/-! ## The dispatch -/

/-- Every instruction of format MSG is dispatched as a command (R270). -/
theorem exec_eq_command_of_msg {i : Instr} (h : i.port = .msg) : ∃ body, ∀ s, exec i s = command body s := by
  cases i with
  | cmdSetVcCfg | cmdSetLanes | cmdSetLaneRate | cmdSetTpgMode | cmdSetBypass | cmdSetFormat | cmdSetState
  | cmdResetControl => exact ⟨_, fun _ => rfl⟩
  | _ => cases h

section
variable {s : State} (hidle : s.opInFlight = false)
include hidle

theorem command_native (hnative : s.inst.isNative = true) (body : State → Res Unit) :
    command body s = .next (completeOk .unit s) :=
  runConfig_ran hidle hidle (if_pos hnative)

section
variable (hbridged : s.inst.isNative = false) {u : State} (hu : u.opInFlight = false) {body : State → Res Unit}
include hbridged hu

theorem command_ran (hb : body (s.setInFlight true) = .ok () (u.setInFlight true)) :
    command body s = .next (completeOk .unit u) := by
  rw [command_bridged hbridged, runConfig_okUnit_ran hidle hu hb]

theorem command_failed {e : Err} (hb : body (s.setInFlight true) = .err e (u.setInFlight true)) :
    command body s = .next (takeError e u) := by
  rw [command_bridged hbridged, runConfig_okUnit_failed hidle hu hb]

end

theorem unknownCommand_eq : unknownCommand s =
    .next (s.setResult (some (if s.inst.isNative then .ok .unit else .err .invalidArgument))) := by
  rw [unknownCommand]
  cases hnative : s.inst.isNative with
  | true => exact command_native hidle hnative _
  | false => exact command_failed hidle hnative hidle (raise_eq ..)

end

/-- Settles O7: each of the eight is dispatched as a command, whose body a native instance does not run. -/
theorem nativeInstanceIgnoresCommands : Obligations.NativeInstanceIgnoresCommands := by
  unfold Obligations.NativeInstanceIgnoresCommands
  intro i s hport hnative hidle
  obtain ⟨body, hbody⟩ := exec_eq_command_of_msg hport
  exact (hbody s).trans (command_native hidle hnative body)

/-- Settles O5: the record decodes to its unknown id, which ends as `unknownCommand_eq` says, once it is taken. -/
theorem unknownCommandIdIsRejected : Obligations.UnknownCommandIdIsRejected := by
  unfold Obligations.UnknownCommandIdIsRejected
  intro s later id payload hid hidle hinbox
  rw [step_of_inbox_cons hinbox, decode_msg_bytesOfWords, decodeMsg_of_ge payload hid]
  exact unknownCommand_eq (s := s.setInbox later) hidle

/-! ## One field of P -/

/-- An update of a field of P leaves every register but the field's own. -/
theorem updState_sameBut (s : State) (f : PField) (n : Nat) : Bank.SameBut s.p (updState s (.p f) n).p [f.reg] :=
  fun r hr => by rw [updState_p_get, if_neg fun e => hr (List.mem_singleton.mpr e)]

theorem Bank.SameBut.trans {a b c : Bank} {regs : List PReg} (h : Bank.SameBut a b regs) (h' : Bank.SameBut b c regs) :
    Bank.SameBut a c regs := fun r hr => (h' r hr).trans (h r hr)

/-! ## CMD_SET_LANES -/

/-- The state after CMD_SET_LANES: the attribute, then N_LANES (R272). -/
def lanesStored (lanes : Nat) (s : State) : State :=
  updState (s.setInst { s.inst with lanes := some lanes }) (.p .nLanes) (lanesEnc s.cfg lanes)

theorem cmdSetLanes_open {s : State} (ho : Open s) {lanes : Nat} (h1 : 1 ≤ lanes) (h4 : lanes ≤ 4) :
    cmdSetLanes lanes s = .ok () (lanesStored lanes s) := by
  have hinst : Open (s.setInst { s.inst with lanes := some lanes }) := ho
  rw [cmdSetLanes, if_neg (by omega), upd_open hinst, lanesStored]

theorem cmdSetLanes_outOfRange {lanes : Nat} (h : lanes < 1 ∨ 4 < lanes) (s : State) :
    cmdSetLanes lanes s = .err .invalidArgument s := by
  rw [cmdSetLanes, if_pos h, raise_eq]

section
variable (lanes : Nat) (s : State)

theorem lanesStored_setInFlight (b : Bool) : lanesStored lanes (s.setInFlight b) = (lanesStored lanes s).setInFlight b := rfl

theorem lanesStored_rest : lanesStored lanes s = { s with
    inst := { s.inst with lanes := some lanes }, p := (lanesStored lanes s).p, trace := (lanesStored lanes s).trace } := rfl

theorem lanesStored_sameBut : Bank.SameBut s.p (lanesStored lanes s).p [.nLanes] :=
  updState_sameBut (s.setInst { s.inst with lanes := some lanes }) .nLanes (lanesEnc s.cfg lanes)

theorem lanesStored_nLanes :
    (lanesStored lanes s).p.nLanes = setField s.p.nLanes s.cfg.map.fNLanes (lanesEnc s.cfg lanes) := rfl

end

/-! ## CMD_RESET_CONTROL -/

/-- The state after CMD_RESET_CONTROL: the reset line held, then released (R278). -/
def resetPulsed (s : State) : State := updState (updState s (.p .resetn) 0) (.p .resetn) 1

theorem cmdResetControl_open {s : State} (ho : Open s) : cmdResetControl s = .ok () (resetPulsed s) := by
  rw [cmdResetControl, upd_open ho, Res.andThen_ok, upd_open ((open_updState ..).mpr ho), resetPulsed]

section
variable (s : State)

theorem resetPulsed_setInFlight (b : Bool) : resetPulsed (s.setInFlight b) = (resetPulsed s).setInFlight b := by
  simp only [resetPulsed, updState_setInFlight]

theorem resetPulsed_rest : resetPulsed s = { s with p := (resetPulsed s).p, trace := (resetPulsed s).trace } := rfl

theorem resetPulsed_sameBut : Bank.SameBut s.p (resetPulsed s).p [.csi2Resetn] :=
  (updState_sameBut s .resetn 0).trans (updState_sameBut (updState s (.p .resetn) 0) .resetn 1)

/-- The second update finds the line as the first left it, so the register holds what a single release gives. -/
theorem resetPulsed_csi2Resetn :
    (resetPulsed s).p.csi2Resetn = setField s.p.csi2Resetn s.cfg.map.fResetn 1 :=
  setField_setField ..

theorem resetPulsed_trace : (resetPulsed s).trace = s.trace ++ ([.rd (.p .csi2Resetn) s.p.csi2Resetn,
    .wr (.p .csi2Resetn) (setField s.p.csi2Resetn s.cfg.map.fResetn 0),
    .rd (.p .csi2Resetn) (setField s.p.csi2Resetn s.cfg.map.fResetn 0),
    .wr (.p .csi2Resetn) (setField s.p.csi2Resetn s.cfg.map.fResetn 1)] : List Access) := by
  have hreleased : updValue (updState s (.p .resetn) 0) (.p .resetn) 1 = setField s.p.csi2Resetn s.cfg.map.fResetn 1 :=
    setField_setField ..
  rw [resetPulsed, updState_trace, updState_trace, hreleased, List.append_assoc]
  rfl

end

/-! ## The bridged commands -/

/-- Settles O54: each command stores its attribute, and the two that reach a register leave the states named above. -/
theorem attributeAndResetCommands : Obligations.AttributeAndResetCommands := by
  unfold Obligations.AttributeAndResetCommands
  intro s a h hbridged
  have hidle : s.opInFlight = false := h.idle.1
  have ho : Open (s.setInFlight true) := h.isOpen.inFlight true
  refine ⟨fun lanes h1 h4 => ?lanes, fun lanes hbad => ?badLanes, fun enable pkt2pkt => ?tpgMode, fun bypass => ?bypass,
    ?reset⟩
  case lanes =>
    have hrun : exec (.cmdSetLanes a lanes) s = .next (completeOk .unit (lanesStored lanes s)) :=
      command_ran (body := cmdSetLanes lanes) hidle hbridged (u := lanesStored lanes s) hidle
        (by rw [cmdSetLanes_open ho h1 h4, lanesStored_setInFlight])
    exact ⟨_, hrun, rfl, congrArg (completeOk .unit) (lanesStored_rest lanes s), lanesStored_sameBut lanes s,
      lanesStored_nLanes lanes s, fun _ => rfl⟩
  case badLanes => exact command_failed hidle hbridged hidle (cmdSetLanes_outOfRange hbad _)
  case tpgMode =>
    exact command_ran (body := cmdSetTpgMode enable pkt2pkt) hidle hbridged
      (u := s.setInst { s.inst with tpgEnabled := enable, tpgPkt2pkt := pkt2pkt }) hidle rfl
  case bypass =>
    exact command_ran (body := cmdSetBypass bypass) hidle hbridged
      (u := s.setInst { s.inst with bypass := bypass }) hidle rfl
  case reset =>
    have hrun : exec (.cmdResetControl a) s = .next (completeOk .unit (resetPulsed s)) :=
      command_ran (body := cmdResetControl) hidle hbridged (u := resetPulsed s) hidle
        (by rw [cmdResetControl_open ho, resetPulsed_setInFlight])
    exact ⟨_, hrun, rfl, onlyP_done (resetPulsed_rest s) (resetPulsed_sameBut s) .unit, resetPulsed_csi2Resetn s,
      resetPulsed_trace s⟩

end Sys2Proof.Machine
end

section
/-! SUPPORT. No listed operation errs and nothing stops the block, among any other agents (O12, O13; 60_exceptions.md R304,
R313, R314): what an instruction can do (`exec_spec`), once with every fault allowed and `Err` only off the list, and once with
no fault allowed at all. -/

namespace Sys2Proof.Machine

/-! ## The operations that never end in an error -/

/-- An instruction ends in `Err` only where its specification allows it. -/
theorem exec_err_allowed {i : Instr} {c : Cfg} {M : EnvMove → Prop} {E F : Prop} {P : State → Prop} {s t : State} {e : Err}
    (u : Updates i c M E F P) (hs : P s) (hflight : P (s.setInFlight true)) (hn : exec i s = .next t)
    (he : t.result = some (.err e)) : E := by
  rw [exec_eq_body] at hn
  split at hn
  · split at hn
    · cases hn
    · obtain ⟨v, -, x, rfl, hx⟩ := finish_next (exec_spec u hs) hn
      exact hx ⟨e, Option.some.inj he⟩
  · obtain ⟨v, -, x, rfl, hx⟩ := runConfig_next (exec_spec u hflight) hn
    exact hx ⟨e, Option.some.inj he⟩

/-- With only the configuration to keep, an instruction may fault anywhere, but errs only if R304 does not list it. -/
theorem updates_cfg (i : Instr) (c : Cfg) :
    Updates i c (fun _ => True) (neverErrs i = false) True fun s => s.cfg = c where
  toOpInv := (busInv_cfg c).opInv
  take := fun _ _ h => takeInterrupt_spec (busInv_cfg c) h
  ctx := fun _ _ => .inl trivial
  err := id
  dom := fun _ _ => .inl trivial
  attrs := fun _ _ => .inl trivial
  generator := fun _ => ⟨true, fun _ _ => .inl trivial⟩
  choice := fun _ _ h => h
  test := fun _ _ _ _ _ h => h
  dphy := fun _ _ _ h => h
  format := fun _ _ _ _ h => h
  lanes := fun _ _ _ _ _ _ h => h
  laneRate := fun _ _ _ _ _ h => h
  tpgMode := fun _ _ _ _ _ h => h
  bypass := fun _ _ _ _ h => h
  clocks := fun _ _ _ h => h
  powerOn := fun _ _ h => h
  powerLost := fun _ _ h => h

/-- Settles O12: an error would put the operation off R304's list. -/
theorem listedOperationsNeverEndInErr : Obligations.ListedOperationsNeverEndInErr := by
  unfold Obligations.ListedOperationsNeverEndInErr
  intro i s t hlisted hn e he
  have hunlisted : neverErrs i = false := exec_err_allowed (updates_cfg i s.cfg) rfl rfl hn he
  rw [hlisted] at hunlisted
  cases hunlisted

/-! ## What rules out a stop -/

/-- The domain speaks of the configuration and the attributes alone. -/
theorem inDomain_congr {s s' : State} (hc : s'.cfg = s.cfg) (hi : s'.inst = s.inst) (i : Instr) :
    InDomain s' i = InDomain s i := by
  cases i <;> simp only [InDomain, InitInputs, TimingInputs, hc, hi]

/-- What keeps instruction `i` from stopping, from access to access: open windows, a lawful schedule, attributes in range, the
preconditions of `i`, and, where `i` programs a format, the test-pattern generator still in state `g`. -/
structure Unstoppable (i : Instr) (c : Cfg) (g : Bool) (s : State) : Prop where
  cfg : s.cfg = c
  powered : Powered s
  lawful : LawfulEnv s
  attrs : AttrsInRange s.inst
  dom : InDomain s i
  generator : setsFormat i → s.inst.tpgEnabled = g

section
variable {i : Instr} {c : Cfg} {g : Bool} {s s' : State} (h : Unstoppable i c g s)
include h

theorem Unstoppable.congr (hc : s'.cfg = s.cfg) (hi : s'.inst = s.inst) (hk : s'.clk = s.clk)
    (he : ∀ moves ∈ s'.env, moves ∈ s.env) : Unstoppable i c g s' where
  cfg := hc.trans h.cfg
  powered := h.powered.congr hi hk
  lawful := fun moves hm => h.lawful moves (he moves hm)
  attrs := hi ▸ h.attrs
  dom := (inDomain_congr hc hi i).mpr h.dom
  generator := hi ▸ h.generator

theorem Unstoppable.of_kept (hk : Kept s s') (he : s'.env = s.env) : Unstoppable i c g s' :=
  h.congr hk.cfg hk.inst hk.clk fun _ hm => he ▸ hm

theorem Unstoppable.setFormat (hf : setsFormat i) (vc : Nat) (dt : BitVec 6) :
    Unstoppable i c g (s.setInst { s.inst with tpgVc := vc, tpgDt := dt.toNat }) where
  cfg := h.cfg
  powered := h.powered
  lawful := h.lawful
  attrs := { h.attrs with tpgDt := dt.isLt }
  dom := by
    have hdom := h.dom
    rcases setsFormat_cases hf with ⟨_, _, _, _, _, _, rfl⟩ | ⟨_, _, _, _, rfl⟩ <;> exact hdom
  generator := h.generator

/-- An instruction without preconditions that programs no format may set any attribute that stays in range and moves no
window. -/
theorem Unstoppable.setInst {v : Instance} (hdom : ∀ s, InDomain s i) (hf : ¬ setsFormat i) (hattrs : AttrsInRange v)
    (hp : v.baseP = s.inst.baseP) (hx : v.baseX = s.inst.baseX) (hw : v.baseW = s.inst.baseW) :
    Unstoppable i c g (s.setInst v) where
  cfg := h.cfg
  powered := by
    unfold Powered
    rw [State.setInst_inst, hp, hx, hw]
    exact h.powered
  lawful := h.lawful
  attrs := hattrs
  dom := hdom _
  generator := fun hs => absurd hs hf

end

/-- Among lawful agents no access stops the instruction, and none takes away what rules a stop out. -/
theorem busInv_unstoppable (i : Instr) (c : Cfg) (g : Bool) :
    BusInv c (· ≠ .secondOp) False (Unstoppable i c g) where
  cfg := fun _ h => h.cfg
  access := fun _ l h => .inr (h.powered.access l)
  second := .inr fun h => h rfl
  moves := fun _ _ _ he h _ hm e => h.lawful _ (he ▸ List.mem_cons_self ..) (e ▸ hm)
  env := fun _ _ _ he h => h.congr rfl rfl rfl fun _ hm => he ▸ List.mem_cons_of_mem _ hm
  agent := fun s m _ h => h.of_kept (agentMove_kept m s) (agentMove_env m s)
  log := fun _ _ h => h.congr rfl rfl rfl fun _ => id
  read := fun s l _ h => h.of_kept ((Kept.refl s).afterRead l) (afterRead_env s l)
  write := fun s l v _ h => h.of_kept ((Kept.refl s).afterWrite l v) (afterWrite_env s l v)
  phase := fun _ _ _ _ h => h.congr rfl rfl rfl fun _ => id
  emit := fun _ _ h => h.congr rfl rfl rfl fun _ => id
  ctx := fun _ _ h => h.congr rfl rfl rfl fun _ => id

/-! ## The instructions -/

/-- An instruction that leaves the clocks alone has no way to a fault. -/
theorem updates_unstoppable (i : Instr) (c : Cfg) (g : Bool) (hclk : ¬ (i = .pwrResume ∨ i = .pwrSuspend)) :
    Updates i c (· ≠ .secondOp) True False fun s => Unstoppable i c g s ∧ s.ctx = .config where
  toOpInv := (busInv_unstoppable i c g).opInvCtx .config
  take := fun s _ h => (takeInterrupt_spec (busInv_unstoppable i c g) h.1).and
    (((takeInterrupt_ctx s).mono fun _ hu => hu.trans h.2).weaken False.elim id)
  ctx := fun _ h => .inr h.2
  err := fun _ => trivial
  dom := fun _ h => .inr h.1.dom
  attrs := fun _ h => .inr ⟨h.1.attrs.id, h.1.attrs.lanes⟩
  generator := fun hf => ⟨g, fun _ h => .inr (h.1.generator hf)⟩
  choice := fun _ _ h => ⟨h.1.congr rfl rfl rfl fun _ => id, h.2⟩
  test := fun _ _ _ _ _ h => ⟨h.1.congr rfl rfl rfl fun _ => id, h.2⟩
  dphy := fun _ _ _ h => ⟨h.1.congr rfl rfl rfl fun _ => id, h.2⟩
  format := fun hf _ vc dt h => ⟨h.1.setFormat hf vc dt, h.2⟩
  lanes := by
    rintro a n rfl h1 h4 s h
    exact ⟨h.1.setInst (fun _ => trivial) id { h.1.attrs with lanes := fun _ e => Option.some.inj e ▸ ⟨h1, h4⟩ }
      rfl rfl rfl, h.2⟩
  laneRate := by
    rintro a r rfl hr s h
    exact ⟨h.1.setInst (fun _ => trivial) id { h.1.attrs with laneRate := fun _ e => Option.some.inj e ▸ hr }
      rfl rfl rfl, h.2⟩
  tpgMode := by
    rintro a e p rfl s h
    exact ⟨h.1.setInst (fun _ => trivial) id { h.1.attrs with } rfl rfl rfl, h.2⟩
  bypass := by
    rintro a b rfl s h
    exact ⟨h.1.setInst (fun _ => trivial) id { h.1.attrs with } rfl rfl rfl, h.2⟩
  clocks := fun hp => absurd hp hclk
  powerOn := fun hp => absurd (.inl hp) hclk
  powerLost := fun hp => absurd (.inr hp) hclk

/-- The power hooks access no register, so they need no open window (46_commands.md R283, R284). -/
theorem powerHook_noFault {i : Instr} (hclk : i = .pwrResume ∨ i = .pwrSuspend) (s : State) :
    (bodyOf i s).Spec (fun _ => True) True False := by
  rcases hclk with rfl | rfl
  · exact (pwrResume_spec (fun _ _ _ => trivial) (fun _ _ => trivial) trivial trivial).okUnit
  · exact (pwrSuspend_spec (fun _ _ _ => trivial) (fun _ _ => trivial) trivial).okUnit

/-- Settles O13: a power hook cannot fault at all, any other instruction keeps `Unstoppable` and so never faults. -/
theorem noErrorAndNoFaultStopsTheBlock : Obligations.NoErrorAndNoFaultStopsTheBlock := by
  unfold Obligations.NoErrorAndNoFaultStopsTheBlock
  intro i s hgood hp hlawful hdom
  obtain ⟨hidle, hctx⟩ := hgood.idle
  have hs : Unstoppable i s.cfg s.inst.tpgEnabled s := ⟨rfl, hp, hlawful, hgood.intact.attrs, hdom, fun _ => rfl⟩
  rw [exec_eq_body]
  by_cases hclk : i = .pwrResume ∨ i = .pwrSuspend
  · rw [if_neg (by rcases hclk with rfl | rfl <;> simp)]
    exact runConfig_runs hidle (powerHook_noFault hclk _)
  · have hspec := updates_unstoppable i s.cfg s.inst.tpgEnabled hclk
    split
    · rw [if_neg (by simp [hctx])]
      exact finish_runs (exec_spec hspec ⟨hs, hctx⟩)
    · exact runConfig_runs hidle (exec_spec hspec ⟨hs.congr rfl rfl rfl fun _ => id, hctx⟩)

end Sys2Proof.Machine
end

section
/-! SUPPORT. The handler between the read and the write of a soft-reset update (O59; 60_exceptions.md R308, R317,
70_reset_and_hazards.md R344): the handler runs whole before the write (`handlerState`), and the write then stores what the read
returned before it (`releasePutBack`). -/

namespace Sys2Proof.Machine

/-! ## The interrupt before an access -/

/-- An interrupt, as the only move before an access of the configuration context, is the whole handler (R308). -/
theorem configTick_irq {s : State} {later : List (List EnvMove)} (h : s.env = [.irq] :: later) (hctx : s.ctx = .config) :
    configTick s = takeInterrupt (s.setEnv later) := by
  have hhandler : configMove .irq (s.setEnv later) = takeInterrupt (s.setEnv later) := if_neg (by simp [hctx])
  simp only [configTick, h, forEach_cons, forEach_nil, hhandler]
  cases takeInterrupt (s.setEnv later) <;> rfl

/-- The state the undisturbed handler leaves. -/
def handlerState (s : State) : State :=
  leaveInterrupt s.ctx (notifyDone (mainStatus s.cfg s.p) (turnsState s Config.numCat))

theorem takeInterrupt_handlerState {s : State} (ho : Open s) : takeInterrupt s = .ok () (handlerState s) :=
  takeInterrupt_open ho

/-- IRQ_HANDLE completes with that state. -/
theorem irqHandled_eq (s : State) : irqHandled s = completeOk .unit (handlerState s) := rfl

theorem handlerState_events (s : State) : (handlerState s).events = (irqHandled s).events := by
  rw [irqHandled_eq, completeOk, State.setResult_events]

theorem handlerState_phase (s : State) (k : Nat) : phaseOf (handlerState s) k = phaseOf (irqHandled s) k := by
  simp only [irqHandled_eq, phaseOf, completeOk, State.setResult_ch]

theorem open_completeOk (v : Value) (s : State) : Open (completeOk v s) ↔ Open s := Iff.rfl

section
variable {s : State} (hc : LegalCfg s.cfg)
include hc

theorem open_handlerState (ho : Open s) : Open (handlerState s) := by
  rw [← open_completeOk .unit, ← irqHandled_eq, irqHandled_rest hc]
  exact ho

/-- The handler notifies each category it visits (R247 step 9). -/
theorem faultEvent_mem_handlerState {j : Nat} (hj : j < Config.numCat) (hv : visited s j = true) :
    faultEvent s j ∈ (handlerState s).events := by
  rw [handlerState_events, irqHandled_events hc]
  exact List.mem_append_left _ (List.mem_append_right _
    (List.mem_map_of_mem (List.mem_filter.mpr ⟨List.mem_range.mpr hj, hv⟩)))

/-- The handler recovers the channel of a category it finds overflowing (R247 step 8). -/
theorem handlerState_recovered {k j : Nat} (hk : k < s.cfg.numInst - 1) (hcat : s.cfg.ipiFatalCat[k]? = some j)
    (hv : visited s j = true) (ho : overflowing s j = true) :
    phaseOf (handlerState s) k = if phaseOf s k = .enabled then .configured else phaseOf s k := by
  rw [handlerState_phase, irqHandled_phase]
  exact ((handled_turns hc (Nat.le_refl _)).flushed k ((recoveredBelow_all hc k).mpr ⟨hk, j, hcat, hv, ho⟩)).2

end

/-- A pending unmasked overflow bit has its category visited and its channel recovered. -/
theorem visited_and_overflowing {s : State} {j : Nat} (hcat : j ∈ s.cfg.ipiFatalCat)
    (hbit : (s.p.get (.intSt j) &&& s.p.get (.intMsk j) &&& (catEntry s.cfg j).ebits).getLsbD s.cfg.ipiOvfBit = true) :
    visited s j = true ∧ overflowing s j = true := by
  simp only [BitVec.getLsbD_and, Bool.and_eq_true] at hbit
  obtain ⟨⟨hst, hmsk⟩, hdefined⟩ := hbit
  have hpending : (pendingStatus s j).getLsbD s.cfg.ipiOvfBit = true := by simp [pendingStatus, hst, hdefined]
  refine ⟨decide_eq_true fun hzero => ?_, by simp [overflowing, hcat, hpending]⟩
  have hnone := congrArg (·.getLsbD s.cfg.ipiOvfBit) hzero
  simp [hpending, hmsk] at hnone

/-! ## The update -/

section
variable (s : State)

/-- The state in which the handler starts: the update has read IPI_SOFTRSTN, and nothing more is scheduled. -/
def interruptedState : State := (readState (s.setInFlight true) (.p .ipiSoftrstn)).setEnv []

theorem interruptedState_cfg : (interruptedState s).cfg = s.cfg := by simp [interruptedState]

theorem interruptedState_p : (interruptedState s).p = s.p := by simp [interruptedState, bankAfterRead]

theorem interruptedState_phase (k : Nat) : phaseOf (interruptedState s) k = phaseOf s k := by
  simp [phaseOf, interruptedState]

/-- The state after the update: the handler's, with IPI_SOFTRSTN as read before it and the channel's own bit set. -/
def releasePutBack (ch : Nat) : State :=
  wroteState (handlerState (interruptedState s)) (.p .ipiSoftrstn)
    (setField s.p.ipiSoftrstn (fieldPos s.cfg (.softrstn ch)) 1)

/-- The state after the operation: the second update, of the enable bit, is undisturbed (R210). -/
def resetAndDownPutBack (ch : Nat) : State :=
  setPhase ch .enabled (updState (releasePutBack s ch) (.p (.enable ch)) 1)

end

section
variable {s : State} (hctx : s.ctx = .config) (hp : Powered s)
include hp

theorem open_interruptedState : Open (interruptedState s) :=
  ⟨rfl, hp.congr (by simp [interruptedState]) (by simp [interruptedState])⟩

include hctx

/-- The write of the update finds the state the handler leaves. -/
theorem upd_softrstn_interrupted (ch : Nat) :
    upd (.p (.softrstn ch)) 1 ((s.setEnv [[], [.irq]]).setInFlight true) = .ok () (releasePutBack s ch) := by
  have hread : configTick ((s.setEnv [[], [.irq]]).setInFlight true) = .ok () ((s.setEnv [[.irq]]).setInFlight true) :=
    configTick_silent rfl
  have hirq : configTick (readState ((s.setEnv [[.irq]]).setInFlight true) (.p .ipiSoftrstn))
      = takeInterrupt (interruptedState s) :=
    configTick_irq (readState_env ..) (by simpa using hctx)
  exact upd_after_moves (s := (s.setEnv [[], [.irq]]).setInFlight true) (f := .p (.softrstn ch)) hp hread rfl hp
    (hirq.trans (takeInterrupt_handlerState (open_interruptedState hp))) 1

theorem ipiResetAndDown_interrupted (hc : LegalCfg s.cfg) {ch : Nat} (hch : PixelChannel s ch) :
    ipiResetAndDown ch true ((s.setEnv [[], [.irq]]).setInFlight true) = .ok () (resetAndDownPutBack s ch) := by
  have hexists : ch < ((s.setEnv [[], [.irq]]).setInFlight true).cfg.numInst - 1 := hch
  have hopen : Open (releasePutBack s ch) := by
    rw [releasePutBack, open_wroteState]
    exact open_handlerState (by rwa [interruptedState_cfg]) (open_interruptedState hp)
  rw [ipiResetAndDown, withChannel_ok hexists, if_pos rfl, upd_softrstn_interrupted hctx hp, Res.andThen_ok,
    upd_open hopen, Res.andThen_ok]
  rfl

end

/-! ## The operation -/

/-- What the operation leaves in the end. -/
def interruptedDone (s : State) (ch : Nat) : State := completeOk .unit ((resetAndDownPutBack s ch).setInFlight false)

theorem exec_ipiResetAndDown_interrupted {s : State} {ch : Nat} (hgood : Good s) (hp : Powered s) (hch : PixelChannel s ch) :
    exec (.ipiResetAndDown ch true) (s.setEnv [[], [.irq]]) = .next (interruptedDone s ch) := by
  have hexec : exec (.ipiResetAndDown ch true) (s.setEnv [[], [.irq]])
      = runConfig (fun u => okUnit (ipiResetAndDown ch true u)) (s.setEnv [[], [.irq]]) := rfl
  rw [hexec, runConfig_idle (s := s.setEnv [[], [.irq]]) hgood.idle.1,
    ipiResetAndDown_interrupted hgood.idle.2 hp hgood.legal hch, okUnit_ok, Res.mapState_ok, finish_ok, interruptedDone]

section
variable (s : State) (ch : Nat)

theorem interruptedDone_result : (interruptedDone s ch).result = some (.ok .unit) := State.setResult_result ..

/-- The handler's release of the other channels is gone. -/
theorem interruptedDone_softrstn : (interruptedDone s ch).p.ipiSoftrstn
    = setField s.p.ipiSoftrstn (fieldPos s.cfg (.softrstn ch)) 1 := by
  have hother : (updState (releasePutBack s ch) (.p (.enable ch)) 1).p.get .ipiSoftrstn
      = (releasePutBack s ch).p.get .ipiSoftrstn := by
    simp [PField.reg]
  exact hother

theorem interruptedDone_events : (interruptedDone s ch).events = (handlerState (interruptedState s)).events := by
  simp [interruptedDone, completeOk, resetAndDownPutBack, setPhase, releasePutBack]

theorem interruptedDone_phase {k : Nat} (hk : k ≠ ch) :
    phaseOf (interruptedDone s ch) k = phaseOf (handlerState (interruptedState s)) k := by
  have hthis : phaseOf (interruptedDone s ch) k = phaseOf (resetAndDownPutBack s ch) k := by
    simp only [phaseOf, interruptedDone, completeOk, State.setResult_ch, State.setInFlight_ch]
  rw [hthis, resetAndDownPutBack, phaseOf_setPhase, if_neg hk, phaseOf, updState_ch, releasePutBack, wroteState_ch, phaseOf]

end

/-- Settles O59: the handler ran whole, on the state at the read, before the write put back what that read had returned. -/
theorem handlerBetweenReadAndWriteIsUndone : Obligations.HandlerBetweenReadAndWriteIsUndone := by
  unfold Obligations.HandlerBetweenReadAndWriteIsUndone
  intro s ch k j hgood hp hch hk hcat hbit
  have hc : LegalCfg (interruptedState s).cfg := by rw [interruptedState_cfg]; exact hgood.legal
  have hfatal : j ∈ s.cfg.ipiFatalCat := List.mem_of_getElem? hcat
  obtain ⟨-, -, hbelow⟩ := hgood.legal.fatalCats
  obtain ⟨hv, ho⟩ : visited (interruptedState s) j = true ∧ overflowing (interruptedState s) j = true := by
    refine visited_and_overflowing hfatal ?_
    rwa [interruptedState_p, interruptedState_cfg]
  refine ⟨interruptedDone s ch, exec_ipiResetAndDown_interrupted hgood hp hch, interruptedDone_result s ch,
    interruptedDone_softrstn s ch, ?notified, fun hne => ?recovered⟩
  case notified =>
    have hnotified := faultEvent_mem_handlerState hc (hbelow j hfatal) hv
    rw [← interruptedDone_events s ch, faultEvent, ho] at hnotified
    exact ⟨_, _, hnotified⟩
  case recovered =>
    have hrecovered := handlerState_recovered hc (by rwa [interruptedState_cfg]) (by rwa [interruptedState_cfg]) hv ho
    rwa [interruptedState_phase, ← interruptedDone_phase s ch hne] at hrecovered

end Sys2Proof.Machine
end
